-- ==== Sys2Proof/Word.lean ====
section
/-! DEFINITION. The words of the machine: bytes, halfwords, words and double words as bit vectors, and the 4-bit
register number of an instruction field (10_state.md rules R30, R33; 20_memory.md rule R82). -/

namespace Sys2Proof

/-- A byte, 8 bits. -/
abbrev Byte := BitVec 8
/-- A halfword, 16 bits. -/
abbrev Half := BitVec 16
/-- A word, 32 bits: a register, an address. -/
abbrev Word := BitVec 32
/-- A double word, 64 bits: a register pair. -/
abbrev DWord := BitVec 64
/-- The number of one of the sixteen general or special registers, a 4-bit field of an instruction. Adding 1 to it
wraps from 15 to 0, as register pairs do (00_scope.md rule R9). -/
abbrev RegNo := BitVec 4

end Sys2Proof
end

