-- ==== Sys2Proof/Machine/Bits.lean ====
section
/-! DEFINITION. Byte order and the manual's bit numbering: bit 0 is the most significant bit of a value
(00_scope.md rule R8); the field `v{i..j}` of an N-bit value is
`v.extractLsb' (N - 1 - j) (j - i + 1)`. The byte at the lowest address is the most significant one
(20_memory.md rule R80). -/

namespace Sys2Proof

/-- `v{i}` of 00_scope.md rule R8: bit i counted from the most significant. -/
abbrev mbit {n : Nat} (v : BitVec n) (i : Nat) : Bool := v.getMsbD i

/-- The halfword of two bytes, the first at the lower address (20_memory.md rule R80). -/
def halfOfBytes (b0 b1 : Byte) : Half := b0 ++ b1

/-- The word of four bytes, the first at the lowest address (20_memory.md rule R80). -/
def wordOfBytes (b0 b1 b2 b3 : Byte) : Word := b0 ++ b1 ++ b2 ++ b3

/-- The bytes of a halfword in ascending address order. -/
def bytesOfHalf (v : Half) : List Byte := [v.extractLsb' 8 8, v.extractLsb' 0 8]

/-- The bytes of a word in ascending address order. -/
def bytesOfWord (v : Word) : List Byte :=
  [v.extractLsb' 24 8, v.extractLsb' 16 8, v.extractLsb' 8 8, v.extractLsb' 0 8]

/-- A word with the manual's bit i equal to `b` and the other bits 0. -/
def wordBit (i : Nat) (b : Bool) : Word := if b then 1#32 <<< (31 - i) else 0

/-- A field of at most 32 bits as the word that trap entry writes, `zext_32`. -/
abbrev zext {n : Nat} (v : BitVec n) : Word := v.setWidth 32

end Sys2Proof
end

