-- ==== Sys2Proof/Machine/Sparse.lean ====
section
/-! DEFINITION. Sparse tables: lists of keys and values with strictly rising keys, the form in which State holds memory,
the TMT, the lines of the cache and the prefetch buffers. Equal tables are equal lists. -/

namespace Sys2Proof.Machine

/-- The value at a key, none where the key is not listed. -/
def sparseGet {α : Type} : List (Nat × α) → Nat → Option α
  | [], _ => none
  | (k, v) :: t, a => if a = k then some v else if a < k then none else sparseGet t a

/-- The table with one key set. -/
def sparseSet {α : Type} : List (Nat × α) → Nat → α → List (Nat × α)
  | [], a, v => [(a, v)]
  | (k, w) :: t, a, v =>
    if a = k then (a, v) :: t else if a < k then (a, v) :: (k, w) :: t else (k, w) :: sparseSet t a v

/-- The table with the keys from `a` on set, in ascending order. -/
def sparseSetFrom {α : Type} : List (Nat × α) → Nat → List α → List (Nat × α)
  | l, _, [] => l
  | l, a, v :: vs => sparseSetFrom (sparseSet l a v) (a + 1) vs

/-- The table without one key. -/
def sparseErase {α : Type} : List (Nat × α) → Nat → List (Nat × α)
  | [], _ => []
  | (k, w) :: t, a => if a = k then t else if a < k then (k, w) :: t else (k, w) :: sparseErase t a

/-- The canonical form: keys strictly rising. -/
abbrev SparseWf {α : Type} (l : List (Nat × α)) : Prop := l.Pairwise fun p q => p.1 < q.1

/-- The canonical form of memory (log 8): addresses strictly rising. An unlisted byte reads as a free value, which is no
listed value, so no entry is redundant. -/
abbrev Memory.wf (m : List (Nat × Byte)) : Prop := SparseWf m

end Sys2Proof.Machine
end

