-- ==== Sys2Proof/Syntax.lean ====
section
/-! DEFINITION. The instructions of the Ridge 3200: the opcode names of 30_encoding.md rule R151 and one
constructor of `Instr` for each of the 184 rows of spec/opcode_table.json. Every constructor carries every field of its
encoding, the unused ones too, because trap entry copies the fields of the instruction into SR2 and SR3
(30_encoding.md rule R154). Formats and encodings are in `Decode`. -/

namespace Sys2Proof

/-- The three instruction formats (30_encoding.md rules R142, R143, R144). -/
inductive Format where
  | register
  | short
  | long
deriving DecidableEq, Repr

/-- The two address spaces a memory reference can name (10_state.md rule R57). -/
inductive Space where
  | code
  | data
deriving DecidableEq, Repr

/-- The 174 opcode names of 30_encoding.md rule R151, in the order of spec/opcode_table.json. The number of an opcode
is a parameter of the machine (rule R150) and stands in `Config.OpcodeMap`. -/
inductive Opcode where
  | moverr | neg | not | add | sub | mpy | div | rem | and | or | xor | nop | eadd | esub | empy | ediv | fixt | fixr
  | float | makerd | makedr | radd | rsub | rmpy | rdiv | rneg | rcomp | dfixt | dfixr | dfloat | dradd | drsub
  | drmpy | drdiv | drneg | drcomp | cbit | sbit | tbit | lcomp | dcomp | csl | lsl | lsr | asl | asr | dlsl | dlsr
  | seb | seh | callr | ret | chk | sus | lus | ldregs | rum | movesr | movers | maint | trans | dirt | read | write
  | testGt | testEq | testLt | testLe | testGe | testNe | moveri | noti | addi | subi | andi | mpyi | csli | lsli
  | lsri | asli | asri | dlsli | dlsri | chki | trap | testiGt | testiEq | testiLt | testiLe | testiGe | testiNe
  | kcall | load | loadl | loadx | loadlx | loadp | loadpl | loadpx | loadplx | loadh | loadhl | loadhx | loadhlx
  | loadhp | loadhpl | loadhpx | loadhplx | loadb | loadbl | loadbx | loadblx | loadbp | loadbpl | loadbpx | loadbplx
  | loadd | loaddl | loaddx | loaddlx | loaddp | loaddpl | loaddpx | loaddplx | store | storel | storex | storelx
  | storeh | storehl | storehx | storehlx | storeb | storebl | storebx | storeblx | stored | storedl | storedx
  | storedlx | laddr | laddrx | laddrl | laddrlx | laddrp | laddrpx | laddrpl | laddrplx | br | brl | brGt | brGtL
  | brEq | brEqL | brLe | brLeL | brNe | brNeL | briGt | briGtL | briLt | briLtL | briEq | briEqL | briLe | briLeL
  | briGe | briGeL | briNe | briNeL | call | calll | loop | loopl
deriving DecidableEq, Repr

/-- The instructions: `x` is the Rx field (bits 8..11), `y` the Ry field (bits 12..15), `disp` the displacement
(30_encoding.md rules R142 to R148). `maint` is a MAINT opcode whose subop no row of rule R159 names. -/
inductive Instr where
  /-- MOVE Rx, Ry (R230). -/
  | moverr (x y : RegNo)
  /-- NEG Rx, Ry (R223). -/
  | neg (x y : RegNo)
  /-- NOT Rx, Ry (R231). -/
  | not (x y : RegNo)
  /-- ADD Rx, Ry (R220). -/
  | add (x y : RegNo)
  /-- SUB Rx, Ry (R225). -/
  | sub (x y : RegNo)
  /-- MPY Rx, Ry (R222). -/
  | mpy (x y : RegNo)
  /-- DIV Rx, Ry (R221). -/
  | div (x y : RegNo)
  /-- REM Rx, Ry (R224). -/
  | rem (x y : RegNo)
  /-- AND Rx, Ry (R229). -/
  | and (x y : RegNo)
  /-- OR Rx, Ry (R232). -/
  | or (x y : RegNo)
  /-- XOR Rx, Ry (R233). -/
  | xor (x y : RegNo)
  /-- NOP (R234). -/
  | nop (x y : RegNo)
  /-- EADD Rx, Ry (R250). -/
  | eadd (x y : RegNo)
  /-- ESUB Rx, Ry (R253). -/
  | esub (x y : RegNo)
  /-- EMPY Rx, Ry (R252). -/
  | empy (x y : RegNo)
  /-- EDIV Rx, Ry (R251). -/
  | ediv (x y : RegNo)
  /-- FIXT Rx, Ry (R291). -/
  | fixt (x y : RegNo)
  /-- FIXR Rx, Ry (R290). -/
  | fixr (x y : RegNo)
  /-- FLOAT Rx, Ry (R292). -/
  | float (x y : RegNo)
  /-- MAKERD Rx, Ry (R293). -/
  | makerd (x y : RegNo)
  /-- MAKEDR Rx, Ry (R308). -/
  | makedr (x y : RegNo)
  /-- RADD Rx, Ry (R294). -/
  | radd (x y : RegNo)
  /-- RSUB Rx, Ry (R298). -/
  | rsub (x y : RegNo)
  /-- RMPY Rx, Ry (R296). -/
  | rmpy (x y : RegNo)
  /-- RDIV Rx, Ry (R295). -/
  | rdiv (x y : RegNo)
  /-- RNEG Rx, Ry (R297). -/
  | rneg (x y : RegNo)
  /-- RCOMP Rx, Ry (R342). -/
  | rcomp (x y : RegNo)
  /-- DFIXT Rx, Ry (R301). -/
  | dfixt (x y : RegNo)
  /-- DFIXR Rx, Ry (R300). -/
  | dfixr (x y : RegNo)
  /-- DFLOAT Rx, Ry (R302). -/
  | dfloat (x y : RegNo)
  /-- DRADD Rx, Ry (R303). -/
  | dradd (x y : RegNo)
  /-- DRSUB Rx, Ry (R307). -/
  | drsub (x y : RegNo)
  /-- DRMPY Rx, Ry (R305). -/
  | drmpy (x y : RegNo)
  /-- DRDIV Rx, Ry (R304). -/
  | drdiv (x y : RegNo)
  /-- DRNEG Rx, Ry (R306). -/
  | drneg (x y : RegNo)
  /-- DRCOMP Rx, Ry (R343). -/
  | drcomp (x y : RegNo)
  /-- CBIT Rx, Ry (R330). -/
  | cbit (x y : RegNo)
  /-- SBIT Rx, Ry (R331). -/
  | sbit (x y : RegNo)
  /-- TBIT Rx, Ry (R332). -/
  | tbit (x y : RegNo)
  /-- LCOMP Rx, Ry (R340). -/
  | lcomp (x y : RegNo)
  /-- DCOMP Rx, Ry (R341). -/
  | dcomp (x y : RegNo)
  /-- CSL Rx, Ry (R350). -/
  | csl (x y : RegNo)
  /-- LSL Rx, Ry (R351). -/
  | lsl (x y : RegNo)
  /-- LSR Rx, Ry (R352). -/
  | lsr (x y : RegNo)
  /-- ASL Rx, Ry (R353). -/
  | asl (x y : RegNo)
  /-- ASR Rx, Ry (R354). -/
  | asr (x y : RegNo)
  /-- DLSL Rx, Ry (R355). -/
  | dlsl (x y : RegNo)
  /-- DLSR Rx, Ry (R356). -/
  | dlsr (x y : RegNo)
  /-- SEB Rx, Ry (R360). -/
  | seb (x y : RegNo)
  /-- SEH Rx, Ry (R361). -/
  | seh (x y : RegNo)
  /-- CALLR Rx, Ry (R397). -/
  | callr (x y : RegNo)
  /-- RET Rx, Ry (R398). -/
  | ret (x y : RegNo)
  /-- CHK Rx, Ry (R400). -/
  | chk (x y : RegNo)
  /-- SUS Rx, Ry (R431). -/
  | sus (x y : RegNo)
  /-- LUS Rx, Ry (R432). -/
  | lus (x y : RegNo)
  /-- LDREGS Rx, Ry (R433). -/
  | ldregs (x y : RegNo)
  /-- RUM (R434). -/
  | rum (x y : RegNo)
  /-- MOVE SRx, Ry (R435). -/
  | movesr (x y : RegNo)
  /-- MOVE Rx, SRy (R436). -/
  | movers (x y : RegNo)
  /-- (see the ten subop rows) (R440). -/
  | maint (x sub : BitVec 4)
  /-- TRANS Rx, Ry (R460). -/
  | trans (x y : RegNo)
  /-- DIRT Rx, Ry (R461). -/
  | dirt (x y : RegNo)
  /-- READ Rx, Ry (R470). -/
  | read (x y : RegNo)
  /-- WRITE Rx, Ry (R471). -/
  | write (x y : RegNo)
  /-- TEST Rx > Ry (R335). -/
  | testGt (x y : RegNo)
  /-- TEST Rx = Ry (R335). -/
  | testEq (x y : RegNo)
  /-- TEST Rx < Ry (R335). -/
  | testLt (x y : RegNo)
  /-- TEST Rx <= Ry (R335). -/
  | testLe (x y : RegNo)
  /-- TEST Rx >= Ry (R335). -/
  | testGe (x y : RegNo)
  /-- TEST Rx <> Ry (R335). -/
  | testNe (x y : RegNo)
  /-- MOVE Rx, val (R240). -/
  | moveri (x y : RegNo)
  /-- NOT Rx, val (R241). -/
  | noti (x y : RegNo)
  /-- ADD Rx, val (R242). -/
  | addi (x y : RegNo)
  /-- SUB Rx, val (R243). -/
  | subi (x y : RegNo)
  /-- AND Rx, val (R244). -/
  | andi (x y : RegNo)
  /-- MPY Rx, val (R245). -/
  | mpyi (x y : RegNo)
  /-- CSL Rx, val (R350). -/
  | csli (x y : RegNo)
  /-- LSL Rx, val (R351). -/
  | lsli (x y : RegNo)
  /-- LSR Rx, val (R352). -/
  | lsri (x y : RegNo)
  /-- ASL Rx, val (R353). -/
  | asli (x y : RegNo)
  /-- ASR Rx, val (R354). -/
  | asri (x y : RegNo)
  /-- DLSL Rx, val (R355). -/
  | dlsli (x y : RegNo)
  /-- DLSR Rx, val (R356). -/
  | dlsri (x y : RegNo)
  /-- CHKI Rx, val (R401). -/
  | chki (x y : RegNo)
  /-- TRAP val (R402). -/
  | trap (x y : RegNo)
  /-- TEST Rx > val (R335). -/
  | testiGt (x y : RegNo)
  /-- TEST Rx = val (R335). -/
  | testiEq (x y : RegNo)
  /-- TEST Rx < val (R335). -/
  | testiLt (x y : RegNo)
  /-- TEST Rx <= val (R335). -/
  | testiLe (x y : RegNo)
  /-- TEST Rx >= val (R335). -/
  | testiGe (x y : RegNo)
  /-- TEST Rx <> val (R335). -/
  | testiNe (x y : RegNo)
  /-- KCALL num (R403). -/
  | kcall (num : BitVec 8)
  /-- LOAD Rx, disp (R186). -/
  | load (x y : RegNo) (disp : BitVec 16)
  /-- LOAD Rx, disp, L (R186). -/
  | loadl (x y : RegNo) (disp : BitVec 32)
  /-- LOAD Rx, Ry+disp (R186). -/
  | loadx (x y : RegNo) (disp : BitVec 16)
  /-- LOAD Rx, Ry+disp, L (R186). -/
  | loadlx (x y : RegNo) (disp : BitVec 32)
  /-- LOADP Rx, disp (R186). -/
  | loadp (x y : RegNo) (disp : BitVec 16)
  /-- LOADP Rx, disp, L (R186). -/
  | loadpl (x y : RegNo) (disp : BitVec 32)
  /-- LOADP Rx, Ry+disp (R186). -/
  | loadpx (x y : RegNo) (disp : BitVec 16)
  /-- LOADP Rx, Ry+disp, L (R186). -/
  | loadplx (x y : RegNo) (disp : BitVec 32)
  /-- LOADH Rx, disp (R185). -/
  | loadh (x y : RegNo) (disp : BitVec 16)
  /-- LOADH Rx, disp, L (R185). -/
  | loadhl (x y : RegNo) (disp : BitVec 32)
  /-- LOADH Rx, Ry+disp (R185). -/
  | loadhx (x y : RegNo) (disp : BitVec 16)
  /-- LOADH Rx, Ry+disp, L (R185). -/
  | loadhlx (x y : RegNo) (disp : BitVec 32)
  /-- LOADHP Rx, disp (R185). -/
  | loadhp (x y : RegNo) (disp : BitVec 16)
  /-- LOADHP Rx, disp, L (R185). -/
  | loadhpl (x y : RegNo) (disp : BitVec 32)
  /-- LOADHP Rx, Ry+disp (R185). -/
  | loadhpx (x y : RegNo) (disp : BitVec 16)
  /-- LOADHP Rx, Ry+disp, L (R185). -/
  | loadhplx (x y : RegNo) (disp : BitVec 32)
  /-- LOADB Rx, disp (R184). -/
  | loadb (x y : RegNo) (disp : BitVec 16)
  /-- LOADB Rx, disp, L (R184). -/
  | loadbl (x y : RegNo) (disp : BitVec 32)
  /-- LOADB Rx, Ry+disp (R184). -/
  | loadbx (x y : RegNo) (disp : BitVec 16)
  /-- LOADB Rx, Ry+disp, L (R184). -/
  | loadblx (x y : RegNo) (disp : BitVec 32)
  /-- LOADBP Rx, disp (R184). -/
  | loadbp (x y : RegNo) (disp : BitVec 16)
  /-- LOADBP Rx, disp, L (R184). -/
  | loadbpl (x y : RegNo) (disp : BitVec 32)
  /-- LOADBP Rx, Ry+disp (R184). -/
  | loadbpx (x y : RegNo) (disp : BitVec 16)
  /-- LOADBP Rx, Ry+disp, L (R184). -/
  | loadbplx (x y : RegNo) (disp : BitVec 32)
  /-- LOADD Rx, disp (R187). -/
  | loadd (x y : RegNo) (disp : BitVec 16)
  /-- LOADD Rx, disp, L (R187). -/
  | loaddl (x y : RegNo) (disp : BitVec 32)
  /-- LOADD Rx, Ry+disp (R187). -/
  | loaddx (x y : RegNo) (disp : BitVec 16)
  /-- LOADD Rx, Ry+disp, L (R187). -/
  | loaddlx (x y : RegNo) (disp : BitVec 32)
  /-- LOADDP Rx, disp (R187). -/
  | loaddp (x y : RegNo) (disp : BitVec 16)
  /-- LOADDP Rx, disp, L (R187). -/
  | loaddpl (x y : RegNo) (disp : BitVec 32)
  /-- LOADDP Rx, Ry+disp (R187). -/
  | loaddpx (x y : RegNo) (disp : BitVec 16)
  /-- LOADDP Rx, Ry+disp, L (R187). -/
  | loaddplx (x y : RegNo) (disp : BitVec 32)
  /-- STORE Rx, disp (R192). -/
  | store (x y : RegNo) (disp : BitVec 16)
  /-- STORE Rx, disp, L (R192). -/
  | storel (x y : RegNo) (disp : BitVec 32)
  /-- STORE Rx, Ry+disp (R192). -/
  | storex (x y : RegNo) (disp : BitVec 16)
  /-- STORE Rx, Ry+disp, L (R192). -/
  | storelx (x y : RegNo) (disp : BitVec 32)
  /-- STOREH Rx, disp (R191). -/
  | storeh (x y : RegNo) (disp : BitVec 16)
  /-- STOREH Rx, disp, L (R191). -/
  | storehl (x y : RegNo) (disp : BitVec 32)
  /-- STOREH Rx, Ry+disp (R191). -/
  | storehx (x y : RegNo) (disp : BitVec 16)
  /-- STOREH Rx, Ry+disp, L (R191). -/
  | storehlx (x y : RegNo) (disp : BitVec 32)
  /-- STOREB Rx, disp (R190). -/
  | storeb (x y : RegNo) (disp : BitVec 16)
  /-- STOREB Rx, disp, L (R190). -/
  | storebl (x y : RegNo) (disp : BitVec 32)
  /-- STOREB Rx, Ry+disp (R190). -/
  | storebx (x y : RegNo) (disp : BitVec 16)
  /-- STOREB Rx, Ry+disp, L (R190). -/
  | storeblx (x y : RegNo) (disp : BitVec 32)
  /-- STORED Rx, disp (R193). -/
  | stored (x y : RegNo) (disp : BitVec 16)
  /-- STORED Rx, disp, L (R193). -/
  | storedl (x y : RegNo) (disp : BitVec 32)
  /-- STORED Rx, Ry+disp (R193). -/
  | storedx (x y : RegNo) (disp : BitVec 16)
  /-- STORED Rx, Ry+disp, L (R193). -/
  | storedlx (x y : RegNo) (disp : BitVec 32)
  /-- LADDR Rx, disp (R195). -/
  | laddr (x y : RegNo) (disp : BitVec 16)
  /-- LADDR Rx, Ry, disp (R195). -/
  | laddrx (x y : RegNo) (disp : BitVec 16)
  /-- LADDR Rx, disp, L (R195). -/
  | laddrl (x y : RegNo) (disp : BitVec 32)
  /-- LADDR Rx, Ry, disp, L (R195). -/
  | laddrlx (x y : RegNo) (disp : BitVec 32)
  /-- LADDR Rx, disp (R195). -/
  | laddrp (x y : RegNo) (disp : BitVec 16)
  /-- LADDR Rx, Ry, disp (R195). -/
  | laddrpx (x y : RegNo) (disp : BitVec 16)
  /-- LADDR Rx, disp, L (R195). -/
  | laddrpl (x y : RegNo) (disp : BitVec 32)
  /-- LADDR Rx, Ry, disp, L (R195). -/
  | laddrplx (x y : RegNo) (disp : BitVec 32)
  /-- BR disp (R392). -/
  | br (x y : RegNo) (disp : BitVec 16)
  /-- BR disp, L (R392). -/
  | brl (x y : RegNo) (disp : BitVec 32)
  /-- BR Rx > Ry, disp (R393). -/
  | brGt (x y : RegNo) (disp : BitVec 16)
  /-- BR Rx > Ry, disp, L (R393). -/
  | brGtL (x y : RegNo) (disp : BitVec 32)
  /-- BR Rx = Ry, disp (R393). -/
  | brEq (x y : RegNo) (disp : BitVec 16)
  /-- BR Rx = Ry, disp, L (R393). -/
  | brEqL (x y : RegNo) (disp : BitVec 32)
  /-- BR Rx <= Ry, disp (R393). -/
  | brLe (x y : RegNo) (disp : BitVec 16)
  /-- BR Rx <= Ry, disp, L (R393). -/
  | brLeL (x y : RegNo) (disp : BitVec 32)
  /-- BR Rx <> Ry, disp (R393). -/
  | brNe (x y : RegNo) (disp : BitVec 16)
  /-- BR Rx <> Ry, disp, L (R393). -/
  | brNeL (x y : RegNo) (disp : BitVec 32)
  /-- BR Rx > val, disp (R394). -/
  | briGt (x y : RegNo) (disp : BitVec 16)
  /-- BR Rx > val, disp, L (R394). -/
  | briGtL (x y : RegNo) (disp : BitVec 32)
  /-- BR Rx < val, disp (R394). -/
  | briLt (x y : RegNo) (disp : BitVec 16)
  /-- BR Rx < val, disp, L (R394). -/
  | briLtL (x y : RegNo) (disp : BitVec 32)
  /-- BR Rx = val, disp (R394). -/
  | briEq (x y : RegNo) (disp : BitVec 16)
  /-- BR Rx = val, disp, L (R394). -/
  | briEqL (x y : RegNo) (disp : BitVec 32)
  /-- BR Rx <= val, disp (R394). -/
  | briLe (x y : RegNo) (disp : BitVec 16)
  /-- BR Rx <= val, disp, L (R394). -/
  | briLeL (x y : RegNo) (disp : BitVec 32)
  /-- BR Rx >= val, disp (R394). -/
  | briGe (x y : RegNo) (disp : BitVec 16)
  /-- BR Rx >= val, disp, L (R394). -/
  | briGeL (x y : RegNo) (disp : BitVec 32)
  /-- BR Rx <> val, disp (R394). -/
  | briNe (x y : RegNo) (disp : BitVec 16)
  /-- BR Rx <> val, disp, L (R394). -/
  | briNeL (x y : RegNo) (disp : BitVec 32)
  /-- CALL Rx, disp (R396). -/
  | call (x y : RegNo) (disp : BitVec 16)
  /-- CALL Rx, disp, L (R396). -/
  | calll (x y : RegNo) (disp : BitVec 32)
  /-- LOOP Rx, val, disp (R395). -/
  | loop (x y : RegNo) (disp : BitVec 16)
  /-- LOOP Rx, val, disp, L (R395). -/
  | loopl (x y : RegNo) (disp : BitVec 32)
  /-- ELOGR Rx (R449). -/
  | elogr (x : RegNo)
  /-- ELOGW Rx (R450). -/
  | elogw (x : RegNo)
  /-- TWRITED Rx (R451). -/
  | twrited (x : RegNo)
  /-- FLUSH (R452). -/
  | flush (x : RegNo)
  /-- TRAPEXIT (R453). -/
  | trapexit (x : RegNo)
  /-- ITEST Rx (R454). -/
  | itest (x : RegNo)
  /-- MACHINEID (R455). -/
  | machineid (x : RegNo)
  /-- VERSION Rx (R456). -/
  | version (x : RegNo)
  /-- CREG Rx (R457). -/
  | creg (x : RegNo)
  /-- RDLOG Rx (R458). -/
  | rdlog (x : RegNo)
deriving DecidableEq, Repr

/-- Every opcode name, in the order of spec/opcode_table.json; `Opcode.all[o.ctorIdx]` is `o`. -/
def Opcode.all : List Opcode :=
  [.moverr, .neg, .not, .add, .sub, .mpy, .div, .rem, .and, .or, .xor, .nop, .eadd, .esub, .empy, .ediv, .fixt,
   .fixr, .float, .makerd, .makedr, .radd, .rsub, .rmpy, .rdiv, .rneg, .rcomp, .dfixt, .dfixr, .dfloat, .dradd,
   .drsub, .drmpy, .drdiv, .drneg, .drcomp, .cbit, .sbit, .tbit, .lcomp, .dcomp, .csl, .lsl, .lsr, .asl, .asr,
   .dlsl, .dlsr, .seb, .seh, .callr, .ret, .chk, .sus, .lus, .ldregs, .rum, .movesr, .movers, .maint, .trans,
   .dirt, .read, .write, .testGt, .testEq, .testLt, .testLe, .testGe, .testNe, .moveri, .noti, .addi, .subi, .andi,
   .mpyi, .csli, .lsli, .lsri, .asli, .asri, .dlsli, .dlsri, .chki, .trap, .testiGt, .testiEq, .testiLt, .testiLe,
   .testiGe, .testiNe, .kcall, .load, .loadl, .loadx, .loadlx, .loadp, .loadpl, .loadpx, .loadplx, .loadh, .loadhl,
   .loadhx, .loadhlx, .loadhp, .loadhpl, .loadhpx, .loadhplx, .loadb, .loadbl, .loadbx, .loadblx, .loadbp,
   .loadbpl, .loadbpx, .loadbplx, .loadd, .loaddl, .loaddx, .loaddlx, .loaddp, .loaddpl, .loaddpx, .loaddplx,
   .store, .storel, .storex, .storelx, .storeh, .storehl, .storehx, .storehlx, .storeb, .storebl, .storebx,
   .storeblx, .stored, .storedl, .storedx, .storedlx, .laddr, .laddrx, .laddrl, .laddrlx, .laddrp, .laddrpx,
   .laddrpl, .laddrplx, .br, .brl, .brGt, .brGtL, .brEq, .brEqL, .brLe, .brLeL, .brNe, .brNeL, .briGt, .briGtL,
   .briLt, .briLtL, .briEq, .briEqL, .briLe, .briLeL, .briGe, .briGeL, .briNe, .briNeL, .call, .calll, .loop,
   .loopl]

/-- The format of an opcode (the table's "format"; 30_encoding.md rules R142 to R144, R151). -/
def Opcode.format : Opcode → Format
  | .moverr => .register
  | .neg => .register
  | .not => .register
  | .add => .register
  | .sub => .register
  | .mpy => .register
  | .div => .register
  | .rem => .register
  | .and => .register
  | .or => .register
  | .xor => .register
  | .nop => .register
  | .eadd => .register
  | .esub => .register
  | .empy => .register
  | .ediv => .register
  | .fixt => .register
  | .fixr => .register
  | .float => .register
  | .makerd => .register
  | .makedr => .register
  | .radd => .register
  | .rsub => .register
  | .rmpy => .register
  | .rdiv => .register
  | .rneg => .register
  | .rcomp => .register
  | .dfixt => .register
  | .dfixr => .register
  | .dfloat => .register
  | .dradd => .register
  | .drsub => .register
  | .drmpy => .register
  | .drdiv => .register
  | .drneg => .register
  | .drcomp => .register
  | .cbit => .register
  | .sbit => .register
  | .tbit => .register
  | .lcomp => .register
  | .dcomp => .register
  | .csl => .register
  | .lsl => .register
  | .lsr => .register
  | .asl => .register
  | .asr => .register
  | .dlsl => .register
  | .dlsr => .register
  | .seb => .register
  | .seh => .register
  | .callr => .register
  | .ret => .register
  | .chk => .register
  | .sus => .register
  | .lus => .register
  | .ldregs => .register
  | .rum => .register
  | .movesr => .register
  | .movers => .register
  | .maint => .register
  | .trans => .register
  | .dirt => .register
  | .read => .register
  | .write => .register
  | .testGt => .register
  | .testEq => .register
  | .testLt => .register
  | .testLe => .register
  | .testGe => .register
  | .testNe => .register
  | .moveri => .register
  | .noti => .register
  | .addi => .register
  | .subi => .register
  | .andi => .register
  | .mpyi => .register
  | .csli => .register
  | .lsli => .register
  | .lsri => .register
  | .asli => .register
  | .asri => .register
  | .dlsli => .register
  | .dlsri => .register
  | .chki => .register
  | .trap => .register
  | .testiGt => .register
  | .testiEq => .register
  | .testiLt => .register
  | .testiLe => .register
  | .testiGe => .register
  | .testiNe => .register
  | .kcall => .register
  | .load => .short
  | .loadl => .long
  | .loadx => .short
  | .loadlx => .long
  | .loadp => .short
  | .loadpl => .long
  | .loadpx => .short
  | .loadplx => .long
  | .loadh => .short
  | .loadhl => .long
  | .loadhx => .short
  | .loadhlx => .long
  | .loadhp => .short
  | .loadhpl => .long
  | .loadhpx => .short
  | .loadhplx => .long
  | .loadb => .short
  | .loadbl => .long
  | .loadbx => .short
  | .loadblx => .long
  | .loadbp => .short
  | .loadbpl => .long
  | .loadbpx => .short
  | .loadbplx => .long
  | .loadd => .short
  | .loaddl => .long
  | .loaddx => .short
  | .loaddlx => .long
  | .loaddp => .short
  | .loaddpl => .long
  | .loaddpx => .short
  | .loaddplx => .long
  | .store => .short
  | .storel => .long
  | .storex => .short
  | .storelx => .long
  | .storeh => .short
  | .storehl => .long
  | .storehx => .short
  | .storehlx => .long
  | .storeb => .short
  | .storebl => .long
  | .storebx => .short
  | .storeblx => .long
  | .stored => .short
  | .storedl => .long
  | .storedx => .short
  | .storedlx => .long
  | .laddr => .short
  | .laddrx => .short
  | .laddrl => .long
  | .laddrlx => .long
  | .laddrp => .short
  | .laddrpx => .short
  | .laddrpl => .long
  | .laddrplx => .long
  | .br => .short
  | .brl => .long
  | .brGt => .short
  | .brGtL => .long
  | .brEq => .short
  | .brEqL => .long
  | .brLe => .short
  | .brLeL => .long
  | .brNe => .short
  | .brNeL => .long
  | .briGt => .short
  | .briGtL => .long
  | .briLt => .short
  | .briLtL => .long
  | .briEq => .short
  | .briEqL => .long
  | .briLe => .short
  | .briLeL => .long
  | .briGe => .short
  | .briGeL => .long
  | .briNe => .short
  | .briNeL => .long
  | .call => .short
  | .calll => .long
  | .loop => .short
  | .loopl => .long

/-- For a load, store or load address, the space it names and whether it is indexed (the table's "space" and
"indexed"; 30_encoding.md rule R145); `none` for every other opcode. -/
def Opcode.reference : Opcode → Option (Space × Bool)
  | .moverr => none
  | .neg => none
  | .not => none
  | .add => none
  | .sub => none
  | .mpy => none
  | .div => none
  | .rem => none
  | .and => none
  | .or => none
  | .xor => none
  | .nop => none
  | .eadd => none
  | .esub => none
  | .empy => none
  | .ediv => none
  | .fixt => none
  | .fixr => none
  | .float => none
  | .makerd => none
  | .makedr => none
  | .radd => none
  | .rsub => none
  | .rmpy => none
  | .rdiv => none
  | .rneg => none
  | .rcomp => none
  | .dfixt => none
  | .dfixr => none
  | .dfloat => none
  | .dradd => none
  | .drsub => none
  | .drmpy => none
  | .drdiv => none
  | .drneg => none
  | .drcomp => none
  | .cbit => none
  | .sbit => none
  | .tbit => none
  | .lcomp => none
  | .dcomp => none
  | .csl => none
  | .lsl => none
  | .lsr => none
  | .asl => none
  | .asr => none
  | .dlsl => none
  | .dlsr => none
  | .seb => none
  | .seh => none
  | .callr => none
  | .ret => none
  | .chk => none
  | .sus => none
  | .lus => none
  | .ldregs => none
  | .rum => none
  | .movesr => none
  | .movers => none
  | .maint => none
  | .trans => none
  | .dirt => none
  | .read => none
  | .write => none
  | .testGt => none
  | .testEq => none
  | .testLt => none
  | .testLe => none
  | .testGe => none
  | .testNe => none
  | .moveri => none
  | .noti => none
  | .addi => none
  | .subi => none
  | .andi => none
  | .mpyi => none
  | .csli => none
  | .lsli => none
  | .lsri => none
  | .asli => none
  | .asri => none
  | .dlsli => none
  | .dlsri => none
  | .chki => none
  | .trap => none
  | .testiGt => none
  | .testiEq => none
  | .testiLt => none
  | .testiLe => none
  | .testiGe => none
  | .testiNe => none
  | .kcall => none
  | .load => some (.data, false)
  | .loadl => some (.data, false)
  | .loadx => some (.data, true)
  | .loadlx => some (.data, true)
  | .loadp => some (.code, false)
  | .loadpl => some (.code, false)
  | .loadpx => some (.code, true)
  | .loadplx => some (.code, true)
  | .loadh => some (.data, false)
  | .loadhl => some (.data, false)
  | .loadhx => some (.data, true)
  | .loadhlx => some (.data, true)
  | .loadhp => some (.code, false)
  | .loadhpl => some (.code, false)
  | .loadhpx => some (.code, true)
  | .loadhplx => some (.code, true)
  | .loadb => some (.data, false)
  | .loadbl => some (.data, false)
  | .loadbx => some (.data, true)
  | .loadblx => some (.data, true)
  | .loadbp => some (.code, false)
  | .loadbpl => some (.code, false)
  | .loadbpx => some (.code, true)
  | .loadbplx => some (.code, true)
  | .loadd => some (.data, false)
  | .loaddl => some (.data, false)
  | .loaddx => some (.data, true)
  | .loaddlx => some (.data, true)
  | .loaddp => some (.code, false)
  | .loaddpl => some (.code, false)
  | .loaddpx => some (.code, true)
  | .loaddplx => some (.code, true)
  | .store => some (.data, false)
  | .storel => some (.data, false)
  | .storex => some (.data, true)
  | .storelx => some (.data, true)
  | .storeh => some (.data, false)
  | .storehl => some (.data, false)
  | .storehx => some (.data, true)
  | .storehlx => some (.data, true)
  | .storeb => some (.data, false)
  | .storebl => some (.data, false)
  | .storebx => some (.data, true)
  | .storeblx => some (.data, true)
  | .stored => some (.data, false)
  | .storedl => some (.data, false)
  | .storedx => some (.data, true)
  | .storedlx => some (.data, true)
  | .laddr => some (.data, false)
  | .laddrx => some (.data, true)
  | .laddrl => some (.data, false)
  | .laddrlx => some (.data, true)
  | .laddrp => some (.code, false)
  | .laddrpx => some (.code, true)
  | .laddrpl => some (.code, false)
  | .laddrplx => some (.code, true)
  | .br => none
  | .brl => none
  | .brGt => none
  | .brGtL => none
  | .brEq => none
  | .brEqL => none
  | .brLe => none
  | .brLeL => none
  | .brNe => none
  | .brNeL => none
  | .briGt => none
  | .briGtL => none
  | .briLt => none
  | .briLtL => none
  | .briEq => none
  | .briEqL => none
  | .briLe => none
  | .briLeL => none
  | .briGe => none
  | .briGeL => none
  | .briNe => none
  | .briNeL => none
  | .call => none
  | .calll => none
  | .loop => none
  | .loopl => none

end Sys2Proof
end

