-- ==== Sys2Proof/Config.lean ====
section
/-! DEFINITION. The parameters of a machine (00_scope.md rule R7) and the free values. A parameter is plain data that
State carries in its field `cfg` and no step changes: a statement about every state is a statement about every value of
every parameter. A free value is an opaque constant: nothing can be proved of it. -/

namespace Sys2Proof.Config

/-- The opcode assignment `OPC` (30_encoding.md rule R150): the number of the opcode `Opcode.all[i]` is the i-th byte.
The source lost the opcode map, so the numbers are a parameter (92_eei_decisions.md D2). -/
abbrev OpcodeMap := List Byte

/-- The number of an opcode; a list too short to name it gives 0 (no legal map is too short). -/
def OpcodeMap.code (m : OpcodeMap) (o : Opcode) : Byte := m.getD o.ctorIdx 0

/-- The first name whose number is `b`, reading names and numbers side by side. -/
def OpcodeMap.lookupIn : List Opcode → List Byte → Byte → Option Opcode
  | o :: os, c :: cs, b => if c = b then some o else lookupIn os cs b
  | _, _, _ => none

/-- The instruction a first byte selects, none for an undefined opcode (30_encoding.md rule R152). -/
def OpcodeMap.lookup (m : OpcodeMap) (b : Byte) : Option Opcode := OpcodeMap.lookupIn Opcode.all m b

/-- What 30_encoding.md rules R145 and R150 ask of the number `b` of the opcode `o`: bit 0 tells register from memory
format, bit 3 the displacement size, and for loads, stores and load address bits 1 and 2 (equal for code, different for
data) and bit 7 tell the space and the index. -/
def Opcode.fits (o : Opcode) (b : Byte) : Bool :=
  (match o.format with
    | .register => !b.getMsbD 0
    | .short => b.getMsbD 0 && !b.getMsbD 3
    | .long => b.getMsbD 0 && b.getMsbD 3) &&
  (match o.reference with
    | none => true
    | some (sp, ix) => (b.getMsbD 7 == ix) && ((b.getMsbD 1 == b.getMsbD 2) == (sp == .code)))

/-- A legal opcode assignment: a number for every name, no number twice, and the structure bits of rule R145. -/
def OpcodeMap.legal (m : OpcodeMap) : Bool :=
  m.length == Opcode.all.length && decide m.Nodup && Opcode.all.all fun o => Opcode.fits o (m.code o)

/-- The opcode numbers of `Params.default`: the register format counted from 01 in the order of the table, the memory
format by the structure bits of rule R145. DESIGN CHOICE (log 2): these are no numbers of Ridge hardware. -/
def defaultOpcodes : OpcodeMap :=
  [0x01, 0x02, 0x03, 0x04, 0x05, 0x06, 0x07, 0x08, 0x09, 0x0A, 0x0B, 0x0C, 0x0D, 0x0E, 0x0F, 0x10, 0x11, 0x12,
   0x13, 0x14, 0x15, 0x16, 0x17, 0x18, 0x19, 0x1A, 0x1B, 0x1C, 0x1D] ++
  [0x1E, 0x1F, 0x20, 0x21, 0x22, 0x23, 0x24, 0x25, 0x26, 0x27, 0x28, 0x29, 0x2A, 0x2B, 0x2C, 0x2D, 0x2E, 0x2F,
   0x30, 0x31, 0x32, 0x33, 0x34, 0x35, 0x36, 0x37, 0x38, 0x39, 0x3A] ++
  [0x3B, 0x3C, 0x3D, 0x3E, 0x3F, 0x40, 0x41, 0x42, 0x43, 0x44, 0x45, 0x46, 0x47, 0x48, 0x49, 0x4A, 0x4B, 0x4C,
   0x4D, 0x4E, 0x4F, 0x50, 0x51, 0x52, 0x53, 0x54, 0x55, 0x56, 0x57] ++
  [0x58, 0x59, 0x5A, 0x5B, 0x5C, 0xA4, 0xB4, 0xA5, 0xB5, 0x84, 0x94, 0x85, 0x95, 0xA2, 0xB2, 0xA3, 0xB3, 0x82,
   0x92, 0x83, 0x93, 0xA0, 0xB0, 0xA1, 0xB1, 0x80, 0x90, 0x81, 0x91] ++
  [0xA6, 0xB6, 0xA7, 0xB7, 0x86, 0x96, 0x87, 0x97, 0xAC, 0xBC, 0xAD, 0xBD, 0xAA, 0xBA, 0xAB, 0xBB, 0xA8, 0xB8,
   0xA9, 0xB9, 0xAE, 0xBE, 0xAF, 0xBF, 0xC0, 0xC1, 0xD0, 0xD1, 0x88] ++
  [0x89, 0x98, 0x99, 0xE0, 0xF0, 0xE1, 0xF1, 0xE2, 0xF2, 0xE3, 0xF3, 0xE4, 0xF4, 0xE5, 0xF5, 0xE6, 0xF6, 0xE7,
   0xF7, 0xE8, 0xF8, 0xE9, 0xF9, 0xEA, 0xFA, 0xEB, 0xFB, 0xEC, 0xFC]

/-- `DIV_ROUND` (92_eei_decisions.md D10): the quotient toward minus infinity or toward zero. -/
inductive DivRound where
  | floor
  | trunc
deriving DecidableEq, Repr

/-- `EDIV_OVF_BITS` (92_eei_decisions.md D13): EDIV overflows at a quotient of 2^32 or of 2^31. -/
inductive EdivOverflow where
  | bits32
  | bits31
deriving DecidableEq, Repr

/-- The threshold of `EDIV_OVF_BITS`. -/
def EdivOverflow.limit : EdivOverflow → Nat
  | .bits32 => 2 ^ 32
  | .bits31 => 2 ^ 31

/-- `ZERO_SIGN` (42_real.md rule R286). -/
inductive ZeroSign where
  | ieee
  | positive
deriving DecidableEq, Repr

/-- The four rounding modes of the traps word (42_real.md rule R274). -/
inductive RoundMode where
  | nearest
  | plusInfinity
  | minusInfinity
  | zero
deriving DecidableEq, Repr

/-- `FP.fixr_mode` (92_eei_decisions.md D23): FIXR and DFIXR round in the current mode or always in one mode. -/
inductive FixrMode where
  | current
  | always (m : RoundMode)
deriving DecidableEq, Repr

/-- `FP.Round` (42_real.md rule R276): the exact result rounded once, or another rounding, which is a free function (the
source does not count the guard bits of the hardware; 93_implementation_defined.md U21). -/
inductive FpRound where
  | exact
  | other (k : Nat)
deriving DecidableEq, Repr

/-- `PCB_LAYOUT` (10_state.md rule R58; 92_eei_decisions.md D16, D17): byte offsets from SR14. Register i is at
`regs + 4 * i`. The process clock at 50 hex is sourced and is no parameter. -/
structure PcbLayout where
  regs : Word
  pc : Word
  seg : Word
  traps : Word
  /-- the code segment number is the high half of the segment word -/
  codeHigh : Bool
deriving DecidableEq, Repr

/-- The parameters of 00_scope.md rule R7. -/
structure Params where
  opc : OpcodeMap
  /-- `MEMSIZE` in bytes -/
  memSize : Word
  machineId : Word
  ucodeVersion : Word
  divRound : DivRound
  edivOverflow : EdivOverflow
  pcb : PcbLayout
  /-- `IOSTAT_N_BIT`, a bit number in the manual's numbering -/
  ioNBit : BitVec 5
  fpRound : FpRound
  fixrMode : FixrMode
  zeroSign : ZeroSign
deriving DecidableEq, Repr

/-- The default layout of 10_state.md rule R58. -/
def PcbLayout.default : PcbLayout := { regs := 0x00, pc := 0x40, seg := 0x44, traps := 0x48, codeHigh := true }

/-- The default parameters: those of the table at the end of 92_eei_decisions.md, with 4 Mbytes of memory (the size of
95_test_vectors.md), MACHINE_ID with bits 28 and 30 set (45_kernel.md rule R455) and microcode version 0.
DESIGN CHOICE (logs 2, 9 to 17). -/
def Params.default : Params :=
  { opc := defaultOpcodes, memSize := 0x00400000, machineId := 0x0000000A, ucodeVersion := 0, divRound := .floor,
    edivOverflow := .bits32, pcb := .default, ioNBit := 31, fpRound := .exact, fixrMode := .current, zeroSign := .ieee }

/-- What a free value is drawn for: two different uses in one step draw independently. -/
inductive Use where
  /-- the open bits of the traps word in effect (10_state.md rule R52) -/
  | traps
  /-- bits 0..15 and 31 of ELOGR's result (45_kernel.md rule R449) -/
  | status
  /-- an entry of the error log after ELOGW (45_kernel.md rule R450) -/
  | logEntry (k : Nat)
  /-- the count of valid entries after ELOGW (45_kernel.md rule R450) -/
  | logCount
  /-- a word of a DMA read with a double-bit error, by the length of the bus log (60_exceptions.md rule R543) -/
  | dmaWord (k : Nat)
  /-- the data word of a READ that delivers none (45_kernel.md rule R470) -/
  | ioData
  /-- whether a board whose answer is not given is ready (45_kernel.md rule R469) -/
  | ioReady
  /-- bits 0..29 of CREG's result (45_kernel.md rule R457) -/
  | clockBits
  /-- whether a TRAP that does not trap writes SR3 (93_implementation_defined.md U11) -/
  | trapSr3
  /-- Mask 1 after a TWRITED field of 10 or 11 (93_implementation_defined.md U14) -/
  | mask1
  /-- Mask 2 after a TWRITED field of 10 or 11 (93_implementation_defined.md U14) -/
  | mask2
  /-- a general register loaded from a word with a double-bit error (60_exceptions.md rule R522) -/
  | parityLoad (r : RegNo)
  /-- a special register loaded from such a word -/
  | paritySr (n : RegNo)
  /-- the program counter loaded from such a word -/
  | parityPc
  /-- general register k after the reset button (70_reset_and_hazards.md rule R580) -/
  | resetReg (k : Nat)
  /-- special register k after the reset button -/
  | resetSr (k : Nat)
  /-- the traps word in effect after the reset button -/
  | resetTraps
  /-- Mask 1 and Mask 2 (bits 0 and 1) and the clock board output register (bits 2 and 3) after the reset button -/
  | resetBits
deriving DecidableEq, Repr

/-- A free word: the value of the n-th step for one use. Nothing is known of it. -/
opaque freeWord : Nat → Use → Word

/-- Which line of a full or half full set gives way to a quadword loaded into the cache: by step, half of the cache and
quadword address. The replacement is not stated (20_memory.md rule R125; log 32). -/
opaque freeVictim (n : Nat) (code : Bool) (quad : Nat) : Nat

/-- What a half of the cache does with a word that DMA writes: by step, half, real address and word. It is not stated
whether the cache observes DMA (20_memory.md rule R121; log 31). -/
opaque freeSnoop (n : Nat) (code : Bool) (a : Nat) (w : Word) : Nat

/-- The words that the prefetch buffers hold after the n-th step's instruction fetch (20_memory.md rule R126; log 32):
the uses take four of them inside installed memory. -/
opaque readAhead : Nat → List Nat

/-- The byte at a real address that nothing has written since the power-up or reset numbered by the first argument
(10_state.md rule R70; 92_eei_decisions.md D24). -/
opaque unwrittenByte : Nat → Nat → Byte

/-- What rounding k other than the default gives for the exact value `(-1)^neg * num / den * 2^exp` at a precision in a
mode: a significand, and the exponent against the default's (42_real.md rule R276). The uses bring both into range
(`otherRounded` of `Machine.Float`). -/
opaque otherRound (k precision : Nat) (m : RoundMode) (neg : Bool) (num den : Nat) (exp : Int) : Nat × Nat

/-- The TMT entries after the n-th reset (10_state.md rule R70), in no particular form. -/
opaque resetTmt : Nat → List (Nat × Word)

/-- The quadwords in a half of the cache after the n-th reset (10_state.md rule R70), by address and with their four
words, in no particular form. -/
opaque resetLines (n : Nat) (code : Bool) : List (Nat × Word × Word × Word × Word)

end Sys2Proof.Config
end

