-- ==== Sys2Proof/Machine/State.lean ====
section
/-! DEFINITION. The state of the machine as plain data, the reasons a step can stop, and the state after reset
(10_state.md; INVENTORY.md lists every field with its rule and its reset value). -/

namespace Sys2Proof.Machine

/-- Why a run ends with a fault: the behaviour the spec places outside the specification. Every one is safe: the model
stops where the hardware goes on in a way the source does not describe, so no false claim about a next state follows. -/
inductive Fault where
  /-- Raised by a transfer of control to an odd address (10_state.md rule R36). Safe. -/
  | oddPc
  /-- Raised when an instruction or the sequential flow crosses address FFFF FFFF (10_state.md rule R36). Safe. -/
  | pcWrap
  /-- Raised by a real access at or above MEMSIZE, the processor's or a DMA transfer's (20_memory.md rule R87), and by
  a control structure whose base or word is there (93_implementation_defined.md U13). Safe. -/
  | noMemory
  /-- Raised by a microcode access to the CCB, the PCB or the VRT whose base, SR11, SR14 or SR12, or whose word is not
  word aligned (93_implementation_defined.md U13). Safe. -/
  | badStructure
  /-- Raised by EADD and ESUB with Rx = R0, which the spec puts outside the specification (41_integer_logical.md rules
  R250, R253; 92_eei_decisions.md D27). Safe. -/
  | extendedIntoR0
  /-- Raised when the power fails completely: the run ends (60_exceptions.md rules R527, R551). Safe. -/
  | powerLost
deriving DecidableEq, Repr

/-- Why the processor makes no further progress until the reset button (60_exceptions.md rules R509, R529). -/
inductive Stuck where
  /-- an event when SR11 is odd: no CCB is present (60_exceptions.md rule R509) -/
  | noCcb
  /-- a VRT search along a chain that never ends (20_memory.md rule R104) -/
  | vrtChainEndless
  /-- a matching VRT entry with V = 0: the access misses for ever (20_memory.md rule R111) -/
  | vrtEntryInvalid
deriving DecidableEq, Repr

/-- Why the model refuses. -/
inductive Refusal where
  /-- An instruction without a meaning in the model. No arm of `exec` answers with it. Safe. -/
  | notModelled (mnemonic : String)
deriving DecidableEq, Repr

/-- The two modes (60_exceptions.md rule R500). -/
inductive Mode where
  | kernel
  | user
deriving DecidableEq, Repr

/-- Real memory: the listed bytes, addresses strictly rising. An unlisted address has no listed value; what it reads as
is the free byte of its address and epoch (`Config.unwrittenByte`, log 8). -/
abbrev Memory := List Host.Cell

/-- A line of the cache: a quadword, 4 words or 16 bytes in address order, and its tag, the physical address above the
bits that select the line (20_memory.md rule R125). -/
structure Line where
  tag : Nat
  bytes : Vector Byte 16
deriving DecidableEq, Repr

/-- One half of the cache: by line number 0..255, the valid lines of the two data tables, at most two, the latest loaded
first. A line number without valid lines is not listed. The two halves are lines 0..255 and 256..511 of the data tables,
16 kbytes in all (00_scope.md rule R6; 20_memory.md rule R125). -/
abbrev Lines := List (Nat × List Line)

/-- The prefetch buffers: at most four words of code, by real word address (20_memory.md rule R126; 10_state.md rule
R68). -/
abbrev Buffers := List (Nat × Word)

/-- A double-bit parity error that has occurred (60_exceptions.md rules R513, R519). -/
inductive ParityError where
  | fetch (a : Word)
  | execute (a : Word)
deriving DecidableEq, Repr

/-- What a board answers to one READ or WRITE: whether it asserts IODNVM, and the data word of a READ
(60_exceptions.md rules R541, R542). -/
structure Answer where
  notReady : Bool
  data : Word
deriving DecidableEq, Repr

/-- A DMA transfer of an I/O board (60_exceptions.md rule R543). DMA addresses are word addresses. -/
inductive Dma where
  /-- a read of one or four words; bit k of `errors` says that the memory controller finds a double-bit error in word
  k (20_memory.md rule R89) -/
  | read (wordAddress : BitVec 30) (burst : Bool) (errors : BitVec 4)
  /-- a write of one word -/
  | write (wordAddress : BitVec 30) (w : Word)
  /-- a write of four words in ascending address order (93_implementation_defined.md U28) -/
  | writeBurst (wordAddress : BitVec 30) (w0 w1 w2 w3 : Word)
deriving DecidableEq, Repr

/-- What one word of a DMA transfer does (60_exceptions.md rule R543). -/
inductive DmaOp where
  /-- a word read from main memory; `error` says that the memory controller finds a double-bit error in it -/
  | read (error : Bool)
  /-- a word written -/
  | write (w : Word)
deriving DecidableEq, Repr

/-- One word of a DMA transfer: its real byte address and what is done. -/
structure DmaCycle where
  address : Nat
  op : DmaOp
deriving DecidableEq, Repr

/-- What happens on the DMA side of the I/O bus (60_exceptions.md rules R543, R544). A transfer of four words is four
events besides the grant, so that accesses of the processor may fall among its words. -/
inductive DmaEvent where
  /-- a board asserts IOMREQ for a transfer -/
  | request (device : Byte) (d : Dma)
  /-- the memory controller asserts ACKIOM: the requesting board of the highest priority has the bus -/
  | grant
  /-- the next word of the transfer of the board that has the bus is moved -/
  | word
deriving DecidableEq, Repr

/-- An I/O board (60_exceptions.md rules R540 to R544): its daisy chain (2 is the real-time chain), its device number,
whether it requests an interrupt, bits 8..31 of its IOIR word, the answers it will give, and the DMA transfers for which
it requests the bus, the next first. A chain has at most 8 boards (`State.Inv`). -/
structure Board where
  chain2 : Bool
  device : Byte
  requesting : Bool
  info : BitVec 24
  answers : List Answer
  transfers : List Dma
deriving DecidableEq, Repr

/-- What has gone out on the I/O bus (60_exceptions.md rules R526, R541 to R543). -/
inductive BusOp where
  /-- the address word of a READ -/
  | ioRead (iora : Word)
  /-- the address and data words of a WRITE that a board has taken -/
  | ioWrite (iowa iowd : Word)
  /-- the address word of a WRITE that no board has taken -/
  | ioWriteRefused (iowa : Word)
  /-- ACKIOI to a device -/
  | ackIoi (device : Byte)
  /-- a word that a DMA read delivered, from a real address, and whether MDNVIO was asserted: a double-bit error was found
  (60_exceptions.md rules R540, R543) -/
  | dmaRead (a : Nat) (w : Word) (notValid : Bool)
deriving DecidableEq, Repr

/-- The clock board's output register (10_state.md rule R66). -/
structure ClockOut where
  request : Bool
  dataOut : Bool
deriving DecidableEq, Repr

/-- The clock board's input register (10_state.md rule R66). -/
structure ClockIn where
  acknowledge : Bool
  dataIn : Bool
deriving DecidableEq, Repr

/-- A register other than a general one that something loads from a word of memory, in kernel mode alone: LUS the first
four (45_kernel.md rule R432), the entry of an event the last (60_exceptions.md rule R505). -/
inductive KernelLoad where
  /-- SR8 -/
  | codeSegment
  /-- SR9 -/
  | dataSegment
  /-- SR10 and the traps word in effect -/
  | traps
  /-- SR15 -/
  | userPc
  /-- the program counter, from a vector of the CCB -/
  | pc
deriving DecidableEq, Repr

/-- A register that may have been loaded from a word with a double-bit error (60_exceptions.md rule R522). -/
inductive LoadedReg where
  | general (r : RegNo)
  | kernel (k : KernelLoad)
deriving DecidableEq, Repr

/-- An event of the environment that falls on an instruction boundary (60_exceptions.md rules R521 to R530, R543). -/
inductive Input where
  /-- the millisecond tick (R530) -/
  | tick
  /-- the reset button, with the first page of the boot media (70_reset_and_hazards.md rule R580) -/
  | resetButton (bootPage : List Byte)
  /-- switch 0 pressed and released (R523) -/
  | switch0
  /-- the clock board sets or drops status bit 23 (R527) -/
  | powerFail (on : Bool)
  /-- the power fails completely (R551) -/
  | powerLost
  /-- a double-bit error found by instruction fetch (R513) -/
  | parityFetch (a : Word)
  /-- a double-bit error found by the memory reference just executed; `loaded` names the registers it had loaded from
  the failing word (R519, R522) -/
  | parityExecute (a : Word) (loaded : List LoadedReg)
  /-- the memory controller writes the error log (10_state.md rule R65) -/
  | logWrite (location : BitVec 4) (entry : Word) (valid : Nat)
  /-- a board raises its interrupt request with bits 8..31 of its IOIR word (10_state.md rule R63) -/
  | ioRequest (device : Byte) (info : BitVec 24)
  /-- a board's answer to a READ or WRITE to come is settled (45_kernel.md rule R469) -/
  | ioAnswer (device : Byte) (answer : Answer)
  /-- the clock board changes its input register (45_kernel.md rule R457) -/
  | clockIn (v : ClockIn)
  /-- a DMA request or grant, or a word of a DMA transfer (R543, R544) -/
  | dma (d : DmaEvent)
deriving DecidableEq, Repr

/-- What the environment does at one instruction boundary, and the DMA events that fall between the two
halves of a double-word access of the instruction after it (20_memory.md rules R88, R121). -/
structure Boundary where
  events : List Input
  between : List DmaEvent
deriving DecidableEq, Repr

/-- The state (INVENTORY.md, State). -/
structure State where
  /-- R0..R15 -/
  regs : Vector Word 16
  /-- the program counter: the address of the instruction being executed -/
  pc : Word
  mode : Mode
  /-- the pause of RUM with SR14 = 1 -/
  paused : Bool
  /-- the reason why the processor makes no further progress until the reset button -/
  stuck : Option Stuck
  /-- SR0..SR15 -/
  sr : Vector Word 16
  /-- the traps word that LUS last loaded -/
  trapsEff : Word
  /-- the bits of the traps word in effect that a MOVE to SR10 has left open -/
  trapsOpen : Word
  mem : Memory
  /-- the reset since which unlisted bytes are unspecified -/
  memEpoch : Nat
  /-- TMT entries other than 0, by index: code 0..511, data 512..1023 -/
  tmt : List (Nat × Word)
  /-- the code lines of the cache -/
  codeLines : Lines
  /-- the data lines of the cache -/
  dataLines : Lines
  /-- the prefetch buffers -/
  prefetch : Buffers
  mask1 : Bool
  mask2 : Bool
  /-- bit 23 of the status word -/
  powerFail : Bool
  /-- power fail warnings not yet taken -/
  powerFailDue : Nat
  /-- presses of switch 0 not yet taken -/
  switch0Due : Nat
  /-- double-bit parity errors not yet taken, the oldest first -/
  parityDue : List ParityError
  /-- the 16 logout data locations -/
  logData : Vector Word 16
  /-- the number of valid logout entries -/
  logCount : Nat
  clockOut : ClockOut
  clockIn : ClockIn
  /-- the boards, on each chain the nearest to the memory controller first -/
  boards : List Board
  /-- the words still to be moved of the DMA transfer that has the bus, the next first -/
  transfer : List DmaCycle
  /-- what has gone out on the I/O bus, the latest first -/
  busLog : List BusOp
  /-- the inputs of each coming instruction boundary -/
  inputs : List Boundary
  /-- the DMA events that fall between the two halves of a double-word access of the current instruction -/
  between : List DmaEvent
  /-- the number of the step, for its free values -/
  draws : Nat
  /-- the parameters of the machine; no step changes them -/
  cfg : Config.Params
deriving DecidableEq, Repr

/-- The special registers right after reset: SR2 the memory size, SR11 and SR14 1 (10_state.md rule R70); the others 0,
DESIGN CHOICE (log 6). -/
def resetSr (memSize : Word) : Vector Word 16 :=
  #v[0, 0, memSize, 0, 0, 0, 0, 0, 0, 0, 0, 1, 0, 0, 1, 0]

/-- The machine right after reset (10_state.md rule R70; 70_reset_and_hazards.md rule R580). Values the spec leaves
unspecified are 0, clear or empty: DESIGN CHOICE (logs 6, 7, 8, 29 to 34). -/
def State.reset : State :=
  { regs := Vector.replicate 16 0
    pc := 0x0003E000
    mode := .kernel
    paused := false
    stuck := none
    sr := resetSr Config.Params.default.memSize
    trapsEff := 0
    trapsOpen := 0
    mem := []
    memEpoch := 0
    tmt := []
    codeLines := []
    dataLines := []
    prefetch := []
    mask1 := false
    mask2 := false
    powerFail := false
    powerFailDue := 0
    switch0Due := 0
    parityDue := []
    logData := Vector.replicate 16 0
    logCount := 0
    clockOut := ⟨false, false⟩
    clockIn := ⟨false, false⟩
    boards := []
    transfer := []
    busLog := []
    inputs := []
    between := []
    draws := 0
    cfg := .default }

end Sys2Proof.Machine
end

