-- ==== Sys2Proof/Machine/Cache.lean ====
section
/-! DEFINITION. The cache as a table of lines (20_memory.md rule R125; 00_scope.md rule R6): which line of which set an
address selects, the load of a quadword, the write-through of a store, what a DMA write does to a line, and the
prefetch buffers (20_memory.md rule R126). Everything here is about one half of the cache; State has two. -/

namespace Sys2Proof.Machine

/-! ### Lines -/

/-- The line number an address selects within a half: address bits 20..27. -/
def lineIndex (a : Nat) : Nat := a / 16 % 256

/-- The tag of an address: the bits above the line number. -/
def lineTag (a : Nat) : Nat := a / 4096

/-- The byte of a line at an address of its quadword: address bits 28..31. -/
def Line.byte (l : Line) (a : Nat) : Byte := l.bytes[a % 16]

/-- The line with the byte at an address of its quadword replaced. -/
def Line.setByte (l : Line) (a : Nat) (b : Byte) : Line := { l with bytes := l.bytes.set (a % 16) b }

/-- The valid lines of a line number. -/
def linesAt (c : Lines) (i : Nat) : List Line := (sparseGet c i).getD []

/-- The line that holds the quadword of an address: a hit. -/
def findLine (c : Lines) (a : Nat) : Option Line := (linesAt c (lineIndex a)).find? fun l => l.tag == lineTag a

/-- The lines with those of one line number replaced; a line number without valid lines is not listed. -/
def setLines (c : Lines) (i : Nat) (ls : List Line) : Lines :=
  match ls with
  | [] => sparseErase c i
  | _ => sparseSet c i ls

/-- What stays of the valid lines of a line number when another is loaded: with one line, that line or, when its data
table is chosen, nothing; with two, one of them. The choice is not stated (log 32). -/
def keepLine : List Line → Nat → List Line
  | [], _ => []
  | [l], n => if n % 2 = 0 then [l] else []
  | l :: m :: _, n => if n % 2 = 0 then [l] else [m]

/-- The quadword of an address loaded as a line: nothing changes on a hit (20_memory.md rule R125). -/
def loadQuad (c : Lines) (a : Nat) (q : Vector Byte 16) (n : Nat) : Lines :=
  match findLine c a with
  | some _ => c
  | none => setLines c (lineIndex a) (⟨lineTag a, q⟩ :: keepLine (linesAt c (lineIndex a)) n)

/-- The byte at an address replaced in the line that holds it, if one does: write-through without allocation. -/
def setLineByte (c : Lines) (a : Nat) (b : Byte) : Lines :=
  match findLine c a with
  | none => c
  | some _ =>
    setLines c (lineIndex a) ((linesAt c (lineIndex a)).map fun l => if l.tag = lineTag a then l.setByte a b else l)

/-- The bytes from an address on replaced in the lines that hold them. -/
def setLineBytes : Lines → Nat → List Byte → Lines
  | c, _, [] => c
  | c, a, b :: bs => setLineBytes (setLineByte c a b) (a + 1) bs

/-- The line that holds an address made invalid. -/
def dropLine (c : Lines) (a : Nat) : Lines :=
  match findLine c a with
  | none => c
  | some _ => setLines c (lineIndex a) ((linesAt c (lineIndex a)).filter fun l => l.tag != lineTag a)

/-- What a half of the cache does with a word that DMA writes, by a free number: it keeps the line as it is, takes the
word, or makes the line invalid (20_memory.md rule R121). -/
def snoopWord (c : Lines) (a : Nat) (bs : List Byte) (n : Nat) : Lines :=
  match findLine c a with
  | none => c
  | some _ => if n % 3 = 0 then c else if n % 3 = 1 then setLineBytes c a bs else dropLine c a

/-! ### Reads -/

/-- The half of the cache that serves a reference, and for an instruction fetch the prefetch buffers before it
(20_memory.md rules R125, R126). -/
inductive View where
  | data
  | code
  | fetch
deriving DecidableEq, Repr

/-- The byte that main memory holds at a real address; a byte that nothing has written is free (10_state.md rule R70;
log 8). -/
def State.mainByte (s : State) (a : Nat) : Byte := (sparseGet s.mem a).getD (Config.unwrittenByte s.memEpoch a)

/-- A word of main memory. -/
def State.mainWord (s : State) (a : Nat) : Word :=
  wordOfBytes (s.mainByte a) (s.mainByte (a + 1)) (s.mainByte (a + 2)) (s.mainByte (a + 3))

/-- The quadword of an address in main memory. -/
def State.mainQuad (s : State) (a : Nat) : Vector Byte 16 :=
  let b := fun k => s.mainByte (a / 16 * 16 + k)
  #v[b 0, b 1, b 2, b 3, b 4, b 5, b 6, b 7, b 8, b 9, b 10, b 11, b 12, b 13, b 14, b 15]

/-- The byte a half of the cache delivers: that of the line on a hit, that of main memory on a miss. -/
def State.throughLines (s : State) (c : Lines) (a : Nat) : Byte :=
  match findLine c a with
  | some l => l.byte a
  | none => s.mainByte a

/-- Byte k of a word, 0 at the lowest address. -/
def byteOfWord (w : Word) (k : Nat) : Byte := w.extractLsb' (24 - 8 * k) 8

/-- The byte a read through a view returns. An aligned word lies in one line, so it is read as one
(20_memory.md rule R88). -/
def State.readByte (s : State) (v : View) (a : Nat) : Byte :=
  match v with
  | .data => s.throughLines s.dataLines a
  | .code => s.throughLines s.codeLines a
  | .fetch =>
    match sparseGet s.prefetch (a / 4) with
    | some w => byteOfWord w (a % 4)
    | none => s.throughLines s.codeLines a

/-- A halfword read, most significant byte first (20_memory.md rule R80). -/
def State.readHalf (s : State) (v : View) (a : Nat) : Half := halfOfBytes (s.readByte v a) (s.readByte v (a + 1))

/-- A word read. -/
def State.readWord (s : State) (v : View) (a : Nat) : Word :=
  wordOfBytes (s.readByte v a) (s.readByte v (a + 1)) (s.readByte v (a + 2)) (s.readByte v (a + 3))

/-- The data lines after a read of an address. -/
def State.fillData (s : State) (c : Lines) (a : Nat) : Lines :=
  loadQuad c a (s.mainQuad a) (Config.freeVictim s.draws false (a / 16))

/-- The code lines after a read of an address. -/
def State.fillCode (s : State) (c : Lines) (a : Nat) : Lines :=
  loadQuad c a (s.mainQuad a) (Config.freeVictim s.draws true (a / 16))

/-- What a read through a view does: "the entire quadword in which that word is located is loaded as a single line"
(20_memory.md rule R125). A fetch that the prefetch buffers serve reads no line. -/
def State.loadLine (s : State) (v : View) (a : Nat) : State :=
  { s with
    dataLines := match v with
      | .data => s.fillData s.dataLines a
      | .code => s.dataLines
      | .fetch => s.dataLines
    codeLines := match v with
      | .data => s.codeLines
      | .code => s.fillCode s.codeLines a
      | .fetch => if (sparseGet s.prefetch (a / 4)).isSome then s.codeLines else s.fillCode s.codeLines a }

/-- Data reads of words at several addresses, one after another. -/
def State.loadLines (s : State) (as : List Word) : State :=
  { s with dataLines := as.foldl (fun c a => s.fillData c a.toNat) s.dataLines }

/-! ### The prefetch buffers -/

/-- Words of code read ahead into the buffers through the code lines: the lines and the new buffers. -/
def State.readAheadWords (s : State) : List Nat → Lines → Buffers → Lines × Buffers
  | [], c, b => (c, b)
  | w :: ws, c, b =>
    match sparseGet s.prefetch w with
    | some v => s.readAheadWords ws c (sparseSet b w v)
    | none =>
      let q := fun k => s.throughLines c (4 * w + k)
      s.readAheadWords ws (s.fillCode c (4 * w)) (sparseSet b w (wordOfBytes (q 0) (q 1) (q 2) (q 3)))

/-- The instruction unit "fetches instructions from the cache ahead of the execution unit and stores them in four
word-wide prefetch buffers" (70_reset_and_hazards.md rule R593): after the fetch of an instruction the buffers hold at
most four words of installed memory, those they held before as they were, the others read through the code lines. Which
words they are is free: the prediction of branches is not described (log 32). -/
def State.readAhead (s : State) : State :=
  let ws := ((Config.readAhead s.draws).take 4).map (· % (s.cfg.memSize.toNat / 4))
  let r := s.readAheadWords ws s.codeLines []
  { s with codeLines := r.1, prefetch := r.2 }

end Sys2Proof.Machine
end

