-- ==== Sys2Proof/Machine/Ops.lean ====
section
/-! DEFINITION. The named operations: registers, memory, address translation, taking an event and returning from one
(10_state.md, 20_memory.md, 60_exceptions.md). -/

namespace Sys2Proof.Machine

/-! ### Registers -/

/-- `x[n]` (00_scope.md rule R9). -/
def State.reg (s : State) (n : RegNo) : Word := s.regs[n.toNat]

/-- `x[n] <- v`. No register is hard-wired (10_state.md rule R31). -/
def State.setReg (s : State) (n : RegNo) (v : Word) : State := { s with regs := s.regs.set n.toNat v }

/-- `RPn`: Rn most significant, then R(n+1 mod 16) (00_scope.md rule R9). -/
def State.pair (s : State) (n : RegNo) : DWord := s.reg n ++ s.reg (n + 1)

/-- `RPn <- v`. -/
def State.setPair (s : State) (n : RegNo) (v : DWord) : State :=
  (s.setReg n (v.extractLsb' 32 32)).setReg (n + 1) (v.extractLsb' 0 32)

/-- `sr[n]`. -/
def State.sreg (s : State) (n : RegNo) : Word := s.sr[n.toNat]

/-- `sr[n] <- v`: all 32 bits of each special register are kept (10_state.md rule R40). -/
def State.setSreg (s : State) (n : RegNo) (v : Word) : State := { s with sr := s.sr.set n.toNat v }

/-- Bit b of the traps word in effect (00_scope.md rule R13). A bit that a MOVE to SR10 has left open is free
(10_state.md rule R52; log 7). -/
def State.trapBit (s : State) (b : Nat) : Bool :=
  if mbit s.trapsOpen b then mbit (Config.freeWord s.draws .traps) b else mbit s.trapsEff b

/-- `RoundMode()`, bits 21 and 22 of the traps word in effect (42_real.md rule R274). -/
def State.roundMode (s : State) : Config.RoundMode :=
  match s.trapBit 21, s.trapBit 22 with
  | false, false => .nearest
  | false, true => .plusInfinity
  | true, false => .minusInfinity
  | true, true => .zero

/-- The number of an opcode on this machine. -/
def State.op (s : State) (o : Opcode) : Byte := s.cfg.opc.code o

/-! ### Real memory -/

/-- Whether the n bytes at a real address are installed memory (20_memory.md rule R87). -/
def State.inMem (s : State) (a : Word) (n : Nat) : Bool := decide (a.toNat + n ≤ s.cfg.memSize.toNat)

/-- One byte stored by the processor: main memory takes it, and the data half of the cache where it holds the quadword
(write-through); the code half and the prefetch buffers keep what they hold (20_memory.md rules R125, R126). -/
def State.storeByte (s : State) (a : Nat) (b : Byte) : State :=
  { s with mem := sparseSet s.mem a b, dataLines := setLineByte s.dataLines a b }

/-- Bytes stored by the processor in ascending address order. -/
def State.storeBytes : State → Nat → List Byte → State
  | s, _, [] => s
  | s, a, b :: bs => (s.storeByte a b).storeBytes (a + 1) bs

/-- A word written by DMA into main memory; each half of the cache keeps, takes or drops the word it holds
(20_memory.md rules R88, R121). -/
def State.dmaWord (s : State) (a : Nat) (w : Word) : State :=
  let bs := bytesOfWord w
  { s with
    mem := sparseSetFrom s.mem a bs
    codeLines := snoopWord s.codeLines a bs (Config.freeSnoop s.draws true a w)
    dataLines := snoopWord s.dataLines a bs (Config.freeSnoop s.draws false a w) }

/-- A word read by DMA goes out on the bus, with MDNVIO and open if a double-bit error is found in it
(60_exceptions.md rules R540, R543). -/
def State.dmaRead (s : State) (a : Nat) (error : Bool) : State :=
  { s with
    busLog := .dmaRead a (if error then Config.freeWord s.draws (.dmaWord s.busLog.length) else s.mainWord a) error ::
      s.busLog }

/-- The real byte address of a DMA word address (60_exceptions.md rule R543). -/
def dmaAddress (w : BitVec 30) : Nat := w.toNat * 4

/-- Words of a transfer at ascending word addresses (93_implementation_defined.md U28). -/
def cyclesFrom : Nat → List DmaOp → List DmaCycle
  | _, [] => []
  | a, o :: os => ⟨a, o⟩ :: cyclesFrom (a + 4) os

/-- The words of a transfer: one or four (60_exceptions.md rule R543). -/
def Dma.cycles (d : Dma) : List DmaCycle :=
  match d with
  | .read w burst errors =>
    cyclesFrom (dmaAddress w) ((List.range (if burst then 4 else 1)).map fun k => .read (errors.getLsbD k))
  | .write w v => cyclesFrom (dmaAddress w) [.write v]
  | .writeBurst w v0 v1 v2 v3 => cyclesFrom (dmaAddress w) [.write v0, .write v1, .write v2, .write v3]

/-- One word of a transfer moved: a real address, no protection, no processor event (60_exceptions.md rule R543). -/
def State.dmaCycle (s : State) (c : DmaCycle) : State :=
  match c.op with
  | .read error => s.dmaRead c.address error
  | .write w => s.dmaWord c.address w

/-- Whether a DMA word is installed memory (20_memory.md rule R87). -/
def State.dmaInMem (s : State) (a : Nat) : Bool := decide (a + 4 ≤ s.cfg.memSize.toNat)

/-- The first element that satisfies `p` changed by `f`. -/
def updateFirst {α : Type} (p : α → Bool) (f : α → α) : List α → List α
  | [] => []
  | a :: as => if p a then f a :: as else a :: updateFirst p f as

/-- The first board with a device number changed. -/
def State.onBoard (s : State) (device : Byte) (f : Board → Board) : State :=
  { s with boards := updateFirst (fun b => b.device == device) f s.boards }

/-- The board that receives ACKIOM: of the boards that request the bus the first on chain 2, else the first on chain 1
(60_exceptions.md rule R544). -/
def State.dmaRequester (s : State) : Option Board :=
  match s.boards.find? fun b => b.chain2 && !b.transfers.isEmpty with
  | some b => some b
  | none => s.boards.find? fun b => !b.chain2 && !b.transfers.isEmpty

/-- A transfer queued by a board. -/
def Board.addTransfer (d : Dma) (b : Board) : Board := { b with transfers := b.transfers ++ [d] }

/-- The board with its first transfer on the bus. -/
def Board.granted (b : Board) : Board := { b with transfers := b.transfers.tail }

/-- The grant of a free bus: the first transfer of the board that receives ACKIOM (60_exceptions.md rules R543, R544). -/
def State.dmaGrant (s : State) : State :=
  match s.dmaRequester with
  | none => s
  | some b =>
    match b.transfers with
    | [] => s
    | d :: _ => { s with boards := updateFirst (fun c => c == b) Board.granted s.boards, transfer := d.cycles }

/-- One DMA event. While a transfer has the bus no other board is granted it; a grant that no board requests, and a word
with no transfer on the bus, do nothing (60_exceptions.md rules R543, R544). Between any two of these events the processor
may access memory: R544 interleaves DMA and the processor at word granularity (log 31). -/
def State.dma (s : State) (e : DmaEvent) : Except Fault State :=
  match e with
  | .request device d => .ok (s.onBoard device (Board.addTransfer d))
  | .grant => .ok (if s.transfer.isEmpty then s.dmaGrant else s)
  | .word =>
    match s.transfer with
    | [] => .ok s
    | c :: cs => if s.dmaInMem c.address then .ok (({ s with transfer := cs } : State).dmaCycle c) else .error .noMemory

/-- DMA events one after another. -/
def State.dmaAll (s : State) : List DmaEvent → Except Fault State
  | [] => .ok s
  | d :: ds =>
    match s.dma d with
    | .error f => .error f
    | .ok s1 => s1.dmaAll ds

/-- A double-word read: two word reads, the most significant first, between which DMA transfers may fall
(20_memory.md rules R88, R121). -/
def State.readTwo (s : State) (v : View) (a : Nat) : Except Fault (DWord × State) :=
  match (s.loadLine v a).dmaAll s.between with
  | .error f => .error f
  | .ok s1 => .ok (s.readWord v a ++ s1.readWord v (a + 4), s1.loadLine v (a + 4))

/-- A double-word store: two word stores, the most significant first, between which DMA transfers may fall
(20_memory.md rules R88, R121). -/
def State.storeTwo (s : State) (a : Nat) (v : DWord) : Except Fault State :=
  match (s.storeBytes a (bytesOfWord (v.extractLsb' 32 32))).dmaAll s.between with
  | .error f => .error f
  | .ok s1 => .ok (s1.storeBytes (a + 4) (bytesOfWord (v.extractLsb' 0 32)))

/-- The word of a microcode read, `RealRead(a, 4)` (00_scope.md rule R11), of the CCB, the PCB or the VRT. That the data
half of the cache serves it is the model's choice: R125 lets the code/data bit of a reference select the half, and the
spec gives a microcode access none (DESIGN CHOICE, log 48). -/
def State.ucodeRead (s : State) (a : Word) : Except Fault Word :=
  if a.toNat % 4 ≠ 0 then .error .badStructure
  else if s.inMem a 4 then .ok (s.readWord .data a.toNat)
  else .error .noMemory

/-- A microcode read: the word, and the state with its quadword in the data lines (DESIGN CHOICE, log 48). -/
def State.ucodeLoad (s : State) (a : Word) : Except Fault (Word × State) :=
  match s.ucodeRead a with
  | .error f => .error f
  | .ok w => .ok (w, s.loadLine .data a.toNat)

/-- A microcode write of a word, `RealWrite(a, 4, v)`, through the data half like a store (DESIGN CHOICE, log 48). -/
def State.ucodeWrite (s : State) (a : Word) (v : Word) : Except Fault State :=
  if a.toNat % 4 ≠ 0 then .error .badStructure
  else if s.inMem a 4 then .ok (s.storeBytes a.toNat (bytesOfWord v))
  else .error .noMemory

/-- The address of the word at an offset of the control structure at `base`: SR11, SR12 or SR14 must be a word aligned
address of installed memory (93_implementation_defined.md U13), and so must the word, without wrap. -/
def State.structAddr (s : State) (base offset : Word) : Except Fault Word :=
  if base.toNat % 4 ≠ 0 then .error .badStructure
  else if base.toNat + offset.toNat + 4 ≤ s.cfg.memSize.toNat then .ok (base + offset)
  else .error .noMemory

/-- The word at an offset of a control structure. -/
def State.structRead (s : State) (base offset : Word) : Except Fault Word :=
  match s.structAddr base offset with
  | .error f => .error f
  | .ok a => s.ucodeRead a

/-- A read of the word at an offset of a control structure. -/
def State.structLoad (s : State) (base offset : Word) : Except Fault (Word × State) :=
  match s.structAddr base offset with
  | .error f => .error f
  | .ok a => s.ucodeLoad a

/-- A write of the word at an offset of a control structure. -/
def State.structWrite (s : State) (base offset v : Word) : Except Fault State :=
  match s.structAddr base offset with
  | .error f => .error f
  | .ok a => s.ucodeWrite a v

/-! ### Cache, prefetch buffers and TMT -/

/-- Every line of the cache made invalid, code and data; the prefetch buffers keep what they hold until a control
transfer (20_memory.md rules R126, R127). -/
def State.flushCache (s : State) : State := { s with codeLines := [], dataLines := [] }

/-- All 1024 TMT entries made invalid (20_memory.md rule R110). -/
def State.flushTmt (s : State) : State := { s with tmt := [] }

/-- The TMT index of an address: bits 11..19, in the half of its space (20_memory.md rule R98). -/
def tmtIndex (sp : Space) (a : Word) : Nat :=
  (match sp with
    | .code => 0
    | .data => 512) + (a.extractLsb' 12 9).toNat

/-- A TMT entry. -/
def State.tmtEntry (s : State) (i : Nat) : Word := (sparseGet s.tmt i).getD 0

/-- A table with one TMT entry set; an entry 0 is not listed. -/
def tmtSet (t : List (Nat × Word)) (i : Nat) (e : Word) : List (Nat × Word) :=
  if e = 0 then sparseErase t i else sparseSet t i e

/-- A TMT entry written. -/
def State.setTmt (s : State) (i : Nat) (e : Word) : State := { s with tmt := tmtSet s.tmt i e }

/-- A TMT hit: V set and the tag equal to bits 0..10 of the address (20_memory.md rules R98, R100). -/
def tmtHit (e a : Word) : Bool := mbit e 30 && (e.extractLsb' 5 11 == a.extractLsb' 21 11)

/-! ### Events -/

/-- Why a page fault occurs (60_exceptions.md rule R514). -/
inductive PageFaultKind where
  | absent
  | writeProtected
deriving DecidableEq, Repr

/-- The events that enter kernel mode through the CCB, with what trap entry records of each (60_exceptions.md rules R510
to R528). `op` is the opcode, `x` and `y` the fields of the instruction. -/
inductive Event where
  | kernelCall (n : Byte)
  | dataAlignment (seg : Half) (a : Word)
  | illegalRegister (op : Byte) (x y : RegNo)
  | illegalMemory (op : Byte) (seg : Half) (a : Word)
  | parityFetch (a : Word)
  | parityExecute (a : Word)
  | pageFault (kind : PageFaultKind) (seg : Half) (a : Word)
  | kernelViolation (op : Byte) (x y : RegNo)
  | checkTrap (op : Byte) (x y : RegNo)
  | arithmetic (op : Byte) (x y : RegNo) (code : Nat)
  | external (ioir : Word)
  | switch0
  | powerFail
  | timer1
  | timer2
deriving DecidableEq, Repr

/-- The CCB offset of an event (60_exceptions.md rule R504). -/
def Event.offset : Event → Word
  | .kernelCall n => n.setWidth 32 * 4
  | .dataAlignment _ _ => 0x400
  | .illegalRegister _ _ _ => 0x404
  | .illegalMemory _ _ _ => 0x404
  | .parityFetch _ => 0x408
  | .parityExecute _ => 0x40C
  | .pageFault _ _ _ => 0x410
  | .kernelViolation _ _ _ => 0x414
  | .checkTrap _ _ _ => 0x418
  | .arithmetic _ _ _ _ => 0x41C
  | .external _ => 0x420
  | .switch0 => 0x424
  | .powerFail => 0x428
  | .timer1 => 0x430
  | .timer2 => 0x434

/-- SR1, SR2 and SR3 as an event leaves them; a register the table marks "nc" keeps its value (60_exceptions.md rules
R510 to R528, Table 6-1). -/
def State.recordEvent (s : State) (e : Event) : State :=
  match e with
  | .dataAlignment seg a => (s.setSreg 2 (zext seg)).setSreg 3 a
  | .illegalRegister op x y => ((s.setSreg 1 (zext op)).setSreg 2 (zext x)).setSreg 3 (zext y)
  | .illegalMemory op seg a => ((s.setSreg 1 (zext op)).setSreg 2 (zext seg)).setSreg 3 a
  | .parityFetch a => s.setSreg 3 a
  | .parityExecute a => s.setSreg 3 a
  | .pageFault .absent seg a => ((s.setSreg 1 0xFFFFFFFF).setSreg 2 (zext seg)).setSreg 3 a
  | .pageFault .writeProtected seg a => ((s.setSreg 1 0xFFFFFFFE).setSreg 2 (zext seg)).setSreg 3 a
  | .kernelViolation op x y => ((s.setSreg 1 (zext op)).setSreg 2 (zext x)).setSreg 3 (zext y)
  | .checkTrap op x y => ((s.setSreg 1 (zext op)).setSreg 2 (zext x)).setSreg 3 (zext y)
  | .arithmetic op x y code =>
    ((s.setSreg 1 (zext op)).setSreg 2 (zext (x ++ y))).setSreg 3 (BitVec.ofNat 32 code)
  | .kernelCall _ => s
  | .external _ => s
  | .switch0 => s
  | .powerFail => s
  | .timer1 => s
  | .timer2 => s

/-- SR0 and SR15 as an event leaves them (60_exceptions.md rules R505, R508, R510, R520, R531): KCALL writes SR15 only;
any other event writes SR15 and the user flag in user mode, SR0 in kernel mode or the paused state; an external
interrupt puts the IOIR word in SR0. -/
def State.savePc (s : State) (e : Event) (ret : Word) : State :=
  match e with
  | .kernelCall _ => s.setSreg 15 (s.pc + 2)
  | _ =>
    let s1 := if s.mode = .user ∧ s.paused = false then (s.setSreg 15 ret).setSreg 0 1 else s.setSreg 0 ret
    match e with
    | .external ioir => s1.setSreg 0 ioir
    | _ => s1

/-- The state in which the kernel function at address `v` begins (60_exceptions.md rule R505). The quadword of the
vector is in the data lines (DESIGN CHOICE, log 48). -/
def State.enterAt (s : State) (e : Event) (ret v : Word) : State :=
  { ((s.loadLine .data (s.sreg 11 + e.offset).toNat).savePc e ret).recordEvent e with
    mode := .kernel, paused := false, pc := v, prefetch := [] }

/-- Outcomes of the machine. -/
abbrev Outcome := Host.Outcome State Fault Refusal

/-- The processor makes no further progress. -/
def State.halt (s : State) (k : Stuck) : State := { s with stuck := some k }

/-- The state of a processor that takes an event without a CCB: in kernel mode like after every event, and stuck
(10_state.md rule R38; 60_exceptions.md rule R509; log 26). -/
def State.haltNoCcb (s : State) : State := { s.halt .noCcb with mode := .kernel, paused := false }

/-- TAKING AN EVENT: `Enter(E)` of 60_exceptions.md rule R505, with the saved address `ret`. With no CCB the processor is
stuck (rule R509); a CCB at an unusable address and an odd vector are outside the specification. -/
def enter (e : Event) (ret : Word) (s : State) : Outcome :=
  if mbit (s.sreg 11) 31 then .next s.haltNoCcb
  else
    match s.structRead (s.sreg 11) e.offset with
    | .error f => .fault f
    | .ok v => if mbit v 31 then .fault .oddPc else .next (s.enterAt e ret v)

/-- A trap or page fault of the executing instruction: the saved address is its own (60_exceptions.md rule R507). -/
def raise (e : Event) (s : State) : Outcome := enter e s.pc s

/-! ### The program counter -/

/-- The end of an instruction that transfers no control: `pc <- pc + il` (10_state.md rules R35, R36). -/
def advance (il : Nat) (s : State) : Outcome :=
  if s.pc.toNat + il < 2 ^ 32 then .next { s with pc := s.pc + BitVec.ofNat 32 il } else .fault .pcWrap

/-- A transfer of control (10_state.md rule R36); it empties the prefetch buffers (20_memory.md rule R126). -/
def jump (t : Word) (s : State) : Outcome :=
  if mbit t 31 then .fault .oddPc else .next { s with pc := t, prefetch := [] }

/-! ### Results of an operation -/

/-- What an operation within an instruction answers: a value with the state after it, an event to take in a state, no
further progress in a state, or a fault. -/
inductive Res (α : Type) where
  | ok (v : α) (s : State)
  | event (e : Event) (s : State)
  | stuck (k : Stuck) (s : State)
  | fault (f : Fault)

/-- One operation after another. -/
def Res.bind {α β : Type} (r : Res α) (f : α → State → Res β) : Res β :=
  match r with
  | .ok v s => f v s
  | .event e s => .event e s
  | .stuck k s => .stuck k s
  | .fault f => .fault f

/-- The end of an instruction: go on with the value, or take the event. -/
def Res.finish {α : Type} (r : Res α) (f : α → State → Outcome) : Outcome :=
  match r with
  | .ok v s => f v s
  | .event e s => raise e s
  | .stuck k s => .next (s.halt k)
  | .fault f => .fault f

/-! ### Address translation -/

/-- The segment number of a space: bits 16..31 of SR8 or SR9 (20_memory.md rules R96, R100). -/
def State.segment (s : State) (sp : Space) : Half :=
  match sp with
  | .code => (s.sreg 8).extractLsb' 0 16
  | .data => (s.sreg 9).extractLsb' 0 16

/-- What the VRT search finds: the address and TMT Word of the matching entry, nothing, no end of the chain, or a
fault. -/
inductive SearchResult where
  | found (p t : Word)
  | absent
  | endless
  | fault (f : Fault)
deriving DecidableEq, Repr

/-- The search along a chain from the entry at `p` (20_memory.md rule R104). -/
def State.vrtChain (s : State) (seg : Half) (a : Word) : Nat → Word → SearchResult
  | 0, _ => .endless
  | n + 1, p =>
    if p = 0 then .absent
    else
      match s.ucodeRead p with
      | .error f => .fault f
      | .ok m =>
        if m.extractLsb' 16 16 = seg ∧ m.extractLsb' 0 16 = a.extractLsb' 16 16 then
          match s.ucodeRead (p + 8) with
          | .error f => .fault f
          | .ok t => .found p t
        else
          match s.ucodeRead (p + 4) with
          | .error f => .fault f
          | .ok l => s.vrtChain seg a n l

/-- The addresses of the words that a search along a chain reads (20_memory.md rule R104). -/
def State.vrtTrail (s : State) (seg : Half) (a : Word) : Nat → Word → List Word
  | 0, _ => []
  | n + 1, p =>
    if p = 0 then []
    else
      match s.ucodeRead p with
      | .error _ => []
      | .ok m =>
        if m.extractLsb' 16 16 = seg ∧ m.extractLsb' 0 16 = a.extractLsb' 16 16 then [p, p + 8]
        else
          match s.ucodeRead (p + 4) with
          | .error _ => [p]
          | .ok l => p :: (p + 4) :: s.vrtTrail seg a n l

/-- The offset of the hash slot of a page: `((seg + VPN) & sr[13]) << 2` (20_memory.md rule R104). -/
def State.vrtSlot (s : State) (seg : Half) (a : Word) : Word :=
  ((zext seg + zext (a.extractLsb' 12 20)) &&& s.sreg 13) <<< 2

/-- `VRTSearch(seg, a)` before it sets the R bit. A chain longer than the number of real addresses visits one twice and
never ends (20_memory.md rule R104). -/
def State.vrtSearch (s : State) (seg : Half) (a : Word) : SearchResult :=
  match s.structRead (s.sreg 12) (s.vrtSlot seg a) with
  | .error f => .fault f
  | .ok p => s.vrtChain seg a (s.cfg.memSize.toNat + 1) p

/-- The addresses of the words that `VRTSearch(seg, a)` reads. -/
def State.vrtReads (s : State) (seg : Half) (a : Word) : List Word :=
  match s.structRead (s.sreg 12) (s.vrtSlot seg a) with
  | .error _ => []
  | .ok p => (s.sreg 12 + s.vrtSlot seg a) :: s.vrtTrail seg a (s.cfg.memSize.toNat + 1) p

/-- The state after the reads of `VRTSearch(seg, a)`: the quadwords of the words read are in the data lines. The words
themselves are those that the data half of the cache delivers when the search begins (logs 32, 48). -/
def State.searched (s : State) (seg : Half) (a : Word) : State := s.loadLines (s.vrtReads seg a)

/-- The TMT Word `t` of the entry at `p` written back with more bits set (20_memory.md rules R107, R109). -/
def State.markEntry (s : State) (p t bits : Word) : State :=
  s.storeBytes (p + 8).toNat (bytesOfWord (t ||| bits))

/-- The R bit (bit 27) and the D bit (bit 31) of a TMT Word (20_memory.md rule R97). -/
def bitR : Word := 0x10
def bitD : Word := 0x1

/-- What an access does (20_memory.md rule R100). -/
inductive Access where
  | read
  | write
  | fetch
deriving DecidableEq, Repr

/-- The first half of `Translate`: the TMT entry of the page, after a VRT search on a miss, which sets the R bit and
loads the TMT (20_memory.md rules R100, R104, R107). With an entry of V = 0 the access misses for ever (rule R111). -/
def State.tmtLookup (s : State) (sp : Space) (a : Word) : Res Word :=
  let i := tmtIndex sp a
  if tmtHit (s.tmtEntry i) a then .ok (s.tmtEntry i) s
  else
    let s1 := s.searched (s.segment sp) a
    match s.vrtSearch (s.segment sp) a with
    | .fault f => .fault f
    | .endless => .stuck .vrtChainEndless s1
    | .absent => .event (.pageFault .absent (s.segment sp) a) s1
    | .found p t =>
      let s2 := (s1.markEntry p t bitR).setTmt i (t ||| bitR)
      if mbit t 30 then .ok (t ||| bitR) s2 else .stuck .vrtEntryInvalid s2

/-- A store to a page whose TMT entry has D = 0: the microcode finds the VRT entry and sets the D bit there (with the R
bit of the search) and in the TMT entry (20_memory.md rule R109). -/
def State.markDirty (s : State) (sp : Space) (a e : Word) : Res Unit :=
  let s1 := s.searched (s.segment sp) a
  match s.vrtSearch (s.segment sp) a with
  | .fault f => .fault f
  | .endless => .stuck .vrtChainEndless s1
  | .absent => .event (.pageFault .absent (s.segment sp) a) s1
  | .found p t => .ok () ((s1.markEntry p t (bitR ||| bitD)).setTmt (tmtIndex sp a) (e ||| bitD))

/-- The real address an entry gives: its physical page, bits 1..15, and the offset (20_memory.md rule R100). -/
def physAddr (e a : Word) : Word := zext (e.extractLsb' 16 15 ++ a.extractLsb' 0 12)

/-- `Translate(space, a, access)` of 20_memory.md rule R100. -/
def State.translate (s : State) (sp : Space) (a : Word) (acc : Access) : Res Word :=
  (s.tmtLookup sp a).bind fun e s1 =>
    if acc = .write ∧ mbit e 29 = false then .event (.pageFault .writeProtected (s1.segment sp) a) s1
    else if acc = .write ∧ mbit e 31 = false then
      (s1.markDirty sp a e).bind fun _ s2 => .ok (physAddr e a) s2
    else .ok (physAddr e a) s1

/-- The real address of a reference: the address itself in kernel mode, the translated one in user mode
(20_memory.md rules R85, R86). -/
def State.realAddr (s : State) (sp : Space) (a : Word) (acc : Access) : Res Word :=
  match s.mode with
  | .kernel => .ok a s
  | .user => s.translate sp a acc

/-- The real address of an access of n bytes, which must be installed memory (20_memory.md rule R87). -/
def State.locate (s : State) (sp : Space) (a : Word) (acc : Access) (n : Nat) : Res Word :=
  (s.realAddr sp a acc).bind fun r s1 => if s1.inMem r n then .ok r s1 else .fault .noMemory

/-! ### Privilege -/

/-- `KernelOnly()` (45_kernel.md rule R430): the instruction `k` in kernel mode, a kernel violation in user mode. -/
def kernelOnly (o : Opcode) (x y : RegNo) (s : State) (k : State → Outcome) : Outcome :=
  match s.mode with
  | .kernel => k s
  | .user => raise (.kernelViolation (s.op o) x y) s

/-- `Privileged()` (45_kernel.md rule R430): the instruction `k` in kernel mode or with the privileged process bit set, a
kernel violation otherwise. -/
def privileged (o : Opcode) (x y : RegNo) (s : State) (k : State → Outcome) : Outcome :=
  if s.mode = .kernel ∨ s.trapBit 31 = true then k s else raise (.kernelViolation (s.op o) x y) s

/-! ### External interrupt requests -/

/-- The IOIR word of a board: its device number over its information (60_exceptions.md rule R526). -/
def Board.ioir (b : Board) : Word := b.device ++ b.info

/-- The highest-priority requesting board of a chain (60_exceptions.md rules R525, R544). -/
def State.chainRequest (s : State) (chain2 : Bool) : Option Board :=
  s.boards.find? fun b => b.requesting && (b.chain2 == chain2)

/-- `Deliverable()` of 60_exceptions.md rule R525. -/
def State.deliverable (s : State) : Option Board :=
  if s.mask2 then none
  else
    match s.chainRequest true with
    | some b => some b
    | none => if s.mask1 then none else s.chainRequest false

/-- The board with its request dropped. -/
def Board.dropRequest (b : Board) : Board := { b with requesting := false }

/-- `AckIOI(b)` of 60_exceptions.md rule R526: the board drops its request. That the cycle may fall while the DMA transfer
of another board has the bus, among the words of a burst, is the model's choice (DESIGN CHOICE, log 31). -/
def State.ackIoi (s : State) (b : Board) : State :=
  { s with boards := updateFirst (fun c => c == b) Board.dropRequest s.boards, busLog := .ackIoi b.device :: s.busLog }

/-! ### Return from an event -/

/-- RETURN TO USER MODE: the effect of RUM (45_kernel.md rule R434; 60_exceptions.md rule R535). With no process the
processor pauses, the pc staying at the RUM. -/
def resumeUser (s : State) : Outcome :=
  if s.sreg 14 = 1 then .next { s with paused := true }
  else jump (s.sreg 15) { s with mode := .user }

/-- RETURN TO THE KERNEL: the effect of TRAPEXIT (45_kernel.md rule R453). -/
def resumeKernel (s : State) : Outcome := jump (s.sreg 0) s.flushCache.flushTmt

end Sys2Proof.Machine
end

