-- ==== Sys2Proof/Machine/Operands.lean ====
section
/-! DEFINITION. Every operand form: immediates, displacements, effective addresses, branch targets, shift counts, bit
numbers and register ranges (30_encoding.md rule R149). -/

namespace Sys2Proof.Machine

/-- A 4-bit immediate, 0..15, never sign extended (30_encoding.md rule R149 (c)). -/
def imm4 (y : RegNo) : Word := zext y

/-- A short displacement, sign extended (30_encoding.md rule R149 (d)). -/
def shortDisp (d : BitVec 16) : Word := d.signExtend 32

/-- What a space adds to an effective address: the pc for code, nothing for data (40_memory_reference.md rule R181). -/
def State.spaceBase (s : State) (sp : Space) : Word :=
  match sp with
  | .code => s.pc
  | .data => 0

/-- The effective address of a direct reference (40_memory_reference.md rule R181). -/
def State.eaDirect (s : State) (sp : Space) (disp : Word) : Word := s.spaceBase sp + disp

/-- The effective address of an indexed reference (40_memory_reference.md rule R181). -/
def State.eaIndexed (s : State) (sp : Space) (y : RegNo) (disp : Word) : Word := s.spaceBase sp + s.reg y + disp

/-- `Target(disp)`: the least significant bit of the displacement is the prediction bit and no part of the address
(44_program_control.md rules R390, R391). -/
def State.target (s : State) (disp : Word) : Word := s.pc + (disp &&& 0xFFFFFFFE)

/-- The shift count of a single register shift, the low 5 bits of Ry (43_bit_test_compare_shift.md rule R349). -/
def State.count32 (s : State) (y : RegNo) : Nat := (s.reg y).toNat % 32

/-- The shift count of a double register shift and the bit number of CBIT, SBIT and TBIT, the low 6 bits of Ry
(43_bit_test_compare_shift.md rules R330, R349). -/
def State.count64 (s : State) (y : RegNo) : Nat := (s.reg y).toNat % 64

/-- Registers x to y of SUS, LUS and LDREGS; x alone when x is greater than y (45_kernel.md rule R431). -/
def regRange (x y : RegNo) : List RegNo :=
  (List.range' x.toNat ((max x.toNat y.toNat) + 1 - x.toNat)).map (BitVec.ofNat 4)

/-- The operand widths of loads and stores (20_memory.md rule R82). -/
inductive Width where
  | byte
  | half
  | word
  | double
deriving DecidableEq, Repr

/-- The bytes of a width. -/
def Width.bytes : Width → Nat
  | .byte => 1
  | .half => 2
  | .word => 4
  | .double => 8

/-- An aligned address of a width (20_memory.md rule R83). -/
def Width.aligned (w : Width) (a : Word) : Bool := decide (a.toNat % w.bytes = 0)

end Sys2Proof.Machine
end

