-- ==== Sys2Proof/Machine/Flags.lean ====
section
/-! DEFINITION. There is no flag register (10_state.md rule R37). What takes its place: the overflow conditions of the
integer traps, the carry and overflow that EADD and ESUB leave in R0, the relations of TEST and BR, and the three-way
results of the compares. -/

namespace Sys2Proof.Machine

/-- The exact result fits in 32 bits; the negation is the integer overflow of ADD, SUB, MPY
(41_integer_logical.md rule R227). -/
def fits32 (r : Int) : Bool := decide (-2 ^ 31 ≤ r ∧ r ≤ 2 ^ 31 - 1)

/-- The overflow of ASL: old bits 0..n are not all equal (43_bit_test_compare_shift.md rule R353). -/
def aslOverflow (old : Word) (n : Nat) : Bool := (List.range n).any fun k => mbit old (k + 1) != mbit old 0

/-- The word EADD and ESUB leave in R0: overflow in bit 30, carry in bit 31 (41_integer_logical.md rules R250, R253). -/
def extendedFlags (overflow carry : Bool) : Word := zext (BitVec.ofBool overflow ++ BitVec.ofBool carry)

/-- The six relations of TEST and BR (43_bit_test_compare_shift.md rule R335). -/
inductive Relation where
  | gt
  | eq
  | lt
  | le
  | ge
  | ne
deriving DecidableEq, Repr

/-- A relation between two exact values. -/
def Relation.holds (r : Relation) (a b : Int) : Bool :=
  match r with
  | .gt => decide (b < a)
  | .eq => decide (a = b)
  | .lt => decide (a < b)
  | .le => decide (a ≤ b)
  | .ge => decide (b ≤ a)
  | .ne => decide (a ≠ b)

/-- The result of TEST: 1 for true (43_bit_test_compare_shift.md rule R335; log 21). -/
def boolWord (b : Bool) : Word := if b then 1 else 0

/-- The result of a compare: -1, 0 or 1 (43_bit_test_compare_shift.md rules R340 to R343). -/
def compareWord (a b : Int) : Word := if a < b then 0xFFFFFFFF else if a = b then 0 else 1

end Sys2Proof.Machine
end

