-- ==== Sys2Proof/Machine/Deliver.lean ====
section
/-! DEFINITION. How an arithmetic result reaches its register and its trap (41_integer_logical.md rules R226, R228;
42_real.md rules R278 to R287; 60_exceptions.md rule R518). -/

namespace Sys2Proof.Machine

/-- What an arithmetic operation delivers: a trap with nothing written, nothing at all, or a value and perhaps a trap
after it is written. The codes are the enable bits of the traps word. -/
inductive Delivery (α : Type) where
  | abort (code : Nat)
  | keep
  | write (v : α) (trap : Option Nat)
deriving DecidableEq, Repr

/-- The end of a register format instruction with an arithmetic result: write, then trap or go on. -/
def deliver {α : Type} (o : Opcode) (x y : RegNo) (put : State → α → State) (d : Delivery α) (s : State) : Outcome :=
  match d with
  | .abort c => raise (.arithmetic (s.op o) x y c) s
  | .keep => advance 2 s
  | .write v none => advance 2 (put s v)
  | .write v (some c) => raise (.arithmetic (s.op o) x y c) (put s v)

/-- The trap of an overflow that is enabled by bit c of the traps word. -/
def State.trapIf (s : State) (cond : Bool) (c : Nat) : Option Nat := if cond && s.trapBit c then some c else none

/-- `IntDivZero()`: nothing changed (41_integer_logical.md rule R228). -/
def State.divZero {α : Type} (s : State) : Delivery α := if s.trapBit 17 then .abort 17 else .keep

/-- An integer overflow that delivers no result (41_integer_logical.md rule R227, DIV and EDIV). -/
def State.overflowKeep {α : Type} (s : State) : Delivery α := if s.trapBit 16 then .abort 16 else .keep

/-- An exact integer result: its value modulo 2^32, and the overflow trap if it does not fit and OV is set
(41_integer_logical.md rules R226, R227). -/
def State.exactResult (s : State) (r : Int) : Delivery Word := .write (BitVec.ofInt 32 r) (s.trapIf (!fits32 r) 16)

end Sys2Proof.Machine
end

