-- ==== Sys2Proof/Machine/Float.lean ====
section
/-! DEFINITION. Real arithmetic (42_real.md): the two formats, the special numbers, exact values, rounding, Table 4-1,
and what an operation delivers. Everything here is a function of patterns; the instructions are in `Real`. -/

namespace Sys2Proof.Machine

open Sys2Proof.Config (RoundMode ZeroSign FpRound)

/-! ### Formats (rules R270 to R272) -/

/-- A real format: the widths of the exponent and of the mantissa. -/
structure Fmt where
  expBits : Nat
  manBits : Nat
deriving DecidableEq, Repr

/-- Single precision (42_real.md rule R270). -/
def single : Fmt := ⟨8, 23⟩
/-- Double precision (42_real.md rule R271). -/
def double : Fmt := ⟨11, 52⟩

/-- The bias of the exponent. -/
def Fmt.bias (f : Fmt) : Nat := 2 ^ (f.expBits - 1) - 1
/-- The exponent field of all ones. -/
def Fmt.maxExp (f : Fmt) : Nat := 2 ^ f.expBits - 1

/-- The three fields of a real pattern. -/
structure RealFields where
  neg : Bool
  exp : Nat
  man : Nat
deriving DecidableEq, Repr

/-- The fields of a single real. -/
def unpackSingle (w : Word) : RealFields := ⟨mbit w 0, (w.extractLsb' 23 8).toNat, (w.extractLsb' 0 23).toNat⟩
/-- The fields of a double real. -/
def unpackDouble (d : DWord) : RealFields := ⟨mbit d 0, (d.extractLsb' 52 11).toNat, (d.extractLsb' 0 52).toNat⟩
/-- The single real of three fields. -/
def packSingle (r : RealFields) : Word := BitVec.ofBool r.neg ++ BitVec.ofNat 8 r.exp ++ BitVec.ofNat 23 r.man
/-- The double real of three fields. -/
def packDouble (r : RealFields) : DWord := BitVec.ofBool r.neg ++ BitVec.ofNat 11 r.exp ++ BitVec.ofNat 52 r.man

/-- The classes of patterns (42_real.md rule R272). -/
inductive RealClass where
  | number
  | zero
  | denormalized
  | infinity
  | notANumber
deriving DecidableEq, Repr

/-- `Class(v)` (42_real.md rule R272). -/
def RealFields.cls (f : Fmt) (r : RealFields) : RealClass :=
  if r.exp = f.maxExp then (if r.man = 0 then .infinity else .notANumber)
  else if r.exp = 0 then (if r.man = 0 then .zero else .denormalized)
  else .number

/-- A zero with a sign. -/
def zeroReal (neg : Bool) : RealFields := ⟨neg, 0, 0⟩
/-- An infinity with a sign. -/
def infReal (f : Fmt) (neg : Bool) : RealFields := ⟨neg, f.maxExp, 0⟩

/-! ### Exact values -/

/-- An exact value `(-1)^neg * num / den * 2^exp`. -/
structure Exact where
  neg : Bool
  num : Nat
  den : Nat
  exp : Int
deriving DecidableEq, Repr

/-- The value of an ordinary number: `(-1)^s * 2^(e - bias) * (1 + m / 2^manBits)` (42_real.md rules R270, R271). -/
def RealFields.exact (f : Fmt) (r : RealFields) : Exact :=
  ⟨r.neg, 2 ^ f.manBits + r.man, 1, (r.exp : Int) - f.bias - f.manBits⟩

/-- The numerator with its sign. -/
def Exact.signed (x : Exact) : Int := if x.neg then -(x.num : Int) else x.num

/-- The exact sum of two values with denominator 1. -/
def Exact.add (a b : Exact) : Exact :=
  let e := min a.exp b.exp
  let n := a.signed * 2 ^ (a.exp - e).toNat + b.signed * 2 ^ (b.exp - e).toNat
  ⟨decide (n < 0), n.natAbs, 1, e⟩

/-- The value with its sign inverted. -/
def Exact.negate (a : Exact) : Exact := { a with neg := !a.neg }

/-- The exact product. -/
def Exact.mul (a b : Exact) : Exact := ⟨a.neg != b.neg, a.num * b.num, a.den * b.den, a.exp + b.exp⟩

/-- The exact quotient. -/
def Exact.div (a b : Exact) : Exact := ⟨a.neg != b.neg, a.num * b.den, a.den * b.num, a.exp - b.exp⟩

/-- The exact value of an integer. -/
def Exact.ofInt (n : Int) : Exact := ⟨decide (n < 0), n.natAbs, 1, 0⟩

/-! ### Rounding (rules R274 to R276) -/

/-- Whether a magnitude `q + r / d` with `r < d` is rounded up to `q + 1` (42_real.md rules R274, R275): to nearest with
ties to even, or in the direction of the mode. -/
def roundsUp (m : RoundMode) (neg : Bool) (q r d : Nat) : Bool :=
  match m with
  | .nearest => decide (d < 2 * r) || (decide (2 * r = d) && decide (q % 2 = 1))
  | .plusInfinity => !neg && decide (r ≠ 0)
  | .minusInfinity => neg && decide (r ≠ 0)
  | .zero => false

/-- A rounded value `(-1)^neg * sig * 2^exp`, and whether rounding changed it. -/
structure Rounded where
  neg : Bool
  sig : Nat
  exp : Int
  inexact : Bool
deriving DecidableEq, Repr

/-- A fraction `num / den` scaled by `2^t`. -/
def scaleFrac (num den : Nat) (t : Int) : Nat × Nat :=
  if 0 ≤ t then (num * 2 ^ t.toNat, den) else (num, den * 2 ^ (-t).toNat)

/-- The power of two that scales a fraction so that its integer part has exactly p bits. -/
def scaleFor (p num den : Nat) : Int :=
  let t : Int := (p : Int) - 1 - ((Nat.log2 num : Int) - (Nat.log2 den : Int))
  let n := scaleFrac num den t
  if n.1 / n.2 < 2 ^ (p - 1) then t + 1 else t

/-- The default `Round(mode, fmt, exact)` of 42_real.md rule R276 for a value that is not zero: the exact value rounded
once to a significand of p bits, the exponent unbounded. -/
def roundExact (p : Nat) (m : RoundMode) (x : Exact) : Rounded :=
  let t := scaleFor p x.num x.den
  let n := scaleFrac x.num x.den t
  let q := n.1 / n.2
  let r := n.1 % n.2
  let q' := if roundsUp m x.neg q r n.2 then q + 1 else q
  if q' = 2 ^ p then ⟨x.neg, 2 ^ (p - 1), x.exp - t + 1, decide (r ≠ 0)⟩
  else ⟨x.neg, q', x.exp - t, decide (r ≠ 0)⟩

/-- Whether a rounded value differs from the exact one (42_real.md rule R276: `r != exact`). -/
def Exact.differs (x : Exact) (sig : Nat) (exp : Int) : Bool :=
  let n := scaleFrac x.num x.den (x.exp - exp)
  decide (n.1 ≠ sig * n.2)

/-- A free rounding: any significand of p bits, with the exponent of the default rounding or one next to it, and the
sign of the exact value (42_real.md rule R276; log 15). -/
def otherRounded (k p : Nat) (m : RoundMode) (x : Exact) : Rounded :=
  let d := Config.otherRound k p m x.neg x.num x.den x.exp
  let sig := 2 ^ (p - 1) + d.1 % 2 ^ (p - 1)
  let exp := (roundExact p m x).exp + ((d.2 % 3 : Nat) : Int) - 1
  ⟨x.neg, sig, exp, x.differs sig exp⟩

/-- `FP.Round` (42_real.md rule R276): the parameter's rounding. -/
def roundReal (k : FpRound) (p : Nat) (m : RoundMode) (x : Exact) : Rounded :=
  match k with
  | .exact => roundExact p m x
  | .other k => otherRounded k p m x

/-- A value with denominator 1 rounded to an integer, and whether that changed it (42_real.md rules R290, R291). -/
def roundToInt (m : RoundMode) (x : Exact) : Int × Bool :=
  if 0 ≤ x.exp then (x.signed * 2 ^ x.exp.toNat, false)
  else
    let d := 2 ^ (-x.exp).toNat
    let q := x.num / d
    let r := x.num % d
    let n : Nat := if roundsUp m x.neg q r d then q + 1 else q
    ((if x.neg then -(n : Int) else n), decide (r ≠ 0))

/-! ### Table 4-1 (rules R279 to R281, R286) -/

/-- The four operations. -/
inductive RealOp where
  | add
  | sub
  | mpy
  | div
deriving DecidableEq, Repr

/-- A result of Table 4-1. -/
inductive TableResult where
  /-- the first operand with the sign shown -/
  | first (neg : Bool)
  /-- the second operand with the sign shown -/
  | second (neg : Bool)
  | zero (neg : Bool)
  | infinity (neg : Bool)
  | divByZero
deriving DecidableEq, Repr

/-- The sign of an exactly zero sum, `n1` and `n2` being the signs of the addends where both are zeros
(42_real.md rule R286). -/
def zeroSumSign (z : ZeroSign) (m : RoundMode) (addends : Option (Bool × Bool)) : Bool :=
  match z with
  | .positive => false
  | .ieee =>
    match addends with
    | some (true, true) => true
    | some (false, false) => false
    | _ => decide (m = .minusInfinity)

/-- The rows and columns of Table 4-1: an infinity stands for a NaN too, a zero for a denormalized number except where
the RDIV column tells them apart. -/
inductive TableRow where
  | number
  | zeroLike
  | infLike
deriving DecidableEq, Repr

/-- The row of a class. -/
def RealClass.row : RealClass → TableRow
  | .number => .number
  | .zero => .zeroLike
  | .denormalized => .zeroLike
  | .infinity => .infLike
  | .notANumber => .infLike

/-- The (D)RADD column of Table 4-1 with `n2` the sign of the second addend (inverted for (D)RSUB). -/
def tableAdd (z : ZeroSign) (m : RoundMode) (c1 c2 : TableRow) (n1 n2 : Bool) : TableResult :=
  match c1, c2 with
  | .infLike, .infLike => .infinity false
  | .infLike, _ => .infinity n1
  | _, .infLike => .infinity n2
  | .zeroLike, .zeroLike => .zero (zeroSumSign z m (some (n1, n2)))
  | .zeroLike, .number => .second n2
  | .number, _ => .first n1

/-- The (D)RMPY column of Table 4-1. -/
def tableMpy (c1 c2 : TableRow) (n : Bool) : TableResult :=
  match c1, c2 with
  | .zeroLike, _ => .zero n
  | _, .zeroLike => .zero n
  | _, _ => .infinity n

/-- The (D)RDIV column of Table 4-1, cell by cell: zero by zero is a zero, every other division by a zero or a
denormalized number is a division by zero (90_conflicts.md C19). -/
def tableDiv (c1 c2 : RealClass) (n : Bool) : TableResult :=
  match c1, c2 with
  | .zero, .zero => .zero n
  | .zero, .denormalized => .divByZero
  | .zero, _ => .zero n
  | .denormalized, .zero => .divByZero
  | .denormalized, .denormalized => .divByZero
  | .denormalized, _ => .zero n
  | _, .zero => .divByZero
  | _, .denormalized => .divByZero
  | .number, _ => .zero n
  | _, .number => .infinity n
  | _, _ => .zero n

/-- Table 4-1, arithmetic part (42_real.md rule R279). -/
def table41 (z : ZeroSign) (m : RoundMode) (op : RealOp) (c1 c2 : RealClass) (n1 n2 : Bool) : TableResult :=
  match op with
  | .add => tableAdd z m c1.row c2.row n1 n2
  | .sub => tableAdd z m c1.row c2.row n1 (!n2)
  | .mpy => tableMpy c1.row c2.row (n1 != n2)
  | .div => tableDiv c1 c2 (n1 != n2)

/-! ### Operations -/

/-- The parts of the traps word that real arithmetic reads, `ZERO_SIGN` and `FP.Round`. -/
structure RealControl where
  before : Bool
  divZero : Bool
  overflow : Bool
  underflow : Bool
  inexact : Bool
  mode : RoundMode
  zeroSign : ZeroSign
  round : FpRound
deriving DecidableEq, Repr

/-- The inexact trap (42_real.md rule R284). -/
def RealControl.inexactTrap (t : RealControl) (inexact : Bool) : Option Nat :=
  if inexact && t.inexact then some 24 else none

/-- The biased exponent of a rounded value. -/
def Rounded.biased (f : Fmt) (r : Rounded) : Int := r.exp + f.manBits + f.bias

/-- `Wrap(r)`: the exponent modulo 2^expBits, sign and mantissa kept (42_real.md rule R285); an exponent in range is
unchanged. -/
def Rounded.wrap (f : Fmt) (r : Rounded) : RealFields :=
  ⟨r.neg, (r.biased f % (2 ^ f.expBits : Int)).toNat, r.sig - 2 ^ f.manBits⟩

/-- Overflow, underflow and inexact of a rounded result (42_real.md rules R282 to R285). -/
def RealControl.settle (t : RealControl) (f : Fmt) (r : Rounded) : Delivery RealFields :=
  if (f.maxExp : Int) - 1 < r.biased f then
    (if t.overflow then .write (r.wrap f) (some 18) else .write (infReal f r.neg) (t.inexactTrap r.inexact))
  else if r.biased f < 1 then
    (if t.underflow then .write (r.wrap f) (some 19) else .write (zeroReal false) (t.inexactTrap r.inexact))
  else .write (r.wrap f) (t.inexactTrap r.inexact)

/-- The exact result of an operation on ordinary numbers. -/
def exactOp (op : RealOp) (a b : Exact) : Exact :=
  match op with
  | .add => a.add b
  | .sub => a.add b.negate
  | .mpy => a.mul b
  | .div => a.div b

/-- A two-operand real instruction, the order of checks of 42_real.md rule R287. -/
def RealControl.arith (t : RealControl) (f : Fmt) (op : RealOp) (a b : RealFields) : Delivery RealFields :=
  if a.cls f = .number ∧ b.cls f = .number then
    let x := exactOp op (a.exact f) (b.exact f)
    if x.num = 0 then .write (zeroReal (zeroSumSign t.zeroSign t.mode none)) none
    else t.settle f (roundReal t.round (f.manBits + 1) t.mode x)
  else if t.before then .abort 25
  else
    match table41 t.zeroSign t.mode op (a.cls f) (b.cls f) a.neg b.neg with
    | .first n => .write { a with neg := n } none
    | .second n => .write { b with neg := n } none
    | .zero n => .write (zeroReal n) none
    | .infinity n => .write (infReal f n) none
    | .divByZero => if t.divZero then .abort 20 else .write (infReal f (a.neg != b.neg)) none

/-- The largest integer with a sign (42_real.md rules R280, R282). -/
def largestInt (neg : Bool) : Word := if neg then 0x80000000 else 0x7FFFFFFF

/-- (D)FIXR and (D)FIXT: the integer of a real, `inexactToo` for FIXR and DFIXR (42_real.md rules R290, R291, R280). -/
def RealControl.toInt (t : RealControl) (f : Fmt) (m : RoundMode) (inexactToo : Bool) (b : RealFields) : Delivery Word :=
  match b.cls f with
  | .number =>
    let n := roundToInt m (b.exact f)
    let ix := if inexactToo then t.inexactTrap n.2 else none
    if 2 ^ 31 - 1 < n.1 then .write (largestInt false) (if t.overflow then some 18 else ix)
    else if n.1 < -2 ^ 31 then .write (largestInt true) (if t.overflow then some 18 else ix)
    else .write (BitVec.ofInt 32 n.1) ix
  | .zero => if t.before then .abort 25 else .write 0 none
  | .denormalized => if t.before then .abort 25 else .write 0 none
  | .infinity => if t.before then .abort 25 else .write (largestInt b.neg) none
  | .notANumber => if t.before then .abort 25 else .write (largestInt b.neg) none

/-- FLOAT and DFLOAT: the real of an integer (42_real.md rules R292, R302). -/
def RealControl.ofInt (t : RealControl) (f : Fmt) (n : Int) : Delivery RealFields :=
  if n = 0 then .write (zeroReal false) none
  else
    let r := roundReal t.round (f.manBits + 1) t.mode (.ofInt n)
    .write (r.wrap f) (t.inexactTrap r.inexact)

/-- MAKERD: the double of a single, exact (42_real.md rules R293, R280). -/
def RealControl.toDouble (t : RealControl) (b : RealFields) : Delivery RealFields :=
  match b.cls single with
  | .number => .write ⟨b.neg, b.exp + double.bias - single.bias, b.man * 2 ^ 29⟩ none
  | .zero => if t.before then .abort 25 else .write (zeroReal b.neg) none
  | .denormalized => if t.before then .abort 25 else .write (zeroReal b.neg) none
  | .infinity => if t.before then .abort 25 else .write (infReal double b.neg) none
  | .notANumber => if t.before then .abort 25 else .write (infReal double b.neg) none

/-- MAKEDR: the single of a double; overflow gives an infinity and underflow a zero of the operand's sign with the trap
on or off (42_real.md rules R308, R282, R283, R280). -/
def RealControl.toSingle (t : RealControl) (b : RealFields) : Delivery RealFields :=
  match b.cls double with
  | .number =>
    let r := roundReal t.round (single.manBits + 1) t.mode (b.exact double)
    if (single.maxExp : Int) - 1 < r.biased single then
      .write (infReal single b.neg) (if t.overflow then some 18 else t.inexactTrap r.inexact)
    else if r.biased single < 1 then
      .write (zeroReal b.neg) (if t.underflow then some 19 else t.inexactTrap r.inexact)
    else .write (r.wrap single) (t.inexactTrap r.inexact)
  | .zero => if t.before then .abort 25 else .write (zeroReal b.neg) none
  | .denormalized => if t.before then .abort 25 else .write (zeroReal b.neg) none
  | .infinity => if t.before then .abort 25 else .write (infReal single b.neg) none
  | .notANumber => if t.before then .abort 25 else .write (infReal single b.neg) none

/-- A number that orders the patterns of one format by value: a denormalized number as a zero, a NaN as an infinity
(43_bit_test_compare_shift.md rule R342). -/
def RealFields.orderKey (f : Fmt) (r : RealFields) : Int :=
  let mag : Nat :=
    match r.cls f with
    | .number => r.exp * 2 ^ f.manBits + r.man
    | .zero => 0
    | .denormalized => 0
    | .infinity => f.maxExp * 2 ^ f.manBits
    | .notANumber => f.maxExp * 2 ^ f.manBits
  if r.neg then -(mag : Int) else mag

/-- RCOMP and DRCOMP (43_bit_test_compare_shift.md rules R342, R343). -/
def RealControl.compare (t : RealControl) (f : Fmt) (a b : RealFields) : Delivery Word :=
  if (a.cls f ≠ .number ∨ b.cls f ≠ .number) ∧ t.before = true then .abort 25
  else .write (compareWord (a.orderKey f) (b.orderKey f)) none

end Sys2Proof.Machine
end

