-- ==== Sys2Proof/Machine/Integer.lean ====
section
/-! DEFINITION. The integer, logical, immediate and extended-precision integer instructions
(41_integer_logical.md). -/

namespace Sys2Proof.Machine

/-- `Quot(a, b)` of 41_integer_logical.md rule R221: the quotient rounded as `DIV_ROUND` says. -/
def divQuot (r : Config.DivRound) (a b : Int) : Int :=
  match r with
  | .floor => Int.fdiv a b
  | .trunc => Int.tdiv a b

/-- A result delivered into Rx. -/
def State.put (x : RegNo) (s : State) (v : Word) : State := s.setReg x v

/-- A result delivered into RPx. -/
def State.putPair (x : RegNo) (s : State) (v : DWord) : State := s.setPair x v

/-- The end of a register format instruction that writes Rx and cannot trap. -/
def setAndGo (x : RegNo) (v : Word) (s : State) : Outcome := advance 2 (s.setReg x v)

/-- The end of a register format instruction that writes RPx and cannot trap. -/
def setPairAndGo (x : RegNo) (v : DWord) (s : State) : Outcome := advance 2 (s.setPair x v)

/-- An integer instruction whose exact result is `r` (41_integer_logical.md rules R220, R222, R225, R242, R243,
R245). -/
def exactInto (o : Opcode) (x y : RegNo) (r : Int) (s : State) : Outcome :=
  deliver o x y (State.put x) (s.exactResult r) s

/-- What DIV delivers (41_integer_logical.md rule R221). -/
def State.divResult (s : State) (a b : Word) : Delivery Word :=
  if b = 0 then s.divZero
  else if a = 0x80000000 ∧ b = 0xFFFFFFFF then s.overflowKeep
  else .write (BitVec.ofInt 32 (divQuot s.cfg.divRound a.toInt b.toInt)) none

/-- What REM delivers (41_integer_logical.md rule R224). -/
def State.remResult (s : State) (a b : Word) : Delivery Word :=
  if b = 0 then s.divZero
  else if a = 0x80000000 ∧ b = 0xFFFFFFFF then .write 0 (s.trapIf true 16)
  else .write (BitVec.ofInt 32 (a.toInt - divQuot s.cfg.divRound a.toInt b.toInt * b.toInt)) none

/-- What EDIV delivers: the quotient over the remainder (41_integer_logical.md rule R251). -/
def State.edivResult (s : State) (n : DWord) (d : Word) : Delivery DWord :=
  if d = 0 then s.divZero
  else if s.cfg.edivOverflow.limit ≤ n.toNat / d.toNat then s.overflowKeep
  else .write (BitVec.ofNat 32 (n.toNat / d.toNat) ++ BitVec.ofNat 32 (n.toNat % d.toNat)) none

/-- EADD of `a` and `b`, ESUB with `b` complemented: the sum with the carry of R0 into Rx, overflow and carry into R0;
Rx = R0 is outside the specification (41_integer_logical.md rules R250, R253). The signed difference of R253 is the
signed sum with the complement, `-b - 1` being the value of `~b`. -/
def extendedSum (x : RegNo) (a b : Word) (s : State) : Outcome :=
  if x = 0 then .fault .extendedIntoR0
  else
    let cin : Nat := if mbit (s.reg 0) 31 then 1 else 0
    let t : Nat := a.toNat + b.toNat + cin
    let ts : Int := a.toInt + b.toInt + cin
    advance 2 ((s.setReg x (BitVec.ofNat 32 t)).setReg 0 (extendedFlags (!fits32 ts) (decide (2 ^ 32 ≤ t))))

/-- `add`: ADD Rx, Ry (41_integer_logical.md rule R220). -/
def execAdd (x y : RegNo) (s : State) : Outcome :=
  exactInto .add x y ((s.reg x).toInt + (s.reg y).toInt) s

/-- `div`: DIV Rx, Ry (41_integer_logical.md rule R221). -/
def execDiv (x y : RegNo) (s : State) : Outcome :=
  deliver .div x y (State.put x) (s.divResult (s.reg x) (s.reg y)) s

/-- `mpy`: MPY Rx, Ry (41_integer_logical.md rule R222). -/
def execMpy (x y : RegNo) (s : State) : Outcome :=
  exactInto .mpy x y ((s.reg x).toInt * (s.reg y).toInt) s

/-- `neg`: NEG Rx, Ry (41_integer_logical.md rule R223). -/
def execNeg (x y : RegNo) (s : State) : Outcome :=
  exactInto .neg x y (-(s.reg y).toInt) s

/-- `rem`: REM Rx, Ry (41_integer_logical.md rule R224). -/
def execRem (x y : RegNo) (s : State) : Outcome :=
  deliver .rem x y (State.put x) (s.remResult (s.reg x) (s.reg y)) s

/-- `sub`: SUB Rx, Ry (41_integer_logical.md rule R225). -/
def execSub (x y : RegNo) (s : State) : Outcome :=
  exactInto .sub x y ((s.reg x).toInt - (s.reg y).toInt) s

/-- `and`: AND Rx, Ry (41_integer_logical.md rule R229). -/
def execAnd (x y : RegNo) (s : State) : Outcome :=
  setAndGo x (s.reg x &&& s.reg y) s

/-- `moverr`: MOVE Rx, Ry (41_integer_logical.md rule R230). -/
def execMoverr (x y : RegNo) (s : State) : Outcome :=
  setAndGo x (s.reg y) s

/-- `not`: NOT Rx, Ry (41_integer_logical.md rule R231). -/
def execNot (x y : RegNo) (s : State) : Outcome :=
  setAndGo x (~~~ s.reg y) s

/-- `or`: OR Rx, Ry (41_integer_logical.md rule R232). -/
def execOr (x y : RegNo) (s : State) : Outcome :=
  setAndGo x (s.reg x ||| s.reg y) s

/-- `xor`: XOR Rx, Ry (41_integer_logical.md rule R233). -/
def execXor (x y : RegNo) (s : State) : Outcome :=
  setAndGo x (s.reg x ^^^ s.reg y) s

/-- `nop`: NOP (41_integer_logical.md rule R234). -/
def execNop (_x _y : RegNo) (s : State) : Outcome :=
  advance 2 s

/-- `moveri`: MOVE Rx, val (41_integer_logical.md rule R240). -/
def execMoveri (x y : RegNo) (s : State) : Outcome :=
  setAndGo x (imm4 y) s

/-- `noti`: NOT Rx, val (41_integer_logical.md rule R241). -/
def execNoti (x y : RegNo) (s : State) : Outcome :=
  setAndGo x (~~~ imm4 y) s

/-- `addi`: ADD Rx, val (41_integer_logical.md rule R242). -/
def execAddi (x y : RegNo) (s : State) : Outcome :=
  exactInto .addi x y ((s.reg x).toInt + y.toNat) s

/-- `subi`: SUB Rx, val (41_integer_logical.md rule R243). -/
def execSubi (x y : RegNo) (s : State) : Outcome :=
  exactInto .subi x y ((s.reg x).toInt - y.toNat) s

/-- `andi`: AND Rx, val (41_integer_logical.md rule R244). -/
def execAndi (x y : RegNo) (s : State) : Outcome :=
  setAndGo x (s.reg x &&& imm4 y) s

/-- `mpyi`: MPY Rx, val (41_integer_logical.md rule R245). -/
def execMpyi (x y : RegNo) (s : State) : Outcome :=
  exactInto .mpyi x y ((s.reg x).toInt * y.toNat) s

/-- `eadd`: EADD Rx, Ry (41_integer_logical.md rule R250). -/
def execEadd (x y : RegNo) (s : State) : Outcome :=
  extendedSum x (s.reg x) (s.reg y) s

/-- `ediv`: EDIV Rx, Ry (41_integer_logical.md rule R251). -/
def execEdiv (x y : RegNo) (s : State) : Outcome :=
  deliver .ediv x y (State.putPair x) (s.edivResult (s.pair x) (s.reg y)) s

/-- `empy`: EMPY Rx, Ry (41_integer_logical.md rule R252). -/
def execEmpy (x y : RegNo) (s : State) : Outcome :=
  setPairAndGo x (BitVec.ofNat 64 ((s.reg x).toNat * (s.reg y).toNat)) s

/-- `esub`: ESUB Rx, Ry (41_integer_logical.md rule R253). -/
def execEsub (x y : RegNo) (s : State) : Outcome :=
  extendedSum x (s.reg x) (~~~ s.reg y) s

end Sys2Proof.Machine
end

