-- ==== Sys2Proof/Machine/Real.lean ====
section
/-! DEFINITION. The real and double real instructions (42_real.md). -/

namespace Sys2Proof.Machine

/-- What real arithmetic reads of the traps word in effect, `ZERO_SIGN` and `FP.Round` (42_real.md rules R274, R276,
R286). -/
def State.realControl (s : State) : RealControl :=
  { before := s.trapBit 25, divZero := s.trapBit 20, overflow := s.trapBit 18, underflow := s.trapBit 19,
    inexact := s.trapBit 24, mode := s.roundMode, zeroSign := s.cfg.zeroSign,
    round := s.cfg.fpRound }

/-- `FP.fixr_mode` (42_real.md rule R290). -/
def State.fixrMode (s : State) : Config.RoundMode :=
  match s.cfg.fixrMode with
  | .current => s.roundMode
  | .always m => m

/-- A single real delivered into Rx. -/
def State.putSingle (x : RegNo) (s : State) (v : RealFields) : State := s.setReg x (packSingle v)

/-- A double real delivered into RPx. -/
def State.putDouble (x : RegNo) (s : State) (v : RealFields) : State := s.setPair x (packDouble v)

/-- A two-operand single real instruction (42_real.md rule R287). -/
def singleOp (o : Opcode) (op : RealOp) (x y : RegNo) (s : State) : Outcome :=
  deliver o x y (State.putSingle x)
    (s.realControl.arith single op (unpackSingle (s.reg x)) (unpackSingle (s.reg y))) s

/-- A two-operand double real instruction (42_real.md rules R287, R299). -/
def doubleOp (o : Opcode) (op : RealOp) (x y : RegNo) (s : State) : Outcome :=
  deliver o x y (State.putDouble x)
    (s.realControl.arith double op (unpackDouble (s.pair x)) (unpackDouble (s.pair y))) s

/-- `fixr`: FIXR Rx, Ry (42_real.md rule R290). -/
def execFixr (x y : RegNo) (s : State) : Outcome :=
  deliver .fixr x y (State.put x) (s.realControl.toInt single s.fixrMode true (unpackSingle (s.reg y))) s

/-- `fixt`: FIXT Rx, Ry (42_real.md rule R291). -/
def execFixt (x y : RegNo) (s : State) : Outcome :=
  deliver .fixt x y (State.put x) (s.realControl.toInt single .zero false (unpackSingle (s.reg y))) s

/-- `float`: FLOAT Rx, Ry (42_real.md rule R292). -/
def execFloat (x y : RegNo) (s : State) : Outcome :=
  deliver .float x y (State.putSingle x) (s.realControl.ofInt single (s.reg y).toInt) s

/-- `makerd`: MAKERD Rx, Ry (42_real.md rule R293). -/
def execMakerd (x y : RegNo) (s : State) : Outcome :=
  deliver .makerd x y (State.putDouble x) (s.realControl.toDouble (unpackSingle (s.reg y))) s

/-- `radd`: RADD Rx, Ry (42_real.md rule R294). -/
def execRadd (x y : RegNo) (s : State) : Outcome :=
  singleOp .radd .add x y s

/-- `rdiv`: RDIV Rx, Ry (42_real.md rule R295). -/
def execRdiv (x y : RegNo) (s : State) : Outcome :=
  singleOp .rdiv .div x y s

/-- `rmpy`: RMPY Rx, Ry (42_real.md rule R296). -/
def execRmpy (x y : RegNo) (s : State) : Outcome :=
  singleOp .rmpy .mpy x y s

/-- `rneg`: RNEG Rx, Ry (42_real.md rule R297). -/
def execRneg (x y : RegNo) (s : State) : Outcome :=
  setAndGo x (s.reg y ^^^ 0x80000000) s

/-- `rsub`: RSUB Rx, Ry (42_real.md rule R298). -/
def execRsub (x y : RegNo) (s : State) : Outcome :=
  singleOp .rsub .sub x y s

/-- `dfixr`: DFIXR Rx, Ry (42_real.md rule R300). -/
def execDfixr (x y : RegNo) (s : State) : Outcome :=
  deliver .dfixr x y (State.put x) (s.realControl.toInt double s.fixrMode true (unpackDouble (s.pair y))) s

/-- `dfixt`: DFIXT Rx, Ry (42_real.md rule R301). -/
def execDfixt (x y : RegNo) (s : State) : Outcome :=
  deliver .dfixt x y (State.put x) (s.realControl.toInt double .zero false (unpackDouble (s.pair y))) s

/-- `dfloat`: DFLOAT Rx, Ry, the double equal to the integer whatever `FP.Round` is (42_real.md rule R302). -/
def execDfloat (x y : RegNo) (s : State) : Outcome :=
  deliver .dfloat x y (State.putDouble x) ({ s.realControl with round := .exact }.ofInt double (s.reg y).toInt) s

/-- `dradd`: DRADD Rx, Ry (42_real.md rule R303). -/
def execDradd (x y : RegNo) (s : State) : Outcome :=
  doubleOp .dradd .add x y s

/-- `drdiv`: DRDIV Rx, Ry (42_real.md rule R304). -/
def execDrdiv (x y : RegNo) (s : State) : Outcome :=
  doubleOp .drdiv .div x y s

/-- `drmpy`: DRMPY Rx, Ry (42_real.md rule R305). -/
def execDrmpy (x y : RegNo) (s : State) : Outcome :=
  doubleOp .drmpy .mpy x y s

/-- `drneg`: DRNEG Rx, Ry (42_real.md rule R306). -/
def execDrneg (x y : RegNo) (s : State) : Outcome :=
  setPairAndGo x (s.pair y ^^^ 0x8000000000000000) s

/-- `drsub`: DRSUB Rx, Ry (42_real.md rule R307). -/
def execDrsub (x y : RegNo) (s : State) : Outcome :=
  doubleOp .drsub .sub x y s

/-- `makedr`: MAKEDR Rx, Ry (42_real.md rule R308). -/
def execMakedr (x y : RegNo) (s : State) : Outcome :=
  deliver .makedr x y (State.putSingle x) (s.realControl.toSingle (unpackDouble (s.pair y))) s

end Sys2Proof.Machine
end

