-- ==== Sys2Proof/Machine/BitShift.lean ====
section
/-! DEFINITION. The bit, test, compare, shift and sign extend instructions (43_bit_test_compare_shift.md). -/

namespace Sys2Proof.Machine

/-- The bit of a pair with the manual's number n, alone (43_bit_test_compare_shift.md rules R330 to R332). -/
def pairBit (n : Nat) : DWord := 1#64 <<< (63 - n)

/-- TEST Rx relop Ry (43_bit_test_compare_shift.md rule R335). -/
def testRegs (r : Relation) (x y : RegNo) (s : State) : Outcome :=
  setAndGo x (boolWord (r.holds (s.reg x).toInt (s.reg y).toInt)) s

/-- TEST Rx relop val (43_bit_test_compare_shift.md rule R335). -/
def testImm (r : Relation) (x y : RegNo) (s : State) : Outcome :=
  setAndGo x (boolWord (r.holds (s.reg x).toInt y.toNat)) s

/-- ASL by n (43_bit_test_compare_shift.md rule R353). -/
def shiftArithLeft (o : Opcode) (x y : RegNo) (n : Nat) (s : State) : Outcome :=
  deliver o x y (State.put x) (.write (s.reg x <<< n) (s.trapIf (aslOverflow (s.reg x) n) 16)) s

/-- `cbit`: CBIT Rx, Ry (43_bit_test_compare_shift.md rule R330). -/
def execCbit (x y : RegNo) (s : State) : Outcome :=
  setPairAndGo x (s.pair x &&& ~~~ pairBit (s.count64 y)) s

/-- `sbit`: SBIT Rx, Ry (43_bit_test_compare_shift.md rule R331). -/
def execSbit (x y : RegNo) (s : State) : Outcome :=
  setPairAndGo x (s.pair x ||| pairBit (s.count64 y)) s

/-- `tbit`: TBIT Rx, Ry (43_bit_test_compare_shift.md rule R332). -/
def execTbit (x y : RegNo) (s : State) : Outcome :=
  setAndGo x (boolWord (mbit (s.pair x) (s.count64 y))) s

/-- `test>`: TEST Rx > Ry (43_bit_test_compare_shift.md rule R335). -/
def execTestGt (x y : RegNo) (s : State) : Outcome :=
  testRegs .gt x y s

/-- `test=`: TEST Rx = Ry (43_bit_test_compare_shift.md rule R335). -/
def execTestEq (x y : RegNo) (s : State) : Outcome :=
  testRegs .eq x y s

/-- `test<`: TEST Rx < Ry (43_bit_test_compare_shift.md rule R335). -/
def execTestLt (x y : RegNo) (s : State) : Outcome :=
  testRegs .lt x y s

/-- `test<=`: TEST Rx <= Ry (43_bit_test_compare_shift.md rule R335). -/
def execTestLe (x y : RegNo) (s : State) : Outcome :=
  testRegs .le x y s

/-- `test>=`: TEST Rx >= Ry (43_bit_test_compare_shift.md rule R335). -/
def execTestGe (x y : RegNo) (s : State) : Outcome :=
  testRegs .ge x y s

/-- `test<>`: TEST Rx <> Ry (43_bit_test_compare_shift.md rule R335). -/
def execTestNe (x y : RegNo) (s : State) : Outcome :=
  testRegs .ne x y s

/-- `testi>`: TEST Rx > val (43_bit_test_compare_shift.md rule R335). -/
def execTestiGt (x y : RegNo) (s : State) : Outcome :=
  testImm .gt x y s

/-- `testi=`: TEST Rx = val (43_bit_test_compare_shift.md rule R335). -/
def execTestiEq (x y : RegNo) (s : State) : Outcome :=
  testImm .eq x y s

/-- `testi<`: TEST Rx < val (43_bit_test_compare_shift.md rule R335). -/
def execTestiLt (x y : RegNo) (s : State) : Outcome :=
  testImm .lt x y s

/-- `testi<=`: TEST Rx <= val (43_bit_test_compare_shift.md rule R335). -/
def execTestiLe (x y : RegNo) (s : State) : Outcome :=
  testImm .le x y s

/-- `testi>=`: TEST Rx >= val (43_bit_test_compare_shift.md rule R335). -/
def execTestiGe (x y : RegNo) (s : State) : Outcome :=
  testImm .ge x y s

/-- `testi<>`: TEST Rx <> val (43_bit_test_compare_shift.md rule R335). -/
def execTestiNe (x y : RegNo) (s : State) : Outcome :=
  testImm .ne x y s

/-- `lcomp`: LCOMP Rx, Ry (43_bit_test_compare_shift.md rule R340). -/
def execLcomp (x y : RegNo) (s : State) : Outcome :=
  setAndGo x (compareWord (s.reg x).toNat (s.reg y).toNat) s

/-- `dcomp`: DCOMP Rx, Ry (43_bit_test_compare_shift.md rule R341). -/
def execDcomp (x y : RegNo) (s : State) : Outcome :=
  setAndGo x (compareWord (s.pair x).toInt (s.pair y).toInt) s

/-- `rcomp`: RCOMP Rx, Ry (43_bit_test_compare_shift.md rule R342). -/
def execRcomp (x y : RegNo) (s : State) : Outcome :=
  deliver .rcomp x y (State.put x)
    (s.realControl.compare single (unpackSingle (s.reg x)) (unpackSingle (s.reg y))) s

/-- `drcomp`: DRCOMP Rx, Ry (43_bit_test_compare_shift.md rule R343). -/
def execDrcomp (x y : RegNo) (s : State) : Outcome :=
  deliver .drcomp x y (State.put x)
    (s.realControl.compare double (unpackDouble (s.pair x)) (unpackDouble (s.pair y))) s

/-- `csl`: CSL Rx, Ry (43_bit_test_compare_shift.md rule R350). -/
def execCsl (x y : RegNo) (s : State) : Outcome :=
  setAndGo x ((s.reg x).rotateLeft (s.count32 y)) s

/-- `csli`: CSL Rx, val (43_bit_test_compare_shift.md rule R350). -/
def execCsli (x y : RegNo) (s : State) : Outcome :=
  setAndGo x ((s.reg x).rotateLeft y.toNat) s

/-- `lsl`: LSL Rx, Ry (43_bit_test_compare_shift.md rule R351). -/
def execLsl (x y : RegNo) (s : State) : Outcome :=
  setAndGo x (s.reg x <<< (s.count32 y)) s

/-- `lsli`: LSL Rx, val (43_bit_test_compare_shift.md rule R351). -/
def execLsli (x y : RegNo) (s : State) : Outcome :=
  setAndGo x (s.reg x <<< y.toNat) s

/-- `lsr`: LSR Rx, Ry (43_bit_test_compare_shift.md rule R352). -/
def execLsr (x y : RegNo) (s : State) : Outcome :=
  setAndGo x (s.reg x >>> (s.count32 y)) s

/-- `lsri`: LSR Rx, val (43_bit_test_compare_shift.md rule R352). -/
def execLsri (x y : RegNo) (s : State) : Outcome :=
  setAndGo x (s.reg x >>> y.toNat) s

/-- `asl`: ASL Rx, Ry (43_bit_test_compare_shift.md rule R353). -/
def execAsl (x y : RegNo) (s : State) : Outcome :=
  shiftArithLeft .asl x y (s.count32 y) s

/-- `asli`: ASL Rx, val (43_bit_test_compare_shift.md rule R353). -/
def execAsli (x y : RegNo) (s : State) : Outcome :=
  shiftArithLeft .asli x y y.toNat s

/-- `asr`: ASR Rx, Ry (43_bit_test_compare_shift.md rule R354). -/
def execAsr (x y : RegNo) (s : State) : Outcome :=
  setAndGo x ((s.reg x).sshiftRight (s.count32 y)) s

/-- `asri`: ASR Rx, val (43_bit_test_compare_shift.md rule R354). -/
def execAsri (x y : RegNo) (s : State) : Outcome :=
  setAndGo x ((s.reg x).sshiftRight y.toNat) s

/-- `dlsl`: DLSL Rx, Ry (43_bit_test_compare_shift.md rule R355). -/
def execDlsl (x y : RegNo) (s : State) : Outcome :=
  setPairAndGo x (s.pair x <<< (s.count64 y)) s

/-- `dlsli`: DLSL Rx, val (43_bit_test_compare_shift.md rule R355). -/
def execDlsli (x y : RegNo) (s : State) : Outcome :=
  setPairAndGo x (s.pair x <<< y.toNat) s

/-- `dlsr`: DLSR Rx, Ry (43_bit_test_compare_shift.md rule R356). -/
def execDlsr (x y : RegNo) (s : State) : Outcome :=
  setPairAndGo x (s.pair x >>> (s.count64 y)) s

/-- `dlsri`: DLSR Rx, val (43_bit_test_compare_shift.md rule R356). -/
def execDlsri (x y : RegNo) (s : State) : Outcome :=
  setPairAndGo x (s.pair x >>> y.toNat) s

/-- `seb`: SEB Rx, Ry (43_bit_test_compare_shift.md rule R360). -/
def execSeb (x y : RegNo) (s : State) : Outcome :=
  setAndGo x (((s.reg y).extractLsb' 0 8).signExtend 32) s

/-- `seh`: SEH Rx, Ry (43_bit_test_compare_shift.md rule R361). -/
def execSeh (x y : RegNo) (s : State) : Outcome :=
  setAndGo x (((s.reg y).extractLsb' 0 16).signExtend 32) s

end Sys2Proof.Machine
end

