-- ==== Sys2Proof/Machine/Control.lean ====
section
/-! DEFINITION. The branch, loop, call, return and trap instructions (44_program_control.md). -/

namespace Sys2Proof.Machine

/-- A transfer to `t` when the condition holds, else the next instruction (44_program_control.md rules R391, R393). -/
def branchIf (c : Bool) (t : Word) (il : Nat) (s : State) : Outcome := if c then jump t s else advance il s

/-- BR Rx relop Ry (44_program_control.md rule R393). -/
def branchRegs (r : Relation) (x y : RegNo) (disp : Word) (il : Nat) (s : State) : Outcome :=
  branchIf (r.holds (s.reg x).toInt (s.reg y).toInt) (s.target disp) il s

/-- BR Rx relop val (44_program_control.md rule R394). -/
def branchImm (r : Relation) (x y : RegNo) (disp : Word) (il : Nat) (s : State) : Outcome :=
  branchIf (r.holds (s.reg x).toInt y.toNat) (s.target disp) il s

/-- LOOP: the branch looks at the sign of the exact sum (44_program_control.md rule R395). -/
def loopBy (x y : RegNo) (disp : Word) (il : Nat) (s : State) : Outcome :=
  let r : Int := (s.reg x).toInt + y.toNat
  branchIf (decide (r < 0)) (s.target disp) il (s.setReg x (BitVec.ofInt 32 r))

/-- A transfer to `t` that leaves the address of the next instruction in Rx (44_program_control.md rules R396 to
R398). -/
def callTo (x : RegNo) (t : Word) (il : Nat) (s : State) : Outcome :=
  jump t (s.setReg x (s.pc + BitVec.ofNat 32 il))

/-- CHK and CHKI: the check trap when the condition holds (44_program_control.md rules R400, R401). -/
def checkRange (o : Opcode) (x y : RegNo) (bad : Bool) (s : State) : Outcome :=
  if bad then raise (.checkTrap (s.op o) x y) s else advance 2 s

/-- TRAP n. SR3 receives n when it traps; when it does not, SR3 is n or unchanged, left open
(44_program_control.md rule R402; 93_implementation_defined.md U11; log 37). -/
def trapInstruction (x y : RegNo) (s : State) : Outcome :=
  if s.mode = .kernel ∨ s.trapBit y.toNat = true then raise (.arithmetic (s.op .trap) x y y.toNat) s
  else if mbit (Config.freeWord s.draws .trapSr3) 31 then advance 2 (s.setSreg 3 (imm4 y))
  else advance 2 s

/-- `br`: BR disp (44_program_control.md rule R392). -/
def execBr (_x _y : RegNo) (d : BitVec 16) (s : State) : Outcome :=
  jump (s.target (shortDisp d)) s

/-- `brl`: BR disp, L (44_program_control.md rule R392). -/
def execBrl (_x _y : RegNo) (d : BitVec 32) (s : State) : Outcome :=
  jump (s.target d) s

/-- `br>`: BR Rx > Ry, disp (44_program_control.md rule R393). -/
def execBrGt (x y : RegNo) (d : BitVec 16) (s : State) : Outcome :=
  branchRegs .gt x y (shortDisp d) 4 s

/-- `br>l`: BR Rx > Ry, disp, L (44_program_control.md rule R393). -/
def execBrGtL (x y : RegNo) (d : BitVec 32) (s : State) : Outcome :=
  branchRegs .gt x y d 6 s

/-- `br=`: BR Rx = Ry, disp (44_program_control.md rule R393). -/
def execBrEq (x y : RegNo) (d : BitVec 16) (s : State) : Outcome :=
  branchRegs .eq x y (shortDisp d) 4 s

/-- `br=l`: BR Rx = Ry, disp, L (44_program_control.md rule R393). -/
def execBrEqL (x y : RegNo) (d : BitVec 32) (s : State) : Outcome :=
  branchRegs .eq x y d 6 s

/-- `br<=`: BR Rx <= Ry, disp (44_program_control.md rule R393). -/
def execBrLe (x y : RegNo) (d : BitVec 16) (s : State) : Outcome :=
  branchRegs .le x y (shortDisp d) 4 s

/-- `br<=l`: BR Rx <= Ry, disp, L (44_program_control.md rule R393). -/
def execBrLeL (x y : RegNo) (d : BitVec 32) (s : State) : Outcome :=
  branchRegs .le x y d 6 s

/-- `br<>`: BR Rx <> Ry, disp (44_program_control.md rule R393). -/
def execBrNe (x y : RegNo) (d : BitVec 16) (s : State) : Outcome :=
  branchRegs .ne x y (shortDisp d) 4 s

/-- `br<>l`: BR Rx <> Ry, disp, L (44_program_control.md rule R393). -/
def execBrNeL (x y : RegNo) (d : BitVec 32) (s : State) : Outcome :=
  branchRegs .ne x y d 6 s

/-- `bri>`: BR Rx > val, disp (44_program_control.md rule R394). -/
def execBriGt (x y : RegNo) (d : BitVec 16) (s : State) : Outcome :=
  branchImm .gt x y (shortDisp d) 4 s

/-- `bri>l`: BR Rx > val, disp, L (44_program_control.md rule R394). -/
def execBriGtL (x y : RegNo) (d : BitVec 32) (s : State) : Outcome :=
  branchImm .gt x y d 6 s

/-- `bri<`: BR Rx < val, disp (44_program_control.md rule R394). -/
def execBriLt (x y : RegNo) (d : BitVec 16) (s : State) : Outcome :=
  branchImm .lt x y (shortDisp d) 4 s

/-- `bri<l`: BR Rx < val, disp, L (44_program_control.md rule R394). -/
def execBriLtL (x y : RegNo) (d : BitVec 32) (s : State) : Outcome :=
  branchImm .lt x y d 6 s

/-- `bri=`: BR Rx = val, disp (44_program_control.md rule R394). -/
def execBriEq (x y : RegNo) (d : BitVec 16) (s : State) : Outcome :=
  branchImm .eq x y (shortDisp d) 4 s

/-- `bri=l`: BR Rx = val, disp, L (44_program_control.md rule R394). -/
def execBriEqL (x y : RegNo) (d : BitVec 32) (s : State) : Outcome :=
  branchImm .eq x y d 6 s

/-- `bri<=`: BR Rx <= val, disp (44_program_control.md rule R394). -/
def execBriLe (x y : RegNo) (d : BitVec 16) (s : State) : Outcome :=
  branchImm .le x y (shortDisp d) 4 s

/-- `bri<=l`: BR Rx <= val, disp, L (44_program_control.md rule R394). -/
def execBriLeL (x y : RegNo) (d : BitVec 32) (s : State) : Outcome :=
  branchImm .le x y d 6 s

/-- `bri>=`: BR Rx >= val, disp (44_program_control.md rule R394). -/
def execBriGe (x y : RegNo) (d : BitVec 16) (s : State) : Outcome :=
  branchImm .ge x y (shortDisp d) 4 s

/-- `bri>=l`: BR Rx >= val, disp, L (44_program_control.md rule R394). -/
def execBriGeL (x y : RegNo) (d : BitVec 32) (s : State) : Outcome :=
  branchImm .ge x y d 6 s

/-- `bri<>`: BR Rx <> val, disp (44_program_control.md rule R394). -/
def execBriNe (x y : RegNo) (d : BitVec 16) (s : State) : Outcome :=
  branchImm .ne x y (shortDisp d) 4 s

/-- `bri<>l`: BR Rx <> val, disp, L (44_program_control.md rule R394). -/
def execBriNeL (x y : RegNo) (d : BitVec 32) (s : State) : Outcome :=
  branchImm .ne x y d 6 s

/-- `loop`: LOOP Rx, val, disp (44_program_control.md rule R395). -/
def execLoop (x y : RegNo) (d : BitVec 16) (s : State) : Outcome :=
  loopBy x y (shortDisp d) 4 s

/-- `loopl`: LOOP Rx, val, disp, L (44_program_control.md rule R395). -/
def execLoopl (x y : RegNo) (d : BitVec 32) (s : State) : Outcome :=
  loopBy x y d 6 s

/-- `call`: CALL Rx, disp (44_program_control.md rule R396). -/
def execCall (x _y : RegNo) (d : BitVec 16) (s : State) : Outcome :=
  callTo x (s.target (shortDisp d)) 4 s

/-- `calll`: CALL Rx, disp, L (44_program_control.md rule R396). -/
def execCalll (x _y : RegNo) (d : BitVec 32) (s : State) : Outcome :=
  callTo x (s.target d) 6 s

/-- `callr`: CALLR Rx, Ry (44_program_control.md rule R397). -/
def execCallr (x y : RegNo) (s : State) : Outcome :=
  callTo x (s.pc + s.reg y) 2 s

/-- `ret`: RET Rx, Ry (44_program_control.md rule R398). -/
def execRet (x y : RegNo) (s : State) : Outcome :=
  callTo x (s.reg y) 2 s

/-- `chk`: CHK Rx, Ry (44_program_control.md rule R400). -/
def execChk (x y : RegNo) (s : State) : Outcome :=
  checkRange .chk x y (decide ((s.reg y).toInt < (s.reg x).toInt)) s

/-- `chki`: CHKI Rx, val (44_program_control.md rule R401). -/
def execChki (x y : RegNo) (s : State) : Outcome :=
  checkRange .chki x y (decide ((s.reg x).toInt < 0) || decide ((y.toNat : Int) < (s.reg x).toInt)) s

/-- `trap`: TRAP val (44_program_control.md rule R402). -/
def execTrap (x y : RegNo) (s : State) : Outcome :=
  trapInstruction x y s

/-- `kcall`: KCALL num (44_program_control.md rule R403). -/
def execKcall (num : BitVec 8) (s : State) : Outcome :=
  match s.mode with
  | .kernel => raise (.kernelViolation (s.op .kcall) (num.extractLsb' 4 4) (num.extractLsb' 0 4)) s
  | .user => raise (.kernelCall num) s

end Sys2Proof.Machine
end

