-- ==== Sys2Proof/Machine/Kernel.lean ====
section
/-! DEFINITION. The kernel mode instructions (45_kernel.md): state switching, maintenance, virtual memory support, input
and output. -/

namespace Sys2Proof.Machine

/-! ### State switching (45_kernel.md rules R431 to R436) -/

/-- The offset of register i in the PCB (10_state.md rule R58). -/
def State.pcbReg (s : State) (i : RegNo) : Word := s.cfg.pcb.regs + zext i * 4

/-- General registers stored into the PCB. -/
def State.saveRegs (s : State) : List RegNo → Except Fault State
  | [] => .ok s
  | i :: is =>
    match s.structWrite (s.sreg 14) (s.pcbReg i) (s.reg i) with
    | .error f => .error f
    | .ok s1 => s1.saveRegs is

/-- General registers loaded from the PCB. -/
def State.loadRegs (s : State) : List RegNo → Except Fault State
  | [] => .ok s
  | i :: is =>
    match s.structLoad (s.sreg 14) (s.pcbReg i) with
    | .error f => .error f
    | .ok (v, s1) => (s1.setReg i v).loadRegs is

/-- The end of a kernel instruction that may stop at an unusable structure. -/
def finishFault (r : Except Fault State) : Outcome :=
  match r with
  | .error f => .fault f
  | .ok s => advance 2 s

/-- The user program counter and registers stored into the PCB (45_kernel.md rule R431). -/
def State.saveUser (s : State) (is : List RegNo) : Except Fault State :=
  match s.structWrite (s.sreg 14) s.cfg.pcb.pc (s.sreg 15) with
  | .error f => .error f
  | .ok s1 => s1.saveRegs is

/-- The segment numbers of the PCB word `w`: SR8 code, SR9 data (45_kernel.md rule R432; 92_eei_decisions.md D17). -/
def State.setSegments (s : State) (w : Word) : State :=
  if s.cfg.pcb.codeHigh then (s.setSreg 8 (zext (w.extractLsb' 16 16))).setSreg 9 (zext (w.extractLsb' 0 16))
  else (s.setSreg 8 (zext (w.extractLsb' 0 16))).setSreg 9 (zext (w.extractLsb' 16 16))

/-- The traps word loaded by LUS, which takes effect at once (10_state.md rule R52). -/
def State.loadTraps (s : State) (w : Word) : State := { s.setSreg 10 w with trapsEff := w, trapsOpen := 0 }

/-- The user program counter, segments, traps word and registers loaded from the PCB, the TMT and the code half of the
cache emptied (45_kernel.md rule R432); after LUS the data half hides no DMA write either (20_memory.md rule R121). -/
def State.loadUser (s : State) (is : List RegNo) : Except Fault State :=
  match s.structLoad (s.sreg 14) s.cfg.pcb.pc with
  | .error f => .error f
  | .ok (p, s1) =>
    match s1.structLoad (s.sreg 14) s.cfg.pcb.seg with
    | .error f => .error f
    | .ok (w, s2) =>
      match s2.structLoad (s.sreg 14) s.cfg.pcb.traps with
      | .error f => .error f
      | .ok (t, s3) =>
        match s3.loadRegs is with
        | .error f => .error f
        | .ok s4 => .ok (((s4.setSreg 15 p).setSegments w).loadTraps t).flushCache.flushTmt

/-- `sus`: SUS Rx,Ry (45_kernel.md rule R431). -/
def execSus (x y : RegNo) (s : State) : Outcome :=
  kernelOnly .sus x y s fun s =>
    if s.sreg 14 = 1 then advance 2 s else finishFault (s.saveUser (regRange x y))

/-- `lus`: LUS Rx,Ry (45_kernel.md rule R432). -/
def execLus (x y : RegNo) (s : State) : Outcome :=
  kernelOnly .lus x y s fun s =>
    if s.sreg 14 = 1 then advance 2 s else finishFault (s.loadUser (regRange x y))

/-- `ldregs`: LDREGS Rx,Ry (45_kernel.md rule R433). -/
def execLdregs (x y : RegNo) (s : State) : Outcome :=
  kernelOnly .ldregs x y s fun s =>
    if s.sreg 14 = 1 then advance 2 s else finishFault (s.loadRegs (regRange x y))

/-- `rum`: RUM (45_kernel.md rule R434). -/
def execRum (x y : RegNo) (s : State) : Outcome :=
  kernelOnly .rum x y s resumeUser

/-- A special register written by MOVE; SR10 leaves the differing bits of the traps word in effect open
(45_kernel.md rule R435; 10_state.md rule R52; log 7). -/
def State.moveToSreg (s : State) (n : RegNo) (v : Word) : State :=
  if n = 10 then { s.setSreg n v with trapsOpen := s.trapsOpen ||| (s.trapsEff ^^^ v) } else s.setSreg n v

/-- `movesr`: MOVE SRx,Ry (45_kernel.md rule R435). -/
def execMovesr (x y : RegNo) (s : State) : Outcome :=
  kernelOnly .movesr x y s fun s => advance 2 (s.moveToSreg x (s.reg y))

/-- `movers`: MOVE Rx,SRy (45_kernel.md rule R436). -/
def execMovers (x y : RegNo) (s : State) : Outcome :=
  kernelOnly .movers x y s fun s => advance 2 (s.setReg x (s.sreg y))

/-! ### Maintenance (45_kernel.md rules R440 to R458) -/

/-- `maint` with a subop that no row of 30_encoding.md rule R159 names: an undefined instruction (45_kernel.md rule
R440; 60_exceptions.md rule R512). -/
def execMaint (x k : BitVec 4) (s : State) : Outcome := raise (.illegalRegister (s.op .maint) x k) s

/-- The processor status that ELOGR reads: bit 23 the power fail warning, bits 16..30 else 0, the rest unspecified
(45_kernel.md rule R449; log 35). -/
def State.statusWord (s : State) : Word :=
  (Config.freeWord s.draws .status &&& 0xFFFF0001) ||| wordBit 23 s.powerFail

/-- `elogr`: ELOGR Rx (45_kernel.md rule R449). -/
def execElogr (x : RegNo) (s : State) : Outcome :=
  privileged .maint x 0 s fun s => advance 2 (s.setReg x s.statusWord)

/-- A free number of valid entries, 0 to 16. -/
def State.freeCount (s : State) : Nat := (Config.freeWord s.draws .logCount).toNat % 17

/-- 16 free log entries. -/
def State.freeEntries (s : State) : Vector Word 16 := Vector.ofFn fun k => Config.freeWord s.draws (.logEntry k.val)

/-- The error log after ELOGW of `v`: emptied when bit 31 is set, else unspecified; the entries are unspecified either
way (45_kernel.md rule R450; 93_implementation_defined.md U15; log 35). -/
def State.writeLog (s : State) (v : Word) : State :=
  { s with logData := s.freeEntries, logCount := if mbit v 31 then 0 else s.freeCount }

/-- `elogw`: ELOGW Rx (45_kernel.md rule R450). -/
def execElogw (x : RegNo) (s : State) : Outcome :=
  privileged .maint x 1 s fun s => advance 2 (s.writeLog (s.reg x))

/-- A mask after TWRITED with a two-bit field: 01 sets, 00 resets, 10 and 11 leave it unspecified (45_kernel.md rule
R451; 93_implementation_defined.md U14; log 36). -/
def maskField (f : BitVec 2) (free : Bool) : Bool :=
  match f.getMsbD 0, f.getMsbD 1 with
  | false, b => b
  | true, _ => free

/-- The masks after TWRITED of `v` (45_kernel.md rule R451). -/
def State.writeMasks (s : State) (v : Word) : State :=
  if v.extractLsb' 2 2 = 3 then
    { s with
      mask1 := maskField (v.extractLsb' 6 2) (mbit (Config.freeWord s.draws .mask1) 31)
      mask2 := maskField (v.extractLsb' 4 2) (mbit (Config.freeWord s.draws .mask2) 31) }
  else s

/-- `twrited`: TWRITED Rx (45_kernel.md rule R451). -/
def execTwrited (x : RegNo) (s : State) : Outcome :=
  privileged .maint x 5 s fun s => advance 2 (s.writeMasks (s.reg x))

/-- `flush`: FLUSH (45_kernel.md rule R452). -/
def execFlush (x : RegNo) (s : State) : Outcome :=
  privileged .maint x 6 s fun s => advance 2 s.flushCache

/-- `trapexit`: TRAPEXIT (45_kernel.md rule R453). -/
def execTrapexit (x : RegNo) (s : State) : Outcome :=
  kernelOnly .maint x 7 s resumeKernel

/-- ITEST: the acknowledge cycle of a deliverable request, or 1 (45_kernel.md rule R454). -/
def State.testInterrupt (s : State) (x : RegNo) : State :=
  match s.deliverable with
  | some b => ((s.ackIoi b).setReg (x + 1) b.ioir).setReg x 0
  | none => s.setReg x 1

/-- `itest`: ITEST Rx (45_kernel.md rule R454). -/
def execItest (x : RegNo) (s : State) : Outcome :=
  privileged .maint x 8 s fun s => advance 2 (s.testInterrupt x)

/-- `machineid`: MACHINEID (45_kernel.md rule R455). -/
def execMachineid (x : RegNo) (s : State) : Outcome :=
  privileged .maint x 10 s fun s => advance 2 (s.setReg x s.cfg.machineId)

/-- `version`: VERSION Rx (45_kernel.md rule R456). -/
def execVersion (x : RegNo) (s : State) : Outcome :=
  privileged .maint x 11 s fun s => advance 2 (s.setReg x s.cfg.ucodeVersion)

/-- What CREG reads: acknowledge in bit 31, data-in in bit 30, the rest unspecified (45_kernel.md rule R457; log 35). -/
def State.clockWord (s : State) : Word :=
  (Config.freeWord s.draws .clockBits &&& 0xFFFFFFFC) ||| wordBit 31 s.clockIn.acknowledge |||
    wordBit 30 s.clockIn.dataIn

/-- CREG: the input is latched, then the output register is written from Rx (45_kernel.md rule R457). -/
def State.clockTransfer (s : State) (x : RegNo) : State :=
  { s.setReg (x + 1) s.clockWord with clockOut := ⟨mbit (s.reg x) 31, mbit (s.reg x) 30⟩ }

/-- `creg`: CREG Rx (45_kernel.md rule R457). -/
def execCreg (x : RegNo) (s : State) : Outcome :=
  privileged .maint x 12 s fun s => advance 2 (s.clockTransfer x)

/-- What RDLOG reads: the number of valid entries, or the location named by the low 4 bits (45_kernel.md rule R458). -/
def State.logWord (s : State) (v : Word) : Word :=
  if mbit v 0 then BitVec.ofNat 32 s.logCount else s.logData[(v.extractLsb' 0 4).toNat]

/-- `rdlog`: RDLOG Rx (45_kernel.md rule R458). -/
def execRdlog (x : RegNo) (s : State) : Outcome :=
  privileged .maint x 13 s fun s => advance 2 (s.setReg x (s.logWord (s.reg x)))

/-! ### Virtual memory support (45_kernel.md rules R460, R461) -/

/-- TRANS and DIRT: the search for segment Ry and address R(y+1); a match sets `bits` of the entry and gives the real
address, no match gives -1 (45_kernel.md rules R460, R461). -/
def translateInto (x y : RegNo) (bits : Word) (s : State) : Outcome :=
  let s1 := s.searched ((s.reg y).extractLsb' 0 16) (s.reg (y + 1))
  match s.vrtSearch ((s.reg y).extractLsb' 0 16) (s.reg (y + 1)) with
  | .fault f => .fault f
  | .endless => .next (s1.halt .vrtChainEndless)
  | .absent => advance 2 (s1.setReg x 0xFFFFFFFF)
  | .found p t => advance 2 ((s1.markEntry p t bits).setReg x (physAddr t (s.reg (y + 1))))

/-- `trans`: TRANS Rx,Ry (45_kernel.md rule R460). -/
def execTrans (x y : RegNo) (s : State) : Outcome :=
  kernelOnly .trans x y s (translateInto x y bitR)

/-- `dirt`: DIRT Rx,Ry (45_kernel.md rule R461). -/
def execDirt (x y : RegNo) (s : State) : Outcome :=
  kernelOnly .dirt x y s (translateInto x y (bitR ||| bitD))

/-! ### Input and output (45_kernel.md rules R469 to R471) -/

/-- The status word of READ and WRITE: T is bit 30, N the bit `IOSTAT_N_BIT` (45_kernel.md rule R469). -/
def State.ioStatus (s : State) (timeout notReady : Bool) : Word :=
  wordBit 30 timeout ||| wordBit s.cfg.ioNBit.toNat notReady

/-- Whether a board is ready, and its data word: the answer it has been given, else free (log 34). A word that is
marked not valid is free (45_kernel.md rule R470). -/
def State.boardAnswer (s : State) (b : Board) : Answer :=
  match b.answers with
  | a :: _ => if a.notReady then ⟨true, Config.freeWord s.draws .ioData⟩ else a
  | [] => ⟨mbit (Config.freeWord s.draws .ioReady) 31, Config.freeWord s.draws .ioData⟩

/-- The board with one answer used. -/
def Board.answered (b : Board) : Board := { b with answers := b.answers.tail }

/-- The outcome of an I/O transaction with a device number: no board, or the board's answer with the state in which it
is used up (60_exceptions.md rules R541, R542). -/
def State.ioCycle (s : State) (dev : Byte) : Option Answer × State :=
  match s.boards.find? fun b => b.device == dev with
  | none => (none, s)
  | some b => (some (s.boardAnswer b), { s with boards := updateFirst (fun c => c.device == dev) Board.answered s.boards })

/-- A bus operation logged. -/
def State.logBus (s : State) (o : BusOp) : State := { s with busLog := o :: s.busLog }

/-- READ: the address word `a` sent, the status into Rx and the data word into R(x+1) (45_kernel.md rule R470). -/
def State.ioRead (s : State) (x : RegNo) (a : Word) : State :=
  match s.ioCycle (a.extractLsb' 24 8) with
  | (none, s1) =>
    ((s1.logBus (.ioRead a)).setReg x (s.ioStatus true false)).setReg (x + 1) (Config.freeWord s.draws .ioData)
  | (some r, s1) => ((s1.logBus (.ioRead a)).setReg x (s.ioStatus false r.notReady)).setReg (x + 1) r.data

/-- WRITE: the address word `a` and the data word `d` sent, the status into Rx (45_kernel.md rule R471). -/
def State.ioWrite (s : State) (x : RegNo) (a d : Word) : State :=
  match s.ioCycle (a.extractLsb' 24 8) with
  | (none, s1) => (s1.logBus (.ioWriteRefused a)).setReg x (s.ioStatus true false)
  | (some r, s1) =>
    (s1.logBus (if r.notReady then .ioWriteRefused a else .ioWrite a d)).setReg x (s.ioStatus false r.notReady)

/-- `read`: READ Rx,Ry (45_kernel.md rule R470). -/
def execRead (x y : RegNo) (s : State) : Outcome :=
  privileged .read x y s fun s => advance 2 (s.ioRead x (s.reg y))

/-- `write`: WRITE Rx,Ry (45_kernel.md rule R471). -/
def execWrite (x y : RegNo) (s : State) : Outcome :=
  privileged .write x y s fun s => advance 2 (s.ioWrite x (s.reg y) (s.reg x))

end Sys2Proof.Machine
end

