-- ==== Sys2Proof/Machine/LoadStore.lean ====
section
/-! DEFINITION. The loads, stores and load address instructions (40_memory_reference.md). -/

namespace Sys2Proof.Machine

/-- The half of the cache that serves a data reference of a space (20_memory.md rule R125). -/
def Space.view (sp : Space) : View :=
  match sp with
  | .code => .code
  | .data => .data

/-- One operand of a byte, halfword or word, zero extended to a word (40_memory_reference.md rules R184 to R186). -/
def State.readOperand (s : State) (w : Width) (v : View) (a : Nat) : Word :=
  match w with
  | .byte => zext (s.readByte v a)
  | .half => zext (s.readHalf v a)
  | .word => s.readWord v a
  | .double => s.readWord v a

/-- The bytes that a store of a byte, halfword or word takes from a register (40_memory_reference.md rules R190 to
R192). -/
def Width.operandBytes (w : Width) (v : Word) : List Byte :=
  match w with
  | .byte => [v.extractLsb' 0 8]
  | .half => bytesOfHalf (v.extractLsb' 0 16)
  | .word => bytesOfWord v
  | .double => bytesOfWord v

/-- A reference of width `w` at `ea`: the alignment check, the translation, then `k` at the real address
(40_memory_reference.md rule R182). -/
def reference (w : Width) (sp : Space) (acc : Access) (ea : Word) (s : State) (k : Word → State → Outcome) : Outcome :=
  if w.aligned ea then (s.locate sp ea acc w.bytes).finish k
  else raise (.dataAlignment (s.segment sp) ea) s

/-- A load of a byte, halfword or word into Rx (40_memory_reference.md rules R182 to R186, R188). -/
def loadInto (w : Width) (sp : Space) (x : RegNo) (ea : Word) (il : Nat) (s : State) : Outcome :=
  reference w sp .read ea s fun r s1 =>
    advance il ((s1.loadLine (Space.view sp) r.toNat).setReg x (s1.readOperand w (Space.view sp) r.toNat))

/-- A load of a double word into RPx (40_memory_reference.md rule R187). -/
def loadPair (sp : Space) (x : RegNo) (ea : Word) (il : Nat) (s : State) : Outcome :=
  reference .double sp .read ea s fun r s1 =>
    match s1.readTwo (Space.view sp) r.toNat with
    | .error f => .fault f
    | .ok (v, s2) => advance il (s2.setPair x v)

/-- A store of a byte, halfword or word from Rx (40_memory_reference.md rules R190 to R192). -/
def storeFrom (w : Width) (x : RegNo) (ea : Word) (il : Nat) (s : State) : Outcome :=
  reference w .data .write ea s fun r s1 => advance il (s1.storeBytes r.toNat (w.operandBytes (s1.reg x)))

/-- A store of a double word from RPx (40_memory_reference.md rule R193). -/
def storePair (x : RegNo) (ea : Word) (il : Nat) (s : State) : Outcome :=
  reference .double .data .write ea s fun r s1 =>
    match s1.storeTwo r.toNat (s1.pair x) with
    | .error f => .fault f
    | .ok s2 => advance il s2

/-- The effective address into Rx (40_memory_reference.md rule R195). -/
def loadAddress (x : RegNo) (ea : Word) (il : Nat) (s : State) : Outcome := advance il (s.setReg x ea)

/-- `load`: LOAD Rx, disp (40_memory_reference.md rule R186). -/
def execLoad (x _y : RegNo) (d : BitVec 16) (s : State) : Outcome :=
  loadInto .word .data x (s.eaDirect .data (shortDisp d)) 4 s

/-- `loadl`: LOAD Rx, disp, L (40_memory_reference.md rule R186). -/
def execLoadl (x _y : RegNo) (d : BitVec 32) (s : State) : Outcome :=
  loadInto .word .data x (s.eaDirect .data d) 6 s

/-- `loadx`: LOAD Rx, Ry+disp (40_memory_reference.md rule R186). -/
def execLoadx (x y : RegNo) (d : BitVec 16) (s : State) : Outcome :=
  loadInto .word .data x (s.eaIndexed .data y (shortDisp d)) 4 s

/-- `loadlx`: LOAD Rx, Ry+disp, L (40_memory_reference.md rule R186). -/
def execLoadlx (x y : RegNo) (d : BitVec 32) (s : State) : Outcome :=
  loadInto .word .data x (s.eaIndexed .data y d) 6 s

/-- `loadp`: LOADP Rx, disp (40_memory_reference.md rule R186). -/
def execLoadp (x _y : RegNo) (d : BitVec 16) (s : State) : Outcome :=
  loadInto .word .code x (s.eaDirect .code (shortDisp d)) 4 s

/-- `loadpl`: LOADP Rx, disp, L (40_memory_reference.md rule R186). -/
def execLoadpl (x _y : RegNo) (d : BitVec 32) (s : State) : Outcome :=
  loadInto .word .code x (s.eaDirect .code d) 6 s

/-- `loadpx`: LOADP Rx, Ry+disp (40_memory_reference.md rule R186). -/
def execLoadpx (x y : RegNo) (d : BitVec 16) (s : State) : Outcome :=
  loadInto .word .code x (s.eaIndexed .code y (shortDisp d)) 4 s

/-- `loadplx`: LOADP Rx, Ry+disp, L (40_memory_reference.md rule R186). -/
def execLoadplx (x y : RegNo) (d : BitVec 32) (s : State) : Outcome :=
  loadInto .word .code x (s.eaIndexed .code y d) 6 s

/-- `loadh`: LOADH Rx, disp (40_memory_reference.md rule R185). -/
def execLoadh (x _y : RegNo) (d : BitVec 16) (s : State) : Outcome :=
  loadInto .half .data x (s.eaDirect .data (shortDisp d)) 4 s

/-- `loadhl`: LOADH Rx, disp, L (40_memory_reference.md rule R185). -/
def execLoadhl (x _y : RegNo) (d : BitVec 32) (s : State) : Outcome :=
  loadInto .half .data x (s.eaDirect .data d) 6 s

/-- `loadhx`: LOADH Rx, Ry+disp (40_memory_reference.md rule R185). -/
def execLoadhx (x y : RegNo) (d : BitVec 16) (s : State) : Outcome :=
  loadInto .half .data x (s.eaIndexed .data y (shortDisp d)) 4 s

/-- `loadhlx`: LOADH Rx, Ry+disp, L (40_memory_reference.md rule R185). -/
def execLoadhlx (x y : RegNo) (d : BitVec 32) (s : State) : Outcome :=
  loadInto .half .data x (s.eaIndexed .data y d) 6 s

/-- `loadhp`: LOADHP Rx, disp (40_memory_reference.md rule R185). -/
def execLoadhp (x _y : RegNo) (d : BitVec 16) (s : State) : Outcome :=
  loadInto .half .code x (s.eaDirect .code (shortDisp d)) 4 s

/-- `loadhpl`: LOADHP Rx, disp, L (40_memory_reference.md rule R185). -/
def execLoadhpl (x _y : RegNo) (d : BitVec 32) (s : State) : Outcome :=
  loadInto .half .code x (s.eaDirect .code d) 6 s

/-- `loadhpx`: LOADHP Rx, Ry+disp (40_memory_reference.md rule R185). -/
def execLoadhpx (x y : RegNo) (d : BitVec 16) (s : State) : Outcome :=
  loadInto .half .code x (s.eaIndexed .code y (shortDisp d)) 4 s

/-- `loadhplx`: LOADHP Rx, Ry+disp, L (40_memory_reference.md rule R185). -/
def execLoadhplx (x y : RegNo) (d : BitVec 32) (s : State) : Outcome :=
  loadInto .half .code x (s.eaIndexed .code y d) 6 s

/-- `loadb`: LOADB Rx, disp (40_memory_reference.md rule R184). -/
def execLoadb (x _y : RegNo) (d : BitVec 16) (s : State) : Outcome :=
  loadInto .byte .data x (s.eaDirect .data (shortDisp d)) 4 s

/-- `loadbl`: LOADB Rx, disp, L (40_memory_reference.md rule R184). -/
def execLoadbl (x _y : RegNo) (d : BitVec 32) (s : State) : Outcome :=
  loadInto .byte .data x (s.eaDirect .data d) 6 s

/-- `loadbx`: LOADB Rx, Ry+disp (40_memory_reference.md rule R184). -/
def execLoadbx (x y : RegNo) (d : BitVec 16) (s : State) : Outcome :=
  loadInto .byte .data x (s.eaIndexed .data y (shortDisp d)) 4 s

/-- `loadblx`: LOADB Rx, Ry+disp, L (40_memory_reference.md rule R184). -/
def execLoadblx (x y : RegNo) (d : BitVec 32) (s : State) : Outcome :=
  loadInto .byte .data x (s.eaIndexed .data y d) 6 s

/-- `loadbp`: LOADBP Rx, disp (40_memory_reference.md rule R184). -/
def execLoadbp (x _y : RegNo) (d : BitVec 16) (s : State) : Outcome :=
  loadInto .byte .code x (s.eaDirect .code (shortDisp d)) 4 s

/-- `loadbpl`: LOADBP Rx, disp, L (40_memory_reference.md rule R184). -/
def execLoadbpl (x _y : RegNo) (d : BitVec 32) (s : State) : Outcome :=
  loadInto .byte .code x (s.eaDirect .code d) 6 s

/-- `loadbpx`: LOADBP Rx, Ry+disp (40_memory_reference.md rule R184). -/
def execLoadbpx (x y : RegNo) (d : BitVec 16) (s : State) : Outcome :=
  loadInto .byte .code x (s.eaIndexed .code y (shortDisp d)) 4 s

/-- `loadbplx`: LOADBP Rx, Ry+disp, L (40_memory_reference.md rule R184). -/
def execLoadbplx (x y : RegNo) (d : BitVec 32) (s : State) : Outcome :=
  loadInto .byte .code x (s.eaIndexed .code y d) 6 s

/-- `loadd`: LOADD Rx, disp (40_memory_reference.md rule R187). -/
def execLoadd (x _y : RegNo) (d : BitVec 16) (s : State) : Outcome :=
  loadPair .data x (s.eaDirect .data (shortDisp d)) 4 s

/-- `loaddl`: LOADD Rx, disp, L (40_memory_reference.md rule R187). -/
def execLoaddl (x _y : RegNo) (d : BitVec 32) (s : State) : Outcome :=
  loadPair .data x (s.eaDirect .data d) 6 s

/-- `loaddx`: LOADD Rx, Ry+disp (40_memory_reference.md rule R187). -/
def execLoaddx (x y : RegNo) (d : BitVec 16) (s : State) : Outcome :=
  loadPair .data x (s.eaIndexed .data y (shortDisp d)) 4 s

/-- `loaddlx`: LOADD Rx, Ry+disp, L (40_memory_reference.md rule R187). -/
def execLoaddlx (x y : RegNo) (d : BitVec 32) (s : State) : Outcome :=
  loadPair .data x (s.eaIndexed .data y d) 6 s

/-- `loaddp`: LOADDP Rx, disp (40_memory_reference.md rule R187). -/
def execLoaddp (x _y : RegNo) (d : BitVec 16) (s : State) : Outcome :=
  loadPair .code x (s.eaDirect .code (shortDisp d)) 4 s

/-- `loaddpl`: LOADDP Rx, disp, L (40_memory_reference.md rule R187). -/
def execLoaddpl (x _y : RegNo) (d : BitVec 32) (s : State) : Outcome :=
  loadPair .code x (s.eaDirect .code d) 6 s

/-- `loaddpx`: LOADDP Rx, Ry+disp (40_memory_reference.md rule R187). -/
def execLoaddpx (x y : RegNo) (d : BitVec 16) (s : State) : Outcome :=
  loadPair .code x (s.eaIndexed .code y (shortDisp d)) 4 s

/-- `loaddplx`: LOADDP Rx, Ry+disp, L (40_memory_reference.md rule R187). -/
def execLoaddplx (x y : RegNo) (d : BitVec 32) (s : State) : Outcome :=
  loadPair .code x (s.eaIndexed .code y d) 6 s

/-- `store`: STORE Rx, disp (40_memory_reference.md rule R192). -/
def execStore (x _y : RegNo) (d : BitVec 16) (s : State) : Outcome :=
  storeFrom .word x (s.eaDirect .data (shortDisp d)) 4 s

/-- `storel`: STORE Rx, disp, L (40_memory_reference.md rule R192). -/
def execStorel (x _y : RegNo) (d : BitVec 32) (s : State) : Outcome :=
  storeFrom .word x (s.eaDirect .data d) 6 s

/-- `storex`: STORE Rx, Ry+disp (40_memory_reference.md rule R192). -/
def execStorex (x y : RegNo) (d : BitVec 16) (s : State) : Outcome :=
  storeFrom .word x (s.eaIndexed .data y (shortDisp d)) 4 s

/-- `storelx`: STORE Rx, Ry+disp, L (40_memory_reference.md rule R192). -/
def execStorelx (x y : RegNo) (d : BitVec 32) (s : State) : Outcome :=
  storeFrom .word x (s.eaIndexed .data y d) 6 s

/-- `storeh`: STOREH Rx, disp (40_memory_reference.md rule R191). -/
def execStoreh (x _y : RegNo) (d : BitVec 16) (s : State) : Outcome :=
  storeFrom .half x (s.eaDirect .data (shortDisp d)) 4 s

/-- `storehl`: STOREH Rx, disp, L (40_memory_reference.md rule R191). -/
def execStorehl (x _y : RegNo) (d : BitVec 32) (s : State) : Outcome :=
  storeFrom .half x (s.eaDirect .data d) 6 s

/-- `storehx`: STOREH Rx, Ry+disp (40_memory_reference.md rule R191). -/
def execStorehx (x y : RegNo) (d : BitVec 16) (s : State) : Outcome :=
  storeFrom .half x (s.eaIndexed .data y (shortDisp d)) 4 s

/-- `storehlx`: STOREH Rx, Ry+disp, L (40_memory_reference.md rule R191). -/
def execStorehlx (x y : RegNo) (d : BitVec 32) (s : State) : Outcome :=
  storeFrom .half x (s.eaIndexed .data y d) 6 s

/-- `storeb`: STOREB Rx, disp (40_memory_reference.md rule R190). -/
def execStoreb (x _y : RegNo) (d : BitVec 16) (s : State) : Outcome :=
  storeFrom .byte x (s.eaDirect .data (shortDisp d)) 4 s

/-- `storebl`: STOREB Rx, disp, L (40_memory_reference.md rule R190). -/
def execStorebl (x _y : RegNo) (d : BitVec 32) (s : State) : Outcome :=
  storeFrom .byte x (s.eaDirect .data d) 6 s

/-- `storebx`: STOREB Rx, Ry+disp (40_memory_reference.md rule R190). -/
def execStorebx (x y : RegNo) (d : BitVec 16) (s : State) : Outcome :=
  storeFrom .byte x (s.eaIndexed .data y (shortDisp d)) 4 s

/-- `storeblx`: STOREB Rx, Ry+disp, L (40_memory_reference.md rule R190). -/
def execStoreblx (x y : RegNo) (d : BitVec 32) (s : State) : Outcome :=
  storeFrom .byte x (s.eaIndexed .data y d) 6 s

/-- `stored`: STORED Rx, disp (40_memory_reference.md rule R193). -/
def execStored (x _y : RegNo) (d : BitVec 16) (s : State) : Outcome :=
  storePair x (s.eaDirect .data (shortDisp d)) 4 s

/-- `storedl`: STORED Rx, disp, L (40_memory_reference.md rule R193). -/
def execStoredl (x _y : RegNo) (d : BitVec 32) (s : State) : Outcome :=
  storePair x (s.eaDirect .data d) 6 s

/-- `storedx`: STORED Rx, Ry+disp (40_memory_reference.md rule R193). -/
def execStoredx (x y : RegNo) (d : BitVec 16) (s : State) : Outcome :=
  storePair x (s.eaIndexed .data y (shortDisp d)) 4 s

/-- `storedlx`: STORED Rx, Ry+disp, L (40_memory_reference.md rule R193). -/
def execStoredlx (x y : RegNo) (d : BitVec 32) (s : State) : Outcome :=
  storePair x (s.eaIndexed .data y d) 6 s

/-- `laddr`: LADDR Rx, disp (40_memory_reference.md rule R195). -/
def execLaddr (x _y : RegNo) (d : BitVec 16) (s : State) : Outcome :=
  loadAddress x (s.eaDirect .data (shortDisp d)) 4 s

/-- `laddrx`: LADDR Rx, Ry, disp (40_memory_reference.md rule R195). -/
def execLaddrx (x y : RegNo) (d : BitVec 16) (s : State) : Outcome :=
  loadAddress x (s.eaIndexed .data y (shortDisp d)) 4 s

/-- `laddrl`: LADDR Rx, disp, L (40_memory_reference.md rule R195). -/
def execLaddrl (x _y : RegNo) (d : BitVec 32) (s : State) : Outcome :=
  loadAddress x (s.eaDirect .data d) 6 s

/-- `laddrlx`: LADDR Rx, Ry, disp, L (40_memory_reference.md rule R195). -/
def execLaddrlx (x y : RegNo) (d : BitVec 32) (s : State) : Outcome :=
  loadAddress x (s.eaIndexed .data y d) 6 s

/-- `laddrp`: LADDR Rx, disp (40_memory_reference.md rule R195). -/
def execLaddrp (x _y : RegNo) (d : BitVec 16) (s : State) : Outcome :=
  loadAddress x (s.eaDirect .code (shortDisp d)) 4 s

/-- `laddrpx`: LADDR Rx, Ry, disp (40_memory_reference.md rule R195). -/
def execLaddrpx (x y : RegNo) (d : BitVec 16) (s : State) : Outcome :=
  loadAddress x (s.eaIndexed .code y (shortDisp d)) 4 s

/-- `laddrpl`: LADDR Rx, disp, L (40_memory_reference.md rule R195). -/
def execLaddrpl (x _y : RegNo) (d : BitVec 32) (s : State) : Outcome :=
  loadAddress x (s.eaDirect .code d) 6 s

/-- `laddrplx`: LADDR Rx, Ry, disp, L (40_memory_reference.md rule R195). -/
def execLaddrplx (x y : RegNo) (d : BitVec 32) (s : State) : Outcome :=
  loadAddress x (s.eaIndexed .code y d) 6 s

end Sys2Proof.Machine
end

