-- ==== Sys2Proof/Machine/Dispatch.lean ====
section
/-! DEFINITION. The dispatch: one arm per instruction, each one call of its meaning. -/

namespace Sys2Proof.Machine

/-- The effect of an instruction in a state. -/
def exec (i : Instr) (s : State) : Host.Outcome State Fault Refusal :=
  match i with
  | .moverr x y => Sys2Proof.Machine.execMoverr x y s
  | .neg x y => Sys2Proof.Machine.execNeg x y s
  | .not x y => Sys2Proof.Machine.execNot x y s
  | .add x y => Sys2Proof.Machine.execAdd x y s
  | .sub x y => Sys2Proof.Machine.execSub x y s
  | .mpy x y => Sys2Proof.Machine.execMpy x y s
  | .div x y => Sys2Proof.Machine.execDiv x y s
  | .rem x y => Sys2Proof.Machine.execRem x y s
  | .and x y => Sys2Proof.Machine.execAnd x y s
  | .or x y => Sys2Proof.Machine.execOr x y s
  | .xor x y => Sys2Proof.Machine.execXor x y s
  | .nop x y => Sys2Proof.Machine.execNop x y s
  | .eadd x y => Sys2Proof.Machine.execEadd x y s
  | .esub x y => Sys2Proof.Machine.execEsub x y s
  | .empy x y => Sys2Proof.Machine.execEmpy x y s
  | .ediv x y => Sys2Proof.Machine.execEdiv x y s
  | .fixt x y => Sys2Proof.Machine.execFixt x y s
  | .fixr x y => Sys2Proof.Machine.execFixr x y s
  | .float x y => Sys2Proof.Machine.execFloat x y s
  | .makerd x y => Sys2Proof.Machine.execMakerd x y s
  | .makedr x y => Sys2Proof.Machine.execMakedr x y s
  | .radd x y => Sys2Proof.Machine.execRadd x y s
  | .rsub x y => Sys2Proof.Machine.execRsub x y s
  | .rmpy x y => Sys2Proof.Machine.execRmpy x y s
  | .rdiv x y => Sys2Proof.Machine.execRdiv x y s
  | .rneg x y => Sys2Proof.Machine.execRneg x y s
  | .rcomp x y => Sys2Proof.Machine.execRcomp x y s
  | .dfixt x y => Sys2Proof.Machine.execDfixt x y s
  | .dfixr x y => Sys2Proof.Machine.execDfixr x y s
  | .dfloat x y => Sys2Proof.Machine.execDfloat x y s
  | .dradd x y => Sys2Proof.Machine.execDradd x y s
  | .drsub x y => Sys2Proof.Machine.execDrsub x y s
  | .drmpy x y => Sys2Proof.Machine.execDrmpy x y s
  | .drdiv x y => Sys2Proof.Machine.execDrdiv x y s
  | .drneg x y => Sys2Proof.Machine.execDrneg x y s
  | .drcomp x y => Sys2Proof.Machine.execDrcomp x y s
  | .cbit x y => Sys2Proof.Machine.execCbit x y s
  | .sbit x y => Sys2Proof.Machine.execSbit x y s
  | .tbit x y => Sys2Proof.Machine.execTbit x y s
  | .lcomp x y => Sys2Proof.Machine.execLcomp x y s
  | .dcomp x y => Sys2Proof.Machine.execDcomp x y s
  | .csl x y => Sys2Proof.Machine.execCsl x y s
  | .lsl x y => Sys2Proof.Machine.execLsl x y s
  | .lsr x y => Sys2Proof.Machine.execLsr x y s
  | .asl x y => Sys2Proof.Machine.execAsl x y s
  | .asr x y => Sys2Proof.Machine.execAsr x y s
  | .dlsl x y => Sys2Proof.Machine.execDlsl x y s
  | .dlsr x y => Sys2Proof.Machine.execDlsr x y s
  | .seb x y => Sys2Proof.Machine.execSeb x y s
  | .seh x y => Sys2Proof.Machine.execSeh x y s
  | .callr x y => Sys2Proof.Machine.execCallr x y s
  | .ret x y => Sys2Proof.Machine.execRet x y s
  | .chk x y => Sys2Proof.Machine.execChk x y s
  | .sus x y => Sys2Proof.Machine.execSus x y s
  | .lus x y => Sys2Proof.Machine.execLus x y s
  | .ldregs x y => Sys2Proof.Machine.execLdregs x y s
  | .rum x y => Sys2Proof.Machine.execRum x y s
  | .movesr x y => Sys2Proof.Machine.execMovesr x y s
  | .movers x y => Sys2Proof.Machine.execMovers x y s
  | .maint x k => Sys2Proof.Machine.execMaint x k s
  | .trans x y => Sys2Proof.Machine.execTrans x y s
  | .dirt x y => Sys2Proof.Machine.execDirt x y s
  | .read x y => Sys2Proof.Machine.execRead x y s
  | .write x y => Sys2Proof.Machine.execWrite x y s
  | .testGt x y => Sys2Proof.Machine.execTestGt x y s
  | .testEq x y => Sys2Proof.Machine.execTestEq x y s
  | .testLt x y => Sys2Proof.Machine.execTestLt x y s
  | .testLe x y => Sys2Proof.Machine.execTestLe x y s
  | .testGe x y => Sys2Proof.Machine.execTestGe x y s
  | .testNe x y => Sys2Proof.Machine.execTestNe x y s
  | .moveri x y => Sys2Proof.Machine.execMoveri x y s
  | .noti x y => Sys2Proof.Machine.execNoti x y s
  | .addi x y => Sys2Proof.Machine.execAddi x y s
  | .subi x y => Sys2Proof.Machine.execSubi x y s
  | .andi x y => Sys2Proof.Machine.execAndi x y s
  | .mpyi x y => Sys2Proof.Machine.execMpyi x y s
  | .csli x y => Sys2Proof.Machine.execCsli x y s
  | .lsli x y => Sys2Proof.Machine.execLsli x y s
  | .lsri x y => Sys2Proof.Machine.execLsri x y s
  | .asli x y => Sys2Proof.Machine.execAsli x y s
  | .asri x y => Sys2Proof.Machine.execAsri x y s
  | .dlsli x y => Sys2Proof.Machine.execDlsli x y s
  | .dlsri x y => Sys2Proof.Machine.execDlsri x y s
  | .chki x y => Sys2Proof.Machine.execChki x y s
  | .trap x y => Sys2Proof.Machine.execTrap x y s
  | .testiGt x y => Sys2Proof.Machine.execTestiGt x y s
  | .testiEq x y => Sys2Proof.Machine.execTestiEq x y s
  | .testiLt x y => Sys2Proof.Machine.execTestiLt x y s
  | .testiLe x y => Sys2Proof.Machine.execTestiLe x y s
  | .testiGe x y => Sys2Proof.Machine.execTestiGe x y s
  | .testiNe x y => Sys2Proof.Machine.execTestiNe x y s
  | .kcall num => Sys2Proof.Machine.execKcall num s
  | .load x y d => Sys2Proof.Machine.execLoad x y d s
  | .loadl x y d => Sys2Proof.Machine.execLoadl x y d s
  | .loadx x y d => Sys2Proof.Machine.execLoadx x y d s
  | .loadlx x y d => Sys2Proof.Machine.execLoadlx x y d s
  | .loadp x y d => Sys2Proof.Machine.execLoadp x y d s
  | .loadpl x y d => Sys2Proof.Machine.execLoadpl x y d s
  | .loadpx x y d => Sys2Proof.Machine.execLoadpx x y d s
  | .loadplx x y d => Sys2Proof.Machine.execLoadplx x y d s
  | .loadh x y d => Sys2Proof.Machine.execLoadh x y d s
  | .loadhl x y d => Sys2Proof.Machine.execLoadhl x y d s
  | .loadhx x y d => Sys2Proof.Machine.execLoadhx x y d s
  | .loadhlx x y d => Sys2Proof.Machine.execLoadhlx x y d s
  | .loadhp x y d => Sys2Proof.Machine.execLoadhp x y d s
  | .loadhpl x y d => Sys2Proof.Machine.execLoadhpl x y d s
  | .loadhpx x y d => Sys2Proof.Machine.execLoadhpx x y d s
  | .loadhplx x y d => Sys2Proof.Machine.execLoadhplx x y d s
  | .loadb x y d => Sys2Proof.Machine.execLoadb x y d s
  | .loadbl x y d => Sys2Proof.Machine.execLoadbl x y d s
  | .loadbx x y d => Sys2Proof.Machine.execLoadbx x y d s
  | .loadblx x y d => Sys2Proof.Machine.execLoadblx x y d s
  | .loadbp x y d => Sys2Proof.Machine.execLoadbp x y d s
  | .loadbpl x y d => Sys2Proof.Machine.execLoadbpl x y d s
  | .loadbpx x y d => Sys2Proof.Machine.execLoadbpx x y d s
  | .loadbplx x y d => Sys2Proof.Machine.execLoadbplx x y d s
  | .loadd x y d => Sys2Proof.Machine.execLoadd x y d s
  | .loaddl x y d => Sys2Proof.Machine.execLoaddl x y d s
  | .loaddx x y d => Sys2Proof.Machine.execLoaddx x y d s
  | .loaddlx x y d => Sys2Proof.Machine.execLoaddlx x y d s
  | .loaddp x y d => Sys2Proof.Machine.execLoaddp x y d s
  | .loaddpl x y d => Sys2Proof.Machine.execLoaddpl x y d s
  | .loaddpx x y d => Sys2Proof.Machine.execLoaddpx x y d s
  | .loaddplx x y d => Sys2Proof.Machine.execLoaddplx x y d s
  | .store x y d => Sys2Proof.Machine.execStore x y d s
  | .storel x y d => Sys2Proof.Machine.execStorel x y d s
  | .storex x y d => Sys2Proof.Machine.execStorex x y d s
  | .storelx x y d => Sys2Proof.Machine.execStorelx x y d s
  | .storeh x y d => Sys2Proof.Machine.execStoreh x y d s
  | .storehl x y d => Sys2Proof.Machine.execStorehl x y d s
  | .storehx x y d => Sys2Proof.Machine.execStorehx x y d s
  | .storehlx x y d => Sys2Proof.Machine.execStorehlx x y d s
  | .storeb x y d => Sys2Proof.Machine.execStoreb x y d s
  | .storebl x y d => Sys2Proof.Machine.execStorebl x y d s
  | .storebx x y d => Sys2Proof.Machine.execStorebx x y d s
  | .storeblx x y d => Sys2Proof.Machine.execStoreblx x y d s
  | .stored x y d => Sys2Proof.Machine.execStored x y d s
  | .storedl x y d => Sys2Proof.Machine.execStoredl x y d s
  | .storedx x y d => Sys2Proof.Machine.execStoredx x y d s
  | .storedlx x y d => Sys2Proof.Machine.execStoredlx x y d s
  | .laddr x y d => Sys2Proof.Machine.execLaddr x y d s
  | .laddrx x y d => Sys2Proof.Machine.execLaddrx x y d s
  | .laddrl x y d => Sys2Proof.Machine.execLaddrl x y d s
  | .laddrlx x y d => Sys2Proof.Machine.execLaddrlx x y d s
  | .laddrp x y d => Sys2Proof.Machine.execLaddrp x y d s
  | .laddrpx x y d => Sys2Proof.Machine.execLaddrpx x y d s
  | .laddrpl x y d => Sys2Proof.Machine.execLaddrpl x y d s
  | .laddrplx x y d => Sys2Proof.Machine.execLaddrplx x y d s
  | .br x y d => Sys2Proof.Machine.execBr x y d s
  | .brl x y d => Sys2Proof.Machine.execBrl x y d s
  | .brGt x y d => Sys2Proof.Machine.execBrGt x y d s
  | .brGtL x y d => Sys2Proof.Machine.execBrGtL x y d s
  | .brEq x y d => Sys2Proof.Machine.execBrEq x y d s
  | .brEqL x y d => Sys2Proof.Machine.execBrEqL x y d s
  | .brLe x y d => Sys2Proof.Machine.execBrLe x y d s
  | .brLeL x y d => Sys2Proof.Machine.execBrLeL x y d s
  | .brNe x y d => Sys2Proof.Machine.execBrNe x y d s
  | .brNeL x y d => Sys2Proof.Machine.execBrNeL x y d s
  | .briGt x y d => Sys2Proof.Machine.execBriGt x y d s
  | .briGtL x y d => Sys2Proof.Machine.execBriGtL x y d s
  | .briLt x y d => Sys2Proof.Machine.execBriLt x y d s
  | .briLtL x y d => Sys2Proof.Machine.execBriLtL x y d s
  | .briEq x y d => Sys2Proof.Machine.execBriEq x y d s
  | .briEqL x y d => Sys2Proof.Machine.execBriEqL x y d s
  | .briLe x y d => Sys2Proof.Machine.execBriLe x y d s
  | .briLeL x y d => Sys2Proof.Machine.execBriLeL x y d s
  | .briGe x y d => Sys2Proof.Machine.execBriGe x y d s
  | .briGeL x y d => Sys2Proof.Machine.execBriGeL x y d s
  | .briNe x y d => Sys2Proof.Machine.execBriNe x y d s
  | .briNeL x y d => Sys2Proof.Machine.execBriNeL x y d s
  | .call x y d => Sys2Proof.Machine.execCall x y d s
  | .calll x y d => Sys2Proof.Machine.execCalll x y d s
  | .loop x y d => Sys2Proof.Machine.execLoop x y d s
  | .loopl x y d => Sys2Proof.Machine.execLoopl x y d s
  | .elogr x => Sys2Proof.Machine.execElogr x s
  | .elogw x => Sys2Proof.Machine.execElogw x s
  | .twrited x => Sys2Proof.Machine.execTwrited x s
  | .flush x => Sys2Proof.Machine.execFlush x s
  | .trapexit x => Sys2Proof.Machine.execTrapexit x s
  | .itest x => Sys2Proof.Machine.execItest x s
  | .machineid x => Sys2Proof.Machine.execMachineid x s
  | .version x => Sys2Proof.Machine.execVersion x s
  | .creg x => Sys2Proof.Machine.execCreg x s
  | .rdlog x => Sys2Proof.Machine.execRdlog x s

end Sys2Proof.Machine
end

