-- ==== Sys2Proof/WellFormed.lean ====
section
/-! DEFINITION. What a term of `Instr` must satisfy to stand for an encoding, and what a set of machine parameters must
satisfy. All fields of an instruction are bit vectors of their encoded width, so the one check on an instruction is the
subop of `maint`. -/

namespace Sys2Proof

/-- The subops that 30_encoding.md rule R159 names. -/
def definedSubops : List (BitVec 4) := [0, 1, 5, 6, 7, 8, 10, 11, 12, 13]

/-- An instruction that an encoding stands for: the subop of a `maint` is none of the ten that have an instruction of
their own (30_encoding.md rules R152, R159). -/
def Instr.wellFormed : Instr → Bool
  | .maint _ k => !definedSubops.contains k
  | _ => true

namespace Config

/-- A PCB layout in which the register area, the program counter, the segment word, the traps word and the process
clock at 50 hex are aligned words that do not overlap, in the first 2048 bytes (10_state.md rule R58). -/
def PcbLayout.legal (p : PcbLayout) : Bool :=
  let single := [p.pc.toNat, p.seg.toNat, p.traps.toNat, 0x50]
  let r := p.regs.toNat
  (r % 4 == 0 && r + 64 ≤ 2048) && single.all (fun o => o % 4 == 0 && o < 2048 && (o < r || r + 64 ≤ o)) &&
  decide single.Nodup

/-- Parameters the manual allows: a legal opcode assignment (30_encoding.md rule R150), 4 to 128 Mbytes of memory
(00_scope.md rule R6), bits 28 and 30 of the machine identification set (45_kernel.md rule R455), a legal PCB layout and
an N bit that is not the T bit 30 (45_kernel.md rule R469). -/
def Params.legal (c : Params) : Bool :=
  c.opc.legal && decide (0x400000 ≤ c.memSize.toNat) && decide (c.memSize.toNat ≤ 0x8000000) &&
  c.machineId.getMsbD 28 && c.machineId.getMsbD 30 && c.pcb.legal && (c.ioNBit != 30)

end Config

end Sys2Proof
end

