-- ==== Sys2Proof/Decode.lean ====
section
/-! DEFINITION. The decoder, total on any bytes, and the encoder (30_encoding.md rules R140 to R159; byte order
20_memory.md rule R80). Both take the opcode assignment as an argument. -/

namespace Sys2Proof

/-- Why bytes are no instruction. -/
inductive DecodeError where
  /-- fewer bytes than the instruction has -/
  | tooShort
  /-- an opcode to which the assignment gives no instruction (30_encoding.md rule R152) -/
  | undefinedOpcode (b : Byte)
deriving DecidableEq, Repr

/-- The length in bytes that the first byte alone tells (30_encoding.md rule R146). -/
def lengthOfFirstByte (b : Byte) : Nat :=
  if b.getMsbD 0 then (if b.getMsbD 3 then 6 else 4) else 2

/-- The length in bytes of a format (30_encoding.md rule R141). -/
def Format.length : Format → Nat
  | .register => 2
  | .short => 4
  | .long => 6

/-- A MAINT instruction by its subop (30_encoding.md rule R159); a subop the table does not name stays a `maint`. -/
def buildMaint (x sub : BitVec 4) : Instr :=
  match sub.toNat with
  | 0 => .elogr x
  | 1 => .elogw x
  | 5 => .twrited x
  | 6 => .flush x
  | 7 => .trapexit x
  | 8 => .itest x
  | 10 => .machineid x
  | 11 => .version x
  | 12 => .creg x
  | 13 => .rdlog x
  | _ => .maint x sub

/-- The instruction of an opcode with the values of its fields: `x` and `y` of bits 8..11 and 12..15, `d16` of a short
displacement, `d32` of a long one. -/
def Opcode.build (o : Opcode) (x y : RegNo) (d16 : BitVec 16) (d32 : BitVec 32) : Instr :=
  match o with
  | .moverr => .moverr x y
  | .neg => .neg x y
  | .not => .not x y
  | .add => .add x y
  | .sub => .sub x y
  | .mpy => .mpy x y
  | .div => .div x y
  | .rem => .rem x y
  | .and => .and x y
  | .or => .or x y
  | .xor => .xor x y
  | .nop => .nop x y
  | .eadd => .eadd x y
  | .esub => .esub x y
  | .empy => .empy x y
  | .ediv => .ediv x y
  | .fixt => .fixt x y
  | .fixr => .fixr x y
  | .float => .float x y
  | .makerd => .makerd x y
  | .makedr => .makedr x y
  | .radd => .radd x y
  | .rsub => .rsub x y
  | .rmpy => .rmpy x y
  | .rdiv => .rdiv x y
  | .rneg => .rneg x y
  | .rcomp => .rcomp x y
  | .dfixt => .dfixt x y
  | .dfixr => .dfixr x y
  | .dfloat => .dfloat x y
  | .dradd => .dradd x y
  | .drsub => .drsub x y
  | .drmpy => .drmpy x y
  | .drdiv => .drdiv x y
  | .drneg => .drneg x y
  | .drcomp => .drcomp x y
  | .cbit => .cbit x y
  | .sbit => .sbit x y
  | .tbit => .tbit x y
  | .lcomp => .lcomp x y
  | .dcomp => .dcomp x y
  | .csl => .csl x y
  | .lsl => .lsl x y
  | .lsr => .lsr x y
  | .asl => .asl x y
  | .asr => .asr x y
  | .dlsl => .dlsl x y
  | .dlsr => .dlsr x y
  | .seb => .seb x y
  | .seh => .seh x y
  | .callr => .callr x y
  | .ret => .ret x y
  | .chk => .chk x y
  | .sus => .sus x y
  | .lus => .lus x y
  | .ldregs => .ldregs x y
  | .rum => .rum x y
  | .movesr => .movesr x y
  | .movers => .movers x y
  | .maint => buildMaint x y
  | .trans => .trans x y
  | .dirt => .dirt x y
  | .read => .read x y
  | .write => .write x y
  | .testGt => .testGt x y
  | .testEq => .testEq x y
  | .testLt => .testLt x y
  | .testLe => .testLe x y
  | .testGe => .testGe x y
  | .testNe => .testNe x y
  | .moveri => .moveri x y
  | .noti => .noti x y
  | .addi => .addi x y
  | .subi => .subi x y
  | .andi => .andi x y
  | .mpyi => .mpyi x y
  | .csli => .csli x y
  | .lsli => .lsli x y
  | .lsri => .lsri x y
  | .asli => .asli x y
  | .asri => .asri x y
  | .dlsli => .dlsli x y
  | .dlsri => .dlsri x y
  | .chki => .chki x y
  | .trap => .trap x y
  | .testiGt => .testiGt x y
  | .testiEq => .testiEq x y
  | .testiLt => .testiLt x y
  | .testiLe => .testiLe x y
  | .testiGe => .testiGe x y
  | .testiNe => .testiNe x y
  | .kcall => .kcall (x ++ y)
  | .load => .load x y d16
  | .loadl => .loadl x y d32
  | .loadx => .loadx x y d16
  | .loadlx => .loadlx x y d32
  | .loadp => .loadp x y d16
  | .loadpl => .loadpl x y d32
  | .loadpx => .loadpx x y d16
  | .loadplx => .loadplx x y d32
  | .loadh => .loadh x y d16
  | .loadhl => .loadhl x y d32
  | .loadhx => .loadhx x y d16
  | .loadhlx => .loadhlx x y d32
  | .loadhp => .loadhp x y d16
  | .loadhpl => .loadhpl x y d32
  | .loadhpx => .loadhpx x y d16
  | .loadhplx => .loadhplx x y d32
  | .loadb => .loadb x y d16
  | .loadbl => .loadbl x y d32
  | .loadbx => .loadbx x y d16
  | .loadblx => .loadblx x y d32
  | .loadbp => .loadbp x y d16
  | .loadbpl => .loadbpl x y d32
  | .loadbpx => .loadbpx x y d16
  | .loadbplx => .loadbplx x y d32
  | .loadd => .loadd x y d16
  | .loaddl => .loaddl x y d32
  | .loaddx => .loaddx x y d16
  | .loaddlx => .loaddlx x y d32
  | .loaddp => .loaddp x y d16
  | .loaddpl => .loaddpl x y d32
  | .loaddpx => .loaddpx x y d16
  | .loaddplx => .loaddplx x y d32
  | .store => .store x y d16
  | .storel => .storel x y d32
  | .storex => .storex x y d16
  | .storelx => .storelx x y d32
  | .storeh => .storeh x y d16
  | .storehl => .storehl x y d32
  | .storehx => .storehx x y d16
  | .storehlx => .storehlx x y d32
  | .storeb => .storeb x y d16
  | .storebl => .storebl x y d32
  | .storebx => .storebx x y d16
  | .storeblx => .storeblx x y d32
  | .stored => .stored x y d16
  | .storedl => .storedl x y d32
  | .storedx => .storedx x y d16
  | .storedlx => .storedlx x y d32
  | .laddr => .laddr x y d16
  | .laddrx => .laddrx x y d16
  | .laddrl => .laddrl x y d32
  | .laddrlx => .laddrlx x y d32
  | .laddrp => .laddrp x y d16
  | .laddrpx => .laddrpx x y d16
  | .laddrpl => .laddrpl x y d32
  | .laddrplx => .laddrplx x y d32
  | .br => .br x y d16
  | .brl => .brl x y d32
  | .brGt => .brGt x y d16
  | .brGtL => .brGtL x y d32
  | .brEq => .brEq x y d16
  | .brEqL => .brEqL x y d32
  | .brLe => .brLe x y d16
  | .brLeL => .brLeL x y d32
  | .brNe => .brNe x y d16
  | .brNeL => .brNeL x y d32
  | .briGt => .briGt x y d16
  | .briGtL => .briGtL x y d32
  | .briLt => .briLt x y d16
  | .briLtL => .briLtL x y d32
  | .briEq => .briEq x y d16
  | .briEqL => .briEqL x y d32
  | .briLe => .briLe x y d16
  | .briLeL => .briLeL x y d32
  | .briGe => .briGe x y d16
  | .briGeL => .briGeL x y d32
  | .briNe => .briNe x y d16
  | .briNeL => .briNeL x y d32
  | .call => .call x y d16
  | .calll => .calll x y d32
  | .loop => .loop x y d16
  | .loopl => .loopl x y d32

/-- The decoder: the instruction at the head of the bytes and the bytes after it, or the name of what is wrong. -/
def decode (m : Config.OpcodeMap) : List Byte → Except DecodeError (Instr × List Byte)
  | b0 :: b1 :: rest =>
    match m.lookup b0 with
    | none => .error (.undefinedOpcode b0)
    | some o =>
      let x : RegNo := b1.extractLsb' 4 4
      let y : RegNo := b1.extractLsb' 0 4
      match o.format, rest with
      | .register, _ => .ok (o.build x y 0 0, rest)
      | .short, d0 :: d1 :: rest' => .ok (o.build x y (halfOfBytes d0 d1) 0, rest')
      | .long, d0 :: d1 :: d2 :: d3 :: rest' => .ok (o.build x y 0 (wordOfBytes d0 d1 d2 d3), rest')
      | _, _ => .error .tooShort
  | _ => .error .tooShort

/-- An instruction taken apart into its opcode, its two fields and the bytes of its displacement. -/
structure Parts where
  opcode : Opcode
  x : RegNo
  y : RegNo
  disp : List Byte
deriving DecidableEq, Repr

/-- The parts of an instruction, the inverse of `Opcode.build`. -/
def Instr.parts : Instr → Parts
  | .moverr x y => ⟨.moverr, x, y, []⟩
  | .neg x y => ⟨.neg, x, y, []⟩
  | .not x y => ⟨.not, x, y, []⟩
  | .add x y => ⟨.add, x, y, []⟩
  | .sub x y => ⟨.sub, x, y, []⟩
  | .mpy x y => ⟨.mpy, x, y, []⟩
  | .div x y => ⟨.div, x, y, []⟩
  | .rem x y => ⟨.rem, x, y, []⟩
  | .and x y => ⟨.and, x, y, []⟩
  | .or x y => ⟨.or, x, y, []⟩
  | .xor x y => ⟨.xor, x, y, []⟩
  | .nop x y => ⟨.nop, x, y, []⟩
  | .eadd x y => ⟨.eadd, x, y, []⟩
  | .esub x y => ⟨.esub, x, y, []⟩
  | .empy x y => ⟨.empy, x, y, []⟩
  | .ediv x y => ⟨.ediv, x, y, []⟩
  | .fixt x y => ⟨.fixt, x, y, []⟩
  | .fixr x y => ⟨.fixr, x, y, []⟩
  | .float x y => ⟨.float, x, y, []⟩
  | .makerd x y => ⟨.makerd, x, y, []⟩
  | .makedr x y => ⟨.makedr, x, y, []⟩
  | .radd x y => ⟨.radd, x, y, []⟩
  | .rsub x y => ⟨.rsub, x, y, []⟩
  | .rmpy x y => ⟨.rmpy, x, y, []⟩
  | .rdiv x y => ⟨.rdiv, x, y, []⟩
  | .rneg x y => ⟨.rneg, x, y, []⟩
  | .rcomp x y => ⟨.rcomp, x, y, []⟩
  | .dfixt x y => ⟨.dfixt, x, y, []⟩
  | .dfixr x y => ⟨.dfixr, x, y, []⟩
  | .dfloat x y => ⟨.dfloat, x, y, []⟩
  | .dradd x y => ⟨.dradd, x, y, []⟩
  | .drsub x y => ⟨.drsub, x, y, []⟩
  | .drmpy x y => ⟨.drmpy, x, y, []⟩
  | .drdiv x y => ⟨.drdiv, x, y, []⟩
  | .drneg x y => ⟨.drneg, x, y, []⟩
  | .drcomp x y => ⟨.drcomp, x, y, []⟩
  | .cbit x y => ⟨.cbit, x, y, []⟩
  | .sbit x y => ⟨.sbit, x, y, []⟩
  | .tbit x y => ⟨.tbit, x, y, []⟩
  | .lcomp x y => ⟨.lcomp, x, y, []⟩
  | .dcomp x y => ⟨.dcomp, x, y, []⟩
  | .csl x y => ⟨.csl, x, y, []⟩
  | .lsl x y => ⟨.lsl, x, y, []⟩
  | .lsr x y => ⟨.lsr, x, y, []⟩
  | .asl x y => ⟨.asl, x, y, []⟩
  | .asr x y => ⟨.asr, x, y, []⟩
  | .dlsl x y => ⟨.dlsl, x, y, []⟩
  | .dlsr x y => ⟨.dlsr, x, y, []⟩
  | .seb x y => ⟨.seb, x, y, []⟩
  | .seh x y => ⟨.seh, x, y, []⟩
  | .callr x y => ⟨.callr, x, y, []⟩
  | .ret x y => ⟨.ret, x, y, []⟩
  | .chk x y => ⟨.chk, x, y, []⟩
  | .sus x y => ⟨.sus, x, y, []⟩
  | .lus x y => ⟨.lus, x, y, []⟩
  | .ldregs x y => ⟨.ldregs, x, y, []⟩
  | .rum x y => ⟨.rum, x, y, []⟩
  | .movesr x y => ⟨.movesr, x, y, []⟩
  | .movers x y => ⟨.movers, x, y, []⟩
  | .maint x k => ⟨.maint, x, k, []⟩
  | .trans x y => ⟨.trans, x, y, []⟩
  | .dirt x y => ⟨.dirt, x, y, []⟩
  | .read x y => ⟨.read, x, y, []⟩
  | .write x y => ⟨.write, x, y, []⟩
  | .testGt x y => ⟨.testGt, x, y, []⟩
  | .testEq x y => ⟨.testEq, x, y, []⟩
  | .testLt x y => ⟨.testLt, x, y, []⟩
  | .testLe x y => ⟨.testLe, x, y, []⟩
  | .testGe x y => ⟨.testGe, x, y, []⟩
  | .testNe x y => ⟨.testNe, x, y, []⟩
  | .moveri x y => ⟨.moveri, x, y, []⟩
  | .noti x y => ⟨.noti, x, y, []⟩
  | .addi x y => ⟨.addi, x, y, []⟩
  | .subi x y => ⟨.subi, x, y, []⟩
  | .andi x y => ⟨.andi, x, y, []⟩
  | .mpyi x y => ⟨.mpyi, x, y, []⟩
  | .csli x y => ⟨.csli, x, y, []⟩
  | .lsli x y => ⟨.lsli, x, y, []⟩
  | .lsri x y => ⟨.lsri, x, y, []⟩
  | .asli x y => ⟨.asli, x, y, []⟩
  | .asri x y => ⟨.asri, x, y, []⟩
  | .dlsli x y => ⟨.dlsli, x, y, []⟩
  | .dlsri x y => ⟨.dlsri, x, y, []⟩
  | .chki x y => ⟨.chki, x, y, []⟩
  | .trap x y => ⟨.trap, x, y, []⟩
  | .testiGt x y => ⟨.testiGt, x, y, []⟩
  | .testiEq x y => ⟨.testiEq, x, y, []⟩
  | .testiLt x y => ⟨.testiLt, x, y, []⟩
  | .testiLe x y => ⟨.testiLe, x, y, []⟩
  | .testiGe x y => ⟨.testiGe, x, y, []⟩
  | .testiNe x y => ⟨.testiNe, x, y, []⟩
  | .kcall n => ⟨.kcall, n.extractLsb' 4 4, n.extractLsb' 0 4, []⟩
  | .load x y d => ⟨.load, x, y, bytesOfHalf d⟩
  | .loadl x y d => ⟨.loadl, x, y, bytesOfWord d⟩
  | .loadx x y d => ⟨.loadx, x, y, bytesOfHalf d⟩
  | .loadlx x y d => ⟨.loadlx, x, y, bytesOfWord d⟩
  | .loadp x y d => ⟨.loadp, x, y, bytesOfHalf d⟩
  | .loadpl x y d => ⟨.loadpl, x, y, bytesOfWord d⟩
  | .loadpx x y d => ⟨.loadpx, x, y, bytesOfHalf d⟩
  | .loadplx x y d => ⟨.loadplx, x, y, bytesOfWord d⟩
  | .loadh x y d => ⟨.loadh, x, y, bytesOfHalf d⟩
  | .loadhl x y d => ⟨.loadhl, x, y, bytesOfWord d⟩
  | .loadhx x y d => ⟨.loadhx, x, y, bytesOfHalf d⟩
  | .loadhlx x y d => ⟨.loadhlx, x, y, bytesOfWord d⟩
  | .loadhp x y d => ⟨.loadhp, x, y, bytesOfHalf d⟩
  | .loadhpl x y d => ⟨.loadhpl, x, y, bytesOfWord d⟩
  | .loadhpx x y d => ⟨.loadhpx, x, y, bytesOfHalf d⟩
  | .loadhplx x y d => ⟨.loadhplx, x, y, bytesOfWord d⟩
  | .loadb x y d => ⟨.loadb, x, y, bytesOfHalf d⟩
  | .loadbl x y d => ⟨.loadbl, x, y, bytesOfWord d⟩
  | .loadbx x y d => ⟨.loadbx, x, y, bytesOfHalf d⟩
  | .loadblx x y d => ⟨.loadblx, x, y, bytesOfWord d⟩
  | .loadbp x y d => ⟨.loadbp, x, y, bytesOfHalf d⟩
  | .loadbpl x y d => ⟨.loadbpl, x, y, bytesOfWord d⟩
  | .loadbpx x y d => ⟨.loadbpx, x, y, bytesOfHalf d⟩
  | .loadbplx x y d => ⟨.loadbplx, x, y, bytesOfWord d⟩
  | .loadd x y d => ⟨.loadd, x, y, bytesOfHalf d⟩
  | .loaddl x y d => ⟨.loaddl, x, y, bytesOfWord d⟩
  | .loaddx x y d => ⟨.loaddx, x, y, bytesOfHalf d⟩
  | .loaddlx x y d => ⟨.loaddlx, x, y, bytesOfWord d⟩
  | .loaddp x y d => ⟨.loaddp, x, y, bytesOfHalf d⟩
  | .loaddpl x y d => ⟨.loaddpl, x, y, bytesOfWord d⟩
  | .loaddpx x y d => ⟨.loaddpx, x, y, bytesOfHalf d⟩
  | .loaddplx x y d => ⟨.loaddplx, x, y, bytesOfWord d⟩
  | .store x y d => ⟨.store, x, y, bytesOfHalf d⟩
  | .storel x y d => ⟨.storel, x, y, bytesOfWord d⟩
  | .storex x y d => ⟨.storex, x, y, bytesOfHalf d⟩
  | .storelx x y d => ⟨.storelx, x, y, bytesOfWord d⟩
  | .storeh x y d => ⟨.storeh, x, y, bytesOfHalf d⟩
  | .storehl x y d => ⟨.storehl, x, y, bytesOfWord d⟩
  | .storehx x y d => ⟨.storehx, x, y, bytesOfHalf d⟩
  | .storehlx x y d => ⟨.storehlx, x, y, bytesOfWord d⟩
  | .storeb x y d => ⟨.storeb, x, y, bytesOfHalf d⟩
  | .storebl x y d => ⟨.storebl, x, y, bytesOfWord d⟩
  | .storebx x y d => ⟨.storebx, x, y, bytesOfHalf d⟩
  | .storeblx x y d => ⟨.storeblx, x, y, bytesOfWord d⟩
  | .stored x y d => ⟨.stored, x, y, bytesOfHalf d⟩
  | .storedl x y d => ⟨.storedl, x, y, bytesOfWord d⟩
  | .storedx x y d => ⟨.storedx, x, y, bytesOfHalf d⟩
  | .storedlx x y d => ⟨.storedlx, x, y, bytesOfWord d⟩
  | .laddr x y d => ⟨.laddr, x, y, bytesOfHalf d⟩
  | .laddrx x y d => ⟨.laddrx, x, y, bytesOfHalf d⟩
  | .laddrl x y d => ⟨.laddrl, x, y, bytesOfWord d⟩
  | .laddrlx x y d => ⟨.laddrlx, x, y, bytesOfWord d⟩
  | .laddrp x y d => ⟨.laddrp, x, y, bytesOfHalf d⟩
  | .laddrpx x y d => ⟨.laddrpx, x, y, bytesOfHalf d⟩
  | .laddrpl x y d => ⟨.laddrpl, x, y, bytesOfWord d⟩
  | .laddrplx x y d => ⟨.laddrplx, x, y, bytesOfWord d⟩
  | .br x y d => ⟨.br, x, y, bytesOfHalf d⟩
  | .brl x y d => ⟨.brl, x, y, bytesOfWord d⟩
  | .brGt x y d => ⟨.brGt, x, y, bytesOfHalf d⟩
  | .brGtL x y d => ⟨.brGtL, x, y, bytesOfWord d⟩
  | .brEq x y d => ⟨.brEq, x, y, bytesOfHalf d⟩
  | .brEqL x y d => ⟨.brEqL, x, y, bytesOfWord d⟩
  | .brLe x y d => ⟨.brLe, x, y, bytesOfHalf d⟩
  | .brLeL x y d => ⟨.brLeL, x, y, bytesOfWord d⟩
  | .brNe x y d => ⟨.brNe, x, y, bytesOfHalf d⟩
  | .brNeL x y d => ⟨.brNeL, x, y, bytesOfWord d⟩
  | .briGt x y d => ⟨.briGt, x, y, bytesOfHalf d⟩
  | .briGtL x y d => ⟨.briGtL, x, y, bytesOfWord d⟩
  | .briLt x y d => ⟨.briLt, x, y, bytesOfHalf d⟩
  | .briLtL x y d => ⟨.briLtL, x, y, bytesOfWord d⟩
  | .briEq x y d => ⟨.briEq, x, y, bytesOfHalf d⟩
  | .briEqL x y d => ⟨.briEqL, x, y, bytesOfWord d⟩
  | .briLe x y d => ⟨.briLe, x, y, bytesOfHalf d⟩
  | .briLeL x y d => ⟨.briLeL, x, y, bytesOfWord d⟩
  | .briGe x y d => ⟨.briGe, x, y, bytesOfHalf d⟩
  | .briGeL x y d => ⟨.briGeL, x, y, bytesOfWord d⟩
  | .briNe x y d => ⟨.briNe, x, y, bytesOfHalf d⟩
  | .briNeL x y d => ⟨.briNeL, x, y, bytesOfWord d⟩
  | .call x y d => ⟨.call, x, y, bytesOfHalf d⟩
  | .calll x y d => ⟨.calll, x, y, bytesOfWord d⟩
  | .loop x y d => ⟨.loop, x, y, bytesOfHalf d⟩
  | .loopl x y d => ⟨.loopl, x, y, bytesOfWord d⟩
  | .elogr x => ⟨.maint, x, 0, []⟩
  | .elogw x => ⟨.maint, x, 1, []⟩
  | .twrited x => ⟨.maint, x, 5, []⟩
  | .flush x => ⟨.maint, x, 6, []⟩
  | .trapexit x => ⟨.maint, x, 7, []⟩
  | .itest x => ⟨.maint, x, 8, []⟩
  | .machineid x => ⟨.maint, x, 10, []⟩
  | .version x => ⟨.maint, x, 11, []⟩
  | .creg x => ⟨.maint, x, 12, []⟩
  | .rdlog x => ⟨.maint, x, 13, []⟩

/-- The opcode of an instruction (MAINT for the ten maintenance instructions). -/
def Instr.opcode (i : Instr) : Opcode := i.parts.opcode

/-- The length of an instruction in bytes, `il` of 00_scope.md rule R10. -/
def Instr.length (i : Instr) : Nat := i.opcode.format.length

/-- The encoder: the bytes of an instruction in ascending address order (30_encoding.md rules R142 to R148). -/
def encode (m : Config.OpcodeMap) (i : Instr) : List Byte :=
  m.code i.parts.opcode :: (i.parts.x ++ i.parts.y : Byte) :: i.parts.disp

/-- The six bytes that an instruction stored as the number `w` of spec/opcode_table.json occupies: bit 0 of the number is
the least significant bit of the first 16-bit word, the bits above `nbits` are 0, each word is stored most significant
byte first (20_memory.md rule R80). -/
def tableWordBytes (nbits w : Nat) : List Byte :=
  let v := w % 2 ^ nbits
  [BitVec.ofNat 8 (v / 2 ^ 8), BitVec.ofNat 8 v, BitVec.ofNat 8 (v / 2 ^ 24), BitVec.ofNat 8 (v / 2 ^ 16),
   BitVec.ofNat 8 (v / 2 ^ 40), BitVec.ofNat 8 (v / 2 ^ 32)]

/-- The instruction the decoder reads from a table word, under the default opcode assignment. -/
def decodeTableWord (nbits w : Nat) : Option Instr :=
  match decode Config.Params.default.opc (tableWordBytes nbits w) with
  | .ok (i, _) => some i
  | .error _ => none

end Sys2Proof
end

