-- ==== Sys2Proof/Machine/Boundary.lean ====
section
/-! DEFINITION. What happens at an instruction boundary: the events of the environment, the reset button, and the
choice of the interrupt to take (60_exceptions.md rules R520 to R534, R543; 70_reset_and_hazards.md rule R580). -/

namespace Sys2Proof.Machine

/-! ### The millisecond tick (60_exceptions.md rule R530) -/

/-- A word of a control structure with a value added. -/
def State.structAdd (s : State) (base offset v : Word) : Except Fault State :=
  match s.structLoad base offset with
  | .error f => .error f
  | .ok (w, s1) => s1.structWrite base offset (w + v)

/-- No CCB is present (10_state.md rule R50). -/
def State.noCcb (s : State) : Bool := mbit (s.sreg 11) 31

/-- The time of day advanced by one million nanoseconds. -/
def State.tickTimeOfDay (s : State) : Except Fault State :=
  match s.structLoad (s.sreg 11) 0x448 with
  | .error f => .error f
  | .ok (h, s1) =>
    match s1.structLoad (s.sreg 11) 0x44C with
    | .error f => .error f
    | .ok (l, s2) =>
      let t : DWord := (h ++ l : DWord) + 1000000
      match s2.structWrite (s.sreg 11) 0x448 (t.extractLsb' 32 32) with
      | .error f => .error f
      | .ok s3 => s3.structWrite (s.sreg 11) 0x44C (t.extractLsb' 0 32)

/-- The process clock, or with no process the idle count. -/
def State.tickProcess (s : State) : Except Fault State :=
  if s.sreg 14 ≠ 1 then s.structAdd (s.sreg 14) 0x50 1
  else if s.noCcb then .ok s
  else s.structAdd (s.sreg 11) 0x43C 1

/-- The two timers, the first first, then the time of day. -/
def State.tickTimers (s : State) : Except Fault State :=
  if s.noCcb then .ok s
  else
    match s.structAdd (s.sreg 11) 0x440 0xFFFFFFFF with
    | .error f => .error f
    | .ok s1 =>
      match s1.structAdd (s.sreg 11) 0x444 0xFFFFFFFF with
      | .error f => .error f
      | .ok s2 => s2.tickTimeOfDay

/-- `Tick()` of 60_exceptions.md rule R530. -/
def State.tick (s : State) : Except Fault State :=
  match s.tickProcess with
  | .error f => .error f
  | .ok s1 => s1.tickTimers

/-! ### The events of the environment -/

/-- What LUS or the entry of an event loaded from a word with a double-bit error holds an unspecified value
(60_exceptions.md rule R522). That the pc is one of the registers R522 speaks of, and that it stays even, is the model's
choice (DESIGN CHOICE, log 30). -/
def State.spoilKernel (s : State) (k : KernelLoad) : State :=
  match k with
  | .codeSegment => s.setSreg 8 (Config.freeWord s.draws (.paritySr 8))
  | .dataSegment => s.setSreg 9 (Config.freeWord s.draws (.paritySr 9))
  | .traps => s.loadTraps (Config.freeWord s.draws (.paritySr 10))
  | .userPc => s.setSreg 15 (Config.freeWord s.draws (.paritySr 15))
  | .pc => { s with pc := Config.freeWord s.draws .parityPc &&& 0xFFFFFFFE }

/-- A register loaded from a word with a double-bit error holds an unspecified value (60_exceptions.md rule R522). LUS
and the entry of an event leave the processor in kernel mode and not paused, so only there can the reference just executed
have loaded a register other than a general one. -/
def State.spoilReg (s : State) (r : LoadedReg) : State :=
  match r with
  | .general n => s.setReg n (Config.freeWord s.draws (.parityLoad n))
  | .kernel k => if s.mode = .kernel ∧ s.paused = false then s.spoilKernel k else s

/-- Registers loaded from a word with a double-bit error, one after another. -/
def State.spoilRegs (s : State) : List LoadedReg → State
  | [] => s
  | r :: rs => (s.spoilReg r).spoilRegs rs

/-- A request raised by a board (10_state.md rule R63). -/
def Board.raiseRequest (info : BitVec 24) (b : Board) : Board := { b with requesting := true, info := info }

/-- An answer to come settled. -/
def Board.addAnswer (a : Answer) (b : Board) : Board := { b with answers := b.answers ++ [a] }

/-- The error log as the memory controller leaves it (10_state.md rule R65); there are at most 16 valid entries. -/
def State.logError (s : State) (location : BitVec 4) (entry : Word) (valid : Nat) : State :=
  { s with logData := s.logData.set location.toNat entry, logCount := min valid 16 }

/-- The power fail warning bit; an edge from 0 to 1 makes one interrupt due (60_exceptions.md rule R527). -/
def State.setPowerFail (s : State) (on : Bool) : State :=
  { s with powerFail := on, powerFailDue := if on && !s.powerFail then s.powerFailDue + 1 else s.powerFailDue }

/-- One event of the environment. The reset button has its effect after the others of its boundary
(`State.boundary`). -/
def State.input (s : State) (i : Input) : Except Fault State :=
  match i with
  | .tick => s.tick
  | .resetButton _ => .ok s
  | .switch0 => .ok { s with switch0Due := s.switch0Due + 1 }
  | .powerFail on => .ok (s.setPowerFail on)
  | .powerLost => .error .powerLost
  | .parityFetch a => .ok { s with parityDue := s.parityDue ++ [.fetch a] }
  | .parityExecute a loaded => .ok { s.spoilRegs loaded with parityDue := s.parityDue ++ [.execute a] }
  | .logWrite location entry valid => .ok (s.logError location entry valid)
  | .ioRequest device info => .ok (s.onBoard device (Board.raiseRequest info))
  | .ioAnswer device a => .ok (s.onBoard device (Board.addAnswer a))
  | .clockIn v => .ok { s with clockIn := v }
  | .dma e => s.dma e

/-- Events of the environment one after another. -/
def State.inputAll (s : State) : List Input → Except Fault State
  | [] => .ok s
  | i :: is =>
    match s.input i with
    | .error f => .error f
    | .ok s1 => s1.inputAll is

/-- The boot page of the reset button among the events of a boundary, if it is pressed. -/
def resetPage : List Input → Option (List Byte)
  | [] => none
  | .resetButton p :: _ => some p
  | _ :: is => resetPage is

/-! ### The reset button (60_exceptions.md rule R529; 70_reset_and_hazards.md rule R580) -/

/-- Bytes at ascending addresses, as memory. -/
def bytesFrom : Nat → List Byte → Memory
  | _, [] => []
  | a, b :: bs => (a, b) :: bytesFrom (a + 1) bs

/-- The first page of the boot media, as far as memory is installed. -/
def State.bootMemory (s : State) (page : List Byte) : Memory :=
  bytesFrom 0x3E000 (page.take (min 4096 (s.cfg.memSize.toNat - 0x3E000)))

/-- A table of free TMT entries in the form in which State holds them. -/
def freeTmt (n : Nat) : List (Nat × Word) :=
  (Config.resetTmt n).foldl (fun t p => tmtSet t (p.1 % 1024) p.2) []

/-- The 16 bytes of four words. -/
def quadOfWords (w0 w1 w2 w3 : Word) : Vector Byte 16 :=
  let b := byteOfWord
  #v[b w0 0, b w0 1, b w0 2, b w0 3, b w1 0, b w1 1, b w1 2, b w1 3, b w2 0, b w2 1, b w2 2, b w2 3, b w3 0, b w3 1,
    b w3 2, b w3 3]

/-- Free lines of a half of the cache in the form in which State holds them, none of the boot page, which the processor
executes (log 38). -/
def freeLines (n : Nat) (code : Bool) : Lines :=
  ((Config.resetLines n code).filter fun p => lineTag p.1 != lineTag 0x3E000).foldl
    (fun c p => loadQuad c p.1 (quadOfWords p.2.1 p.2.2.1 p.2.2.2.1 p.2.2.2.2) 0) []

/-- A free bit of the reset. -/
def State.resetBit (s : State) (b : Nat) : Bool := mbit (Config.freeWord s.draws .resetBits) b

/-- The special registers after the reset button: SR2, SR11 and SR14 stated, the others free. -/
def State.resetSregs (s : State) : Vector Word 16 :=
  (((Vector.ofFn fun k : Fin 16 => Config.freeWord s.draws (.resetSr k.val)).set 2 s.cfg.memSize).set 11 1).set 14 1

/-- The state after the reset button: what 70_reset_and_hazards.md rule R580 states, and free values for the rest
(log 38). -/
def State.pressReset (s : State) (page : List Byte) : State :=
  { s with
    mode := .kernel
    paused := false
    stuck := none
    pc := 0x0003E000
    sr := s.resetSregs
    regs := Vector.ofFn fun k : Fin 16 => Config.freeWord s.draws (.resetReg k.val)
    trapsEff := Config.freeWord s.draws .resetTraps
    trapsOpen := 0
    mem := s.bootMemory page
    memEpoch := s.memEpoch + 1
    tmt := freeTmt s.draws
    codeLines := freeLines s.draws true
    dataLines := freeLines s.draws false
    prefetch := []
    mask1 := s.resetBit 0
    mask2 := s.resetBit 1
    clockOut := ⟨s.resetBit 2, s.resetBit 3⟩
    logData := s.freeEntries
    logCount := s.freeCount }

/-! ### The interrupt to take (60_exceptions.md rules R520 to R528, R534) -/

/-- The interrupt that a boundary takes, with the state after the reads that chose it. -/
inductive Pending where
  | none (s : State)
  | take (e : Event) (s : State)
  | fault (f : Fault)

/-- The event of a double-bit parity error. -/
def ParityError.event (p : ParityError) : Event :=
  match p with
  | .fetch a => .parityFetch a
  | .execute a => .parityExecute a

/-- A timer of the CCB data area is due when its count is negative (60_exceptions.md rule R528); a later interrupt is
looked for when it is not. -/
def State.timer (s : State) (offset : Word) (e : Event) (later : State → Pending) : Pending :=
  match s.structLoad (s.sreg 11) offset with
  | .error f => .fault f
  | .ok (w, s1) => if mbit w 0 then .take e s1 else later s1

/-- The interrupts that only user mode and the paused state accept: external, timer 1, timer 2
(60_exceptions.md rules R524, R528, R534). -/
def State.pendingLow (s : State) : Pending :=
  match s.deliverable with
  | some b => .take (.external b.ioir) (s.ackIoi b)
  | none => if s.noCcb then .none s else s.timer 0x440 .timer1 fun s1 => s1.timer 0x444 .timer2 .none

/-- The interrupt of the highest priority: parity, power fail, switch 0, then the others
(60_exceptions.md rule R534). -/
def State.pending (s : State) : Pending :=
  match s.parityDue with
  | p :: ps => .take p.event { s with parityDue := ps }
  | [] =>
    if s.powerFailDue ≠ 0 then .take .powerFail { s with powerFailDue := s.powerFailDue - 1 }
    else if s.switch0Due ≠ 0 then .take .switch0 { s with switch0Due := s.switch0Due - 1 }
    else if s.mode = .user ∨ s.paused = true then s.pendingLow
    else .none s

/-- `npc`: the address of the next instruction at a boundary, while paused that after the RUM
(60_exceptions.md rules R505, R521). -/
def State.npc (s : State) : Word := if s.paused then s.pc + 2 else s.pc

/-! ### The boundary -/

/-- What a boundary answers: the step ends there, or an instruction runs. -/
inductive BoundaryResult where
  | ends (o : Outcome)
  | run (s : State)

/-- The schedule of the coming boundary taken off, and a new number for the free values of this step. -/
def State.nextBoundary (s : State) : State :=
  { s with
    draws := s.draws + 1
    inputs := s.inputs.tail
    between := match s.inputs with
      | [] => []
      | b :: _ => b.between }

/-- The environment events of the coming boundary. -/
def State.events (s : State) : List Input :=
  match s.inputs with
  | [] => []
  | b :: _ => b.events

/-- After the events of the environment: the reset button, which ends a stuck state too (60_exceptions.md rule R529), an
interrupt, the pause, or an instruction. -/
def State.settle (s : State) (reset : Option (List Byte)) : BoundaryResult :=
  match reset with
  | some p => .ends (.next (s.pressReset p))
  | none =>
    if s.stuck.isSome then .ends (.next s)
    else
      match s.pending with
      | .fault f => .ends (.fault f)
      | .take e s1 => .ends (enter e s.npc s1)
      | .none s1 => if s.paused then .ends (.next s1) else .run s1

/-- The boundary between two instructions (60_exceptions.md rules R521, R534). -/
def State.boundary (s : State) : BoundaryResult :=
  match s.nextBoundary.inputAll s.events with
  | .error f => .ends (.fault f)
  | .ok s1 => s1.settle (resetPage s.events)

end Sys2Proof.Machine
end

