-- ==== Sys2Proof/Machine/Fetch.lean ====
section
/-! DEFINITION. Instruction fetch, and the report of an undefined instruction (20_memory.md rules R84, R113;
30_encoding.md rules R146, R152; 60_exceptions.md rule R512). -/

namespace Sys2Proof.Machine

/-- The two bytes of one halfword of an instruction, through its own translation (20_memory.md rule R113). -/
def fetchHalf (p : Word) (s : State) : Res (List Byte) :=
  (s.locate .code p .fetch 2).bind fun r s1 =>
    .ok [s1.readByte .fetch r.toNat, s1.readByte .fetch (r.toNat + 1)] (s1.loadLine .fetch r.toNat)

/-- The bytes of n halfwords. -/
def fetchHalves : Nat → Word → State → Res (List Byte)
  | 0, _, s => .ok [] s
  | n + 1, p, s =>
    (fetchHalf p s).bind fun bs s1 => (fetchHalves n (p + 2) s1).bind fun cs s2 => .ok (bs ++ cs) s2

/-- The bytes of the instruction at the program counter, as many as its first byte tells (30_encoding.md rule R146); then
the prefetch buffers hold words read ahead. An odd pc and an instruction that crosses FFFF FFFF are outside the
specification (10_state.md rule R36). -/
def fetchBytes (s : State) : Res (List Byte) :=
  if mbit s.pc 31 then .fault .oddPc
  else
    (fetchHalf s.pc s).bind fun bs s1 =>
      let n := lengthOfFirstByte (bs.headD 0)
      if 2 ^ 32 < s1.pc.toNat + n then .fault .pcWrap
      else (fetchHalves (n / 2 - 1) (s1.pc + 2) s1).bind fun cs s2 => .ok (bs ++ cs) s2.readAhead

/-- The displacement that the bytes of a memory format instruction carry. -/
def dispOfBytes (bs : List Byte) : Word :=
  match bs with
  | [d0, d1] => shortDisp (d0 ++ d1)
  | [d0, d1, d2, d3] => d0 ++ d1 ++ d2 ++ d3
  | _ => 0

/-- The illegal instruction event of an undefined opcode byte `b` with the byte `f` of its fields and the bytes of its
displacement (60_exceptions.md rule R512; 92_eei_decisions.md D46). -/
def State.illegalOpcode (s : State) (b f : Byte) (disp : List Byte) : Event :=
  let y : RegNo := f.extractLsb' 0 4
  if mbit b 0 then
    let sp : Space := if mbit b 1 == mbit b 2 then .code else .data
    let ea := if mbit b 7 then s.eaIndexed sp y (dispOfBytes disp) else s.eaDirect sp (dispOfBytes disp)
    .illegalMemory b (s.segment sp) ea
  else .illegalRegister b (f.extractLsb' 4 4) y

/-- The illegal instruction event of bytes that no instruction has. -/
def State.illegalBytes (s : State) (bs : List Byte) : Event :=
  match bs with
  | b :: f :: disp => s.illegalOpcode b f disp
  | _ => s.illegalOpcode 0 0 []

/-- Fetch and decode, then `run` on the instruction (60_exceptions.md rule R532). -/
def fetchRun (run : Instr → State → Outcome) (s : State) : Outcome :=
  (fetchBytes s).finish fun bs s1 =>
    match decode s1.cfg.opc bs with
    | .ok (i, _) => run i s1
    | .error _ => raise (s1.illegalBytes bs) s1

/-- The bytes stored at the real addresses from which the halfwords of the instruction at `p` are fetched, with no other
content of them left in the code lines and the prefetch buffers. -/
def State.placeHalf (s : State) (p : Word) (b0 b1 : Byte) : State :=
  match s.realAddr .code p .fetch with
  | .ok r _ =>
    if s.inMem r 2 then
      { s with
        mem := sparseSet (sparseSet s.mem r.toNat b0) (r.toNat + 1) b1
        codeLines := dropLine s.codeLines r.toNat
        prefetch := sparseErase s.prefetch (r.toNat / 4) }
    else s
  | _ => s

/-- Bytes placed where the instruction at `p` is fetched, two at a time. -/
def State.placeBytes (s : State) (p : Word) : List Byte → State
  | b0 :: b1 :: bs => (s.placeHalf p b0 b1).placeBytes (p + 2) bs
  | _ => s

end Sys2Proof.Machine
end

