-- ==== Sys2Proof/Machine/Step.lean ====
section
/-! DEFINITION. One step of the machine: the instruction boundary, then an instruction, an event or nothing
(60_exceptions.md rule R521). -/

namespace Sys2Proof.Machine

/-- One step: what the boundary answers, or the instruction at the program counter. -/
def step (s : State) : Host.Outcome State Fault Refusal :=
  match s.boundary with
  | .ends o => o
  | .run s1 => fetchRun exec s1

/-- The instruction whose bits are `w`, numbered as spec/opcode_table.json numbers them, stored where `step` fetches its
next instruction (log 39). -/
def State.withFetchWord (s : State) (nbits w : Nat) : State := s.placeBytes s.pc (tableWordBytes nbits w)

end Sys2Proof.Machine
end

