-- ==== Sys2Proof/Safety.lean ====
section
/-! DEFINITION. The terms in which claims about the machine are made: what a completed instruction leaves, the vector an
event needs, the invariant of the machine, exact values of reals, and the opcode families as tables. -/

namespace Sys2Proof.Machine

/-! ### Completed instructions -/

/-- An instruction of `il` bytes at the program counter leaves an address for the next one (10_state.md rule R36). -/
abbrev State.Room (s : State) (il : Nat) : Prop := s.pc.toNat + il < 2 ^ 32

/-- The state with the program counter `il` bytes on (10_state.md rule R35). -/
def State.after (s : State) (il : Nat) : State := { s with pc := s.pc + BitVec.ofNat 32 il }

/-- The state after a transfer of control to `t`, which empties the prefetch buffers (20_memory.md rule R126). -/
def State.goto (s : State) (t : Word) : State := { s with pc := t, prefetch := [] }

/-- Every byte of main memory is the same. -/
abbrev SameMemory (s t : State) : Prop := ∀ a, t.mainByte a = s.mainByte a

/-- Every general register is the same but those listed. -/
abbrev SameRegsBut (l : List RegNo) (s t : State) : Prop := ∀ n, n ∉ l → t.reg n = s.reg n

/-- Every special register is the same but those listed. -/
abbrev SameSregsBut (l : List RegNo) (s t : State) : Prop := ∀ n, n ∉ l → t.sreg n = s.sreg n

/-- The states differ at most in memory, in the data lines of the cache and in the TMT. -/
abbrev SameButMemory (s t : State) : Prop := t = { s with mem := t.mem, dataLines := t.dataLines, tmt := t.tmt }

/-- The states differ at most in the lines of the cache and in the prefetch buffers. -/
abbrev SameButCache (s t : State) : Prop :=
  t = { s with codeLines := t.codeLines, dataLines := t.dataLines, prefetch := t.prefetch }

/-- Every data line holds what main memory holds: no DMA write is hidden from data reads (20_memory.md rule R121). -/
abbrev State.Coherent (s : State) : Prop := ∀ a, s.readByte .data a = s.mainByte a

/-- The states differ at most in the general registers. -/
abbrev SameButRegs (s t : State) : Prop := t = { s with regs := t.regs }

/-- An exact integer result needs no trap: it fits 32 bits, or the overflow trap is off (41_integer_logical.md rules
R226, R227). -/
abbrev State.Quiet (s : State) (r : Int) : Prop := s.trapBit 16 = false ∨ (-2 ^ 31 ≤ r ∧ r ≤ 2 ^ 31 - 1)

/-- An exact integer result overflows and the trap is on. -/
abbrev State.Overflows (s : State) (r : Int) : Prop := s.trapBit 16 = true ∧ (r < -2 ^ 31 ∨ 2 ^ 31 - 1 < r)

/-! ### Events -/

/-- A CCB is present and holds the even vector `v` for the event (60_exceptions.md rules R504, R509). -/
abbrev State.HasVector (s : State) (e : Event) (v : Word) : Prop :=
  mbit (s.sreg 11) 31 = false ∧ s.structRead (s.sreg 11) e.offset = .ok v ∧ mbit v 31 = false

/-- SR1, SR2 and SR3 as an event leaves them, none where Table 6-1 says "nc" (60_exceptions.md rules R510 to R528). -/
def Event.registers : Event → Option Word × Option Word × Option Word
  | .kernelCall _ => (none, none, none)
  | .dataAlignment seg a => (none, some (zext seg), some a)
  | .illegalRegister op x y => (some (zext op), some (zext x), some (zext y))
  | .illegalMemory op seg a => (some (zext op), some (zext seg), some a)
  | .parityFetch a => (none, none, some a)
  | .parityExecute a => (none, none, some a)
  | .pageFault .absent seg a => (some 0xFFFFFFFF, some (zext seg), some a)
  | .pageFault .writeProtected seg a => (some 0xFFFFFFFE, some (zext seg), some a)
  | .kernelViolation op x y => (some (zext op), some (zext x), some (zext y))
  | .checkTrap op x y => (some (zext op), some (zext x), some (zext y))
  | .arithmetic op x y c => (some (zext op), some (zext (x ++ y)), some (BitVec.ofNat 32 c))
  | .external _ => (none, none, none)
  | .switch0 => (none, none, none)
  | .powerFail => (none, none, none)
  | .timer1 => (none, none, none)
  | .timer2 => (none, none, none)

/-- The kernel only instructions of 45_kernel.md rule R430 (a). -/
def kernelOnlyForms (x y : RegNo) : List Instr :=
  [.sus x y, .lus x y, .ldregs x y, .rum x y, .movesr x y, .movers x y, .trans x y, .dirt x y, .trapexit x]

/-- The privileged instructions of 45_kernel.md rule R430 (b). -/
def privilegedForms (x y : RegNo) : List Instr :=
  [.elogr x, .elogw x, .twrited x, .flush x, .itest x, .machineid x, .version x, .creg x, .rdlog x, .read x y,
   .write x y]

/-- The second field of an instruction, which a kernel violation records: the subop of a maintenance instruction
(45_kernel.md rule R440). -/
def Instr.secondField (i : Instr) : BitVec 4 := i.parts.y

/-! ### The invariant -/

/-- The listed keys of a table are below a bound. -/
abbrev KeysBelow {α : Type} (n : Nat) (l : List (Nat × α)) : Prop := ∀ p ∈ l, p.1 < n

/-- A half of the cache as the hardware has it (20_memory.md rule R125): in canonical form, 256 line numbers, at each one
or two valid lines, one in each data table, of different quadwords. -/
structure Lines.Ok (c : Lines) : Prop where
  wf : SparseWf c
  keys : KeysBelow 256 c
  ways : ∀ p ∈ c, 1 ≤ p.2.length ∧ p.2.length ≤ 2
  tags : ∀ p ∈ c, (p.2.map Line.tag).Nodup

/-- The boards of a daisy chain. -/
abbrev State.chain (s : State) (chain2 : Bool) : List Board := s.boards.filter fun b => b.chain2 == chain2

/-- What every step keeps: memory, the TMT and the prefetch buffers are in canonical form, memory lists only installed
addresses, the TMT lists only its 1024 entries and no entry 0, each half of the cache has 256 line numbers with at most
two lines, there are at most four prefetch buffers (20_memory.md rules R125, R126), the pc is even (10_state.md rule
R36), a paused processor is in kernel mode with no process (10_state.md rule R67), the error log has at most 16 valid
entries (10_state.md rule R65), each daisy chain has at most 8 boards (60_exceptions.md rule R544), and the DMA transfer
that has the bus is of at most four aligned words (60_exceptions.md rule R543). -/
structure State.Inv (s : State) : Prop where
  memWf : Memory.wf s.mem
  memInstalled : KeysBelow s.cfg.memSize.toNat s.mem
  tmtWf : SparseWf s.tmt
  tmtKeys : KeysBelow 1024 s.tmt
  tmtNonzero : ∀ p ∈ s.tmt, p.2 ≠ 0
  codeOk : Lines.Ok s.codeLines
  dataOk : Lines.Ok s.dataLines
  prefetchWf : SparseWf s.prefetch
  prefetchFour : s.prefetch.length ≤ 4
  pcEven : mbit s.pc 31 = false
  pausedIdle : s.paused = true → s.mode = .kernel ∧ s.sreg 14 = 1
  logBound : s.logCount ≤ 16
  chainBound : ∀ chain2, (s.chain chain2).length ≤ 8
  transferFour : s.transfer.length ≤ 4
  transferAligned : ∀ c ∈ s.transfer, c.address % 4 = 0

/-! ### The VRT (20_memory.md rule R104) -/

/-- The entry at `p` matches: segment and bits 0..15 of the address. -/
abbrev vrtMatches (m : Word) (seg : Half) (a : Word) : Prop :=
  m.extractLsb' 16 16 = seg ∧ m.extractLsb' 0 16 = a.extractLsb' 16 16

/-- Following Link Words from `p` past entries that do not match leads to the matching entry `q`. -/
inductive VrtLeads (s : State) (seg : Half) (a : Word) : Word → Word → Prop
  | here (p m : Word) : p ≠ 0 → s.ucodeRead p = .ok m → vrtMatches m seg a → VrtLeads s seg a p p
  | link (p m l q : Word) : p ≠ 0 → s.ucodeRead p = .ok m → ¬vrtMatches m seg a → s.ucodeRead (p + 4) = .ok l →
      VrtLeads s seg a l q → VrtLeads s seg a p q

/-- Following Link Words from `p` past entries that do not match leads to the end of the chain. -/
inductive VrtEnds (s : State) (seg : Half) (a : Word) : Word → Prop
  | zero : VrtEnds s seg a 0
  | link (p m l : Word) : p ≠ 0 → s.ucodeRead p = .ok m → ¬vrtMatches m seg a → s.ucodeRead (p + 4) = .ok l →
      VrtEnds s seg a l → VrtEnds s seg a p

/-! ### Instruction fetch (20_memory.md rule R113) -/

/-- The step from `s` runs an instruction and has fetched the halfwords of it that lie before `a`, which leaves the
state `t`; `a` is the address of its next halfword. The first byte tells how many halfwords there are. -/
def State.FetchesUpTo (s t : State) (a : Word) : Prop :=
  ∃ (u : State) (k : Nat) (bs : List Byte), s.boundary = .run u ∧ mbit u.pc 31 = false ∧
    fetchHalves k u.pc u = .ok bs t ∧ a = u.pc + BitVec.ofNat 32 (2 * k) ∧
    (k = 0 ∨ 2 * k < lengthOfFirstByte (bs.headD 0) ∧ u.pc.toNat + lengthOfFirstByte (bs.headD 0) ≤ 2 ^ 32)

/-! ### Values of reals -/

/-- An ordinary real: fields within their widths, and an exponent that is neither 0 nor all ones (42_real.md rules R270,
R271, R272). -/
abbrev RealFields.Ordinary (f : Fmt) (r : RealFields) : Prop :=
  1 ≤ r.exp ∧ r.exp < f.maxExp ∧ r.man < 2 ^ f.manBits

/-- The value of an ordinary real, `(-1)^s * 2^(e - bias) * (1 + m / 2^manBits)` (42_real.md rules R270, R271). -/
def RealFields.value (f : Fmt) (r : RealFields) : ℚ :=
  (if r.neg then -1 else 1) * (2 : ℚ) ^ ((r.exp : ℤ) - f.bias) * (1 + (r.man : ℚ) / 2 ^ f.manBits)

/-- The exact result of an operation on values (42_real.md rule R287). -/
def RealOp.onValues (op : RealOp) (a b : ℚ) : ℚ :=
  match op with
  | .add => a + b
  | .sub => a - b
  | .mpy => a * b
  | .div => a / b

/-- `v` is the correctly rounded value of `q` among the ordinary reals of the format (42_real.md rules R274, R275): the
nearest one, on a tie the one with an even mantissa, or the nearest one in the direction of the mode. -/
def RoundsTo (f : Fmt) (m : Config.RoundMode) (q : ℚ) (v : RealFields) : Prop :=
  v.Ordinary f ∧
  match m with
  | .nearest =>
    (∀ w : RealFields, w.Ordinary f → |q - v.value f| ≤ |q - w.value f|) ∧
    ∀ w : RealFields, w.Ordinary f → |q - w.value f| = |q - v.value f| → w.value f ≠ v.value f → v.man % 2 = 0
  | .plusInfinity => q ≤ v.value f ∧ ∀ w : RealFields, w.Ordinary f → q ≤ w.value f → v.value f ≤ w.value f
  | .minusInfinity => v.value f ≤ q ∧ ∀ w : RealFields, w.Ordinary f → w.value f ≤ q → w.value f ≤ v.value f
  | .zero => |v.value f| ≤ |q| ∧ 0 ≤ q * v.value f ∧
      ∀ w : RealFields, w.Ordinary f → |w.value f| ≤ |q| → |w.value f| ≤ |v.value f|

/-- `n` is the correctly rounded integer of `q` (42_real.md rules R274, R275, R290): the nearest one, on a tie the even
one, or the nearest one in the direction of the mode. -/
def IntRoundsTo (m : Config.RoundMode) (q : ℚ) (n : ℤ) : Prop :=
  match m with
  | .nearest => 2 * |q - n| ≤ 1 ∧ (2 * |q - n| = 1 → n % 2 = 0)
  | .plusInfinity => q ≤ n ∧ (n : ℚ) < q + 1
  | .minusInfinity => (n : ℚ) ≤ q ∧ q < n + 1
  | .zero => |(n : ℚ)| ≤ |q| ∧ |q| < |(n : ℚ)| + 1 ∧ 0 ≤ q * n

/-- A row of the arithmetic part of Table 4-1: the classes of the two operands, the result of each operation as a
function of the operands, and whether the division is a division by zero. -/
structure TableLine where
  op1 : RealClass
  op2 : RealClass
  radd : RealFields → RealFields → RealFields
  rsub : RealFields → RealFields → RealFields
  rmpy : RealFields → RealFields → RealFields
  rdiv : RealFields → RealFields → RealFields
  divByZero : Bool

/-- Table 4-1 row by row (42_real.md rule R279), `note4` being the sign of a zero sum of two zeros by their signs; where
the division is a division by zero the result is that with the trap off (rule R281). -/
def table41Lines (f : Fmt) (note4 : Bool → Bool → Bool) : List TableLine :=
  let s1 : RealFields → RealFields → RealFields := fun a _ => infReal f a.neg
  let s2 : RealFields → RealFields → RealFields := fun _ b => infReal f b.neg
  let ms2 : RealFields → RealFields → RealFields := fun _ b => infReal f (!b.neg)
  let n1 : RealFields → RealFields → RealFields := fun a _ => a
  let n2 : RealFields → RealFields → RealFields := fun _ b => b
  let mn2 : RealFields → RealFields → RealFields := fun _ b => { b with neg := !b.neg }
  let z4 : RealFields → RealFields → RealFields := fun a b => zeroReal (note4 a.neg b.neg)
  let mz4 : RealFields → RealFields → RealFields := fun a b => zeroReal (note4 a.neg (!b.neg))
  let zx : RealFields → RealFields → RealFields := fun a b => zeroReal (a.neg != b.neg)
  let ix : RealFields → RealFields → RealFields := fun a b => infReal f (a.neg != b.neg)
  let pi : RealFields → RealFields → RealFields := fun _ _ => infReal f false
  [⟨.number, .zero, n1, n1, zx, ix, true⟩,
   ⟨.number, .denormalized, n1, n1, zx, ix, true⟩,
   ⟨.number, .infinity, s2, ms2, ix, zx, false⟩,
   ⟨.number, .notANumber, s2, ms2, ix, zx, false⟩,
   ⟨.zero, .number, n2, mn2, zx, zx, false⟩,
   ⟨.zero, .zero, z4, mz4, zx, zx, false⟩,
   ⟨.zero, .denormalized, z4, mz4, zx, ix, true⟩,
   ⟨.zero, .infinity, s2, ms2, zx, zx, false⟩,
   ⟨.zero, .notANumber, s2, ms2, zx, zx, false⟩,
   ⟨.denormalized, .number, n2, mn2, zx, zx, false⟩,
   ⟨.denormalized, .zero, z4, mz4, zx, ix, true⟩,
   ⟨.denormalized, .denormalized, z4, mz4, zx, ix, true⟩,
   ⟨.denormalized, .infinity, s2, ms2, zx, zx, false⟩,
   ⟨.denormalized, .notANumber, s2, ms2, zx, zx, false⟩,
   ⟨.infinity, .number, s1, s1, ix, ix, false⟩,
   ⟨.infinity, .zero, s1, s1, zx, ix, true⟩,
   ⟨.infinity, .denormalized, s1, s1, zx, ix, true⟩,
   ⟨.infinity, .infinity, pi, pi, ix, zx, false⟩,
   ⟨.infinity, .notANumber, pi, pi, ix, zx, false⟩,
   ⟨.notANumber, .number, s1, s1, ix, ix, false⟩,
   ⟨.notANumber, .zero, s1, s1, zx, ix, true⟩,
   ⟨.notANumber, .denormalized, s1, s1, zx, ix, true⟩,
   ⟨.notANumber, .infinity, pi, pi, ix, zx, false⟩,
   ⟨.notANumber, .notANumber, pi, pi, ix, zx, false⟩]

/-- The sign of note 4 of Table 4-1 on a machine: `ZERO_SIGN` and the rounding mode (42_real.md rule R286). -/
def State.note4 (s : State) (n1 n2 : Bool) : Bool :=
  match s.cfg.zeroSign with
  | .positive => false
  | .ieee => if n1 = n2 then n1 else decide (s.roundMode = .minusInfinity)

/-- The value of a finite real for a comparison: a denormalized number is treated as zero (42_real.md rules R278, R342). -/
def RealFields.finiteValue (f : Fmt) (r : RealFields) : ℚ := if r.cls f = .number then r.value f else 0

/-- The result of a compare of two exact values (43_bit_test_compare_shift.md rule R340). -/
def threeWay (a b : ℚ) : Word := if a < b then 0xFFFFFFFF else if a = b then 0 else 1

/-- The largest value of a format. -/
def Fmt.maxValue (f : Fmt) : ℚ := (RealFields.mk false (f.maxExp - 1) (2 ^ f.manBits - 1)).value f

/-- The smallest positive value of an ordinary real of a format. -/
def Fmt.minValue (f : Fmt) : ℚ := (RealFields.mk false 1 0).value f

/-- No arithmetic trap of a real instruction is on. -/
abbrev State.RealQuiet (s : State) : Prop :=
  s.trapBit 18 = false ∧ s.trapBit 19 = false ∧ s.trapBit 20 = false ∧ s.trapBit 24 = false ∧ s.trapBit 25 = false

/-! ### Opcode families -/

/-- An opcode of 40_memory_reference.md: the instruction, the width of its operand, the space, the effective address and
the length. -/
structure RefForm where
  i : Instr
  width : Width
  space : Space
  ea : Word
  il : Nat

/-- The 32 load opcodes with their width, space, effective address and length (40_memory_reference.md rules R181,
R184 to R187): `d` is a short and `e` a long displacement. -/
def loadForms (x y : RegNo) (d : BitVec 16) (e : BitVec 32) (s : State) : List RefForm :=
    [⟨.load x y d, .word, .data, d.signExtend 32, 4⟩,
     ⟨.loadl x y e, .word, .data, e, 6⟩,
     ⟨.loadx x y d, .word, .data, s.reg y + d.signExtend 32, 4⟩,
     ⟨.loadlx x y e, .word, .data, s.reg y + e, 6⟩,
     ⟨.loadp x y d, .word, .code, s.pc + d.signExtend 32, 4⟩,
     ⟨.loadpl x y e, .word, .code, s.pc + e, 6⟩,
     ⟨.loadpx x y d, .word, .code, s.pc + s.reg y + d.signExtend 32, 4⟩,
     ⟨.loadplx x y e, .word, .code, s.pc + s.reg y + e, 6⟩,
     ⟨.loadh x y d, .half, .data, d.signExtend 32, 4⟩,
     ⟨.loadhl x y e, .half, .data, e, 6⟩,
     ⟨.loadhx x y d, .half, .data, s.reg y + d.signExtend 32, 4⟩,
     ⟨.loadhlx x y e, .half, .data, s.reg y + e, 6⟩,
     ⟨.loadhp x y d, .half, .code, s.pc + d.signExtend 32, 4⟩,
     ⟨.loadhpl x y e, .half, .code, s.pc + e, 6⟩,
     ⟨.loadhpx x y d, .half, .code, s.pc + s.reg y + d.signExtend 32, 4⟩,
     ⟨.loadhplx x y e, .half, .code, s.pc + s.reg y + e, 6⟩,
     ⟨.loadb x y d, .byte, .data, d.signExtend 32, 4⟩,
     ⟨.loadbl x y e, .byte, .data, e, 6⟩,
     ⟨.loadbx x y d, .byte, .data, s.reg y + d.signExtend 32, 4⟩,
     ⟨.loadblx x y e, .byte, .data, s.reg y + e, 6⟩,
     ⟨.loadbp x y d, .byte, .code, s.pc + d.signExtend 32, 4⟩,
     ⟨.loadbpl x y e, .byte, .code, s.pc + e, 6⟩,
     ⟨.loadbpx x y d, .byte, .code, s.pc + s.reg y + d.signExtend 32, 4⟩,
     ⟨.loadbplx x y e, .byte, .code, s.pc + s.reg y + e, 6⟩,
     ⟨.loadd x y d, .double, .data, d.signExtend 32, 4⟩,
     ⟨.loaddl x y e, .double, .data, e, 6⟩,
     ⟨.loaddx x y d, .double, .data, s.reg y + d.signExtend 32, 4⟩,
     ⟨.loaddlx x y e, .double, .data, s.reg y + e, 6⟩,
     ⟨.loaddp x y d, .double, .code, s.pc + d.signExtend 32, 4⟩,
     ⟨.loaddpl x y e, .double, .code, s.pc + e, 6⟩,
     ⟨.loaddpx x y d, .double, .code, s.pc + s.reg y + d.signExtend 32, 4⟩,
     ⟨.loaddplx x y e, .double, .code, s.pc + s.reg y + e, 6⟩]

/-- The 16 store opcodes (40_memory_reference.md rules R181, R190 to R193). -/
def storeForms (x y : RegNo) (d : BitVec 16) (e : BitVec 32) (s : State) : List RefForm :=
    [⟨.store x y d, .word, .data, d.signExtend 32, 4⟩,
     ⟨.storel x y e, .word, .data, e, 6⟩,
     ⟨.storex x y d, .word, .data, s.reg y + d.signExtend 32, 4⟩,
     ⟨.storelx x y e, .word, .data, s.reg y + e, 6⟩,
     ⟨.storeh x y d, .half, .data, d.signExtend 32, 4⟩,
     ⟨.storehl x y e, .half, .data, e, 6⟩,
     ⟨.storehx x y d, .half, .data, s.reg y + d.signExtend 32, 4⟩,
     ⟨.storehlx x y e, .half, .data, s.reg y + e, 6⟩,
     ⟨.storeb x y d, .byte, .data, d.signExtend 32, 4⟩,
     ⟨.storebl x y e, .byte, .data, e, 6⟩,
     ⟨.storebx x y d, .byte, .data, s.reg y + d.signExtend 32, 4⟩,
     ⟨.storeblx x y e, .byte, .data, s.reg y + e, 6⟩,
     ⟨.stored x y d, .double, .data, d.signExtend 32, 4⟩,
     ⟨.storedl x y e, .double, .data, e, 6⟩,
     ⟨.storedx x y d, .double, .data, s.reg y + d.signExtend 32, 4⟩,
     ⟨.storedlx x y e, .double, .data, s.reg y + e, 6⟩]

/-- The 8 load address opcodes (40_memory_reference.md rules R181, R195). -/
def laddrForms (x y : RegNo) (d : BitVec 16) (e : BitVec 32) (s : State) : List RefForm :=
    [⟨.laddr x y d, .word, .data, d.signExtend 32, 4⟩,
     ⟨.laddrx x y d, .word, .data, s.reg y + d.signExtend 32, 4⟩,
     ⟨.laddrl x y e, .word, .data, e, 6⟩,
     ⟨.laddrlx x y e, .word, .data, s.reg y + e, 6⟩,
     ⟨.laddrp x y d, .word, .code, s.pc + d.signExtend 32, 4⟩,
     ⟨.laddrpx x y d, .word, .code, s.pc + s.reg y + d.signExtend 32, 4⟩,
     ⟨.laddrpl x y e, .word, .code, s.pc + e, 6⟩,
     ⟨.laddrplx x y e, .word, .code, s.pc + s.reg y + e, 6⟩]

/-- A branch opcode of 44_program_control.md: the instruction, whether it is taken, the displacement and the length. -/
structure BranchForm where
  i : Instr
  taken : Bool
  disp : Word
  il : Nat

/-- The 22 branch opcodes (44_program_control.md rules R392, R393, R394): signed comparisons of Rx with Ry, or with the
value of the Ry field. -/
def branchForms (x y : RegNo) (d : BitVec 16) (e : BitVec 32) (s : State) : List BranchForm :=
    [⟨.br x y d, true, d.signExtend 32, 4⟩,
     ⟨.brl x y e, true, e, 6⟩,
     ⟨.brGt x y d, decide ((s.reg x).toInt > (s.reg y).toInt), d.signExtend 32, 4⟩,
     ⟨.brGtL x y e, decide ((s.reg x).toInt > (s.reg y).toInt), e, 6⟩,
     ⟨.brEq x y d, decide ((s.reg x).toInt = (s.reg y).toInt), d.signExtend 32, 4⟩,
     ⟨.brEqL x y e, decide ((s.reg x).toInt = (s.reg y).toInt), e, 6⟩,
     ⟨.brLe x y d, decide ((s.reg x).toInt ≤ (s.reg y).toInt), d.signExtend 32, 4⟩,
     ⟨.brLeL x y e, decide ((s.reg x).toInt ≤ (s.reg y).toInt), e, 6⟩,
     ⟨.brNe x y d, decide ((s.reg x).toInt ≠ (s.reg y).toInt), d.signExtend 32, 4⟩,
     ⟨.brNeL x y e, decide ((s.reg x).toInt ≠ (s.reg y).toInt), e, 6⟩,
     ⟨.briGt x y d, decide ((s.reg x).toInt > (y.toNat : Int)), d.signExtend 32, 4⟩,
     ⟨.briGtL x y e, decide ((s.reg x).toInt > (y.toNat : Int)), e, 6⟩,
     ⟨.briLt x y d, decide ((s.reg x).toInt < (y.toNat : Int)), d.signExtend 32, 4⟩,
     ⟨.briLtL x y e, decide ((s.reg x).toInt < (y.toNat : Int)), e, 6⟩,
     ⟨.briEq x y d, decide ((s.reg x).toInt = (y.toNat : Int)), d.signExtend 32, 4⟩,
     ⟨.briEqL x y e, decide ((s.reg x).toInt = (y.toNat : Int)), e, 6⟩,
     ⟨.briLe x y d, decide ((s.reg x).toInt ≤ (y.toNat : Int)), d.signExtend 32, 4⟩,
     ⟨.briLeL x y e, decide ((s.reg x).toInt ≤ (y.toNat : Int)), e, 6⟩,
     ⟨.briGe x y d, decide ((s.reg x).toInt ≥ (y.toNat : Int)), d.signExtend 32, 4⟩,
     ⟨.briGeL x y e, decide ((s.reg x).toInt ≥ (y.toNat : Int)), e, 6⟩,
     ⟨.briNe x y d, decide ((s.reg x).toInt ≠ (y.toNat : Int)), d.signExtend 32, 4⟩,
     ⟨.briNeL x y e, decide ((s.reg x).toInt ≠ (y.toNat : Int)), e, 6⟩]

/-- The 12 TEST opcodes and the relation each tests (43_bit_test_compare_shift.md rule R335). -/
def testForms (x y : RegNo) (s : State) : List (Instr × Bool) :=
    [(.testGt x y, decide ((s.reg x).toInt > (s.reg y).toInt)),
     (.testEq x y, decide ((s.reg x).toInt = (s.reg y).toInt)),
     (.testLt x y, decide ((s.reg x).toInt < (s.reg y).toInt)),
     (.testLe x y, decide ((s.reg x).toInt ≤ (s.reg y).toInt)),
     (.testGe x y, decide ((s.reg x).toInt ≥ (s.reg y).toInt)),
     (.testNe x y, decide ((s.reg x).toInt ≠ (s.reg y).toInt)),
     (.testiGt x y, decide ((s.reg x).toInt > (y.toNat : Int))),
     (.testiEq x y, decide ((s.reg x).toInt = (y.toNat : Int))),
     (.testiLt x y, decide ((s.reg x).toInt < (y.toNat : Int))),
     (.testiLe x y, decide ((s.reg x).toInt ≤ (y.toNat : Int))),
     (.testiGe x y, decide ((s.reg x).toInt ≥ (y.toNat : Int))),
     (.testiNe x y, decide ((s.reg x).toInt ≠ (y.toNat : Int)))]

/-- The integer instructions that deliver an exact result: the instruction, its opcode, the result
(41_integer_logical.md rules R220, R222, R223, R225, R242, R243, R245). -/
def integerForms (x y : RegNo) (s : State) : List (Instr × Opcode × Int) :=
  [(.add x y, .add, (s.reg x).toInt + (s.reg y).toInt),
   (.sub x y, .sub, (s.reg x).toInt - (s.reg y).toInt),
   (.mpy x y, .mpy, (s.reg x).toInt * (s.reg y).toInt),
   (.neg x y, .neg, -(s.reg y).toInt),
   (.addi x y, .addi, (s.reg x).toInt + y.toNat),
   (.subi x y, .subi, (s.reg x).toInt - y.toNat),
   (.mpyi x y, .mpyi, (s.reg x).toInt * y.toNat)]

/-- The logical and move instructions and their results (41_integer_logical.md rules R229 to R233, R240, R241, R244). -/
def logicalForms (x y : RegNo) (s : State) : List (Instr × Word) :=
  [(.and x y, s.reg x &&& s.reg y), (.or x y, s.reg x ||| s.reg y), (.xor x y, s.reg x ^^^ s.reg y),
   (.not x y, ~~~ s.reg y), (.moverr x y, s.reg y), (.moveri x y, y.setWidth 32),
   (.noti x y, ~~~ y.setWidth 32), (.andi x y, s.reg x &&& y.setWidth 32)]

/-- The real instructions with a result in a register, but the two negations (42_real.md rules R290 to R308;
43_bit_test_compare_shift.md rules R342, R343). -/
def realForms (x y : RegNo) : List Instr :=
  [.fixr x y, .fixt x y, .float x y, .makerd x y, .radd x y, .rdiv x y, .rmpy x y, .rsub x y, .dfixr x y, .dfixt x y,
   .dfloat x y, .dradd x y, .drdiv x y, .drmpy x y, .drsub x y, .makedr x y, .rcomp x y, .drcomp x y]

/-- The instructions that can take a before trap, and whether an operand is a special number (42_real.md rule R278). -/
def beforeForms (x y : RegNo) (s : State) : List (Instr × Prop) :=
  let a := (unpackSingle (s.reg x)).cls single ≠ .number
  let b := (unpackSingle (s.reg y)).cls single ≠ .number
  let c := (unpackDouble (s.pair x)).cls double ≠ .number
  let d := (unpackDouble (s.pair y)).cls double ≠ .number
  [(.radd x y, a ∨ b), (.rsub x y, a ∨ b), (.rmpy x y, a ∨ b), (.rdiv x y, a ∨ b), (.rcomp x y, a ∨ b),
   (.fixr x y, b), (.fixt x y, b), (.makerd x y, b),
   (.dradd x y, c ∨ d), (.drsub x y, c ∨ d), (.drmpy x y, c ∨ d), (.drdiv x y, c ∨ d), (.drcomp x y, c ∨ d),
   (.dfixr x y, d), (.dfixt x y, d), (.makedr x y, d)]

/-- The two-operand instructions of a format and their operations (42_real.md rule R287). -/
def singleForms (x y : RegNo) : List (Instr × RealOp) :=
  [(.radd x y, .add), (.rsub x y, .sub), (.rmpy x y, .mpy), (.rdiv x y, .div)]
def doubleForms (x y : RegNo) : List (Instr × RealOp) :=
  [(.dradd x y, .add), (.drsub x y, .sub), (.drmpy x y, .mpy), (.drdiv x y, .div)]

/-- Bit k of a single shift by n of `w` (43_bit_test_compare_shift.md rules R350, R351, R352, R354). -/
def cslBit (w : Word) (n k : Nat) : Bool := w.getMsbD ((k + n) % 32)
def lslBit (w : Word) (n k : Nat) : Bool := if k + n < 32 then w.getMsbD (k + n) else false
def lsrBit (w : Word) (n k : Nat) : Bool := if n ≤ k then w.getMsbD (k - n) else false
def asrBit (w : Word) (n k : Nat) : Bool := if n ≤ k then w.getMsbD (k - n) else w.getMsbD 0

/-- The single shifts but ASL: the instruction, the count, and each bit of the result by the old value
(43_bit_test_compare_shift.md rules R349 to R352, R354). -/
def shiftForms (x y : RegNo) (s : State) : List (Instr × Nat × (Word → Nat → Nat → Bool)) :=
  [(.csl x y, (s.reg y).toNat % 32, cslBit), (.csli x y, y.toNat, cslBit),
   (.lsl x y, (s.reg y).toNat % 32, lslBit), (.lsli x y, y.toNat, lslBit),
   (.lsr x y, (s.reg y).toNat % 32, lsrBit), (.lsri x y, y.toNat, lsrBit),
   (.asr x y, (s.reg y).toNat % 32, asrBit), (.asri x y, y.toNat, asrBit)]

/-- The double shifts: the instruction, the count, whether it shifts left (43_bit_test_compare_shift.md rules R349, R355,
R356). -/
def doubleShiftForms (x y : RegNo) (s : State) : List (Instr × Nat × Bool) :=
  [(.dlsl x y, (s.reg y).toNat % 64, true), (.dlsli x y, y.toNat, true),
   (.dlsr x y, (s.reg y).toNat % 64, false), (.dlsri x y, y.toNat, false)]

/-- A register that SUS, LUS and LDREGS move: x to y, or x alone when x is greater than y (45_kernel.md rule R431). -/
abbrev InRange (x y i : RegNo) : Prop := x.toNat ≤ i.toNat ∧ i.toNat ≤ max x.toNat y.toNat

/-- A usable PCB: word aligned, and its words installed memory (93_implementation_defined.md U13). -/
abbrev State.PcbUsable (s : State) : Prop :=
  s.sreg 14 ≠ 1 ∧ (s.sreg 14).toNat % 4 = 0 ∧ (s.sreg 14).toNat + 8192 ≤ s.cfg.memSize.toNat ∧ s.cfg.pcb.legal = true

/-- The general registers an instruction may write (00_scope.md rule R9; 10_state.md rule R32; the rule of each
instruction). -/
def Instr.destinations : Instr → List RegNo
  | .moverr x _ => [x]
  | .neg x _ => [x]
  | .not x _ => [x]
  | .add x _ => [x]
  | .sub x _ => [x]
  | .mpy x _ => [x]
  | .div x _ => [x]
  | .rem x _ => [x]
  | .and x _ => [x]
  | .or x _ => [x]
  | .xor x _ => [x]
  | .nop _ _ => []
  | .eadd x _ => [x, 0]
  | .esub x _ => [x, 0]
  | .empy x _ => [x, x + 1]
  | .ediv x _ => [x, x + 1]
  | .fixt x _ => [x]
  | .fixr x _ => [x]
  | .float x _ => [x]
  | .makerd x _ => [x, x + 1]
  | .makedr x _ => [x]
  | .radd x _ => [x]
  | .rsub x _ => [x]
  | .rmpy x _ => [x]
  | .rdiv x _ => [x]
  | .rneg x _ => [x]
  | .rcomp x _ => [x]
  | .dfixt x _ => [x]
  | .dfixr x _ => [x]
  | .dfloat x _ => [x, x + 1]
  | .dradd x _ => [x, x + 1]
  | .drsub x _ => [x, x + 1]
  | .drmpy x _ => [x, x + 1]
  | .drdiv x _ => [x, x + 1]
  | .drneg x _ => [x, x + 1]
  | .drcomp x _ => [x]
  | .cbit x _ => [x, x + 1]
  | .sbit x _ => [x, x + 1]
  | .tbit x _ => [x]
  | .lcomp x _ => [x]
  | .dcomp x _ => [x]
  | .csl x _ => [x]
  | .lsl x _ => [x]
  | .lsr x _ => [x]
  | .asl x _ => [x]
  | .asr x _ => [x]
  | .dlsl x _ => [x, x + 1]
  | .dlsr x _ => [x, x + 1]
  | .seb x _ => [x]
  | .seh x _ => [x]
  | .callr x _ => [x]
  | .ret x _ => [x]
  | .chk _ _ => []
  | .sus _ _ => []
  | .lus x y => regRange x y
  | .ldregs x y => regRange x y
  | .rum _ _ => []
  | .movesr _ _ => []
  | .movers x _ => [x]
  | .maint _ _ => []
  | .trans x _ => [x]
  | .dirt x _ => [x]
  | .read x _ => [x, x + 1]
  | .write x _ => [x]
  | .testGt x _ => [x]
  | .testEq x _ => [x]
  | .testLt x _ => [x]
  | .testLe x _ => [x]
  | .testGe x _ => [x]
  | .testNe x _ => [x]
  | .moveri x _ => [x]
  | .noti x _ => [x]
  | .addi x _ => [x]
  | .subi x _ => [x]
  | .andi x _ => [x]
  | .mpyi x _ => [x]
  | .csli x _ => [x]
  | .lsli x _ => [x]
  | .lsri x _ => [x]
  | .asli x _ => [x]
  | .asri x _ => [x]
  | .dlsli x _ => [x, x + 1]
  | .dlsri x _ => [x, x + 1]
  | .chki _ _ => []
  | .trap _ _ => []
  | .testiGt x _ => [x]
  | .testiEq x _ => [x]
  | .testiLt x _ => [x]
  | .testiLe x _ => [x]
  | .testiGe x _ => [x]
  | .testiNe x _ => [x]
  | .kcall _ => []
  | .load x _ _ => [x]
  | .loadl x _ _ => [x]
  | .loadx x _ _ => [x]
  | .loadlx x _ _ => [x]
  | .loadp x _ _ => [x]
  | .loadpl x _ _ => [x]
  | .loadpx x _ _ => [x]
  | .loadplx x _ _ => [x]
  | .loadh x _ _ => [x]
  | .loadhl x _ _ => [x]
  | .loadhx x _ _ => [x]
  | .loadhlx x _ _ => [x]
  | .loadhp x _ _ => [x]
  | .loadhpl x _ _ => [x]
  | .loadhpx x _ _ => [x]
  | .loadhplx x _ _ => [x]
  | .loadb x _ _ => [x]
  | .loadbl x _ _ => [x]
  | .loadbx x _ _ => [x]
  | .loadblx x _ _ => [x]
  | .loadbp x _ _ => [x]
  | .loadbpl x _ _ => [x]
  | .loadbpx x _ _ => [x]
  | .loadbplx x _ _ => [x]
  | .loadd x _ _ => [x, x + 1]
  | .loaddl x _ _ => [x, x + 1]
  | .loaddx x _ _ => [x, x + 1]
  | .loaddlx x _ _ => [x, x + 1]
  | .loaddp x _ _ => [x, x + 1]
  | .loaddpl x _ _ => [x, x + 1]
  | .loaddpx x _ _ => [x, x + 1]
  | .loaddplx x _ _ => [x, x + 1]
  | .store _ _ _ => []
  | .storel _ _ _ => []
  | .storex _ _ _ => []
  | .storelx _ _ _ => []
  | .storeh _ _ _ => []
  | .storehl _ _ _ => []
  | .storehx _ _ _ => []
  | .storehlx _ _ _ => []
  | .storeb _ _ _ => []
  | .storebl _ _ _ => []
  | .storebx _ _ _ => []
  | .storeblx _ _ _ => []
  | .stored _ _ _ => []
  | .storedl _ _ _ => []
  | .storedx _ _ _ => []
  | .storedlx _ _ _ => []
  | .laddr x _ _ => [x]
  | .laddrx x _ _ => [x]
  | .laddrl x _ _ => [x]
  | .laddrlx x _ _ => [x]
  | .laddrp x _ _ => [x]
  | .laddrpx x _ _ => [x]
  | .laddrpl x _ _ => [x]
  | .laddrplx x _ _ => [x]
  | .br _ _ _ => []
  | .brl _ _ _ => []
  | .brGt _ _ _ => []
  | .brGtL _ _ _ => []
  | .brEq _ _ _ => []
  | .brEqL _ _ _ => []
  | .brLe _ _ _ => []
  | .brLeL _ _ _ => []
  | .brNe _ _ _ => []
  | .brNeL _ _ _ => []
  | .briGt _ _ _ => []
  | .briGtL _ _ _ => []
  | .briLt _ _ _ => []
  | .briLtL _ _ _ => []
  | .briEq _ _ _ => []
  | .briEqL _ _ _ => []
  | .briLe _ _ _ => []
  | .briLeL _ _ _ => []
  | .briGe _ _ _ => []
  | .briGeL _ _ _ => []
  | .briNe _ _ _ => []
  | .briNeL _ _ _ => []
  | .call x _ _ => [x]
  | .calll x _ _ => [x]
  | .loop x _ _ => [x]
  | .loopl x _ _ => [x]
  | .elogr x => [x]
  | .elogw _ => []
  | .twrited _ => []
  | .flush _ => []
  | .trapexit _ => []
  | .itest x => [x, x + 1]
  | .machineid x => [x]
  | .version x => [x]
  | .creg x => [x + 1]
  | .rdlog x => [x]

/-- The special registers an instruction may write of its own, not by taking an event (45_kernel.md rules R432, R435;
44_program_control.md rule R402). -/
def Instr.sregDestinations : Instr → List RegNo
  | .lus _ _ => [8, 9, 10, 15]
  | .movesr x _ => [x]
  | .trap _ _ => [3]
  | _ => []

end Sys2Proof.Machine
end

