-- ==== Sys2Proof/Certificates/Slice0/Obligations.lean ====
section
/-! DEFINITION. The statements about the machine that are to be proved. A docstring says what a statement claims and
which rules of the spec, decisions or log entries it rests on. -/

open Sys2Proof Sys2Proof.Machine Sys2Proof.Config

/-- For every legal opcode assignment, every well-formed instruction of every family with every operand value, and any
bytes after it: decoding the encoded bytes gives the instruction and leaves the bytes after it. The opcode numbers are
a parameter of the machine (log 2), so the statement holds for every legal assignment. Rules: 30_encoding.md rules
R141 to R144, R150, R151, R159. -/
def Obligations.DecodeInvertsEncode : Prop :=
  ∀ (m : OpcodeMap) (i : Instr) (rest : List Byte), m.legal = true → i.wellFormed = true →
    decode m (encode m i ++ rest) = .ok (i, rest)

/-- For every legal opcode assignment: if bytes decode to an instruction, the instruction is well formed and the bytes
are its encoding followed by the bytes that are left. No two encodings stand for one instruction and no encoding for
two. Rules: 30_encoding.md rules R141 to R144, R150, R151, R159. -/
def Obligations.EncodeInvertsDecode : Prop :=
  ∀ (m : OpcodeMap) (bs : List Byte) (i : Instr) (rest : List Byte), m.legal = true → decode m bs = .ok (i, rest) →
    i.wellFormed = true ∧ bs = encode m i ++ rest

/-- One written instruction of each family: an opcode byte of the assignment, the fields in bits 8..11 and 12..15, and
a displacement with its most significant byte first. The order of the bytes is no statement of the manual: it is the
spec's choice (R80, decision D1; log 1, PRESUMED). Rules: 30_encoding.md rules R141 to R144, R159, R80,
92_eei_decisions.md D1. -/
def Obligations.DecodesWrittenWords : Prop :=
  ∀ m : OpcodeMap, m.legal = true →
    decode m [m.code .add, 0x12] = .ok (.add 1 2, []) ∧
    decode m [m.code .ediv, 0xF0] = .ok (.ediv 15 0, []) ∧
    decode m [m.code .radd, 0x34] = .ok (.radd 3 4, []) ∧
    decode m [m.code .csli, 0x5F] = .ok (.csli 5 15, []) ∧
    decode m [m.code .kcall, 0xA7] = .ok (.kcall 0xA7, []) ∧
    decode m [m.code .movesr, 0xB1] = .ok (.movesr 11 1, []) ∧
    decode m [m.code .maint, 0x38] = .ok (.itest 3, []) ∧
    decode m [m.code .maint, 0x39] = .ok (.maint 3 9, []) ∧
    decode m [m.code .loadhx, 0x12, 0xFF, 0xFE] = .ok (.loadhx 1 2 0xFFFE, []) ∧
    decode m [m.code .storedl, 0x40, 0x00, 0x12, 0x34, 0x56] = .ok (.storedl 4 0 0x00123456, []) ∧
    decode m [m.code .laddrpx, 0x67, 0x00, 0x08] = .ok (.laddrpx 6 7 0x0008, []) ∧
    decode m [m.code .brGt, 0x89, 0x80, 0x01] = .ok (.brGt 8 9 0x8001, []) ∧
    decode m [m.code .loopl, 0x14, 0xFF, 0xFF, 0xFF, 0xF1] = .ok (.loopl 1 4 0xFFFFFFF1, [])

/-- When the instruction that a step fetches has an opcode byte to which the assignment gives no name, the step takes
the illegal instruction event: in the register format with the opcode and the two fields in SR1 to SR3, in the memory
format with the opcode, the segment and the effective address, which the structure bits of the byte give (D46). A
maintenance subop that the table does not name takes the register form of the event (D25). The saved address is that
of the instruction. Rules: R512, R152, R440, 92_eei_decisions.md D25, D46. -/
def Obligations.UndefinedInstructionsTrap : Prop :=
  (∀ (s s1 s2 : State) (b f : Byte) (disp : List Byte) (v : Word),
    s.boundary = .run s1 → fetchBytes s1 = .ok (b :: f :: disp) s2 → s2.cfg.opc.lookup b = none →
    let x : RegNo := f.extractLsb' 4 4
    let y : RegNo := f.extractLsb' 0 4
    let sp : Space := if mbit b 1 = mbit b 2 then .code else .data
    let ea : Word := (if sp = .code then s2.pc else 0) + (if mbit b 7 then s2.reg y else 0) +
      (match disp with
        | [d0, d1] => (d0 ++ d1 : BitVec 16).signExtend 32
        | [d0, d1, d2, d3] => wordOfBytes d0 d1 d2 d3
        | _ => 0)
    (mbit b 0 = false → s2.HasVector (.illegalRegister b x y) v →
      step s = .next (s2.enterAt (.illegalRegister b x y) s2.pc v)) ∧
    (mbit b 0 = true → s2.HasVector (.illegalMemory b (s2.segment sp) ea) v →
      step s = .next (s2.enterAt (.illegalMemory b (s2.segment sp) ea) s2.pc v))) ∧
  ∀ (s : State) (x k : BitVec 4) (v : Word), k ∉ definedSubops →
    s.HasVector (.illegalRegister (s.op .maint) x k) v →
    exec (.maint x k) s = .next (s.enterAt (.illegalRegister (s.op .maint) x k) s.pc v)

/-- If the boundary lets an instruction run in state s1, and the bytes fetched there, leaving state s2 (a fetch in
user mode may load the TMT), decode to a well-formed instruction, then the step is exec of that instruction in s2.
Rules: R521, R532. -/
def Obligations.StepRunsTheDecodedInstruction : Prop :=
  ∀ (s s1 s2 : State) (bs rest : List Byte) (i : Instr), s.boundary = .run s1 → fetchBytes s1 = .ok bs s2 →
    i.wellFormed = true → decode s2.cfg.opc bs = .ok (i, rest) → step s = exec i s2

/-- In kernel mode, not paused and not stuck, with no event of the environment at this boundary and no interrupt due:
if the bytes that a fetch delivers at the even pc (from the prefetch buffers, the code lines of the cache or main
memory) are the encoding of a well-formed instruction, the step is exec of the instruction, in the state whose
schedule of the environment (what falls on later boundaries stays in it) and number of the step have moved on and
which differs at most in the code lines and the prefetch buffers, which the fetch fills. Rules: R84, R113, R125, R126,
R146, R521, R532. -/
def Obligations.StepRunsTheInstructionInMemory : Prop :=
  ∀ (s : State) (i : Instr), s.cfg.opc.legal = true → i.wellFormed = true → s.mode = .kernel → s.paused = false →
    s.stuck = none → s.events = [] → s.parityDue = [] → s.powerFailDue = 0 → s.switch0Due = 0 →
    mbit s.pc 31 = false → s.pc.toNat + (encode s.cfg.opc i).length ≤ s.cfg.memSize.toNat →
    (∀ k, k < (encode s.cfg.opc i).length →
      s.readByte .fetch (s.pc.toNat + k) = (encode s.cfg.opc i).getD k 0) →
    ∃ c p, step s = exec i { s.nextBoundary with codeLines := c, prefetch := p }

/-- For every load opcode, register and displacement: when the effective address is aligned and translates to the real
address r in state s1, the load completes with the byte or halfword zero extended, the word, or the two words of the
double word in its register or pair, the pc at the next instruction, and the quadword of each word read a line of the
cache (R125). The most significant byte comes first: the spec's choice (R80, D1; log 1, PRESUMED). The code space
forms read through the code half of the cache: a choice too (D26, log 32). The second half of a double word is read
after the DMA events that fall between the two halves (the model's reading of R88 and R121, log 31). Rules: R181,
R184, R185, R186, R187, R80, R125, 20_memory.md rules R88, R121, 92_eei_decisions.md D1, D26. -/
def Obligations.LoadsComplete : Prop :=
  ∀ (s s1 : State) (x y : RegNo) (d : BitVec 16) (e : BitVec 32) (f : RefForm) (r : Word), f ∈ loadForms x y d e s →
    f.ea.toNat % f.width.bytes = 0 → s.locate f.space f.ea .read f.width.bytes = .ok r s1 → s.Room f.il →
    let view := Space.view f.space
    let byte := fun (t : State) (k : Nat) => t.readByte view (r.toNat + k)
    let u := s1.loadLine view r.toNat
    (f.width = .byte → exec f.i s = .next ((u.setReg x ((byte s1 0).setWidth 32)).after f.il)) ∧
    (f.width = .half →
      exec f.i s = .next ((u.setReg x ((byte s1 0 ++ byte s1 1 : BitVec 16).setWidth 32)).after f.il)) ∧
    (f.width = .word →
      exec f.i s = .next ((u.setReg x (byte s1 0 ++ byte s1 1 ++ byte s1 2 ++ byte s1 3)).after f.il)) ∧
    ∀ s2, f.width = .double → u.dmaAll u.between = .ok s2 →
      exec f.i s = .next
        ((((s2.loadLine view (r.toNat + 4)).setReg x (byte s1 0 ++ byte s1 1 ++ byte s1 2 ++ byte s1 3)).setReg (x + 1)
          (byte s2 4 ++ byte s2 5 ++ byte s2 6 ++ byte s2 7)).after f.il)

/-- For every store opcode whose aligned address translates to the real address r in state s1: the store completes;
the n bytes from r hold the low n bytes of Rx (of the pair, Rx first), most significant byte first (the spec's choice:
R80, D1; log 1, PRESUMED); every other byte of memory, every register, special register and other part of the state is
as in s1, but for the pc and the data lines of the cache, which hold the new bytes where they held the quadword
(write-through). A data read returns the stored bytes and, elsewhere, what it returned before. The double word store
is stated with the DMA events that fall between its halves, and without any (log 31). Rules: R181, R190, R191, R192,
R193, R80, R125, 20_memory.md rules R88, R121, 92_eei_decisions.md D1. -/
def Obligations.StoresComplete : Prop :=
  ∀ (s s1 : State) (x y : RegNo) (d : BitVec 16) (e : BitVec 32) (f : RefForm) (r : Word), f ∈ storeForms x y d e s →
    f.ea.toNat % f.width.bytes = 0 → s.locate .data f.ea .write f.width.bytes = .ok r s1 → s.Room f.il →
    (f.width ≠ .double → ∃ t, exec f.i s = .next t ∧
      (∀ a, t.mainByte a = if r.toNat ≤ a ∧ a < r.toNat + f.width.bytes then
        (s.reg x).extractLsb' (8 * (f.width.bytes - 1 - (a - r.toNat))) 8 else s1.mainByte a) ∧
      (∀ a, t.readByte .data a = if r.toNat ≤ a ∧ a < r.toNat + f.width.bytes then
        (s.reg x).extractLsb' (8 * (f.width.bytes - 1 - (a - r.toNat))) 8 else s1.readByte .data a) ∧
      t = { s1.after f.il with mem := t.mem, dataLines := t.dataLines }) ∧
    (f.width = .double → s1.between = [] → ∃ t, exec f.i s = .next t ∧
      (∀ a, t.mainByte a = if r.toNat ≤ a ∧ a < r.toNat + 8 then
        (s.reg x ++ s.reg (x + 1) : BitVec 64).extractLsb' (8 * (7 - (a - r.toNat))) 8 else s1.mainByte a) ∧
      (∀ a, t.readByte .data a = if r.toNat ≤ a ∧ a < r.toNat + 8 then
        (s.reg x ++ s.reg (x + 1) : BitVec 64).extractLsb' (8 * (7 - (a - r.toNat))) 8 else s1.readByte .data a) ∧
      t = { s1.after f.il with mem := t.mem, dataLines := t.dataLines }) ∧
    ∀ u, f.width = .double → (s1.storeBytes r.toNat (bytesOfWord (s.reg x))).dmaAll s1.between = .ok u →
      ∃ t, exec f.i s = .next t ∧
      (∀ a, t.mainByte a = if r.toNat + 4 ≤ a ∧ a < r.toNat + 8 then
        (s.reg (x + 1)).extractLsb' (8 * (7 - (a - r.toNat))) 8 else u.mainByte a) ∧
      (∀ a, t.readByte .data a = if r.toNat + 4 ≤ a ∧ a < r.toNat + 8 then
        (s.reg (x + 1)).extractLsb' (8 * (7 - (a - r.toNat))) 8 else u.readByte .data a) ∧
      t = { u.after f.il with mem := t.mem, dataLines := t.dataLines }

/-- LADDR in all its forms delivers the effective address in Rx with the pc at the next instruction; nothing else
changes, and no alignment, translation or trap comes in. That the four code space forms add the address of the LADDR
itself is the spec's choice (D26; log 41, DESIGN CHOICE). Rules: R181, R195, 92_eei_decisions.md D26. -/
def Obligations.LoadAddressCompletes : Prop :=
  ∀ (s : State) (x y : RegNo) (d : BitVec 16) (e : BitVec 32) (f : RefForm), f ∈ laddrForms x y d e s → s.Room f.il →
    exec f.i s = .next ((s.setReg x f.ea).after f.il)

/-- For every load and store opcode whose effective address is no multiple of the operand's width: the data alignment
event is taken, with the segment number of the space in SR2 and the effective address in SR3, the saved address being
that of the instruction; no memory, register or TMT entry changes first. Choices of the spec that it rests on: the
alignment check comes before the translation (D19; log 25, DESIGN CHOICE), SR2 receives the segment number in kernel
mode too (D46), and a code space address is computed from the address of the instruction itself (D26; both log 41,
DESIGN CHOICE). Rules: R83, R182, R511, 92_eei_decisions.md D19, D26, D46. -/
def Obligations.MisalignedReferencesTrap : Prop :=
  ∀ (s : State) (x y : RegNo) (d : BitVec 16) (e : BitVec 32) (f : RefForm) (v : Word),
    f ∈ loadForms x y d e s ++ storeForms x y d e s → f.ea.toNat % f.width.bytes ≠ 0 →
    s.HasVector (.dataAlignment (s.segment f.space) f.ea) v →
    exec f.i s = .next (s.enterAt (.dataAlignment (s.segment f.space) f.ea) s.pc v)

/-- In kernel mode the address of a reference is the real address. In user mode, with the TMT entry of address bits
11..19 (code in the first 512, data in the second) valid and its tag equal to address bits 0..10, the real address is
the physical page of bits 1..15 of the entry over the offset of 12 bits; for a store this needs the write bit and the
dirty bit of the entry. Neither changes the state. Rules: R85, R86, R87, R98, R100. -/
def Obligations.TmtHitTranslates : Prop :=
  (∀ (s : State) (sp : Space) (a : Word) (acc : Access) (n : Nat), s.mode = .kernel →
    a.toNat + n ≤ s.cfg.memSize.toNat → s.locate sp a acc n = .ok a s) ∧
  ∀ (s : State) (sp : Space) (a r : Word) (acc : Access) (n : Nat), s.mode = .user →
    let e := s.tmtEntry ((if sp = .code then 0 else 512) + a.toNat / 4096 % 512)
    mbit e 30 = true → e.toNat / 32 % 2048 = a.toNat / 2 ^ 21 →
    (acc = .write → mbit e 29 = true ∧ mbit e 31 = true) →
    r.toNat = e.toNat / 2 ^ 16 % 2 ^ 15 * 4096 + a.toNat % 4096 → r.toNat + n ≤ s.cfg.memSize.toNat →
    s.locate sp a acc n = .ok r s

/-- When the TMT entry of the address does not hit, the chain of its hash slot leads to a matching entry at q and the
V bit of its TMT Word w is set: the TMT entry becomes w with the R bit, the TMT Word in memory too, and no other byte
of memory, no other TMT entry and no other part of the state changes but the data lines of the cache. Choice of the
model: the data half of the cache serves the microcode's accesses (log 48, DESIGN CHOICE). Rules: R100, R104, R107. -/
def Obligations.TmtMissLoadsTheEntry : Prop :=
  ∀ (s : State) (sp : Space) (a p q w : Word), tmtHit (s.tmtEntry (tmtIndex sp a)) a = false →
    s.structRead (s.sreg 12) (((zext (s.segment sp) + a >>> 12) &&& s.sreg 13) <<< 2) = .ok p →
    VrtLeads s (s.segment sp) a p q → s.ucodeRead (q + 8) = .ok w → mbit w 30 = true →
    SparseWf s.tmt → (∀ c ∈ s.tmt, c.2 ≠ 0) →
    ∃ t, s.tmtLookup sp a = .ok (w ||| 0x10) t ∧ t.mainWord (q + 8).toNat = w ||| 0x10 ∧
      (∀ b, b < (q + 8).toNat ∨ (q + 8).toNat + 4 ≤ b → t.mainByte b = s.mainByte b) ∧
      (∀ i, t.tmtEntry i = if i = tmtIndex sp a then w ||| 0x10 else s.tmtEntry i) ∧ SameButMemory s t

/-- When the TMT entry of a page hits with W set and D clear, and the VRT search finds the entry at q with TMT Word w:
the translation of a store gives the real address of the entry, leaves w with the R and D bits in the VRT and the TMT
entry with the D bit, and changes no other byte, TMT entry or part of the state but the data lines of the cache. A
reading of R109 (D32). Choice of the model: the data half of the cache serves the microcode's accesses (log 48, DESIGN
CHOICE). Rules: R100, R109, 92_eei_decisions.md D32. -/
def Obligations.StoresMarkPagesDirty : Prop :=
  ∀ (s : State) (sp : Space) (a p q w : Word), s.mode = .user →
    let e := s.tmtEntry (tmtIndex sp a)
    tmtHit e a = true → mbit e 29 = true → mbit e 31 = false →
    s.structRead (s.sreg 12) (((zext (s.segment sp) + a >>> 12) &&& s.sreg 13) <<< 2) = .ok p →
    VrtLeads s (s.segment sp) a p q → s.ucodeRead (q + 8) = .ok w → SparseWf s.tmt → (∀ c ∈ s.tmt, c.2 ≠ 0) →
    ∃ t, s.translate sp a .write = .ok (zext (e.extractLsb' 16 15 ++ a.extractLsb' 0 12)) t ∧
      t.mainWord (q + 8).toNat = w ||| 0x11 ∧
      (∀ b, b < (q + 8).toNat ∨ (q + 8).toNat + 4 ≤ b → t.mainByte b = s.mainByte b) ∧
      (∀ i, t.tmtEntry i = if i = tmtIndex sp a then e ||| 1 else s.tmtEntry i) ∧ SameButMemory s t

/-- In user mode, for every load and store opcode at an aligned address: with no TMT hit and no entry in the chain of
the hash slot, the page fault event is taken with the absent code, the segment and the address, in the state whose
data lines the search has filled. For every store whose TMT entry has the write bit clear, on a hit or after the entry
has been loaded, it is taken with the write protect code. A step that fetches its instruction up to a halfword of an
absent page, the first or a later one, takes the event with the address of that halfword in SR3 (R113). The saved
address is always that of the instruction. Choices of the spec that it rests on: a Link Word of 0 ends a chain (D18;
log 23, DESIGN CHOICE), and presence is tested before write permission (D19; log 25). Choice of the model: the data
half of the cache serves the microcode's accesses (log 48, DESIGN CHOICE). Rules: R100, R104, R108, R113, R514, R507,
92_eei_decisions.md D18, D19. -/
def Obligations.ReferencesPageFault : Prop :=
  (∀ (s : State) (x y : RegNo) (d : BitVec 16) (e : BitVec 32) (f : RefForm) (p v : Word),
    f ∈ loadForms x y d e s ++ storeForms x y d e s → f.ea.toNat % f.width.bytes = 0 → s.mode = .user →
    tmtHit (s.tmtEntry (tmtIndex f.space f.ea)) f.ea = false →
    s.structRead (s.sreg 12) (((zext (s.segment f.space) + f.ea >>> 12) &&& s.sreg 13) <<< 2) = .ok p →
    VrtEnds s (s.segment f.space) f.ea p →
    let s1 := s.searched (s.segment f.space) f.ea
    s1.HasVector (.pageFault .absent (s.segment f.space) f.ea) v →
    exec f.i s = .next (s1.enterAt (.pageFault .absent (s.segment f.space) f.ea) s.pc v)) ∧
  (∀ (s s1 : State) (x y : RegNo) (d : BitVec 16) (e : BitVec 32) (f : RefForm) (w v : Word),
    f ∈ storeForms x y d e s → f.ea.toNat % f.width.bytes = 0 → s.mode = .user →
    s.tmtLookup .data f.ea = .ok w s1 → mbit w 29 = false →
    s1.HasVector (.pageFault .writeProtected (s.segment .data) f.ea) v →
    exec f.i s = .next (s1.enterAt (.pageFault .writeProtected (s.segment .data) f.ea) s.pc v)) ∧
  ∀ (s t : State) (a p v : Word), s.FetchesUpTo t a → t.mode = .user →
    tmtHit (t.tmtEntry (tmtIndex .code a)) a = false →
    t.structRead (t.sreg 12) (((zext (t.segment .code) + a >>> 12) &&& t.sreg 13) <<< 2) = .ok p →
    VrtEnds t (t.segment .code) a p →
    let u := t.searched (t.segment .code) a
    u.HasVector (.pageFault .absent (t.segment .code) a) v →
    step s = .next (u.enterAt (.pageFault .absent (t.segment .code) a) s.pc v)

/-- From the pointer in the hash slot of a segment and page: the search finds the entry at q with TMT Word w exactly
when following Link Words past entries that do not match leads to the matching entry at q and its third word reads as
w, and it finds nothing exactly when the Link Words lead to the end of the chain. That a Link Word of 0 ends a chain
is the spec's choice (D18; log 23, DESIGN CHOICE). The bound on the search in the model (with an endless chain the
processor makes no further progress) cuts off no chain that ends or matches. Choice of the model: the data half of the
cache serves the microcode's accesses (log 48, DESIGN CHOICE). Rules: R104, R105, 92_eei_decisions.md D18. -/
def Obligations.VrtSearchFollowsTheChain : Prop :=
  ∀ (s : State) (seg : Half) (a p : Word),
    s.structRead (s.sreg 12) (((zext seg + a >>> 12) &&& s.sreg 13) <<< 2) = .ok p →
    (∀ q w, s.vrtSearch seg a = .found q w ↔ VrtLeads s seg a p q ∧ s.ucodeRead (q + 8) = .ok w) ∧
    (s.vrtSearch seg a = .absent ↔ VrtEnds s seg a p)

/-- ADD, SUB, MPY, NEG and the immediate ADD, SUB, MPY: when the exact result fits 32 bits, or the overflow trap is
off, the instruction completes with the result modulo 2^32 in Rx (D9) and nothing else changed; when it overflows with
the trap on, the arithmetic event with code 16 is taken after Rx has been written, the saved address being that of the
instruction. That SUB is Rx - Ry, against the words of its operation paragraph, is the resolution C1 (log 45,
DEDUCED). Rules: R220, R222, R223, R225, R226, R227, R242, R243, R245, 92_eei_decisions.md D9, 90_conflicts.md C1. -/
def Obligations.IntegerArithmetic : Prop :=
  ∀ (s : State) (x y : RegNo) (i : Instr) (o : Opcode) (r : Int), (i, o, r) ∈ integerForms x y s →
    (s.Quiet r → s.Room 2 → exec i s = .next ((s.setReg x (BitVec.ofInt 32 r)).after 2)) ∧
    ∀ v, s.Overflows r → s.HasVector (.arithmetic (s.op o) x y 16) v →
      exec i s = .next ((s.setReg x (BitVec.ofInt 32 r)).enterAt (.arithmetic (s.op o) x y 16) s.pc v)

/-- For a divisor that is not zero, except -2^31 by -1, DIV and REM complete with a quotient q and a remainder r such
that a = q * b + r and |r| < |b|, a remainder that is not zero having the sign of the divisor when DIV_ROUND is floor
and of the dividend when it is trunc (a parameter, D10). For -2^31 by -1, DIV keeps Rx and REM puts 0 in Rx; with the
overflow trap on, the arithmetic event with code 16 follows. Rules: R221, R224, R226, R227, 92_eei_decisions.md D10.
-/
def Obligations.DivideAndRemainder : Prop :=
  ∀ (s : State) (x y : RegNo), s.reg y ≠ 0 →
    (¬(s.reg x = 0x80000000 ∧ s.reg y = 0xFFFFFFFF) → s.Room 2 →
      ∃ q r : Int, (s.reg x).toInt = q * (s.reg y).toInt + r ∧ |r| < |(s.reg y).toInt| ∧
        -2 ^ 31 ≤ q ∧ q ≤ 2 ^ 31 - 1 ∧
        (match s.cfg.divRound with
          | .floor => r = 0 ∨ (r < 0 ↔ (s.reg y).toInt < 0)
          | .trunc => r = 0 ∨ (r < 0 ↔ (s.reg x).toInt < 0)) ∧
        exec (.div x y) s = .next ((s.setReg x (BitVec.ofInt 32 q)).after 2) ∧
        exec (.rem x y) s = .next ((s.setReg x (BitVec.ofInt 32 r)).after 2)) ∧
    (s.reg x = 0x80000000 → s.reg y = 0xFFFFFFFF →
      (s.trapBit 16 = false → s.Room 2 →
        exec (.div x y) s = .next (s.after 2) ∧ exec (.rem x y) s = .next ((s.setReg x 0).after 2)) ∧
      (s.trapBit 16 = true →
        (∀ v, s.HasVector (.arithmetic (s.op .div) x y 16) v →
          exec (.div x y) s = .next (s.enterAt (.arithmetic (s.op .div) x y 16) s.pc v)) ∧
        ∀ v, s.HasVector (.arithmetic (s.op .rem) x y 16) v →
          exec (.rem x y) s = .next ((s.setReg x 0).enterAt (.arithmetic (s.op .rem) x y 16) s.pc v)))

/-- With Ry = 0, each of DIV, REM and EDIV goes on to the next instruction with nothing changed when the
divide-by-zero trap is off, and takes the arithmetic event with code 17 with no general register changed when it is
on; the entry is that of R505. Choice of the model: the data half of the cache serves the microcode's accesses (log
48, DESIGN CHOICE). Rules: R228, R505, R518. -/
def Obligations.DivideByZero : Prop :=
  ∀ (s : State) (x y : RegNo) (i : Instr) (o : Opcode),
    (i, o) ∈ [(Instr.div x y, Opcode.div), (.rem x y, .rem), (.ediv x y, .ediv)] → s.reg y = 0 →
    (s.trapBit 17 = false → s.Room 2 → exec i s = .next (s.after 2)) ∧
    ∀ v, s.trapBit 17 = true → s.HasVector (.arithmetic (s.op o) x y 17) v →
      exec i s = .next (s.enterAt (.arithmetic (s.op o) x y 17) s.pc v)

/-- EMPY completes with the exact 64-bit product of the unsigned operands in RPx. That it does so too with the
overflow trap on and a product of 2^32 or more is a choice: R252 says that a model should treat that case as
unspecified, U8 and C18 that this spec's EMPY never traps (log 43, DEDUCED). EDIV of the pair by a divisor that is not
zero completes with the quotient in Rx and the remainder in R(x+1) when the quotient is below 2^EDIV_OVF_BITS (a
parameter, D13); otherwise it delivers nothing and, with the overflow trap on, takes the arithmetic event with code
16. Rules: R251, R252, 92_eei_decisions.md D13, 90_conflicts.md C3, C18, 93_implementation_defined.md U8. -/
def Obligations.ExtendedMultiplyAndDivide : Prop :=
  ∀ (s : State) (x y : RegNo),
    (s.Room 2 → ∃ t, exec (.empy x y) s = .next t ∧ (t.pair x).toNat = (s.reg x).toNat * (s.reg y).toNat ∧
      SameRegsBut [x, x + 1] s t ∧ t = { s.after 2 with regs := t.regs }) ∧
    (∀ q r : Nat, (s.pair x).toNat = q * (s.reg y).toNat + r → r < (s.reg y).toNat → q < s.cfg.edivOverflow.limit →
      s.Room 2 →
      exec (.ediv x y) s = .next (((s.setReg x (BitVec.ofNat 32 q)).setReg (x + 1) (BitVec.ofNat 32 r)).after 2)) ∧
    (s.reg y ≠ 0 → s.cfg.edivOverflow.limit * (s.reg y).toNat ≤ (s.pair x).toNat →
      (s.trapBit 16 = false → s.Room 2 → exec (.ediv x y) s = .next (s.after 2)) ∧
      ∀ v, s.trapBit 16 = true → s.HasVector (.arithmetic (s.op .ediv) x y 16) v →
        exec (.ediv x y) s = .next (s.enterAt (.arithmetic (s.op .ediv) x y 16) s.pc v))

/-- With Rx other than R0: EADD puts the low 32 bits of Rx + Ry + R0 bit 31 in Rx, ESUB those of Rx + (2^32 - 1 - Ry)
+ R0 bit 31 (D12); R0 then holds the carry out in bit 31, the signed overflow in bit 30 and zeros elsewhere. No other
register changes and nothing traps. Rules: R250, R253, 92_eei_decisions.md D12. -/
def Obligations.ExtendedAddAndSubtract : Prop :=
  ∀ (s : State) (x y : RegNo), x ≠ 0 → s.Room 2 →
    let c : Int := (s.reg 0).toNat % 2
    let flags := fun (u v : Int) => BitVec.ofInt 32
      ((if v < -2 ^ 31 ∨ 2 ^ 31 - 1 < v then 2 else 0) + (if 2 ^ 32 ≤ u then 1 else 0))
    let u1 : Int := (s.reg x).toNat + (s.reg y).toNat + c
    let v1 : Int := (s.reg x).toInt + (s.reg y).toInt + c
    let u2 : Int := (s.reg x).toNat + (2 ^ 32 - 1 - (s.reg y).toNat) + c
    let v2 : Int := (s.reg x).toInt - (s.reg y).toInt - 1 + c
    exec (.eadd x y) s = .next (((s.setReg x (BitVec.ofInt 32 u1)).setReg 0 (flags u1 v1)).after 2) ∧
    exec (.esub x y) s = .next (((s.setReg x (BitVec.ofInt 32 u2)).setReg 0 (flags u2 v2)).after 2)

/-- The two sequences that R254 derives: after them the pair R2:R3 holds the 64-bit sum or difference of R2:R3 and
R4:R5, R0 bit 31 the carry out of the 64-bit sum (for a subtraction 1 means no borrow) and R0 bit 30 the signed 64-bit
overflow; R1 and R4 to R15 are unchanged. The subtraction rests on the operand order of ESUB, a choice of the spec
(R253, D12; log 47, DESIGN CHOICE). Rules: R254, R253, 92_eei_decisions.md D12. -/
def Obligations.MultipleWordArithmetic : Prop :=
  ∀ s : State, s.pc.toNat + 6 < 2 ^ 32 →
    (∃ s1 s2 t, exec (.moveri 0 0) s = .next s1 ∧ exec (.eadd 3 5) s1 = .next s2 ∧ exec (.eadd 2 4) s2 = .next t ∧
      t.pair 2 = s.pair 2 + s.pair 4 ∧ SameRegsBut [0, 2, 3] s t ∧
      (mbit (t.reg 0) 31 = true ↔ 2 ^ 64 ≤ (s.pair 2).toNat + (s.pair 4).toNat) ∧
      (mbit (t.reg 0) 30 = true ↔ (s.pair 2).toInt + (s.pair 4).toInt < -2 ^ 63 ∨
        2 ^ 63 ≤ (s.pair 2).toInt + (s.pair 4).toInt)) ∧
    ∃ s1 s2 t, exec (.moveri 0 1) s = .next s1 ∧ exec (.esub 3 5) s1 = .next s2 ∧ exec (.esub 2 4) s2 = .next t ∧
      t.pair 2 = s.pair 2 - s.pair 4 ∧ SameRegsBut [0, 2, 3] s t ∧
      (mbit (t.reg 0) 31 = true ↔ (s.pair 4).toNat ≤ (s.pair 2).toNat) ∧
      (mbit (t.reg 0) 30 = true ↔ (s.pair 2).toInt - (s.pair 4).toInt < -2 ^ 63 ∨
        2 ^ 63 ≤ (s.pair 2).toInt - (s.pair 4).toInt)

/-- Each logical or move instruction completes with its result in Rx and nothing else changed but the pc; a 4-bit
value is zero extended. NOP only goes on to the next instruction. Rules: R229, R230, R231, R232, R233, R234, R240,
R241, R244. -/
def Obligations.LogicalAndMove : Prop :=
  ∀ (s : State) (x y : RegNo), s.Room 2 →
    (∀ i w, (i, w) ∈ logicalForms x y s → exec i s = .next ((s.setReg x w).after 2)) ∧
    exec (.nop x y) s = .next (s.after 2)

/-- For each real instruction with a result in a register, single or double, with the before, divide by zero,
overflow, underflow and inexact traps off: whatever the operand patterns, the instruction completes at the next
instruction, and nothing but its destination register or pair has changed. Rules: R287, R290, R291, R292, R293, R308,
42_real.md rules R278 to R286, R342. -/
def Obligations.RealInstructionsComplete : Prop :=
  ∀ (s : State) (x y : RegNo) (i : Instr), i ∈ realForms x y → s.RealQuiet → s.Room 2 →
    ∃ u, exec i s = .next (u.after 2) ∧ SameButRegs s u ∧ SameRegsBut (Instr.destinations i) s u

/-- For each of the 16 instructions that can take a before trap: when an operand is not an ordinary number (a zero is
special too) and the before trap is on, the arithmetic event with code 25 is taken with no register changed. Rules:
R278, R280, R342, R343. -/
def Obligations.BeforeTrap : Prop :=
  ∀ (s : State) (x y : RegNo) (i : Instr) (special : Prop) (v : Word), (i, special) ∈ beforeForms x y s → special →
    s.trapBit 25 = true → s.HasVector (.arithmetic (s.op i.opcode) x y 25) v →
    exec i s = .next (s.enterAt (.arithmetic (s.op i.opcode) x y 25) s.pc v)

/-- With the rounding of the parameter FP at its default (R276, D22, log 15; the value formula is from general
knowledge), for ordinary operands whose exact sum, difference, product or quotient lies in the range of ordinary
numbers, each single and double instruction delivers the correctly rounded value of it in the current mode, and so do
FLOAT of an integer that is not zero and MAKEDR. When the result is not exact and the inexact trap is on, the event
with code 24 follows the write; otherwise the instruction completes. Rules: 42_real.md rules R270, R271, R274 to R276,
R284, R287, R292, R308, 92_eei_decisions.md D22. -/
def Obligations.RealResultsAreCorrectlyRounded : Prop :=
  ∀ (s : State) (x y : RegNo), s.Room 2 → s.cfg.fpRound = .exact →
    let ends := fun (i : Instr) (u : State) (exact : Prop) =>
      (s.trapBit 24 = false ∨ exact → exec i s = .next (u.after 2)) ∧
      ∀ w, s.trapBit 24 = true → ¬exact → s.HasVector (.arithmetic (s.op i.opcode) x y 24) w →
        exec i s = .next (u.enterAt (.arithmetic (s.op i.opcode) x y 24) s.pc w)
    (∀ i op, (i, op) ∈ singleForms x y →
      let a := unpackSingle (s.reg x)
      let b := unpackSingle (s.reg y)
      let q := op.onValues (a.value single) (b.value single)
      a.cls single = .number → b.cls single = .number → single.minValue ≤ |q| → |q| ≤ single.maxValue →
      ∃ v, RoundsTo single s.roundMode q v ∧ ends i (s.setReg x (packSingle v)) (v.value single = q)) ∧
    (∀ i op, (i, op) ∈ doubleForms x y →
      let a := unpackDouble (s.pair x)
      let b := unpackDouble (s.pair y)
      let q := op.onValues (a.value double) (b.value double)
      a.cls double = .number → b.cls double = .number → double.minValue ≤ |q| → |q| ≤ double.maxValue →
      ∃ v, RoundsTo double s.roundMode q v ∧ ends i (s.setPair x (packDouble v)) (v.value double = q)) ∧
    (s.reg y ≠ 0 → ∃ v, RoundsTo single s.roundMode ((s.reg y).toInt : ℚ) v ∧
      ends (.float x y) (s.setReg x (packSingle v)) (v.value single = ((s.reg y).toInt : ℚ))) ∧
    (∀ b : RealFields, b = unpackDouble (s.pair y) →
      b.cls double = .number → single.minValue ≤ |b.value double| → |b.value double| ≤ single.maxValue →
      ∃ v, RoundsTo single s.roundMode (b.value double) v ∧
        ends (.makedr x y) (s.setReg x (packSingle v)) (v.value single = b.value double))

/-- With the before trap off, for each of the 24 class pairs of the arithmetic part of Table 4-1 (a number and a zero
read as C7 reads it), the four single and the four double instructions deliver the results of the row and complete,
whatever the other traps are; where the row divides by zero, the division delivers an infinity with the sign of D21
when its trap is off and takes the event with code 20 with nothing written when it is on. A sum or difference of
ordinary numbers that is exactly zero is a zero with the sign that ZERO_SIGN (a parameter) gives. Rules: R279, R281,
R286, 92_eei_decisions.md D21, D23, 90_conflicts.md C7, C19. -/
def Obligations.RealSpecialOperands : Prop :=
  ∀ (s : State) (x y : RegNo), s.Room 2 →
    (∀ l ∈ table41Lines single s.note4,
      let a := unpackSingle (s.reg x)
      let b := unpackSingle (s.reg y)
      s.trapBit 25 = false → a.cls single = l.op1 → b.cls single = l.op2 →
      exec (.radd x y) s = .next ((s.setReg x (packSingle (l.radd a b))).after 2) ∧
      exec (.rsub x y) s = .next ((s.setReg x (packSingle (l.rsub a b))).after 2) ∧
      exec (.rmpy x y) s = .next ((s.setReg x (packSingle (l.rmpy a b))).after 2) ∧
      (l.divByZero = false ∨ s.trapBit 20 = false →
        exec (.rdiv x y) s = .next ((s.setReg x (packSingle (l.rdiv a b))).after 2)) ∧
      ∀ v, l.divByZero = true → s.trapBit 20 = true → s.HasVector (.arithmetic (s.op .rdiv) x y 20) v →
        exec (.rdiv x y) s = .next (s.enterAt (.arithmetic (s.op .rdiv) x y 20) s.pc v)) ∧
    (∀ l ∈ table41Lines double s.note4,
      let a := unpackDouble (s.pair x)
      let b := unpackDouble (s.pair y)
      s.trapBit 25 = false → a.cls double = l.op1 → b.cls double = l.op2 →
      exec (.dradd x y) s = .next ((s.setPair x (packDouble (l.radd a b))).after 2) ∧
      exec (.drsub x y) s = .next ((s.setPair x (packDouble (l.rsub a b))).after 2) ∧
      exec (.drmpy x y) s = .next ((s.setPair x (packDouble (l.rmpy a b))).after 2) ∧
      (l.divByZero = false ∨ s.trapBit 20 = false →
        exec (.drdiv x y) s = .next ((s.setPair x (packDouble (l.rdiv a b))).after 2)) ∧
      ∀ v, l.divByZero = true → s.trapBit 20 = true → s.HasVector (.arithmetic (s.op .drdiv) x y 20) v →
        exec (.drdiv x y) s = .next (s.enterAt (.arithmetic (s.op .drdiv) x y 20) s.pc v)) ∧
    (∀ i op, (i, op) ∈ singleForms x y →
      let a := unpackSingle (s.reg x)
      let b := unpackSingle (s.reg y)
      a.cls single = .number → b.cls single = .number → op.onValues (a.value single) (b.value single) = 0 →
      exec i s = .next ((s.setReg x (packSingle (zeroReal (s.note4 false true)))).after 2)) ∧
    ∀ i op, (i, op) ∈ doubleForms x y →
      let a := unpackDouble (s.pair x)
      let b := unpackDouble (s.pair y)
      a.cls double = .number → b.cls double = .number → op.onValues (a.value double) (b.value double) = 0 →
      exec i s = .next ((s.setPair x (packDouble (zeroReal (s.note4 false true)))).after 2)

/-- When a real arithmetic or real conversion instruction completes or traps with the before, overflow, underflow and
divide by zero traps off, its result is a number, a zero or an infinity. RNEG and DRNEG complete on every pattern with
the sign bit inverted and nothing else changed. Rules: R277, R297, R306. -/
def Obligations.RealResultsAreNumbersZerosOrInfinities : Prop :=
  ∀ (s t : State) (x y : RegNo),
    (s.trapBit 25 = false → s.trapBit 20 = false → s.trapBit 18 = false → s.trapBit 19 = false →
      (∀ i, i ∈ [Instr.radd x y, .rsub x y, .rmpy x y, .rdiv x y, .float x y, .makedr x y] → exec i s = .next t →
        (unpackSingle (t.reg x)).cls single ∈ [RealClass.number, .zero, .infinity]) ∧
      ∀ i, i ∈ [Instr.dradd x y, .drsub x y, .drmpy x y, .drdiv x y, .dfloat x y, .makerd x y] → exec i s = .next t →
        (unpackDouble (t.pair x)).cls double ∈ [RealClass.number, .zero, .infinity]) ∧
    (s.Room 2 → ∃ v w, exec (.rneg x y) s = .next ((s.setReg x v).after 2) ∧
      exec (.drneg x y) s = .next ((s.setPair x w).after 2) ∧
      (∀ k, k < 32 → mbit v k = (mbit (s.reg y) k != decide (k = 0))) ∧
      ∀ k, k < 64 → mbit w k = (mbit (s.pair y) k != decide (k = 0)))

/-- DFLOAT of an integer and MAKERD of a number deliver exactly its value. FIXT and DFIXT deliver the truncated value,
FIXR and DFIXR the value rounded in the mode of the parameter FP.fixr_mode (D23), followed by the event with code 24
if it is not exact and that trap is on. A rounded value outside 32 bits gives 7FFFFFFF or 80000000, followed by the
event with code 18 if that trap is on, else for FIXR and DFIXR, when the rounded value is not the exact one, by the
event with code 24 if that trap is on. The value formula of R270 and R271 is general knowledge (log 15, PRESUMED).
With the before trap off a zero or denormalized operand converts to zero and an infinity or NaN to the largest integer
or to an infinity of its sign. Rules: R280, R290, R291, R292, R293, R300, R301, R302, 42_real.md rules R270, R271,
92_eei_decisions.md D23. -/
def Obligations.RealConversions : Prop :=
  ∀ (s : State) (x y : RegNo), s.Room 2 →
    (s.reg y = 0 → exec (.float x y) s = .next ((s.setReg x 0).after 2) ∧
      exec (.dfloat x y) s = .next ((s.setPair x 0).after 2)) ∧
    (s.reg y ≠ 0 → ∃ v, v.Ordinary double ∧ v.value double = ((s.reg y).toInt : ℚ) ∧
      exec (.dfloat x y) s = .next ((s.setPair x (packDouble v)).after 2)) ∧
    ((unpackSingle (s.reg y)).cls single = .number →
      ∃ v, v.Ordinary double ∧ v.value double = (unpackSingle (s.reg y)).value single ∧
        exec (.makerd x y) s = .next ((s.setPair x (packDouble v)).after 2)) ∧
    (∀ i m f b inexactToo,
      (i, m, f, b, inexactToo) ∈ [(Instr.fixt x y, RoundMode.zero, single, unpackSingle (s.reg y), false),
        (.dfixt x y, .zero, double, unpackDouble (s.pair y), false),
        (.fixr x y, s.fixrMode, single, unpackSingle (s.reg y), true),
        (.dfixr x y, s.fixrMode, double, unpackDouble (s.pair y), true)] →
      let largest : Word := if b.neg then 0x80000000 else 0x7FFFFFFF
      (b.cls f = .number → ∀ n : Int, IntRoundsTo m (b.value f) n →
        (-2 ^ 31 ≤ n → n ≤ 2 ^ 31 - 1 →
          (inexactToo = false ∨ s.trapBit 24 = false ∨ (n : ℚ) = b.value f →
            exec i s = .next ((s.setReg x (BitVec.ofInt 32 n)).after 2)) ∧
          ∀ v, inexactToo = true → s.trapBit 24 = true → (n : ℚ) ≠ b.value f →
            s.HasVector (.arithmetic (s.op i.opcode) x y 24) v →
            exec i s = .next
              ((s.setReg x (BitVec.ofInt 32 n)).enterAt (.arithmetic (s.op i.opcode) x y 24) s.pc v)) ∧
        (n < -2 ^ 31 ∨ 2 ^ 31 - 1 < n →
          (s.trapBit 18 = false → inexactToo = false ∨ s.trapBit 24 = false ∨ (n : ℚ) = b.value f →
            exec i s = .next ((s.setReg x largest).after 2)) ∧
          (∀ v, s.trapBit 18 = false → inexactToo = true → s.trapBit 24 = true → (n : ℚ) ≠ b.value f →
            s.HasVector (.arithmetic (s.op i.opcode) x y 24) v →
            exec i s = .next ((s.setReg x largest).enterAt (.arithmetic (s.op i.opcode) x y 24) s.pc v)) ∧
          ∀ v, s.trapBit 18 = true → s.HasVector (.arithmetic (s.op i.opcode) x y 18) v →
            exec i s = .next ((s.setReg x largest).enterAt (.arithmetic (s.op i.opcode) x y 18) s.pc v))) ∧
      (s.trapBit 25 = false →
        (b.cls f = .zero ∨ b.cls f = .denormalized → exec i s = .next ((s.setReg x 0).after 2)) ∧
        (b.cls f = .infinity ∨ b.cls f = .notANumber → exec i s = .next ((s.setReg x largest).after 2)))) ∧
    (s.trapBit 25 = false →
      let b := unpackSingle (s.reg y)
      let d := unpackDouble (s.pair y)
      (b.cls single = .zero ∨ b.cls single = .denormalized →
        exec (.makerd x y) s = .next ((s.setPair x (packDouble (zeroReal b.neg))).after 2)) ∧
      (b.cls single = .infinity ∨ b.cls single = .notANumber →
        exec (.makerd x y) s = .next ((s.setPair x (packDouble (infReal double b.neg))).after 2)) ∧
      (d.cls double = .zero ∨ d.cls double = .denormalized →
        exec (.makedr x y) s = .next ((s.setReg x (packSingle (zeroReal d.neg))).after 2)) ∧
      (d.cls double = .infinity ∨ d.cls double = .notANumber →
        exec (.makedr x y) s = .next ((s.setReg x (packSingle (infReal single d.neg))).after 2)))

/-- With the rounding of the parameter FP at its default (D22; log 15, PRESUMED), for ordinary operands and every
exact result q that is not zero: q is rounded with unbounded exponent, that is q / 2^k, which lies between 1 and 2, is
rounded among the ordinary numbers and k added to the exponent. When the biased exponent is then above 254 (2046):
with trap 18 on the rounded result with its exponent field modulo 256 (2048) is delivered and the event with code 18
taken; with trap 18 off an infinity of the sign of q is delivered. When it is below 1: with trap 19 on the rounded
result with its exponent so reduced and code 19, with trap 19 off a positive zero. After an infinity or a zero so
delivered the inexact event with code 24 is taken when trap 24 is on and the rounding changed the value, and the
instruction completes otherwise (R284). MAKEDR delivers an infinity or a zero of its operand's sign with the trap on
or off. The bounds are stated on the rounded result, so results that round into or out of range are covered. The
manual's two examples of delivered results hold. Underflow is judged after rounding, and zeros are positive, by D21
and D22. Rules: R276, R282, R283, R284, R285, R308, 92_eei_decisions.md D21, D22. -/
def Obligations.RealOutOfRange : Prop :=
  ∀ (s : State) (x y : RegNo), s.cfg.fpRound = .exact →
    let traps := fun (i : Instr) (u : State) (code : Nat) =>
      ∀ w, s.HasVector (.arithmetic (s.op i.opcode) x y code) w →
        exec i s = .next (u.enterAt (.arithmetic (s.op i.opcode) x y code) s.pc w)
    let ends := fun (i : Instr) (u : State) (exact : Prop) =>
      (s.trapBit 24 = false ∨ exact → s.Room 2 → exec i s = .next (u.after 2)) ∧
      (s.trapBit 24 = true → ¬exact → traps i u 24)
    (∀ i op, (i, op) ∈ singleForms x y →
      let a := unpackSingle (s.reg x)
      let b := unpackSingle (s.reg y)
      let q := op.onValues (a.value single) (b.value single)
      a.cls single = .number → b.cls single = .number → ∀ k : ℤ, (2 : ℚ) ^ k ≤ |q| → |q| < (2 : ℚ) ^ (k + 1) →
      ∃ v, RoundsTo single s.roundMode (q / (2 : ℚ) ^ k) v ∧
        let e : ℤ := v.exp + k
        let wrapped := s.setReg x (packSingle { v with exp := (e % 256).toNat })
        let exact := v.value single = q / (2 : ℚ) ^ k
        (254 < e →
          (s.trapBit 18 = true → traps i wrapped 18) ∧
          (s.trapBit 18 = false → ends i (s.setReg x (packSingle (infReal single (decide (q < 0))))) exact)) ∧
        (e < 1 →
          (s.trapBit 19 = true → traps i wrapped 19) ∧ (s.trapBit 19 = false → ends i (s.setReg x 0) exact))) ∧
    (∀ i op, (i, op) ∈ doubleForms x y →
      let a := unpackDouble (s.pair x)
      let b := unpackDouble (s.pair y)
      let q := op.onValues (a.value double) (b.value double)
      a.cls double = .number → b.cls double = .number → ∀ k : ℤ, (2 : ℚ) ^ k ≤ |q| → |q| < (2 : ℚ) ^ (k + 1) →
      ∃ v, RoundsTo double s.roundMode (q / (2 : ℚ) ^ k) v ∧
        let e : ℤ := v.exp + k
        let wrapped := s.setPair x (packDouble { v with exp := (e % 2048).toNat })
        let exact := v.value double = q / (2 : ℚ) ^ k
        (2046 < e →
          (s.trapBit 18 = true → traps i wrapped 18) ∧
          (s.trapBit 18 = false → ends i (s.setPair x (packDouble (infReal double (decide (q < 0))))) exact)) ∧
        (e < 1 →
          (s.trapBit 19 = true → traps i wrapped 19) ∧ (s.trapBit 19 = false → ends i (s.setPair x 0) exact))) ∧
    (∀ b : RealFields, b = unpackDouble (s.pair y) → b.cls double = .number →
      let q := b.value double
      ∀ k : ℤ, (2 : ℚ) ^ k ≤ |q| → |q| < (2 : ℚ) ^ (k + 1) →
      ∃ v, RoundsTo single s.roundMode (q / (2 : ℚ) ^ k) v ∧
        let e : ℤ := v.exp + k
        let inf := s.setReg x (packSingle (infReal single b.neg))
        let zero := s.setReg x (packSingle (zeroReal b.neg))
        let exact := v.value single = q / (2 : ℚ) ^ k
        (254 < e →
          (s.trapBit 18 = true → traps (.makedr x y) inf 18) ∧
          (s.trapBit 18 = false → ends (.makedr x y) inf exact)) ∧
        (e < 1 →
          (s.trapBit 19 = true → traps (.makedr x y) zero 19) ∧
          (s.trapBit 19 = false → ends (.makedr x y) zero exact))) ∧
    (s.reg x = 0x7F000000 → s.reg y = 0x40800000 → s.trapBit 18 = true →
      traps (.rmpy x y) (s.setReg x 0x00000000) 18) ∧
    (s.reg x = 0x00800000 → s.reg y = 0x41000000 → s.trapBit 19 = true →
      traps (.rdiv x y) (s.setReg x 0x7F000000) 19)

/-- When both operands are ordinary, or the before trap is off, the compare completes: finite operands by value with a
denormalized number as zero and the two zeros equal (D44); an infinity or NaN lies beyond every finite value on the
side of its sign, and two of one sign are equal. Only Rx is written. Rules: R342, R343, 92_eei_decisions.md D44. -/
def Obligations.RealCompare : Prop :=
  ∀ (s : State) (x y : RegNo) (i : Instr) (f : Fmt) (a b : RealFields),
    (i, f, a, b) ∈ [(Instr.rcomp x y, single, unpackSingle (s.reg x), unpackSingle (s.reg y)),
      (.drcomp x y, double, unpackDouble (s.pair x), unpackDouble (s.pair y))] →
    (a.cls f = .number ∧ b.cls f = .number) ∨ s.trapBit 25 = false → s.Room 2 →
    let infinite := fun c : RealFields => c.cls f = .infinity ∨ c.cls f = .notANumber
    (¬infinite a → ¬infinite b →
      exec i s = .next ((s.setReg x (threeWay (a.finiteValue f) (b.finiteValue f))).after 2)) ∧
    (infinite a → ¬(infinite b ∧ a.neg = b.neg) →
      exec i s = .next ((s.setReg x (if a.neg then 0xFFFFFFFF else 1)).after 2)) ∧
    (infinite a → infinite b → a.neg = b.neg → exec i s = .next ((s.setReg x 0).after 2)) ∧
    (¬infinite a → infinite b → exec i s = .next ((s.setReg x (if b.neg then 1 else 0xFFFFFFFF)).after 2))

/-- CBIT and SBIT complete with bit n of the pair, n being Ry modulo 64, set to 0 or 1 and every other bit as before;
TBIT completes with 1 or 0 in Rx as bit n of the pair is set or not, the low register unchanged. Nothing else changes.
Rules: R330, R331, R332. -/
def Obligations.BitInstructions : Prop :=
  ∀ (s : State) (x y : RegNo), s.Room 2 →
    let n := (s.reg y).toNat % 64
    (∃ v : DWord, exec (.cbit x y) s = .next ((s.setPair x v).after 2) ∧
      ∀ k, k < 64 → mbit v k = if k = n then false else mbit (s.pair x) k) ∧
    (∃ v : DWord, exec (.sbit x y) s = .next ((s.setPair x v).after 2) ∧
      ∀ k, k < 64 → mbit v k = if k = n then true else mbit (s.pair x) k) ∧
    exec (.tbit x y) s = .next ((s.setReg x (if mbit (s.pair x) n then 1 else 0)).after 2)

/-- TEST compares Rx with Ry, or with the 4-bit value of the Ry field, as signed integers and writes 1 or 0 to Rx;
that 1 stands for true is the choice of D8 (log 21). Rules: R335, 92_eei_decisions.md D8, 90_conflicts.md C10. -/
def Obligations.TestInstructions : Prop :=
  ∀ (s : State) (x y : RegNo) (i : Instr) (holds : Bool), (i, holds) ∈ testForms x y s → s.Room 2 →
    exec i s = .next ((s.setReg x (if holds then 1 else 0)).after 2)

/-- LCOMP and DCOMP complete with -1, 0 or 1 in Rx alone. SEB leaves bits 24..31 of Ry in Rx with bits 0..23 equal to
bit 24; SEH leaves bits 16..31 with bits 0..15 equal to bit 16. Rules: R340, R341, R360, R361. -/
def Obligations.CompareAndSignExtend : Prop :=
  ∀ (s : State) (x y : RegNo), s.Room 2 →
    exec (.lcomp x y) s = .next ((s.setReg x (if (s.reg x).toNat < (s.reg y).toNat then 0xFFFFFFFF
      else if (s.reg x).toNat = (s.reg y).toNat then 0 else 1)).after 2) ∧
    exec (.dcomp x y) s = .next ((s.setReg x (if (s.pair x).toInt < (s.pair y).toInt then 0xFFFFFFFF
      else if (s.pair x).toInt = (s.pair y).toInt then 0 else 1)).after 2) ∧
    ∃ v w, exec (.seb x y) s = .next ((s.setReg x v).after 2) ∧ exec (.seh x y) s = .next ((s.setReg x w).after 2) ∧
      ∀ k, k < 32 → mbit v k = mbit (s.reg y) (if k < 24 then 24 else k) ∧
        mbit w k = mbit (s.reg y) (if k < 16 then 16 else k)

/-- For the register forms (count the low 5 bits of Ry, 6 for the double shifts) and the immediate forms (count
0..15), each bit of the result is the bit of Rx or RPx the count away: around the end for CSL, 0 beyond the end for
the logical shifts, the sign bit for ASR. Nothing else changes and no overflow is detected. Rules: R350, R351, R352,
R354, R355, R356. -/
def Obligations.ShiftsMoveBits : Prop :=
  ∀ (s : State) (x y : RegNo), s.Room 2 →
    (∀ i n bit, (i, n, bit) ∈ shiftForms x y s →
      ∃ v, exec i s = .next ((s.setReg x v).after 2) ∧ ∀ k, k < 32 → mbit v k = bit (s.reg x) n k) ∧
    ∀ i n left, (i, n, left) ∈ doubleShiftForms x y s →
      ∃ v, exec i s = .next ((s.setPair x v).after 2) ∧
        ∀ k, k < 64 → mbit v k =
          if left then (if k + n < 64 then mbit (s.pair x) (k + n) else false)
          else (if n ≤ k then mbit (s.pair x) (k - n) else false)

/-- Both forms of ASL deliver the signed value of Rx times 2^n modulo 2^32; they complete when the exact product fits
32 bits or the overflow trap is off, and otherwise take the arithmetic event with code 16 after the write (the
overflow condition as D11 reads it). Rules: R353, R226, 92_eei_decisions.md D11. -/
def Obligations.ArithmeticShiftMultiplies : Prop :=
  ∀ (s : State) (x y : RegNo) (i : Instr) (o : Opcode) (n : Nat),
    (i, o, n) ∈ [(Instr.asl x y, Opcode.asl, (s.reg y).toNat % 32), (.asli x y, .asli, y.toNat)] →
    let r : Int := (s.reg x).toInt * 2 ^ n
    (s.Quiet r → s.Room 2 → exec i s = .next ((s.setReg x (BitVec.ofInt 32 r)).after 2)) ∧
    ∀ v, s.Overflows r → s.HasVector (.arithmetic (s.op o) x y 16) v →
      exec i s = .next ((s.setReg x (BitVec.ofInt 32 r)).enterAt (.arithmetic (s.op o) x y 16) s.pc v)

/-- At an even pc: a taken branch goes to the sum of the pc of the branch and the displacement with its least
significant bit cleared (the prediction bit, D5), a branch that is not taken to the next instruction. A branch changes
nothing else but the prefetch buffers. Rules: R390, R391, R392, R393, R394, 92_eei_decisions.md D5. -/
def Obligations.BranchesGoToTheirTarget : Prop :=
  ∀ (s : State) (x y : RegNo) (d : BitVec 16) (e : BitVec 32) (f : BranchForm), f ∈ branchForms x y d e s →
    (f.taken = true → mbit s.pc 31 = false → exec f.i s = .next (s.goto (s.pc + (f.disp &&& 0xFFFFFFFE)))) ∧
    (f.taken = false → s.Room f.il → exec f.i s = .next (s.after f.il))

/-- LOOP adds its 4-bit value to Rx and goes to its target exactly when the exact sum is negative. CALL, CALLR and RET
put the address of the next instruction in Rx and go to pc + displacement, to pc + Ry, and to Ry. That the old Ry is
used when the registers are the same is the spec's choice (R397; log 46, DEDUCED), and so is the cleared last bit of a
displacement (D5). Rules: R395, R396, R397, R398, R390, 92_eei_decisions.md D5, 00_scope.md rule R10. -/
def Obligations.LoopsCallsAndReturns : Prop :=
  ∀ (s : State) (x y : RegNo) (i : Instr) (disp : Word) (il : Nat) (d : BitVec 16) (e : BitVec 32),
    let t := s.pc + (disp &&& 0xFFFFFFFE)
    ((i, disp, il) ∈ [(Instr.loop x y d, d.signExtend 32, 4), (.loopl x y e, e, 6)] →
      let r : Int := (s.reg x).toInt + y.toNat
      (r < 0 → mbit s.pc 31 = false → exec i s = .next ((s.setReg x (BitVec.ofInt 32 r)).goto t)) ∧
      (0 ≤ r → s.Room il → exec i s = .next ((s.setReg x (BitVec.ofInt 32 r)).after il))) ∧
    ((i, disp, il) ∈ [(Instr.call x y d, d.signExtend 32, 4), (.calll x y e, e, 6)] → mbit s.pc 31 = false →
      exec i s = .next ((s.setReg x (s.pc + BitVec.ofNat 32 il)).goto t)) ∧
    (mbit (s.pc + s.reg y) 31 = false →
      exec (.callr x y) s = .next ((s.setReg x (s.pc + 2)).goto (s.pc + s.reg y))) ∧
    (mbit (s.reg y) 31 = false → exec (.ret x y) s = .next ((s.setReg x (s.pc + 2)).goto (s.reg y)))

/-- CHK traps when Rx is greater than Ry and CHKI when Rx is not in 0..value, as signed integers (D14), and both go on
otherwise with nothing changed. TRAP n takes the arithmetic event with code n when bit n of the traps word is on or in
kernel mode; otherwise it goes on, with SR3 as it was or equal to n, which the source leaves open (U11, log 37).
Rules: R400, R401, R402, 92_eei_decisions.md D14, 93_implementation_defined.md U11, 90_conflicts.md C2. -/
def Obligations.ChecksAndTraps : Prop :=
  ∀ (s : State) (x y : RegNo),
    ((s.reg x).toInt ≤ (s.reg y).toInt → s.Room 2 → exec (.chk x y) s = .next (s.after 2)) ∧
    (∀ v, (s.reg y).toInt < (s.reg x).toInt → s.HasVector (.checkTrap (s.op .chk) x y) v →
      exec (.chk x y) s = .next (s.enterAt (.checkTrap (s.op .chk) x y) s.pc v)) ∧
    (0 ≤ (s.reg x).toInt → (s.reg x).toInt ≤ y.toNat → s.Room 2 → exec (.chki x y) s = .next (s.after 2)) ∧
    (∀ v, (s.reg x).toInt < 0 ∨ (y.toNat : Int) < (s.reg x).toInt → s.HasVector (.checkTrap (s.op .chki) x y) v →
      exec (.chki x y) s = .next (s.enterAt (.checkTrap (s.op .chki) x y) s.pc v)) ∧
    (∀ v, s.mode = .kernel ∨ s.trapBit y.toNat = true → s.HasVector (.arithmetic (s.op .trap) x y y.toNat) v →
      exec (.trap x y) s = .next (s.enterAt (.arithmetic (s.op .trap) x y y.toNat) s.pc v)) ∧
    (s.mode = .user → s.trapBit y.toNat = false → s.Room 2 →
      ∃ t, exec (.trap x y) s = .next t ∧ (t = s.after 2 ∨ t = (s.setSreg 3 (y.setWidth 32)).after 2))

/-- In user mode KCALL n goes to the even address that the CCB word at SR11 + 4n holds, in kernel mode, with the
address after the KCALL in SR15 and SR0 to SR3, the general registers and memory unchanged, the quadword of the CCB
word being a data line of the cache. In kernel mode it takes the kernel violation event with its opcode and its two
fields in SR1 to SR3 (R515). Both empty the prefetch buffers (R126). Choices of the model: the data half of the cache
serves the read of the CCB word (log 48, DESIGN CHOICE), and what lines and buffers hold is modelled at all (log 32,
DESIGN CHOICE). Rules: R403, R510, R515, R125, R126. -/
def Obligations.KernelCalls : Prop :=
  ∀ (s : State) (n : BitVec 8) (v : Word), mbit (s.sreg 11) 31 = false →
    (s.mode = .user → s.structRead (s.sreg 11) (BitVec.ofNat 32 (4 * n.toNat)) = .ok v → mbit v 31 = false →
      exec (.kcall n) s = .next
        { (s.loadLine .data (s.sreg 11 + BitVec.ofNat 32 (4 * n.toNat)).toNat).setSreg 15 (s.pc + 2) with
          mode := .kernel, paused := false, pc := v, prefetch := [] }) ∧
    (s.mode = .kernel → s.paused = false → s.structRead (s.sreg 11) 0x414 = .ok v → mbit v 31 = false →
      let u := s.loadLine .data (s.sreg 11 + 0x414).toNat
      exec (.kcall n) s = .next
        { (((u.setSreg 0 s.pc).setSreg 1 (zext (s.op .kcall))).setSreg 2 (BitVec.ofNat 32 (n.toNat / 16))).setSreg 3
          (BitVec.ofNat 32 (n.toNat % 16)) with pc := v, prefetch := [] })

/-- EADD and ESUB into R0; a transfer of control to an odd address by CALLR, RET, RUM or TRAPEXIT; sequential flow
past the last address; an odd vector; a kernel reference above installed memory; a word of a control structure whose
base is not word aligned or which lies at or above MEMSIZE, and SUS, LUS and LDREGS with such an SR14 (U13): each ends
in its named fault. An event when SR11 is odd (no CCB, R509), a matching VRT entry with V = 0 (R111) and a chain
without end (R104) leave the processor without further progress. For V = 0 and the endless chain this is said of every
load and store form whose reference meets them after a TMT miss and of a step that fetches its instruction up to such
a halfword; for the endless chain alone also of a store that looks for its VRT entry to set the D bit, and of TRANS
and DIRT. Each answers a next state in which the processor is stuck, with nothing changed but the data lines of the
cache, which are those after the reads of the search, and for V = 0 the entry: its TMT Word w in memory and the TMT
entry of the page become w with the R bit, and every other byte of memory and every other TMT entry is as it was. A
step of a stuck processor at a boundary without events changes nothing but the schedule and the number of the step
(logs 23, 26, DESIGN CHOICE). Choice of the model: the data half of the cache serves the microcode's accesses (log 48,
DESIGN CHOICE). Rules: R36, R87, R104, R107, R111, R250, R253, R460, R509, R529, 92_eei_decisions.md D6, D27, D28,
93_implementation_defined.md U13, U19. -/
def Obligations.NamedStops : Prop :=
  ∀ (s : State) (x y : RegNo),
    (exec (.eadd 0 y) s = .fault .extendedIntoR0 ∧ exec (.esub 0 y) s = .fault .extendedIntoR0) ∧
    (mbit (s.pc + s.reg y) 31 = true → exec (.callr x y) s = .fault .oddPc) ∧
    (mbit (s.reg y) 31 = true → exec (.ret x y) s = .fault .oddPc) ∧
    (s.mode = .kernel → s.sreg 14 ≠ 1 → mbit (s.sreg 15) 31 = true → exec (.rum x y) s = .fault .oddPc) ∧
    (s.mode = .kernel → mbit (s.sreg 0) 31 = true → exec (.trapexit x) s = .fault .oddPc) ∧
    (2 ^ 32 ≤ s.pc.toNat + 2 → exec (.nop x y) s = .fault .pcWrap) ∧
    (∀ (e : Event) (ret v : Word), mbit (s.sreg 11) 31 = false → s.structRead (s.sreg 11) e.offset = .ok v →
      mbit v 31 = true → enter e ret s = .fault .oddPc) ∧
    (∀ (sp : Space) (a : Word) (acc : Access) (n : Nat), s.mode = .kernel → s.cfg.memSize.toNat < a.toNat + n →
      s.locate sp a acc n = .fault .noMemory) ∧
    (∀ (base offset w : Word),
      (base.toNat % 4 ≠ 0 → s.structRead base offset = .error .badStructure ∧
        s.structWrite base offset w = .error .badStructure) ∧
      (base.toNat % 4 = 0 → s.cfg.memSize.toNat < base.toNat + offset.toNat + 4 →
        s.structRead base offset = .error .noMemory ∧ s.structWrite base offset w = .error .noMemory)) ∧
    (∀ i, i ∈ [Instr.sus x y, .lus x y, .ldregs x y] → s.mode = .kernel → s.sreg 14 ≠ 1 →
      ((s.sreg 14).toNat % 4 ≠ 0 → exec i s = .fault .badStructure) ∧
      ((s.sreg 14).toNat % 4 = 0 → s.cfg.memSize.toNat ≤ (s.sreg 14).toNat → exec i s = .fault .noMemory)) ∧
    (∀ (e : Event) (ret : Word), mbit (s.sreg 11) 31 = true →
      enter e ret s = .next { s with stuck := some .noCcb, mode := .kernel, paused := false }) ∧
    (let marked := fun (u t : State) (sp : Space) (a p w : Word) =>
        t.mainWord (p + 8).toNat = w ||| 0x10 ∧
        (∀ b, b < (p + 8).toNat ∨ (p + 8).toNat + 4 ≤ b → t.mainByte b = u.mainByte b) ∧
        (∀ n, t.tmtEntry n = if n = tmtIndex sp a then w ||| 0x10 else u.tmtEntry n) ∧
        t.dataLines = ((u.searched (u.segment sp) a).markEntry p w 0x10).dataLines
      let invalid := fun (o : Outcome) (u : State) (sp : Space) (a p w : Word) =>
        ∃ t, o = .next t ∧ marked u t sp a p w ∧
          t = { u with stuck := some .vrtEntryInvalid, mem := t.mem, dataLines := t.dataLines, tmt := t.tmt }
      let endless := fun (o : Outcome) (u : State) (seg : Half) (a : Word) =>
        o = .next { u with stuck := some .vrtChainEndless, dataLines := (u.searched seg a).dataLines }
      (∀ (sp : Space) (a p w : Word), tmtHit (s.tmtEntry (tmtIndex sp a)) a = false →
        (s.vrtSearch (s.segment sp) a = .found p w → mbit w 30 = false →
          ∃ t, s.tmtLookup sp a = .stuck .vrtEntryInvalid t ∧ marked s t sp a p w ∧ SameButMemory s t) ∧
        (s.vrtSearch (s.segment sp) a = .endless →
          s.tmtLookup sp a = .stuck .vrtChainEndless
            { s with dataLines := (s.searched (s.segment sp) a).dataLines })) ∧
      (∀ (d : BitVec 16) (e : BitVec 32) (f : RefForm), f ∈ loadForms x y d e s ++ storeForms x y d e s →
        f.ea.toNat % f.width.bytes = 0 → s.mode = .user → tmtHit (s.tmtEntry (tmtIndex f.space f.ea)) f.ea = false →
        (∀ p w, s.vrtSearch (s.segment f.space) f.ea = .found p w → mbit w 30 = false →
          invalid (exec f.i s) s f.space f.ea p w) ∧
        (s.vrtSearch (s.segment f.space) f.ea = .endless → endless (exec f.i s) s (s.segment f.space) f.ea)) ∧
      (∀ (d : BitVec 16) (e : BitVec 32) (f : RefForm) (w : Word), f ∈ storeForms x y d e s →
        f.ea.toNat % f.width.bytes = 0 → s.mode = .user → s.tmtEntry (tmtIndex .data f.ea) = w → tmtHit w f.ea = true →
        mbit w 29 = true → mbit w 31 = false → s.vrtSearch (s.segment .data) f.ea = .endless →
        endless (exec f.i s) s (s.segment .data) f.ea) ∧
      (∀ (t : State) (a : Word), s.FetchesUpTo t a → t.mode = .user → tmtHit (t.tmtEntry (tmtIndex .code a)) a = false →
        (∀ p w, t.vrtSearch (t.segment .code) a = .found p w → mbit w 30 = false →
          invalid (step s) t .code a p w) ∧
        (t.vrtSearch (t.segment .code) a = .endless → endless (step s) t (t.segment .code) a)) ∧
      ∀ i, i ∈ [Instr.trans x y, .dirt x y] → s.mode = .kernel →
        s.vrtSearch ((s.reg y).extractLsb' 0 16) (s.reg (y + 1)) = .endless →
        endless (exec i s) s ((s.reg y).extractLsb' 0 16) (s.reg (y + 1))) ∧
    ∀ k, s.stuck = some k → s.events = [] → step s = .next s.nextBoundary

/-- With a CCB present and an even vector at the offset of the event: the next state is in kernel mode, not paused, at
the vector. A kernel call writes SR15 alone, with the address after the KCALL; any other event puts the saved address
in SR15 and 1 in SR0 in user mode, and the saved address in SR0 with SR15 unchanged in kernel mode or while paused, an
external interrupt leaving the IOIR word in SR0. SR1, SR2 and SR3 take the values of the event or keep theirs; nothing
else changes but the prefetch buffers and the data lines of the cache, which hold the quadword of the vector. The
offsets are those of the CCB; that of the check trap, 418 where Table 6-1 prints 414, is the resolution C4 (log 45,
DEDUCED). Choices of the spec: what SR0 receives on a kernel mode arithmetic trap (D34; log 27, DEDUCED) and the
fields in SR2 (D15; log 22, DESIGN CHOICE). Choice of the model: the data half of the cache serves the microcode's
accesses (log 48, DESIGN CHOICE). Rules: R504, R505, R508, R510, R514, R520, R531, 60_exceptions.md rules R511 to
R528, 92_eei_decisions.md D15, D20, D34, D46, 90_conflicts.md C4. -/
def Obligations.EventEntry : Prop :=
  (∀ (s : State) (e : Event) (ret v : Word), s.HasVector e v →
    ∃ t, enter e ret s = .next t ∧
      t = { s with mode := .kernel, paused := false, pc := v, prefetch := [], sr := t.sr, dataLines := t.dataLines } ∧
      t.dataLines = (s.loadLine .data (s.sreg 11 + e.offset).toNat).dataLines ∧
      (∃ l, findLine t.dataLines (s.sreg 11 + e.offset).toNat = some l) ∧
      (t.sreg 15 = match e with
        | .kernelCall _ => s.pc + 2
        | _ => if s.mode = .user ∧ s.paused = false then ret else s.sreg 15) ∧
      (t.sreg 0 = match e with
        | .kernelCall _ => s.sreg 0
        | .external ioir => ioir
        | _ => if s.mode = .user ∧ s.paused = false then 1 else ret) ∧
      t.sreg 1 = (Event.registers e).1.getD (s.sreg 1) ∧ t.sreg 2 = (Event.registers e).2.1.getD (s.sreg 2) ∧
      t.sreg 3 = (Event.registers e).2.2.getD (s.sreg 3) ∧ SameSregsBut [0, 1, 2, 3, 15] s t) ∧
  ∀ (n op : Byte) (seg : Half) (a w : Word) (x y : RegNo) (c : Nat) (k : PageFaultKind),
    (Event.kernelCall n).offset.toNat = 4 * n.toNat ∧ (Event.dataAlignment seg a).offset = 0x400 ∧
    (Event.illegalRegister op x y).offset = 0x404 ∧ (Event.illegalMemory op seg a).offset = 0x404 ∧
    (Event.parityFetch a).offset = 0x408 ∧ (Event.parityExecute a).offset = 0x40C ∧
    (Event.pageFault k seg a).offset = 0x410 ∧ (Event.kernelViolation op x y).offset = 0x414 ∧
    (Event.checkTrap op x y).offset = 0x418 ∧ (Event.arithmetic op x y c).offset = 0x41C ∧
    (Event.external w).offset = 0x420 ∧ Event.switch0.offset = 0x424 ∧ Event.powerFail.offset = 0x428 ∧
    Event.timer1.offset = 0x430 ∧ Event.timer2.offset = 0x434

/-- In user mode each of the nine kernel only instructions, whatever the privileged process bit, and each of the
eleven privileged instructions with that bit off, takes the kernel violation event with its opcode and its two fields
(the subop of a maintenance instruction), with no general register changed. Rules: R430, R440, R515. -/
def Obligations.KernelViolations : Prop :=
  ∀ (s : State) (x y : RegNo) (i : Instr) (v : Word), s.mode = .user →
    i ∈ kernelOnlyForms x y ∨ (i ∈ privilegedForms x y ∧ s.trapBit 31 = false) →
    s.HasVector (.kernelViolation (s.op i.opcode) x (Instr.secondField i)) v →
    exec i s = .next (s.enterAt (.kernelViolation (s.op i.opcode) x (Instr.secondField i)) s.pc v)

/-- In kernel mode with a usable PCB at SR14: SUS completes with SR15 in the pc word and each register of the range in
its word of the PCB (the layout is a parameter, D16), and every other byte of memory, every register and special
register and all else but the data lines of the cache unchanged. With SR14 = 1 it changes nothing. Choice of the
model: the data half of the cache serves the microcode's accesses (log 48, DESIGN CHOICE). Rules: R58, R431,
92_eei_decisions.md D16, D33. -/
def Obligations.SaveUserState : Prop :=
  ∀ (s : State) (x y : RegNo), s.mode = .kernel → s.Room 2 →
    (s.sreg 14 = 1 → exec (.sus x y) s = .next (s.after 2)) ∧
    (s.PcbUsable →
      let b := (s.sreg 14).toNat
      let regs := b + s.cfg.pcb.regs.toNat
      ∃ t, exec (.sus x y) s = .next t ∧ t.mainWord (b + s.cfg.pcb.pc.toNat) = s.sreg 15 ∧
        (∀ i, InRange x y i → t.mainWord (regs + 4 * i.toNat) = s.reg i) ∧
        (∀ a, (a < b + s.cfg.pcb.pc.toNat ∨ b + s.cfg.pcb.pc.toNat + 4 ≤ a) →
          (∀ i, InRange x y i → a < regs + 4 * i.toNat ∨ regs + 4 * i.toNat + 4 ≤ a) →
          t.mainByte a = s.mainByte a) ∧
        t = { s.after 2 with mem := t.mem, dataLines := t.dataLines })

/-- In kernel mode with a usable PCB at SR14, the words being read as data reads: LUS completes with the pc word in
SR15, the two halves of the segment word in SR8 and SR9 (which is which is a parameter, D17), the traps word in SR10
and in effect in every bit, and each register of the range loaded; the TMT and the code lines of the cache are empty
(R432), and so are the data lines: that LUS empties that half too is the model's choice, by R121 and D39 (log 32,
DESIGN CHOICE), for R432 and R127 name the code lines alone; memory and the other registers are unchanged. LDREGS
loads the registers and changes nothing else but the data lines of the cache. With SR14 = 1 both change nothing.
Choice of the model: the data half of the cache serves the microcode's accesses (log 48, DESIGN CHOICE). Rules: R52,
R58, R432, R433, R121, 92_eei_decisions.md D16, D17, D39. -/
def Obligations.LoadUserState : Prop :=
  ∀ (s : State) (x y : RegNo), s.mode = .kernel → s.Room 2 →
    (s.sreg 14 = 1 → exec (.lus x y) s = .next (s.after 2) ∧ exec (.ldregs x y) s = .next (s.after 2)) ∧
    (s.PcbUsable →
      let word := fun (o : Word) => s.readWord .data ((s.sreg 14).toNat + o.toNat)
      let reg := fun (i : RegNo) => s.readWord .data ((s.sreg 14).toNat + s.cfg.pcb.regs.toNat + 4 * i.toNat)
      let w := word s.cfg.pcb.seg
      (∃ t, exec (.lus x y) s = .next t ∧ (∀ i, t.reg i = if InRange x y i then reg i else s.reg i) ∧
        t.sreg 15 = word s.cfg.pcb.pc ∧ t.sreg 10 = word s.cfg.pcb.traps ∧
        (∀ k, t.trapBit k = mbit (word s.cfg.pcb.traps) k) ∧
        (t.sreg 8).toNat = (if s.cfg.pcb.codeHigh then w.toNat / 2 ^ 16 else w.toNat % 2 ^ 16) ∧
        (t.sreg 9).toNat = (if s.cfg.pcb.codeHigh then w.toNat % 2 ^ 16 else w.toNat / 2 ^ 16) ∧
        SameSregsBut [8, 9, 10, 15] s t ∧ t.mode = .kernel ∧ t.pc = s.pc + 2 ∧ t.tmt = [] ∧ t.codeLines = [] ∧
        t.dataLines = [] ∧ t.mem = s.mem) ∧
      ∃ t, exec (.ldregs x y) s = .next t ∧ (∀ i, t.reg i = if InRange x y i then reg i else s.reg i) ∧
        t = { s.after 2 with regs := t.regs, dataLines := t.dataLines })

/-- In kernel mode: RUM with a process and an even SR15 goes there in user mode and changes nothing else but the
prefetch buffers; with SR14 = 1 it pauses: that the pause is a state in kernel mode with the pc at the RUM is the
spec's choice (D30; log 28, DEDUCED). TRAPEXIT with an even SR0 goes there with the TMT and every line of the cache
invalid, the prefetch buffers empty and nothing else changed. After the entry of any event but a kernel call, RUM
resumes a user program, and TRAPEXIT the kernel (but after an external interrupt), at the saved address. Rules: R434,
R453, R535, R110, R127, 92_eei_decisions.md D30. -/
def Obligations.ResumeUserAndTrapexit : Prop :=
  ∀ (s : State) (x y : RegNo),
    (s.mode = .kernel →
      (s.sreg 14 ≠ 1 → mbit (s.sreg 15) 31 = false →
        exec (.rum x y) s = .next { s with mode := .user, pc := s.sreg 15, prefetch := [] }) ∧
      (s.sreg 14 = 1 → exec (.rum x y) s = .next { s with paused := true }) ∧
      (mbit (s.sreg 0) 31 = false → exec (.trapexit x) s =
        .next { s with pc := s.sreg 0, tmt := [], codeLines := [], dataLines := [], prefetch := [] })) ∧
    ∀ (e : Event) (ret v : Word), mbit ret 31 = false → (∀ n, e ≠ .kernelCall n) →
      (s.mode = .user → s.paused = false → s.sreg 14 ≠ 1 →
        ∃ t, exec (.rum x y) (s.enterAt e ret v) = .next t ∧ t.pc = ret ∧ t.mode = .user) ∧
      (s.mode = .kernel → (∀ w, e ≠ .external w) →
        ∃ t, exec (.trapexit x) (s.enterAt e ret v) = .next t ∧ t.pc = ret ∧ t.mode = .kernel)

/-- In kernel mode MOVE Rx,SRy puts the special register in Rx and MOVE SRx,Ry puts Ry in the special register, all 32
bits, and nothing else changes; a MOVE to SR10 also leaves open (old or new, D41, log 7) exactly the bits in which the
traps word in effect differs, besides those that were open. Which of the two MOVEs writes the special register,
against Appendix A, is the resolution C6 (log 45, DEDUCED). Rules: R435, R436, R52, 92_eei_decisions.md D41,
90_conflicts.md C6. -/
def Obligations.MoveSpecialRegisters : Prop :=
  ∀ (s : State) (x y : RegNo), s.mode = .kernel → s.Room 2 →
    exec (.movers x y) s = .next ((s.setReg x (s.sreg y)).after 2) ∧
    (x ≠ 10 → exec (.movesr x y) s = .next ((s.setSreg x (s.reg y)).after 2)) ∧
    ∃ t, exec (.movesr 10 y) s = .next t ∧ t = { (s.setSreg 10 (s.reg y)).after 2 with trapsOpen := t.trapsOpen } ∧
      ∀ k, k < 32 → mbit t.trapsOpen k = (mbit s.trapsOpen k || (mbit s.trapsEff k != mbit (s.reg y) k))

/-- In kernel mode or with the privileged process bit: ELOGR leaves the power fail warning in bit 23 of Rx and zeros
in the other bits 16 to 30 (the rest is open, log 35); MACHINEID and VERSION deliver the machine's parameters; RDLOG
delivers the number of valid entries when bit 0 of Rx is set and the location named by its low four bits otherwise;
CREG delivers acknowledge and data-in in bits 31 and 30 of R(x+1), the rest open, and writes the output register from
bits 31 and 30 of Rx. Rules: R449, R455, R456, R457, R458, 93_implementation_defined.md U15. -/
def Obligations.MaintenanceReads : Prop :=
  ∀ (s : State) (x : RegNo), s.mode = .kernel ∨ s.trapBit 31 = true → s.Room 2 →
    (∃ v, exec (.elogr x) s = .next ((s.setReg x v).after 2) ∧
      ∀ k, 16 ≤ k → k ≤ 30 → mbit v k = (decide (k = 23) && s.powerFail)) ∧
    exec (.machineid x) s = .next ((s.setReg x s.cfg.machineId).after 2) ∧
    exec (.version x) s = .next ((s.setReg x s.cfg.ucodeVersion).after 2) ∧
    (mbit (s.reg x) 0 = true → exec (.rdlog x) s = .next ((s.setReg x (BitVec.ofNat 32 s.logCount)).after 2)) ∧
    (∀ k : Fin 16, mbit (s.reg x) 0 = false → (s.reg x).toNat % 16 = k.val →
      exec (.rdlog x) s = .next ((s.setReg x (s.logData[k])).after 2)) ∧
    ∃ v, exec (.creg x) s = .next { (s.setReg (x + 1) v).after 2 with
        clockOut := ⟨mbit (s.reg x) 31, mbit (s.reg x) 30⟩ } ∧
      mbit v 31 = s.clockIn.acknowledge ∧ mbit v 30 = s.clockIn.dataIn

/-- In kernel mode or with the privileged process bit: ELOGW with bit 31 of Rx set leaves no valid entry (what is left
open stays within 16 entries, U15); TWRITED with bits 28 and 29 set sets or resets each mask for a field of 01 or 00
(10 and 11 are open, U14) and otherwise changes neither; FLUSH makes every line of the cache invalid, so that data
reads return main memory, and changes nothing else (D36); ITEST acknowledges the deliverable request (masks applied,
D45), giving 0 and its IOIR word, or gives 1 and changes nothing else. Rules: R450, R451, R452, R454, R526,
92_eei_decisions.md D36, D45, 93_implementation_defined.md U14, U15. -/
def Obligations.MaintenanceControls : Prop :=
  ∀ (s : State) (x : RegNo), s.mode = .kernel ∨ s.trapBit 31 = true → s.Room 2 →
    (∃ t, exec (.elogw x) s = .next t ∧ t = { s.after 2 with logData := t.logData, logCount := t.logCount } ∧
      t.logCount ≤ 16 ∧ (mbit (s.reg x) 31 = true → t.logCount = 0)) ∧
    (∃ t, exec (.twrited x) s = .next t ∧ t = { s.after 2 with mask1 := t.mask1, mask2 := t.mask2 } ∧
      let v := s.reg x
      let on := mbit v 28 = true ∧ mbit v 29 = true
      (¬on → t.mask1 = s.mask1 ∧ t.mask2 = s.mask2) ∧ (on → mbit v 24 = false → t.mask1 = mbit v 25) ∧
      (on → mbit v 26 = false → t.mask2 = mbit v 27)) ∧
    (∃ t, exec (.flush x) s = .next t ∧ t = { s.after 2 with codeLines := [], dataLines := [] } ∧
      ∀ a, t.readByte .data a = t.mainByte a) ∧
    (s.deliverable = none → exec (.itest x) s = .next ((s.setReg x 1).after 2)) ∧
    ∀ b, s.deliverable = some b → ∃ t, exec (.itest x) s = .next t ∧ t.reg x = 0 ∧
      t.reg (x + 1) = (b.device ++ b.info : BitVec 32) ∧ SameRegsBut [x, x + 1] s t ∧
      (∃ l1 l2, s.boards = l1 ++ b :: l2 ∧ b ∉ l1 ∧ t.boards = l1 ++ { b with requesting := false } :: l2) ∧
      t = { s.after 2 with regs := t.regs, boards := t.boards, busLog := .ackIoi b.device :: s.busLog }

/-- In kernel mode, following the hash chain of segment Ry (low half) and address R(y+1): when it leads to a matching
entry at q with TMT Word w, Rx becomes the physical page of w over the offset and the word in memory w with the R bit
(for DIRT also the D bit), with no other byte of memory, no other register and no TMT entry changed; when the chain
ends, Rx becomes FFFFFFFF and nothing else changes; but for the data lines of the cache, which the reads of the search
fill. That a Link Word of 0 ends the chain is the spec's choice (D18; log 23, DESIGN CHOICE). Choice of the model: the
data half of the cache serves the microcode's accesses (log 48, DESIGN CHOICE). Rules: R460, R461, R104, R107,
92_eei_decisions.md D18. -/
def Obligations.TransAndDirt : Prop :=
  ∀ (s : State) (x y : RegNo) (p : Word), s.mode = .kernel → s.Room 2 →
    let seg := (s.reg y).extractLsb' 0 16
    let a := s.reg (y + 1)
    s.structRead (s.sreg 12) (((zext seg + a >>> 12) &&& s.sreg 13) <<< 2) = .ok p →
    (VrtEnds s seg a p →
      ∃ c, exec (.trans x y) s = .next { (s.setReg x 0xFFFFFFFF).after 2 with dataLines := c } ∧
        exec (.dirt x y) s = .next { (s.setReg x 0xFFFFFFFF).after 2 with dataLines := c }) ∧
    ∀ q w i bits, VrtLeads s seg a p q → s.ucodeRead (q + 8) = .ok w →
      (i, bits) ∈ [(Instr.trans x y, (0x10 : Word)), (.dirt x y, 0x11)] →
      ∃ t, exec i s = .next t ∧ (t.reg x).toNat = w.toNat / 2 ^ 16 % 2 ^ 15 * 4096 + a.toNat % 4096 ∧
        SameRegsBut [x] s t ∧ t.mainWord (q + 8).toNat = w ||| bits ∧
        (∀ b, b < (q + 8).toNat ∨ (q + 8).toNat + 4 ≤ b → t.mainByte b = s.mainByte b) ∧
        t = { s.after 2 with regs := t.regs, mem := t.mem, dataLines := t.dataLines }

/-- In kernel mode or with the privileged process bit READ and WRITE complete, whatever the boards are. With no board
of the device number in bits 0..7 of Ry the status in Rx is T (bit 30). With a board whose next answer (an input of
the environment, log 34) is ready the status is 0, READ puts the data word in R(x+1), and WRITE sends Ry and Rx; when
it is not ready the status is N (a parameter, D29). A word that is not valid is open. Nothing else changes but the
answer used and the bus. On the same bus a DMA grant gives a free bus to the next transfer of the first board with a
transfer on chain 2, or else of the first on chain 1, and a bus that a transfer has stays with it (R544; when grants
and words fall is the environment's, log 31). A transfer is of one word, or of four at ascending addresses (U28), each
moved by an event of its own: a word written changes that word of main memory alone, and a word read goes out, with a
double-bit error as an open word marked not valid. Rules: R469, R470, R471, R540, R543, R544, R89, 92_eei_decisions.md
D29, 93_implementation_defined.md U28. -/
def Obligations.ReadsAndWrites : Prop :=
  (∀ (s : State) (x y : RegNo), s.mode = .kernel ∨ s.trapBit 31 = true → s.Room 2 →
    let dev := (s.reg y).extractLsb' 24 8
    let bitN : Word := BitVec.ofNat 32 (2 ^ (31 - s.cfg.ioNBit.toNat))
    (∃ t, exec (.read x y) s = .next t ∧ SameRegsBut [x, x + 1] s t ∧
      t = { s.after 2 with regs := t.regs, boards := t.boards, busLog := .ioRead (s.reg y) :: s.busLog }) ∧
    (∃ t o, exec (.write x y) s = .next t ∧ SameRegsBut [x] s t ∧
      t = { s.after 2 with regs := t.regs, boards := t.boards, busLog := o :: s.busLog }) ∧
    ((∀ b ∈ s.boards, b.device ≠ dev) →
      (∃ t, exec (.read x y) s = .next t ∧ t.reg x = 2 ∧ t.boards = s.boards) ∧
      exec (.write x y) s = .next { (s.setReg x 2).after 2 with
        busLog := .ioWriteRefused (s.reg y) :: s.busLog }) ∧
    ∀ l1 b l2 r rs, s.boards = l1 ++ b :: l2 → (∀ c ∈ l1, c.device ≠ dev) → b.device = dev → b.answers = r :: rs →
      (∃ t, exec (.read x y) s = .next t ∧ t.reg x = (if r.notReady then bitN else 0) ∧
        (r.notReady = false → t.reg (x + 1) = r.data) ∧ t.boards = l1 ++ { b with answers := rs } :: l2) ∧
      exec (.write x y) s = .next { (s.setReg x (if r.notReady then bitN else 0)).after 2 with
        boards := l1 ++ { b with answers := rs } :: l2
        busLog := (if r.notReady then .ioWriteRefused (s.reg y) else .ioWrite (s.reg y) (s.reg x)) :: s.busLog }) ∧
  (∀ (s : State) (l1 l2 : List Board) (b : Board) (d : Dma) (ds : List Dma), s.boards = l1 ++ b :: l2 →
    b.transfers = d :: ds → (∀ c ∈ l1, c.chain2 = b.chain2 → c.transfers = []) →
    (b.chain2 = false → ∀ c ∈ s.boards, c.chain2 = true → c.transfers = []) →
    (s.transfer = [] →
      s.dma .grant = .ok { s with boards := l1 ++ { b with transfers := ds } :: l2, transfer := d.cycles }) ∧
    (s.transfer ≠ [] → s.dma .grant = .ok s)) ∧
  (∀ (w : BitVec 30) (v0 v1 v2 v3 : Word) (e : BitVec 4),
    let at4 := fun (o0 o1 o2 o3 : DmaOp) =>
      [DmaCycle.mk (4 * w.toNat) o0, ⟨4 * w.toNat + 4, o1⟩, ⟨4 * w.toNat + 8, o2⟩, ⟨4 * w.toNat + 12, o3⟩]
    (Dma.write w v0).cycles = [⟨4 * w.toNat, .write v0⟩] ∧
    (Dma.writeBurst w v0 v1 v2 v3).cycles = at4 (.write v0) (.write v1) (.write v2) (.write v3) ∧
    (Dma.read w false e).cycles = [⟨4 * w.toNat, .read (e.getLsbD 0)⟩] ∧
    (Dma.read w true e).cycles =
      at4 (.read (e.getLsbD 0)) (.read (e.getLsbD 1)) (.read (e.getLsbD 2)) (.read (e.getLsbD 3))) ∧
  ∀ (s : State) (c : DmaCycle) (cs : List DmaCycle), s.transfer = c :: cs → c.address + 4 ≤ s.cfg.memSize.toNat →
    (∀ v, c.op = .write v → ∃ t, s.dma .word = .ok t ∧ t.mainWord c.address = v ∧
      (∀ a, a < c.address ∨ c.address + 4 ≤ a → t.mainByte a = s.mainByte a) ∧
      t = { s with mem := t.mem, codeLines := t.codeLines, dataLines := t.dataLines, transfer := cs }) ∧
    ∀ error, c.op = .read error → ∃ v, (error = false → v = s.mainWord c.address) ∧
      s.dma .word = .ok { s with transfer := cs, busLog := .dmaRead c.address v error :: s.busLog }

/-- A request of board b is deliverable exactly when Mask 2 is clear and b is the first requesting board of chain 2,
or Mask 1 is clear too, no board of chain 2 requests, and b is the first requesting board of chain 1. Rules: R525. -/
def Obligations.DeliverableRequests : Prop :=
  ∀ (s : State) (b : Board),
    let first := fun (chain2 : Bool) => ∃ l1 l2, s.boards = l1 ++ b :: l2 ∧ b.requesting = true ∧
      b.chain2 = chain2 ∧ ∀ c ∈ l1, ¬(c.requesting = true ∧ c.chain2 = chain2)
    s.deliverable = some b ↔ s.mask2 = false ∧
      (first true ∨ (s.mask1 = false ∧ (∀ c ∈ s.boards, ¬(c.requesting = true ∧ c.chain2 = true)) ∧ first false))

/-- At a boundary with no event of the environment, in the state u with the schedule moved on, not stuck: a parity
error is taken first, then a power fail warning, then switch 0, in either mode; in user mode or paused, with none of
these, the deliverable external request, then timer 1 when its count is negative, then timer 2 (the counts being read
through the data lines). The saved address is the next instruction's, while paused that after the RUM. In kernel mode
with none of the first three an instruction runs; paused with nothing due the machine stays paused. (The order beyond
the timers is D47, the level of the timers D38.) Choice of the model: the data half of the cache serves the
microcode's accesses (log 48, DESIGN CHOICE). Rules: R505, R521, R523, R524, R527, R528, R534, 92_eei_decisions.md
D30, D38, D47. -/
def Obligations.InterruptChoice : Prop :=
  ∀ (s : State) (v : Word), s.events = [] →
    let u := s.nextBoundary
    u.stuck = none →
    let npc := if u.paused then u.pc + 2 else u.pc
    let low := u.parityDue = [] ∧ u.powerFailDue = 0 ∧ u.switch0Due = 0
    let open' := u.mode = .user ∨ u.paused = true
    (∀ a ps, u.parityDue = .fetch a :: ps → u.HasVector (.parityFetch a) v →
      step s = .next (({ u with parityDue := ps } : State).enterAt (.parityFetch a) npc v)) ∧
    (∀ a ps, u.parityDue = .execute a :: ps → u.HasVector (.parityExecute a) v →
      step s = .next (({ u with parityDue := ps } : State).enterAt (.parityExecute a) npc v)) ∧
    (∀ n, u.parityDue = [] → u.powerFailDue = n + 1 → u.HasVector .powerFail v →
      step s = .next (({ u with powerFailDue := n } : State).enterAt .powerFail npc v)) ∧
    (∀ n, u.parityDue = [] → u.powerFailDue = 0 → u.switch0Due = n + 1 → u.HasVector .switch0 v →
      step s = .next (({ u with switch0Due := n } : State).enterAt .switch0 npc v)) ∧
    (∀ b, low → open' → u.deliverable = some b → u.HasVector (.external (b.device ++ b.info)) v →
      step s = .next ((u.ackIoi b).enterAt (.external (b.device ++ b.info)) npc v)) ∧
    (∀ w1, low → open' → u.deliverable = none → u.structRead (u.sreg 11) 0x440 = .ok w1 →
      let u1 := u.loadLine .data (u.sreg 11 + 0x440).toNat
      let u2 := u1.loadLine .data (u.sreg 11 + 0x444).toNat
      (w1.toInt < 0 → u1.HasVector .timer1 v → step s = .next (u1.enterAt .timer1 npc v)) ∧
      (0 ≤ w1.toInt → mbit (u.sreg 11) 31 = false → ∀ w2, u1.structRead (u.sreg 11) 0x444 = .ok w2 →
        (w2.toInt < 0 → u2.HasVector .timer2 v → step s = .next (u2.enterAt .timer2 npc v)) ∧
        (0 ≤ w2.toInt → (u.paused = true → step s = .next u2) ∧ (u.paused = false → s.boundary = .run u2)))) ∧
    (low → u.mode = .kernel → u.paused = false → s.boundary = .run u) ∧
    (low → u.paused = true → u.deliverable = none → mbit (u.sreg 11) 31 = true → step s = .next u)

/-- With an aligned CCB in installed memory, data lines that hold what main memory holds, and with a process an
aligned PCB whose clock word lies outside the CCB's words: the tick adds 1 to the process clock at SR14 + 50 (with
SR14 = 1 to the idle count), takes 1 from each timer, adds one million to the time of day as a double word, all with
wrap, and changes no other byte and nothing else but the data lines. With no CCB it changes the process clock alone,
and with no process either nothing: what the tick does with no CCB is the spec's choice (R509, D20, C26; log 26,
DESIGN CHOICE), and that SR14 tells whether a process runs the resolution C5 (log 45, DEDUCED). Choice of the model:
the data half of the cache serves the microcode's accesses (log 48, DESIGN CHOICE). Rules: R530, R509,
92_eei_decisions.md D20, D31, 90_conflicts.md C5, C26. -/
def Obligations.MillisecondTick : Prop :=
  ∀ (s : State), s.Coherent → Lines.Ok s.dataLines →
    let b := (s.sreg 14).toNat
    let c := (s.sreg 11).toNat
    let tod := fun (t : State) => (t.mainWord (c + 0x448)).toNat * 2 ^ 32 + (t.mainWord (c + 0x44C)).toNat
    let timers := fun (t : State) => t.mainWord (c + 0x440) = s.mainWord (c + 0x440) - 1 ∧
      t.mainWord (c + 0x444) = s.mainWord (c + 0x444) - 1 ∧ tod t = (tod s + 1000000) % 2 ^ 64
    (s.sreg 14 ≠ 1 → b % 4 = 0 → b + 0x54 ≤ s.cfg.memSize.toNat →
      (mbit (s.sreg 11) 31 = false → c % 4 = 0 → c + 0x450 ≤ s.cfg.memSize.toNat →
        b + 0x54 ≤ c + 0x440 ∨ c + 0x450 ≤ b + 0x50 →
        ∃ t, s.input .tick = .ok t ∧ t.mainWord (b + 0x50) = s.mainWord (b + 0x50) + 1 ∧ timers t ∧
          (∀ a, (a < b + 0x50 ∨ b + 0x54 ≤ a) → (a < c + 0x440 ∨ c + 0x450 ≤ a) → t.mainByte a = s.mainByte a) ∧
          t = { s with mem := t.mem, dataLines := t.dataLines }) ∧
      (mbit (s.sreg 11) 31 = true →
        ∃ t, s.input .tick = .ok t ∧ t.mainWord (b + 0x50) = s.mainWord (b + 0x50) + 1 ∧
          (∀ a, a < b + 0x50 ∨ b + 0x54 ≤ a → t.mainByte a = s.mainByte a) ∧
          t = { s with mem := t.mem, dataLines := t.dataLines })) ∧
    (s.sreg 14 = 1 → mbit (s.sreg 11) 31 = false → c % 4 = 0 → c + 0x450 ≤ s.cfg.memSize.toNat →
      ∃ t, s.input .tick = .ok t ∧ t.mainWord (c + 0x43C) = s.mainWord (c + 0x43C) + 1 ∧ timers t ∧
        (∀ a, a < c + 0x43C ∨ c + 0x450 ≤ a → t.mainByte a = s.mainByte a) ∧
        t = { s with mem := t.mem, dataLines := t.dataLines }) ∧
    (s.sreg 14 = 1 → mbit (s.sreg 11) 31 = true → s.input .tick = .ok s)

/-- Whatever the state (user or kernel mode, paused, stuck without a CCB), a boundary at which the reset button is
pressed with a boot page of 4096 bytes answers a state in kernel mode, not paused and not stuck, with the pc 3E000,
SR2 the memory size, SR11 and SR14 1, and the boot page in memory at 3E000, where fetches and data reads deliver it.
The values are those of R70 and R580. The model's choices: SR2 counts bytes (log 9), the button is an event of a
boundary that carries the boot page (D24; logs 29, 39), and what the spec leaves unspecified after reset is free, but
no line of the cache hides the boot page (log 38). Rules: R529, R70, R580, R509, 92_eei_decisions.md D24. -/
def Obligations.ResetButton : Prop :=
  ∀ (s : State) (page : List Byte), s.events = [.resetButton page] → page.length = 4096 →
    0x3F000 ≤ s.cfg.memSize.toNat →
    ∃ t, step s = .next t ∧ t.mode = .kernel ∧ t.paused = false ∧ t.stuck = none ∧ t.pc = 0x0003E000 ∧
      t.sreg 2 = s.cfg.memSize ∧ t.sreg 11 = 1 ∧ t.sreg 14 = 1 ∧ t.cfg = s.cfg ∧
      ∀ k, k < 4096 → t.mainByte (0x3E000 + k) = page.getD k 0 ∧ t.readByte .data (0x3E000 + k) = page.getD k 0 ∧
        t.readByte .fetch (0x3E000 + k) = page.getD k 0

/-- State.Inv holds of State.reset: the premise of StepKeepsInv is met where the machine starts. Rules: R70, R36. -/
def Obligations.InvHoldsAtReset : Prop :=
  State.reset.Inv

/-- From every state that meets the invariant, not only those a run reaches, a step that answers a next state answers
one that meets it: memory, the TMT and the prefetch buffers are in canonical form, memory lists only installed
addresses and the TMT only its 1024 entries, none of them zero, each half of the cache has 256 line numbers with at
most two valid lines of different quadwords, there are at most four prefetch buffers, the pc is even, a paused
processor is in kernel mode with SR14 = 1, the log has at most 16 valid entries, each daisy chain has at most 8
boards, and the DMA transfer on the bus is of at most four aligned words. Rules: R36, R65, R67, R68, R87, R98, R125,
R126, R543, R544. -/
def Obligations.StepKeepsInv : Prop :=
  ∀ s t : State, s.Inv → step s = .next t → t.Inv

/-- If a step leads from kernel mode to user mode, the instruction it ran is a RUM, SR14 is not 1 and the pc is SR15.
If a step leads from user mode to kernel mode, it enters a kernel function through the CCB, from a state in user mode
with the pc and the special registers that the step began with, or takes an event without a CCB (that it leaves the
processor stuck in kernel mode is the model's reading of D20: log 26, DESIGN CHOICE), or the reset button is pressed.
Every event that is taken, from any state, ends in kernel mode, and so does the reset button. Rules: R38, R505, R509,
R529, 92_eei_decisions.md D20. -/
def Obligations.OnlyRumLeavesKernelMode : Prop :=
  (∀ s t : State, step s = .next t →
    (s.mode = .kernel → t.mode = .user →
      ∃ s1 s2 bs x y rest, s.boundary = .run s1 ∧ fetchBytes s1 = .ok bs s2 ∧
        decode s2.cfg.opc bs = .ok (.rum x y, rest) ∧ s2.sreg 14 ≠ 1 ∧ t.pc = s2.sreg 15) ∧
    (s.mode = .user → t.mode = .kernel →
      (∃ (e : Event) (u : State) (v : Word), u.HasVector e v ∧ t = u.enterAt e s.npc v ∧ u.mode = .user ∧
        u.pc = s.pc ∧ u.paused = s.paused ∧ u.cfg = s.cfg ∧ ∀ n, u.sreg n = s.sreg n) ∨
      (mbit (s.sreg 11) 31 = true ∧ t.stuck = some .noCcb) ∨ ∃ page, .resetButton page ∈ s.events)) ∧
  (∀ (e : Event) (ret : Word) (u t : State), enter e ret u = .next t → t.mode = .kernel) ∧
  ∀ (u : State) (page : List Byte), (u.pressReset page).mode = .kernel

/-- If a step leads from user mode to user mode, SR0 to SR15 but SR3 (which a TRAP that does not trap may write), the
traps word in effect and the parameters are unchanged. If moreover the privileged process bit is off and no event of
the environment falls on the boundary, the masks, the clock board's output and the error log are unchanged, and with
no DMA event within the instruction the boards and the DMA transfer on the bus are unchanged and nothing has gone out
on the I/O bus. Rules: R430, R502, R503, R40. -/
def Obligations.UserIsolation : Prop :=
  ∀ s t : State, step s = .next t → s.mode = .user → t.mode = .user →
    SameSregsBut [3] s t ∧ t.trapsEff = s.trapsEff ∧ t.trapsOpen = s.trapsOpen ∧ t.cfg = s.cfg ∧
    (s.events = [] → mbit s.trapsEff 31 = false → mbit s.trapsOpen 31 = false →
      t.mask1 = s.mask1 ∧ t.mask2 = s.mask2 ∧ t.clockOut = s.clockOut ∧ t.logData = s.logData ∧
      t.logCount = s.logCount ∧
      (s.nextBoundary.between = [] → t.boards = s.boards ∧ t.transfer = s.transfer ∧ t.busLog = s.busLog))

/-- For every instruction and every state from which it answers a next state: every general register outside its
destinations is unchanged, a trap included; the special registers outside those the instruction itself writes (LUS:
SR8, SR9, SR10, SR15; MOVE: its target; TRAP: SR3) are unchanged, or the instruction has taken an event from a state
in which they are all unchanged; the traps word in effect changes by LUS alone, and the bits of it that are open
change by LUS and by a MOVE to SR10 alone (R52; that these bits are open is log 7, DEDUCED); parameters and schedule
do not change. Rules: R507, 00_scope.md rule R9, R32, R52, R503. -/
def Obligations.InstructionFrame : Prop :=
  ∀ (i : Instr) (s t : State), exec i s = .next t →
    SameRegsBut (Instr.destinations i) s t ∧
    (SameSregsBut (Instr.sregDestinations i) s t ∨
      ∃ (e : Event) (u : State) (v : Word), u.HasVector e v ∧ t = u.enterAt e u.pc v ∧ u.pc = s.pc ∧
        ∀ n, u.sreg n = s.sreg n) ∧
    (i.opcode ≠ .lus → t.trapsEff = s.trapsEff) ∧
    (i.opcode ≠ .lus → (∀ y, i ≠ .movesr 10 y) → t.trapsOpen = s.trapsOpen) ∧
    t.cfg = s.cfg ∧ t.inputs = s.inputs ∧ t.draws = s.draws

/-- Every instruction that is no load or store and not SUS, TRANS or DIRT leaves every byte of memory as it was, a
trap included, and the load address instructions too; unless it is LUS or a maintenance instruction it leaves every
TMT entry as it was. In kernel mode a load with no DMA transfer within it leaves every byte of memory and every TMT
entry as it was. Rules: R82, R123, R195, R431, R460, R461. -/
def Obligations.InstructionMemoryFrame : Prop :=
  ∀ (i : Instr) (s t : State), exec i s = .next t →
    (i.opcode.reference = none → i.opcode ∉ [Opcode.sus, .trans, .dirt] →
      SameMemory s t ∧ (i.opcode ∉ [Opcode.lus, .maint] → t.tmt = s.tmt)) ∧
    (∀ x y d e f, f ∈ laddrForms x y d e s → i = f.i → SameMemory s t ∧ t.tmt = s.tmt) ∧
    (∀ x y d e f, f ∈ loadForms x y d e s → i = f.i → s.mode = .kernel → s.between = [] →
      SameMemory s t ∧ t.tmt = s.tmt)
end

