-- ==== Sys2Proof/Laws/Sparse.lean ====
section
/-! SUPPORT. Laws of sparse tables: reading after a write, and the canonical form. -/

namespace Sys2Proof.Machine

variable {α : Type}

@[simp] theorem sparseGet_nil (a : Nat) : sparseGet ([] : List (Nat × α)) a = none := rfl

theorem sparseWf_nil : SparseWf ([] : List (Nat × α)) := List.Pairwise.nil

theorem sparseWf_tail {p : Nat × α} {l : List (Nat × α)} (h : SparseWf (p :: l)) : SparseWf l :=
  (List.pairwise_cons.1 h).2

/-- A key below every listed key is not listed. -/
theorem sparseGet_lt {l : List (Nat × α)} {a : Nat} (h : ∀ q ∈ l, a < q.1) : sparseGet l a = none := by
  cases l with
  | nil => rfl
  | cons p t =>
    have := h p (by simp)
    simp only [sparseGet]
    rw [if_neg (by omega), if_pos this]

/-- Reading the key that was set. -/
@[simp] theorem sparseGet_set_same (l : List (Nat × α)) (a : Nat) (v : α) : sparseGet (sparseSet l a v) a = some v := by
  induction l with
  | nil => simp [sparseSet, sparseGet]
  | cons p t ih =>
    obtain ⟨k, w⟩ := p
    simp only [sparseSet]
    split
    · simp [sparseGet]
    · split
      · simp [sparseGet]
      · rename_i h1 h2
        simp only [sparseGet, if_neg h1, if_neg h2]
        exact ih

/-- Reading another key than the one that was set. -/
theorem sparseGet_set_other (l : List (Nat × α)) {a b : Nat} (v : α) (h : b ≠ a) :
    sparseGet (sparseSet l a v) b = sparseGet l b := by
  induction l with
  | nil => simp only [sparseSet, sparseGet, if_neg h, ite_self]
  | cons p t ih =>
    obtain ⟨k, w⟩ := p
    simp only [sparseSet]
    split
    · rename_i h1
      subst h1
      simp only [sparseGet, if_neg h]
    · split
      · simp only [sparseGet, if_neg h]
        split
        · rename_i h1 h2 h3
          rw [if_neg (by omega), if_pos (by omega)]
        · rfl
      · simp only [sparseGet, ih]

/-- Reading another key than the one that was erased. -/
theorem sparseGet_erase_other {l : List (Nat × α)} (hw : SparseWf l) {a b : Nat} (h : b ≠ a) :
    sparseGet (sparseErase l a) b = sparseGet l b := by
  induction l with
  | nil => rfl
  | cons p t ih =>
    obtain ⟨k, w⟩ := p
    have hk := (List.pairwise_cons.1 hw).1
    simp only [sparseErase]
    split
    · rename_i h1
      subst h1
      simp only [sparseGet, if_neg h]
      split
      · exact sparseGet_lt fun q hq => by have := hk q hq; simp only at this; omega
      · rfl
    · split
      · rfl
      · simp only [sparseGet, ih (sparseWf_tail hw)]

/-- Reading the key that was erased. -/
theorem sparseGet_erase_same {l : List (Nat × α)} (hw : SparseWf l) (a : Nat) :
    sparseGet (sparseErase l a) a = none := by
  induction l with
  | nil => rfl
  | cons p t ih =>
    obtain ⟨k, w⟩ := p
    have hk := (List.pairwise_cons.1 hw).1
    simp only [sparseErase]
    split
    · rename_i h1
      subst h1
      exact sparseGet_lt fun q hq => hk q hq
    · split
      · rename_i h1 h2
        simp only [sparseGet, if_neg h1, if_pos h2]
      · rename_i h1 h2
        simp only [sparseGet, if_neg h1, if_neg h2]
        exact ih (sparseWf_tail hw)

/-- An entry of a table with one key set is the new entry or an old one. -/
theorem mem_sparseSet {l : List (Nat × α)} {a : Nat} {v : α} {q : Nat × α} (h : q ∈ sparseSet l a v) :
    q = (a, v) ∨ q ∈ l := by
  induction l with
  | nil => simpa [sparseSet] using h
  | cons p t ih =>
    obtain ⟨k, w⟩ := p
    simp only [sparseSet] at h
    split at h
    · rcases List.mem_cons.1 h with h | h
      · exact .inl h
      · exact .inr (List.mem_cons_of_mem _ h)
    · split at h
      · rcases List.mem_cons.1 h with h | h
        · exact .inl h
        · exact .inr h
      · rcases List.mem_cons.1 h with h | h
        · exact .inr (h ▸ List.mem_cons_self)
        · rcases ih h with h | h
          · exact .inl h
          · exact .inr (List.mem_cons_of_mem _ h)

/-- An entry of a table with one key erased is an old one. -/
theorem mem_sparseErase {l : List (Nat × α)} {a : Nat} {q : Nat × α} (h : q ∈ sparseErase l a) : q ∈ l := by
  induction l with
  | nil => exact h
  | cons p t ih =>
    obtain ⟨k, w⟩ := p
    simp only [sparseErase] at h
    split at h
    · exact List.mem_cons_of_mem _ h
    · split at h
      · exact h
      · rcases List.mem_cons.1 h with h | h
        · exact h ▸ List.mem_cons_self
        · exact List.mem_cons_of_mem _ (ih h)

/-- Setting a key keeps the canonical form. -/
theorem sparseWf_set {l : List (Nat × α)} (h : SparseWf l) (a : Nat) (v : α) : SparseWf (sparseSet l a v) := by
  induction l with
  | nil => exact List.pairwise_singleton _ _
  | cons p t ih =>
    obtain ⟨k, w⟩ := p
    have hk := (List.pairwise_cons.1 h).1
    simp only [sparseSet]
    split
    · rename_i h1
      subst h1
      exact List.pairwise_cons.2 ⟨hk, sparseWf_tail h⟩
    · split
      · rename_i h1 h2
        refine List.pairwise_cons.2 ⟨fun q hq => ?_, h⟩
        rcases List.mem_cons.1 hq with rfl | hq
        · exact h2
        · exact lt_trans h2 (hk q hq)
      · rename_i h1 h2
        refine List.pairwise_cons.2 ⟨fun q hq => ?_, ih (sparseWf_tail h)⟩
        rcases mem_sparseSet hq with rfl | hq
        · show k < a
          omega
        · exact hk q hq

/-- Erasing a key keeps the canonical form. -/
theorem sparseWf_erase {l : List (Nat × α)} (h : SparseWf l) (a : Nat) : SparseWf (sparseErase l a) := by
  induction l with
  | nil => exact h
  | cons p t ih =>
    obtain ⟨k, w⟩ := p
    have hk := (List.pairwise_cons.1 h).1
    simp only [sparseErase]
    split
    · exact sparseWf_tail h
    · split
      · exact h
      · exact List.pairwise_cons.2 ⟨fun q hq => hk q (mem_sparseErase hq), ih (sparseWf_tail h)⟩

/-- Every listed value is read back. -/
theorem sparseGet_of_mem {l : List (Nat × α)} (h : SparseWf l) {k : Nat} {v : α} (hm : (k, v) ∈ l) :
    sparseGet l k = some v := by
  induction l with
  | nil => cases hm
  | cons p t ih =>
    obtain ⟨j, w⟩ := p
    have hk := (List.pairwise_cons.1 h).1
    rcases List.mem_cons.1 hm with hm | hm
    · cases hm
      simp [sparseGet]
    · have := hk _ hm
      simp only at this
      simp only [sparseGet]
      rw [if_neg (by omega), if_neg (by omega)]
      exact ih (sparseWf_tail h) hm

/-- A value that is read is listed. -/
theorem mem_of_sparseGet {l : List (Nat × α)} {k : Nat} {v : α} (h : sparseGet l k = some v) : (k, v) ∈ l := by
  induction l with
  | nil => cases h
  | cons p t ih =>
    obtain ⟨j, w⟩ := p
    simp only [sparseGet] at h
    split at h
    · rename_i h1
      subst h1
      cases h
      exact List.mem_cons_self
    · split at h
      · cases h
      · exact List.mem_cons_of_mem _ (ih h)

/-! ### Keys from one on -/

/-- Reading after keys from `a` on were set. -/
theorem sparseGet_setFrom (l : List (Nat × α)) (a : Nat) (vs : List α) (b : Nat) :
    sparseGet (sparseSetFrom l a vs) b = if a ≤ b ∧ b < a + vs.length then vs[b - a]? else sparseGet l b := by
  induction vs generalizing l a with
  | nil =>
    rw [if_neg (by simp only [List.length_nil]; omega)]
    rfl
  | cons v vs ih =>
    simp only [sparseSetFrom, ih, List.length_cons]
    by_cases h : b = a
    · subst h
      rw [if_neg (by omega), if_pos (by omega)]
      simp
    · rw [sparseGet_set_other _ _ h]
      by_cases h2 : a + 1 ≤ b ∧ b < a + 1 + vs.length
      · rw [if_pos h2, if_pos (by omega), show b - a = (b - (a + 1)) + 1 by omega, List.getElem?_cons_succ]
      · rw [if_neg h2, if_neg (by omega)]

/-- Setting keys keeps the canonical form. -/
theorem sparseWf_setFrom {l : List (Nat × α)} (h : SparseWf l) (a : Nat) (vs : List α) :
    SparseWf (sparseSetFrom l a vs) := by
  induction vs generalizing l a with
  | nil => exact h
  | cons v vs ih => exact ih (sparseWf_set h a v) (a + 1)

/-- The keys of a table with keys from `a` on set. -/
theorem key_sparseSetFrom {l : List (Nat × α)} {a : Nat} {vs : List α} {q : Nat × α}
    (h : q ∈ sparseSetFrom l a vs) : (a ≤ q.1 ∧ q.1 < a + vs.length) ∨ q ∈ l := by
  induction vs generalizing l a with
  | nil => exact .inr h
  | cons v vs ih =>
    simp only [List.length_cons]
    rcases ih h with h | h
    · exact .inl (by omega)
    · rcases mem_sparseSet h with rfl | h
      · exact .inl (by simp only; omega)
      · exact .inr h

/-- A table with one key set has at most one entry more. -/
theorem length_sparseSet (l : List (Nat × α)) (a : Nat) (v : α) : (sparseSet l a v).length ≤ l.length + 1 := by
  induction l with
  | nil => exact Nat.le_refl _
  | cons p t ih =>
    simp only [sparseSet]
    split
    · simp only [List.length_cons]
      omega
    · split
      · exact Nat.le_refl _
      · simp only [List.length_cons]
        omega

end Sys2Proof.Machine
end

