-- ==== Sys2Proof/Laws/State.lean ====
section
/-! SUPPORT. One lemma for each update of the state and each field or reading it leaves alone, for `simp`. -/

namespace Sys2Proof.Machine


/-! `State.setReg` -/

@[simp] theorem State.setReg_pc (s : State) (n : RegNo) (v : Word) : (s.setReg n v).pc = s.pc := rfl
@[simp] theorem State.setReg_mode (s : State) (n : RegNo) (v : Word) : (s.setReg n v).mode = s.mode := rfl
@[simp] theorem State.setReg_paused (s : State) (n : RegNo) (v : Word) : (s.setReg n v).paused = s.paused := rfl
@[simp] theorem State.setReg_stuck (s : State) (n : RegNo) (v : Word) : (s.setReg n v).stuck = s.stuck := rfl
@[simp] theorem State.setReg_sr (s : State) (n : RegNo) (v : Word) : (s.setReg n v).sr = s.sr := rfl
@[simp] theorem State.setReg_trapsEff (s : State) (n : RegNo) (v : Word) : (s.setReg n v).trapsEff = s.trapsEff := rfl
@[simp] theorem State.setReg_trapsOpen (s : State) (n : RegNo) (v : Word) : (s.setReg n v).trapsOpen = s.trapsOpen := rfl
@[simp] theorem State.setReg_mem (s : State) (n : RegNo) (v : Word) : (s.setReg n v).mem = s.mem := rfl
@[simp] theorem State.setReg_memEpoch (s : State) (n : RegNo) (v : Word) : (s.setReg n v).memEpoch = s.memEpoch := rfl
@[simp] theorem State.setReg_tmt (s : State) (n : RegNo) (v : Word) : (s.setReg n v).tmt = s.tmt := rfl
@[simp] theorem State.setReg_codeLines (s : State) (n : RegNo) (v : Word) : (s.setReg n v).codeLines = s.codeLines := rfl
@[simp] theorem State.setReg_dataLines (s : State) (n : RegNo) (v : Word) : (s.setReg n v).dataLines = s.dataLines := rfl
@[simp] theorem State.setReg_prefetch (s : State) (n : RegNo) (v : Word) : (s.setReg n v).prefetch = s.prefetch := rfl
@[simp] theorem State.setReg_mask1 (s : State) (n : RegNo) (v : Word) : (s.setReg n v).mask1 = s.mask1 := rfl
@[simp] theorem State.setReg_mask2 (s : State) (n : RegNo) (v : Word) : (s.setReg n v).mask2 = s.mask2 := rfl
@[simp] theorem State.setReg_powerFail (s : State) (n : RegNo) (v : Word) : (s.setReg n v).powerFail = s.powerFail := rfl
@[simp] theorem State.setReg_powerFailDue (s : State) (n : RegNo) (v : Word) : (s.setReg n v).powerFailDue = s.powerFailDue := rfl
@[simp] theorem State.setReg_switch0Due (s : State) (n : RegNo) (v : Word) : (s.setReg n v).switch0Due = s.switch0Due := rfl
@[simp] theorem State.setReg_parityDue (s : State) (n : RegNo) (v : Word) : (s.setReg n v).parityDue = s.parityDue := rfl
@[simp] theorem State.setReg_logData (s : State) (n : RegNo) (v : Word) : (s.setReg n v).logData = s.logData := rfl
@[simp] theorem State.setReg_logCount (s : State) (n : RegNo) (v : Word) : (s.setReg n v).logCount = s.logCount := rfl
@[simp] theorem State.setReg_clockOut (s : State) (n : RegNo) (v : Word) : (s.setReg n v).clockOut = s.clockOut := rfl
@[simp] theorem State.setReg_clockIn (s : State) (n : RegNo) (v : Word) : (s.setReg n v).clockIn = s.clockIn := rfl
@[simp] theorem State.setReg_boards (s : State) (n : RegNo) (v : Word) : (s.setReg n v).boards = s.boards := rfl
@[simp] theorem State.setReg_transfer (s : State) (n : RegNo) (v : Word) : (s.setReg n v).transfer = s.transfer := rfl
@[simp] theorem State.setReg_busLog (s : State) (n : RegNo) (v : Word) : (s.setReg n v).busLog = s.busLog := rfl
@[simp] theorem State.setReg_inputs (s : State) (n : RegNo) (v : Word) : (s.setReg n v).inputs = s.inputs := rfl
@[simp] theorem State.setReg_between (s : State) (n : RegNo) (v : Word) : (s.setReg n v).between = s.between := rfl
@[simp] theorem State.setReg_draws (s : State) (n : RegNo) (v : Word) : (s.setReg n v).draws = s.draws := rfl
@[simp] theorem State.setReg_cfg (s : State) (n : RegNo) (v : Word) : (s.setReg n v).cfg = s.cfg := rfl
@[simp] theorem State.sreg_setReg (s : State) (n : RegNo) (v : Word) (k : RegNo) : (s.setReg n v).sreg k = s.sreg k := rfl
@[simp] theorem State.trapBit_setReg (s : State) (n : RegNo) (v : Word) (k : Nat) : (s.setReg n v).trapBit k = s.trapBit k := rfl
@[simp] theorem State.mainByte_setReg (s : State) (n : RegNo) (v : Word) (k : Nat) : (s.setReg n v).mainByte k = s.mainByte k := rfl
@[simp] theorem State.readByte_setReg (s : State) (n : RegNo) (v : Word) (w : View) (k : Nat) : (s.setReg n v).readByte w k = s.readByte w k := rfl
@[simp] theorem State.inMem_setReg (s : State) (n : RegNo) (v : Word) (k : Word) (l : Nat) : (s.setReg n v).inMem k l = s.inMem k l := rfl
@[simp] theorem State.op_setReg (s : State) (n : RegNo) (v : Word) (k : Opcode) : (s.setReg n v).op k = s.op k := rfl
@[simp] theorem State.segment_setReg (s : State) (n : RegNo) (v : Word) (k : Space) : (s.setReg n v).segment k = s.segment k := rfl
@[simp] theorem State.tmtEntry_setReg (s : State) (n : RegNo) (v : Word) (k : Nat) : (s.setReg n v).tmtEntry k = s.tmtEntry k := rfl
@[simp] theorem State.noCcb_setReg (s : State) (n : RegNo) (v : Word) : (s.setReg n v).noCcb = s.noCcb := rfl
@[simp] theorem State.ucodeRead_setReg (s : State) (n : RegNo) (v : Word) (k : Word) : (s.setReg n v).ucodeRead k = s.ucodeRead k := rfl
@[simp] theorem State.structRead_setReg (s : State) (n : RegNo) (v : Word) (k l : Word) : (s.setReg n v).structRead k l = s.structRead k l := rfl
@[simp] theorem State.pcbReg_setReg (s : State) (n : RegNo) (v : Word) (k : RegNo) : (s.setReg n v).pcbReg k = s.pcbReg k := rfl

/-! `State.setPair` -/

@[simp] theorem State.setPair_pc (s : State) (n : RegNo) (v : DWord) : (s.setPair n v).pc = s.pc := rfl
@[simp] theorem State.setPair_mode (s : State) (n : RegNo) (v : DWord) : (s.setPair n v).mode = s.mode := rfl
@[simp] theorem State.setPair_paused (s : State) (n : RegNo) (v : DWord) : (s.setPair n v).paused = s.paused := rfl
@[simp] theorem State.setPair_stuck (s : State) (n : RegNo) (v : DWord) : (s.setPair n v).stuck = s.stuck := rfl
@[simp] theorem State.setPair_sr (s : State) (n : RegNo) (v : DWord) : (s.setPair n v).sr = s.sr := rfl
@[simp] theorem State.setPair_trapsEff (s : State) (n : RegNo) (v : DWord) : (s.setPair n v).trapsEff = s.trapsEff := rfl
@[simp] theorem State.setPair_trapsOpen (s : State) (n : RegNo) (v : DWord) : (s.setPair n v).trapsOpen = s.trapsOpen := rfl
@[simp] theorem State.setPair_mem (s : State) (n : RegNo) (v : DWord) : (s.setPair n v).mem = s.mem := rfl
@[simp] theorem State.setPair_memEpoch (s : State) (n : RegNo) (v : DWord) : (s.setPair n v).memEpoch = s.memEpoch := rfl
@[simp] theorem State.setPair_tmt (s : State) (n : RegNo) (v : DWord) : (s.setPair n v).tmt = s.tmt := rfl
@[simp] theorem State.setPair_codeLines (s : State) (n : RegNo) (v : DWord) : (s.setPair n v).codeLines = s.codeLines := rfl
@[simp] theorem State.setPair_dataLines (s : State) (n : RegNo) (v : DWord) : (s.setPair n v).dataLines = s.dataLines := rfl
@[simp] theorem State.setPair_prefetch (s : State) (n : RegNo) (v : DWord) : (s.setPair n v).prefetch = s.prefetch := rfl
@[simp] theorem State.setPair_mask1 (s : State) (n : RegNo) (v : DWord) : (s.setPair n v).mask1 = s.mask1 := rfl
@[simp] theorem State.setPair_mask2 (s : State) (n : RegNo) (v : DWord) : (s.setPair n v).mask2 = s.mask2 := rfl
@[simp] theorem State.setPair_powerFail (s : State) (n : RegNo) (v : DWord) : (s.setPair n v).powerFail = s.powerFail := rfl
@[simp] theorem State.setPair_powerFailDue (s : State) (n : RegNo) (v : DWord) : (s.setPair n v).powerFailDue = s.powerFailDue := rfl
@[simp] theorem State.setPair_switch0Due (s : State) (n : RegNo) (v : DWord) : (s.setPair n v).switch0Due = s.switch0Due := rfl
@[simp] theorem State.setPair_parityDue (s : State) (n : RegNo) (v : DWord) : (s.setPair n v).parityDue = s.parityDue := rfl
@[simp] theorem State.setPair_logData (s : State) (n : RegNo) (v : DWord) : (s.setPair n v).logData = s.logData := rfl
@[simp] theorem State.setPair_logCount (s : State) (n : RegNo) (v : DWord) : (s.setPair n v).logCount = s.logCount := rfl
@[simp] theorem State.setPair_clockOut (s : State) (n : RegNo) (v : DWord) : (s.setPair n v).clockOut = s.clockOut := rfl
@[simp] theorem State.setPair_clockIn (s : State) (n : RegNo) (v : DWord) : (s.setPair n v).clockIn = s.clockIn := rfl
@[simp] theorem State.setPair_boards (s : State) (n : RegNo) (v : DWord) : (s.setPair n v).boards = s.boards := rfl
@[simp] theorem State.setPair_transfer (s : State) (n : RegNo) (v : DWord) : (s.setPair n v).transfer = s.transfer := rfl
@[simp] theorem State.setPair_busLog (s : State) (n : RegNo) (v : DWord) : (s.setPair n v).busLog = s.busLog := rfl
@[simp] theorem State.setPair_inputs (s : State) (n : RegNo) (v : DWord) : (s.setPair n v).inputs = s.inputs := rfl
@[simp] theorem State.setPair_between (s : State) (n : RegNo) (v : DWord) : (s.setPair n v).between = s.between := rfl
@[simp] theorem State.setPair_draws (s : State) (n : RegNo) (v : DWord) : (s.setPair n v).draws = s.draws := rfl
@[simp] theorem State.setPair_cfg (s : State) (n : RegNo) (v : DWord) : (s.setPair n v).cfg = s.cfg := rfl
@[simp] theorem State.sreg_setPair (s : State) (n : RegNo) (v : DWord) (k : RegNo) : (s.setPair n v).sreg k = s.sreg k := rfl
@[simp] theorem State.trapBit_setPair (s : State) (n : RegNo) (v : DWord) (k : Nat) : (s.setPair n v).trapBit k = s.trapBit k := rfl
@[simp] theorem State.mainByte_setPair (s : State) (n : RegNo) (v : DWord) (k : Nat) : (s.setPair n v).mainByte k = s.mainByte k := rfl
@[simp] theorem State.readByte_setPair (s : State) (n : RegNo) (v : DWord) (w : View) (k : Nat) : (s.setPair n v).readByte w k = s.readByte w k := rfl
@[simp] theorem State.inMem_setPair (s : State) (n : RegNo) (v : DWord) (k : Word) (l : Nat) : (s.setPair n v).inMem k l = s.inMem k l := rfl
@[simp] theorem State.op_setPair (s : State) (n : RegNo) (v : DWord) (k : Opcode) : (s.setPair n v).op k = s.op k := rfl
@[simp] theorem State.segment_setPair (s : State) (n : RegNo) (v : DWord) (k : Space) : (s.setPair n v).segment k = s.segment k := rfl
@[simp] theorem State.tmtEntry_setPair (s : State) (n : RegNo) (v : DWord) (k : Nat) : (s.setPair n v).tmtEntry k = s.tmtEntry k := rfl
@[simp] theorem State.noCcb_setPair (s : State) (n : RegNo) (v : DWord) : (s.setPair n v).noCcb = s.noCcb := rfl
@[simp] theorem State.ucodeRead_setPair (s : State) (n : RegNo) (v : DWord) (k : Word) : (s.setPair n v).ucodeRead k = s.ucodeRead k := rfl
@[simp] theorem State.structRead_setPair (s : State) (n : RegNo) (v : DWord) (k l : Word) : (s.setPair n v).structRead k l = s.structRead k l := rfl
@[simp] theorem State.pcbReg_setPair (s : State) (n : RegNo) (v : DWord) (k : RegNo) : (s.setPair n v).pcbReg k = s.pcbReg k := rfl

/-! `State.setSreg` -/

@[simp] theorem State.setSreg_regs (s : State) (n : RegNo) (v : Word) : (s.setSreg n v).regs = s.regs := rfl
@[simp] theorem State.setSreg_pc (s : State) (n : RegNo) (v : Word) : (s.setSreg n v).pc = s.pc := rfl
@[simp] theorem State.setSreg_mode (s : State) (n : RegNo) (v : Word) : (s.setSreg n v).mode = s.mode := rfl
@[simp] theorem State.setSreg_paused (s : State) (n : RegNo) (v : Word) : (s.setSreg n v).paused = s.paused := rfl
@[simp] theorem State.setSreg_stuck (s : State) (n : RegNo) (v : Word) : (s.setSreg n v).stuck = s.stuck := rfl
@[simp] theorem State.setSreg_trapsEff (s : State) (n : RegNo) (v : Word) : (s.setSreg n v).trapsEff = s.trapsEff := rfl
@[simp] theorem State.setSreg_trapsOpen (s : State) (n : RegNo) (v : Word) : (s.setSreg n v).trapsOpen = s.trapsOpen := rfl
@[simp] theorem State.setSreg_mem (s : State) (n : RegNo) (v : Word) : (s.setSreg n v).mem = s.mem := rfl
@[simp] theorem State.setSreg_memEpoch (s : State) (n : RegNo) (v : Word) : (s.setSreg n v).memEpoch = s.memEpoch := rfl
@[simp] theorem State.setSreg_tmt (s : State) (n : RegNo) (v : Word) : (s.setSreg n v).tmt = s.tmt := rfl
@[simp] theorem State.setSreg_codeLines (s : State) (n : RegNo) (v : Word) : (s.setSreg n v).codeLines = s.codeLines := rfl
@[simp] theorem State.setSreg_dataLines (s : State) (n : RegNo) (v : Word) : (s.setSreg n v).dataLines = s.dataLines := rfl
@[simp] theorem State.setSreg_prefetch (s : State) (n : RegNo) (v : Word) : (s.setSreg n v).prefetch = s.prefetch := rfl
@[simp] theorem State.setSreg_mask1 (s : State) (n : RegNo) (v : Word) : (s.setSreg n v).mask1 = s.mask1 := rfl
@[simp] theorem State.setSreg_mask2 (s : State) (n : RegNo) (v : Word) : (s.setSreg n v).mask2 = s.mask2 := rfl
@[simp] theorem State.setSreg_powerFail (s : State) (n : RegNo) (v : Word) : (s.setSreg n v).powerFail = s.powerFail := rfl
@[simp] theorem State.setSreg_powerFailDue (s : State) (n : RegNo) (v : Word) : (s.setSreg n v).powerFailDue = s.powerFailDue := rfl
@[simp] theorem State.setSreg_switch0Due (s : State) (n : RegNo) (v : Word) : (s.setSreg n v).switch0Due = s.switch0Due := rfl
@[simp] theorem State.setSreg_parityDue (s : State) (n : RegNo) (v : Word) : (s.setSreg n v).parityDue = s.parityDue := rfl
@[simp] theorem State.setSreg_logData (s : State) (n : RegNo) (v : Word) : (s.setSreg n v).logData = s.logData := rfl
@[simp] theorem State.setSreg_logCount (s : State) (n : RegNo) (v : Word) : (s.setSreg n v).logCount = s.logCount := rfl
@[simp] theorem State.setSreg_clockOut (s : State) (n : RegNo) (v : Word) : (s.setSreg n v).clockOut = s.clockOut := rfl
@[simp] theorem State.setSreg_clockIn (s : State) (n : RegNo) (v : Word) : (s.setSreg n v).clockIn = s.clockIn := rfl
@[simp] theorem State.setSreg_boards (s : State) (n : RegNo) (v : Word) : (s.setSreg n v).boards = s.boards := rfl
@[simp] theorem State.setSreg_transfer (s : State) (n : RegNo) (v : Word) : (s.setSreg n v).transfer = s.transfer := rfl
@[simp] theorem State.setSreg_busLog (s : State) (n : RegNo) (v : Word) : (s.setSreg n v).busLog = s.busLog := rfl
@[simp] theorem State.setSreg_inputs (s : State) (n : RegNo) (v : Word) : (s.setSreg n v).inputs = s.inputs := rfl
@[simp] theorem State.setSreg_between (s : State) (n : RegNo) (v : Word) : (s.setSreg n v).between = s.between := rfl
@[simp] theorem State.setSreg_draws (s : State) (n : RegNo) (v : Word) : (s.setSreg n v).draws = s.draws := rfl
@[simp] theorem State.setSreg_cfg (s : State) (n : RegNo) (v : Word) : (s.setSreg n v).cfg = s.cfg := rfl
@[simp] theorem State.reg_setSreg (s : State) (n : RegNo) (v : Word) (k : RegNo) : (s.setSreg n v).reg k = s.reg k := rfl
@[simp] theorem State.pair_setSreg (s : State) (n : RegNo) (v : Word) (k : RegNo) : (s.setSreg n v).pair k = s.pair k := rfl
@[simp] theorem State.trapBit_setSreg (s : State) (n : RegNo) (v : Word) (k : Nat) : (s.setSreg n v).trapBit k = s.trapBit k := rfl
@[simp] theorem State.mainByte_setSreg (s : State) (n : RegNo) (v : Word) (k : Nat) : (s.setSreg n v).mainByte k = s.mainByte k := rfl
@[simp] theorem State.readByte_setSreg (s : State) (n : RegNo) (v : Word) (w : View) (k : Nat) : (s.setSreg n v).readByte w k = s.readByte w k := rfl
@[simp] theorem State.inMem_setSreg (s : State) (n : RegNo) (v : Word) (k : Word) (l : Nat) : (s.setSreg n v).inMem k l = s.inMem k l := rfl
@[simp] theorem State.op_setSreg (s : State) (n : RegNo) (v : Word) (k : Opcode) : (s.setSreg n v).op k = s.op k := rfl
@[simp] theorem State.tmtEntry_setSreg (s : State) (n : RegNo) (v : Word) (k : Nat) : (s.setSreg n v).tmtEntry k = s.tmtEntry k := rfl
@[simp] theorem State.ucodeRead_setSreg (s : State) (n : RegNo) (v : Word) (k : Word) : (s.setSreg n v).ucodeRead k = s.ucodeRead k := rfl
@[simp] theorem State.structRead_setSreg (s : State) (n : RegNo) (v : Word) (k l : Word) : (s.setSreg n v).structRead k l = s.structRead k l := rfl
@[simp] theorem State.pcbReg_setSreg (s : State) (n : RegNo) (v : Word) (k : RegNo) : (s.setSreg n v).pcbReg k = s.pcbReg k := rfl

/-! `State.after` -/

@[simp] theorem State.after_regs (s : State) (n : Nat) : (s.after n).regs = s.regs := rfl
@[simp] theorem State.after_mode (s : State) (n : Nat) : (s.after n).mode = s.mode := rfl
@[simp] theorem State.after_paused (s : State) (n : Nat) : (s.after n).paused = s.paused := rfl
@[simp] theorem State.after_stuck (s : State) (n : Nat) : (s.after n).stuck = s.stuck := rfl
@[simp] theorem State.after_sr (s : State) (n : Nat) : (s.after n).sr = s.sr := rfl
@[simp] theorem State.after_trapsEff (s : State) (n : Nat) : (s.after n).trapsEff = s.trapsEff := rfl
@[simp] theorem State.after_trapsOpen (s : State) (n : Nat) : (s.after n).trapsOpen = s.trapsOpen := rfl
@[simp] theorem State.after_mem (s : State) (n : Nat) : (s.after n).mem = s.mem := rfl
@[simp] theorem State.after_memEpoch (s : State) (n : Nat) : (s.after n).memEpoch = s.memEpoch := rfl
@[simp] theorem State.after_tmt (s : State) (n : Nat) : (s.after n).tmt = s.tmt := rfl
@[simp] theorem State.after_codeLines (s : State) (n : Nat) : (s.after n).codeLines = s.codeLines := rfl
@[simp] theorem State.after_dataLines (s : State) (n : Nat) : (s.after n).dataLines = s.dataLines := rfl
@[simp] theorem State.after_prefetch (s : State) (n : Nat) : (s.after n).prefetch = s.prefetch := rfl
@[simp] theorem State.after_mask1 (s : State) (n : Nat) : (s.after n).mask1 = s.mask1 := rfl
@[simp] theorem State.after_mask2 (s : State) (n : Nat) : (s.after n).mask2 = s.mask2 := rfl
@[simp] theorem State.after_powerFail (s : State) (n : Nat) : (s.after n).powerFail = s.powerFail := rfl
@[simp] theorem State.after_powerFailDue (s : State) (n : Nat) : (s.after n).powerFailDue = s.powerFailDue := rfl
@[simp] theorem State.after_switch0Due (s : State) (n : Nat) : (s.after n).switch0Due = s.switch0Due := rfl
@[simp] theorem State.after_parityDue (s : State) (n : Nat) : (s.after n).parityDue = s.parityDue := rfl
@[simp] theorem State.after_logData (s : State) (n : Nat) : (s.after n).logData = s.logData := rfl
@[simp] theorem State.after_logCount (s : State) (n : Nat) : (s.after n).logCount = s.logCount := rfl
@[simp] theorem State.after_clockOut (s : State) (n : Nat) : (s.after n).clockOut = s.clockOut := rfl
@[simp] theorem State.after_clockIn (s : State) (n : Nat) : (s.after n).clockIn = s.clockIn := rfl
@[simp] theorem State.after_boards (s : State) (n : Nat) : (s.after n).boards = s.boards := rfl
@[simp] theorem State.after_transfer (s : State) (n : Nat) : (s.after n).transfer = s.transfer := rfl
@[simp] theorem State.after_busLog (s : State) (n : Nat) : (s.after n).busLog = s.busLog := rfl
@[simp] theorem State.after_inputs (s : State) (n : Nat) : (s.after n).inputs = s.inputs := rfl
@[simp] theorem State.after_between (s : State) (n : Nat) : (s.after n).between = s.between := rfl
@[simp] theorem State.after_draws (s : State) (n : Nat) : (s.after n).draws = s.draws := rfl
@[simp] theorem State.after_cfg (s : State) (n : Nat) : (s.after n).cfg = s.cfg := rfl
@[simp] theorem State.reg_after (s : State) (n : Nat) (k : RegNo) : (s.after n).reg k = s.reg k := rfl
@[simp] theorem State.pair_after (s : State) (n : Nat) (k : RegNo) : (s.after n).pair k = s.pair k := rfl
@[simp] theorem State.sreg_after (s : State) (n : Nat) (k : RegNo) : (s.after n).sreg k = s.sreg k := rfl
@[simp] theorem State.trapBit_after (s : State) (n : Nat) (k : Nat) : (s.after n).trapBit k = s.trapBit k := rfl
@[simp] theorem State.mainByte_after (s : State) (n : Nat) (k : Nat) : (s.after n).mainByte k = s.mainByte k := rfl
@[simp] theorem State.readByte_after (s : State) (n : Nat) (w : View) (k : Nat) : (s.after n).readByte w k = s.readByte w k := rfl
@[simp] theorem State.inMem_after (s : State) (n : Nat) (k : Word) (l : Nat) : (s.after n).inMem k l = s.inMem k l := rfl
@[simp] theorem State.op_after (s : State) (n : Nat) (k : Opcode) : (s.after n).op k = s.op k := rfl
@[simp] theorem State.segment_after (s : State) (n : Nat) (k : Space) : (s.after n).segment k = s.segment k := rfl
@[simp] theorem State.tmtEntry_after (s : State) (n : Nat) (k : Nat) : (s.after n).tmtEntry k = s.tmtEntry k := rfl
@[simp] theorem State.noCcb_after (s : State) (n : Nat) : (s.after n).noCcb = s.noCcb := rfl
@[simp] theorem State.ucodeRead_after (s : State) (n : Nat) (k : Word) : (s.after n).ucodeRead k = s.ucodeRead k := rfl
@[simp] theorem State.structRead_after (s : State) (n : Nat) (k l : Word) : (s.after n).structRead k l = s.structRead k l := rfl
@[simp] theorem State.pcbReg_after (s : State) (n : Nat) (k : RegNo) : (s.after n).pcbReg k = s.pcbReg k := rfl

/-! `State.goto` -/

@[simp] theorem State.goto_regs (s : State) (v : Word) : (s.goto v).regs = s.regs := rfl
@[simp] theorem State.goto_mode (s : State) (v : Word) : (s.goto v).mode = s.mode := rfl
@[simp] theorem State.goto_paused (s : State) (v : Word) : (s.goto v).paused = s.paused := rfl
@[simp] theorem State.goto_stuck (s : State) (v : Word) : (s.goto v).stuck = s.stuck := rfl
@[simp] theorem State.goto_sr (s : State) (v : Word) : (s.goto v).sr = s.sr := rfl
@[simp] theorem State.goto_trapsEff (s : State) (v : Word) : (s.goto v).trapsEff = s.trapsEff := rfl
@[simp] theorem State.goto_trapsOpen (s : State) (v : Word) : (s.goto v).trapsOpen = s.trapsOpen := rfl
@[simp] theorem State.goto_mem (s : State) (v : Word) : (s.goto v).mem = s.mem := rfl
@[simp] theorem State.goto_memEpoch (s : State) (v : Word) : (s.goto v).memEpoch = s.memEpoch := rfl
@[simp] theorem State.goto_tmt (s : State) (v : Word) : (s.goto v).tmt = s.tmt := rfl
@[simp] theorem State.goto_codeLines (s : State) (v : Word) : (s.goto v).codeLines = s.codeLines := rfl
@[simp] theorem State.goto_dataLines (s : State) (v : Word) : (s.goto v).dataLines = s.dataLines := rfl
@[simp] theorem State.goto_mask1 (s : State) (v : Word) : (s.goto v).mask1 = s.mask1 := rfl
@[simp] theorem State.goto_mask2 (s : State) (v : Word) : (s.goto v).mask2 = s.mask2 := rfl
@[simp] theorem State.goto_powerFail (s : State) (v : Word) : (s.goto v).powerFail = s.powerFail := rfl
@[simp] theorem State.goto_powerFailDue (s : State) (v : Word) : (s.goto v).powerFailDue = s.powerFailDue := rfl
@[simp] theorem State.goto_switch0Due (s : State) (v : Word) : (s.goto v).switch0Due = s.switch0Due := rfl
@[simp] theorem State.goto_parityDue (s : State) (v : Word) : (s.goto v).parityDue = s.parityDue := rfl
@[simp] theorem State.goto_logData (s : State) (v : Word) : (s.goto v).logData = s.logData := rfl
@[simp] theorem State.goto_logCount (s : State) (v : Word) : (s.goto v).logCount = s.logCount := rfl
@[simp] theorem State.goto_clockOut (s : State) (v : Word) : (s.goto v).clockOut = s.clockOut := rfl
@[simp] theorem State.goto_clockIn (s : State) (v : Word) : (s.goto v).clockIn = s.clockIn := rfl
@[simp] theorem State.goto_boards (s : State) (v : Word) : (s.goto v).boards = s.boards := rfl
@[simp] theorem State.goto_transfer (s : State) (v : Word) : (s.goto v).transfer = s.transfer := rfl
@[simp] theorem State.goto_busLog (s : State) (v : Word) : (s.goto v).busLog = s.busLog := rfl
@[simp] theorem State.goto_inputs (s : State) (v : Word) : (s.goto v).inputs = s.inputs := rfl
@[simp] theorem State.goto_between (s : State) (v : Word) : (s.goto v).between = s.between := rfl
@[simp] theorem State.goto_draws (s : State) (v : Word) : (s.goto v).draws = s.draws := rfl
@[simp] theorem State.goto_cfg (s : State) (v : Word) : (s.goto v).cfg = s.cfg := rfl
@[simp] theorem State.reg_goto (s : State) (v : Word) (k : RegNo) : (s.goto v).reg k = s.reg k := rfl
@[simp] theorem State.pair_goto (s : State) (v : Word) (k : RegNo) : (s.goto v).pair k = s.pair k := rfl
@[simp] theorem State.sreg_goto (s : State) (v : Word) (k : RegNo) : (s.goto v).sreg k = s.sreg k := rfl
@[simp] theorem State.trapBit_goto (s : State) (v : Word) (k : Nat) : (s.goto v).trapBit k = s.trapBit k := rfl
@[simp] theorem State.mainByte_goto (s : State) (v : Word) (k : Nat) : (s.goto v).mainByte k = s.mainByte k := rfl
@[simp] theorem State.inMem_goto (s : State) (v : Word) (k : Word) (l : Nat) : (s.goto v).inMem k l = s.inMem k l := rfl
@[simp] theorem State.op_goto (s : State) (v : Word) (k : Opcode) : (s.goto v).op k = s.op k := rfl
@[simp] theorem State.segment_goto (s : State) (v : Word) (k : Space) : (s.goto v).segment k = s.segment k := rfl
@[simp] theorem State.tmtEntry_goto (s : State) (v : Word) (k : Nat) : (s.goto v).tmtEntry k = s.tmtEntry k := rfl
@[simp] theorem State.noCcb_goto (s : State) (v : Word) : (s.goto v).noCcb = s.noCcb := rfl
@[simp] theorem State.ucodeRead_goto (s : State) (v : Word) (k : Word) : (s.goto v).ucodeRead k = s.ucodeRead k := rfl
@[simp] theorem State.structRead_goto (s : State) (v : Word) (k l : Word) : (s.goto v).structRead k l = s.structRead k l := rfl
@[simp] theorem State.pcbReg_goto (s : State) (v : Word) (k : RegNo) : (s.goto v).pcbReg k = s.pcbReg k := rfl

/-! `State.storeByte` -/

@[simp] theorem State.storeByte_regs (s : State) (n : Nat) (v : Byte) : (s.storeByte n v).regs = s.regs := rfl
@[simp] theorem State.storeByte_pc (s : State) (n : Nat) (v : Byte) : (s.storeByte n v).pc = s.pc := rfl
@[simp] theorem State.storeByte_mode (s : State) (n : Nat) (v : Byte) : (s.storeByte n v).mode = s.mode := rfl
@[simp] theorem State.storeByte_paused (s : State) (n : Nat) (v : Byte) : (s.storeByte n v).paused = s.paused := rfl
@[simp] theorem State.storeByte_stuck (s : State) (n : Nat) (v : Byte) : (s.storeByte n v).stuck = s.stuck := rfl
@[simp] theorem State.storeByte_sr (s : State) (n : Nat) (v : Byte) : (s.storeByte n v).sr = s.sr := rfl
@[simp] theorem State.storeByte_trapsEff (s : State) (n : Nat) (v : Byte) : (s.storeByte n v).trapsEff = s.trapsEff := rfl
@[simp] theorem State.storeByte_trapsOpen (s : State) (n : Nat) (v : Byte) : (s.storeByte n v).trapsOpen = s.trapsOpen := rfl
@[simp] theorem State.storeByte_memEpoch (s : State) (n : Nat) (v : Byte) : (s.storeByte n v).memEpoch = s.memEpoch := rfl
@[simp] theorem State.storeByte_tmt (s : State) (n : Nat) (v : Byte) : (s.storeByte n v).tmt = s.tmt := rfl
@[simp] theorem State.storeByte_codeLines (s : State) (n : Nat) (v : Byte) : (s.storeByte n v).codeLines = s.codeLines := rfl
@[simp] theorem State.storeByte_prefetch (s : State) (n : Nat) (v : Byte) : (s.storeByte n v).prefetch = s.prefetch := rfl
@[simp] theorem State.storeByte_mask1 (s : State) (n : Nat) (v : Byte) : (s.storeByte n v).mask1 = s.mask1 := rfl
@[simp] theorem State.storeByte_mask2 (s : State) (n : Nat) (v : Byte) : (s.storeByte n v).mask2 = s.mask2 := rfl
@[simp] theorem State.storeByte_powerFail (s : State) (n : Nat) (v : Byte) : (s.storeByte n v).powerFail = s.powerFail := rfl
@[simp] theorem State.storeByte_powerFailDue (s : State) (n : Nat) (v : Byte) : (s.storeByte n v).powerFailDue = s.powerFailDue := rfl
@[simp] theorem State.storeByte_switch0Due (s : State) (n : Nat) (v : Byte) : (s.storeByte n v).switch0Due = s.switch0Due := rfl
@[simp] theorem State.storeByte_parityDue (s : State) (n : Nat) (v : Byte) : (s.storeByte n v).parityDue = s.parityDue := rfl
@[simp] theorem State.storeByte_logData (s : State) (n : Nat) (v : Byte) : (s.storeByte n v).logData = s.logData := rfl
@[simp] theorem State.storeByte_logCount (s : State) (n : Nat) (v : Byte) : (s.storeByte n v).logCount = s.logCount := rfl
@[simp] theorem State.storeByte_clockOut (s : State) (n : Nat) (v : Byte) : (s.storeByte n v).clockOut = s.clockOut := rfl
@[simp] theorem State.storeByte_clockIn (s : State) (n : Nat) (v : Byte) : (s.storeByte n v).clockIn = s.clockIn := rfl
@[simp] theorem State.storeByte_boards (s : State) (n : Nat) (v : Byte) : (s.storeByte n v).boards = s.boards := rfl
@[simp] theorem State.storeByte_transfer (s : State) (n : Nat) (v : Byte) : (s.storeByte n v).transfer = s.transfer := rfl
@[simp] theorem State.storeByte_busLog (s : State) (n : Nat) (v : Byte) : (s.storeByte n v).busLog = s.busLog := rfl
@[simp] theorem State.storeByte_inputs (s : State) (n : Nat) (v : Byte) : (s.storeByte n v).inputs = s.inputs := rfl
@[simp] theorem State.storeByte_between (s : State) (n : Nat) (v : Byte) : (s.storeByte n v).between = s.between := rfl
@[simp] theorem State.storeByte_draws (s : State) (n : Nat) (v : Byte) : (s.storeByte n v).draws = s.draws := rfl
@[simp] theorem State.storeByte_cfg (s : State) (n : Nat) (v : Byte) : (s.storeByte n v).cfg = s.cfg := rfl
@[simp] theorem State.reg_storeByte (s : State) (n : Nat) (v : Byte) (k : RegNo) : (s.storeByte n v).reg k = s.reg k := rfl
@[simp] theorem State.pair_storeByte (s : State) (n : Nat) (v : Byte) (k : RegNo) : (s.storeByte n v).pair k = s.pair k := rfl
@[simp] theorem State.sreg_storeByte (s : State) (n : Nat) (v : Byte) (k : RegNo) : (s.storeByte n v).sreg k = s.sreg k := rfl
@[simp] theorem State.trapBit_storeByte (s : State) (n : Nat) (v : Byte) (k : Nat) : (s.storeByte n v).trapBit k = s.trapBit k := rfl
@[simp] theorem State.inMem_storeByte (s : State) (n : Nat) (v : Byte) (k : Word) (l : Nat) : (s.storeByte n v).inMem k l = s.inMem k l := rfl
@[simp] theorem State.op_storeByte (s : State) (n : Nat) (v : Byte) (k : Opcode) : (s.storeByte n v).op k = s.op k := rfl
@[simp] theorem State.segment_storeByte (s : State) (n : Nat) (v : Byte) (k : Space) : (s.storeByte n v).segment k = s.segment k := rfl
@[simp] theorem State.tmtEntry_storeByte (s : State) (n : Nat) (v : Byte) (k : Nat) : (s.storeByte n v).tmtEntry k = s.tmtEntry k := rfl
@[simp] theorem State.noCcb_storeByte (s : State) (n : Nat) (v : Byte) : (s.storeByte n v).noCcb = s.noCcb := rfl
@[simp] theorem State.pcbReg_storeByte (s : State) (n : Nat) (v : Byte) (k : RegNo) : (s.storeByte n v).pcbReg k = s.pcbReg k := rfl

/-! `State.dmaWord` -/

@[simp] theorem State.dmaWord_regs (s : State) (n : Nat) (v : Word) : (s.dmaWord n v).regs = s.regs := rfl
@[simp] theorem State.dmaWord_pc (s : State) (n : Nat) (v : Word) : (s.dmaWord n v).pc = s.pc := rfl
@[simp] theorem State.dmaWord_mode (s : State) (n : Nat) (v : Word) : (s.dmaWord n v).mode = s.mode := rfl
@[simp] theorem State.dmaWord_paused (s : State) (n : Nat) (v : Word) : (s.dmaWord n v).paused = s.paused := rfl
@[simp] theorem State.dmaWord_stuck (s : State) (n : Nat) (v : Word) : (s.dmaWord n v).stuck = s.stuck := rfl
@[simp] theorem State.dmaWord_sr (s : State) (n : Nat) (v : Word) : (s.dmaWord n v).sr = s.sr := rfl
@[simp] theorem State.dmaWord_trapsEff (s : State) (n : Nat) (v : Word) : (s.dmaWord n v).trapsEff = s.trapsEff := rfl
@[simp] theorem State.dmaWord_trapsOpen (s : State) (n : Nat) (v : Word) : (s.dmaWord n v).trapsOpen = s.trapsOpen := rfl
@[simp] theorem State.dmaWord_memEpoch (s : State) (n : Nat) (v : Word) : (s.dmaWord n v).memEpoch = s.memEpoch := rfl
@[simp] theorem State.dmaWord_tmt (s : State) (n : Nat) (v : Word) : (s.dmaWord n v).tmt = s.tmt := rfl
@[simp] theorem State.dmaWord_prefetch (s : State) (n : Nat) (v : Word) : (s.dmaWord n v).prefetch = s.prefetch := rfl
@[simp] theorem State.dmaWord_mask1 (s : State) (n : Nat) (v : Word) : (s.dmaWord n v).mask1 = s.mask1 := rfl
@[simp] theorem State.dmaWord_mask2 (s : State) (n : Nat) (v : Word) : (s.dmaWord n v).mask2 = s.mask2 := rfl
@[simp] theorem State.dmaWord_powerFail (s : State) (n : Nat) (v : Word) : (s.dmaWord n v).powerFail = s.powerFail := rfl
@[simp] theorem State.dmaWord_powerFailDue (s : State) (n : Nat) (v : Word) : (s.dmaWord n v).powerFailDue = s.powerFailDue := rfl
@[simp] theorem State.dmaWord_switch0Due (s : State) (n : Nat) (v : Word) : (s.dmaWord n v).switch0Due = s.switch0Due := rfl
@[simp] theorem State.dmaWord_parityDue (s : State) (n : Nat) (v : Word) : (s.dmaWord n v).parityDue = s.parityDue := rfl
@[simp] theorem State.dmaWord_logData (s : State) (n : Nat) (v : Word) : (s.dmaWord n v).logData = s.logData := rfl
@[simp] theorem State.dmaWord_logCount (s : State) (n : Nat) (v : Word) : (s.dmaWord n v).logCount = s.logCount := rfl
@[simp] theorem State.dmaWord_clockOut (s : State) (n : Nat) (v : Word) : (s.dmaWord n v).clockOut = s.clockOut := rfl
@[simp] theorem State.dmaWord_clockIn (s : State) (n : Nat) (v : Word) : (s.dmaWord n v).clockIn = s.clockIn := rfl
@[simp] theorem State.dmaWord_boards (s : State) (n : Nat) (v : Word) : (s.dmaWord n v).boards = s.boards := rfl
@[simp] theorem State.dmaWord_transfer (s : State) (n : Nat) (v : Word) : (s.dmaWord n v).transfer = s.transfer := rfl
@[simp] theorem State.dmaWord_busLog (s : State) (n : Nat) (v : Word) : (s.dmaWord n v).busLog = s.busLog := rfl
@[simp] theorem State.dmaWord_inputs (s : State) (n : Nat) (v : Word) : (s.dmaWord n v).inputs = s.inputs := rfl
@[simp] theorem State.dmaWord_between (s : State) (n : Nat) (v : Word) : (s.dmaWord n v).between = s.between := rfl
@[simp] theorem State.dmaWord_draws (s : State) (n : Nat) (v : Word) : (s.dmaWord n v).draws = s.draws := rfl
@[simp] theorem State.dmaWord_cfg (s : State) (n : Nat) (v : Word) : (s.dmaWord n v).cfg = s.cfg := rfl
@[simp] theorem State.reg_dmaWord (s : State) (n : Nat) (v : Word) (k : RegNo) : (s.dmaWord n v).reg k = s.reg k := rfl
@[simp] theorem State.pair_dmaWord (s : State) (n : Nat) (v : Word) (k : RegNo) : (s.dmaWord n v).pair k = s.pair k := rfl
@[simp] theorem State.sreg_dmaWord (s : State) (n : Nat) (v : Word) (k : RegNo) : (s.dmaWord n v).sreg k = s.sreg k := rfl
@[simp] theorem State.trapBit_dmaWord (s : State) (n : Nat) (v : Word) (k : Nat) : (s.dmaWord n v).trapBit k = s.trapBit k := rfl
@[simp] theorem State.inMem_dmaWord (s : State) (n : Nat) (v : Word) (k : Word) (l : Nat) : (s.dmaWord n v).inMem k l = s.inMem k l := rfl
@[simp] theorem State.op_dmaWord (s : State) (n : Nat) (v : Word) (k : Opcode) : (s.dmaWord n v).op k = s.op k := rfl
@[simp] theorem State.segment_dmaWord (s : State) (n : Nat) (v : Word) (k : Space) : (s.dmaWord n v).segment k = s.segment k := rfl
@[simp] theorem State.tmtEntry_dmaWord (s : State) (n : Nat) (v : Word) (k : Nat) : (s.dmaWord n v).tmtEntry k = s.tmtEntry k := rfl
@[simp] theorem State.noCcb_dmaWord (s : State) (n : Nat) (v : Word) : (s.dmaWord n v).noCcb = s.noCcb := rfl
@[simp] theorem State.pcbReg_dmaWord (s : State) (n : Nat) (v : Word) (k : RegNo) : (s.dmaWord n v).pcbReg k = s.pcbReg k := rfl

/-! `State.dmaRead` -/

@[simp] theorem State.dmaRead_regs (s : State) (n : Nat) (v : Bool) : (s.dmaRead n v).regs = s.regs := rfl
@[simp] theorem State.dmaRead_pc (s : State) (n : Nat) (v : Bool) : (s.dmaRead n v).pc = s.pc := rfl
@[simp] theorem State.dmaRead_mode (s : State) (n : Nat) (v : Bool) : (s.dmaRead n v).mode = s.mode := rfl
@[simp] theorem State.dmaRead_paused (s : State) (n : Nat) (v : Bool) : (s.dmaRead n v).paused = s.paused := rfl
@[simp] theorem State.dmaRead_stuck (s : State) (n : Nat) (v : Bool) : (s.dmaRead n v).stuck = s.stuck := rfl
@[simp] theorem State.dmaRead_sr (s : State) (n : Nat) (v : Bool) : (s.dmaRead n v).sr = s.sr := rfl
@[simp] theorem State.dmaRead_trapsEff (s : State) (n : Nat) (v : Bool) : (s.dmaRead n v).trapsEff = s.trapsEff := rfl
@[simp] theorem State.dmaRead_trapsOpen (s : State) (n : Nat) (v : Bool) : (s.dmaRead n v).trapsOpen = s.trapsOpen := rfl
@[simp] theorem State.dmaRead_mem (s : State) (n : Nat) (v : Bool) : (s.dmaRead n v).mem = s.mem := rfl
@[simp] theorem State.dmaRead_memEpoch (s : State) (n : Nat) (v : Bool) : (s.dmaRead n v).memEpoch = s.memEpoch := rfl
@[simp] theorem State.dmaRead_tmt (s : State) (n : Nat) (v : Bool) : (s.dmaRead n v).tmt = s.tmt := rfl
@[simp] theorem State.dmaRead_codeLines (s : State) (n : Nat) (v : Bool) : (s.dmaRead n v).codeLines = s.codeLines := rfl
@[simp] theorem State.dmaRead_dataLines (s : State) (n : Nat) (v : Bool) : (s.dmaRead n v).dataLines = s.dataLines := rfl
@[simp] theorem State.dmaRead_prefetch (s : State) (n : Nat) (v : Bool) : (s.dmaRead n v).prefetch = s.prefetch := rfl
@[simp] theorem State.dmaRead_mask1 (s : State) (n : Nat) (v : Bool) : (s.dmaRead n v).mask1 = s.mask1 := rfl
@[simp] theorem State.dmaRead_mask2 (s : State) (n : Nat) (v : Bool) : (s.dmaRead n v).mask2 = s.mask2 := rfl
@[simp] theorem State.dmaRead_powerFail (s : State) (n : Nat) (v : Bool) : (s.dmaRead n v).powerFail = s.powerFail := rfl
@[simp] theorem State.dmaRead_powerFailDue (s : State) (n : Nat) (v : Bool) : (s.dmaRead n v).powerFailDue = s.powerFailDue := rfl
@[simp] theorem State.dmaRead_switch0Due (s : State) (n : Nat) (v : Bool) : (s.dmaRead n v).switch0Due = s.switch0Due := rfl
@[simp] theorem State.dmaRead_parityDue (s : State) (n : Nat) (v : Bool) : (s.dmaRead n v).parityDue = s.parityDue := rfl
@[simp] theorem State.dmaRead_logData (s : State) (n : Nat) (v : Bool) : (s.dmaRead n v).logData = s.logData := rfl
@[simp] theorem State.dmaRead_logCount (s : State) (n : Nat) (v : Bool) : (s.dmaRead n v).logCount = s.logCount := rfl
@[simp] theorem State.dmaRead_clockOut (s : State) (n : Nat) (v : Bool) : (s.dmaRead n v).clockOut = s.clockOut := rfl
@[simp] theorem State.dmaRead_clockIn (s : State) (n : Nat) (v : Bool) : (s.dmaRead n v).clockIn = s.clockIn := rfl
@[simp] theorem State.dmaRead_boards (s : State) (n : Nat) (v : Bool) : (s.dmaRead n v).boards = s.boards := rfl
@[simp] theorem State.dmaRead_transfer (s : State) (n : Nat) (v : Bool) : (s.dmaRead n v).transfer = s.transfer := rfl
@[simp] theorem State.dmaRead_inputs (s : State) (n : Nat) (v : Bool) : (s.dmaRead n v).inputs = s.inputs := rfl
@[simp] theorem State.dmaRead_between (s : State) (n : Nat) (v : Bool) : (s.dmaRead n v).between = s.between := rfl
@[simp] theorem State.dmaRead_draws (s : State) (n : Nat) (v : Bool) : (s.dmaRead n v).draws = s.draws := rfl
@[simp] theorem State.dmaRead_cfg (s : State) (n : Nat) (v : Bool) : (s.dmaRead n v).cfg = s.cfg := rfl
@[simp] theorem State.reg_dmaRead (s : State) (n : Nat) (v : Bool) (k : RegNo) : (s.dmaRead n v).reg k = s.reg k := rfl
@[simp] theorem State.pair_dmaRead (s : State) (n : Nat) (v : Bool) (k : RegNo) : (s.dmaRead n v).pair k = s.pair k := rfl
@[simp] theorem State.sreg_dmaRead (s : State) (n : Nat) (v : Bool) (k : RegNo) : (s.dmaRead n v).sreg k = s.sreg k := rfl
@[simp] theorem State.trapBit_dmaRead (s : State) (n : Nat) (v : Bool) (k : Nat) : (s.dmaRead n v).trapBit k = s.trapBit k := rfl
@[simp] theorem State.mainByte_dmaRead (s : State) (n : Nat) (v : Bool) (k : Nat) : (s.dmaRead n v).mainByte k = s.mainByte k := rfl
@[simp] theorem State.readByte_dmaRead (s : State) (n : Nat) (v : Bool) (w : View) (k : Nat) : (s.dmaRead n v).readByte w k = s.readByte w k := rfl
@[simp] theorem State.inMem_dmaRead (s : State) (n : Nat) (v : Bool) (k : Word) (l : Nat) : (s.dmaRead n v).inMem k l = s.inMem k l := rfl
@[simp] theorem State.op_dmaRead (s : State) (n : Nat) (v : Bool) (k : Opcode) : (s.dmaRead n v).op k = s.op k := rfl
@[simp] theorem State.segment_dmaRead (s : State) (n : Nat) (v : Bool) (k : Space) : (s.dmaRead n v).segment k = s.segment k := rfl
@[simp] theorem State.tmtEntry_dmaRead (s : State) (n : Nat) (v : Bool) (k : Nat) : (s.dmaRead n v).tmtEntry k = s.tmtEntry k := rfl
@[simp] theorem State.noCcb_dmaRead (s : State) (n : Nat) (v : Bool) : (s.dmaRead n v).noCcb = s.noCcb := rfl
@[simp] theorem State.ucodeRead_dmaRead (s : State) (n : Nat) (v : Bool) (k : Word) : (s.dmaRead n v).ucodeRead k = s.ucodeRead k := rfl
@[simp] theorem State.structRead_dmaRead (s : State) (n : Nat) (v : Bool) (k l : Word) : (s.dmaRead n v).structRead k l = s.structRead k l := rfl
@[simp] theorem State.pcbReg_dmaRead (s : State) (n : Nat) (v : Bool) (k : RegNo) : (s.dmaRead n v).pcbReg k = s.pcbReg k := rfl

/-! `State.loadLine` -/

@[simp] theorem State.loadLine_regs (s : State) (w : View) (n : Nat) : (s.loadLine w n).regs = s.regs := rfl
@[simp] theorem State.loadLine_pc (s : State) (w : View) (n : Nat) : (s.loadLine w n).pc = s.pc := rfl
@[simp] theorem State.loadLine_mode (s : State) (w : View) (n : Nat) : (s.loadLine w n).mode = s.mode := rfl
@[simp] theorem State.loadLine_paused (s : State) (w : View) (n : Nat) : (s.loadLine w n).paused = s.paused := rfl
@[simp] theorem State.loadLine_stuck (s : State) (w : View) (n : Nat) : (s.loadLine w n).stuck = s.stuck := rfl
@[simp] theorem State.loadLine_sr (s : State) (w : View) (n : Nat) : (s.loadLine w n).sr = s.sr := rfl
@[simp] theorem State.loadLine_trapsEff (s : State) (w : View) (n : Nat) : (s.loadLine w n).trapsEff = s.trapsEff := rfl
@[simp] theorem State.loadLine_trapsOpen (s : State) (w : View) (n : Nat) : (s.loadLine w n).trapsOpen = s.trapsOpen := rfl
@[simp] theorem State.loadLine_mem (s : State) (w : View) (n : Nat) : (s.loadLine w n).mem = s.mem := rfl
@[simp] theorem State.loadLine_memEpoch (s : State) (w : View) (n : Nat) : (s.loadLine w n).memEpoch = s.memEpoch := rfl
@[simp] theorem State.loadLine_tmt (s : State) (w : View) (n : Nat) : (s.loadLine w n).tmt = s.tmt := rfl
@[simp] theorem State.loadLine_prefetch (s : State) (w : View) (n : Nat) : (s.loadLine w n).prefetch = s.prefetch := rfl
@[simp] theorem State.loadLine_mask1 (s : State) (w : View) (n : Nat) : (s.loadLine w n).mask1 = s.mask1 := rfl
@[simp] theorem State.loadLine_mask2 (s : State) (w : View) (n : Nat) : (s.loadLine w n).mask2 = s.mask2 := rfl
@[simp] theorem State.loadLine_powerFail (s : State) (w : View) (n : Nat) : (s.loadLine w n).powerFail = s.powerFail := rfl
@[simp] theorem State.loadLine_powerFailDue (s : State) (w : View) (n : Nat) : (s.loadLine w n).powerFailDue = s.powerFailDue := rfl
@[simp] theorem State.loadLine_switch0Due (s : State) (w : View) (n : Nat) : (s.loadLine w n).switch0Due = s.switch0Due := rfl
@[simp] theorem State.loadLine_parityDue (s : State) (w : View) (n : Nat) : (s.loadLine w n).parityDue = s.parityDue := rfl
@[simp] theorem State.loadLine_logData (s : State) (w : View) (n : Nat) : (s.loadLine w n).logData = s.logData := rfl
@[simp] theorem State.loadLine_logCount (s : State) (w : View) (n : Nat) : (s.loadLine w n).logCount = s.logCount := rfl
@[simp] theorem State.loadLine_clockOut (s : State) (w : View) (n : Nat) : (s.loadLine w n).clockOut = s.clockOut := rfl
@[simp] theorem State.loadLine_clockIn (s : State) (w : View) (n : Nat) : (s.loadLine w n).clockIn = s.clockIn := rfl
@[simp] theorem State.loadLine_boards (s : State) (w : View) (n : Nat) : (s.loadLine w n).boards = s.boards := rfl
@[simp] theorem State.loadLine_transfer (s : State) (w : View) (n : Nat) : (s.loadLine w n).transfer = s.transfer := rfl
@[simp] theorem State.loadLine_busLog (s : State) (w : View) (n : Nat) : (s.loadLine w n).busLog = s.busLog := rfl
@[simp] theorem State.loadLine_inputs (s : State) (w : View) (n : Nat) : (s.loadLine w n).inputs = s.inputs := rfl
@[simp] theorem State.loadLine_between (s : State) (w : View) (n : Nat) : (s.loadLine w n).between = s.between := rfl
@[simp] theorem State.loadLine_draws (s : State) (w : View) (n : Nat) : (s.loadLine w n).draws = s.draws := rfl
@[simp] theorem State.loadLine_cfg (s : State) (w : View) (n : Nat) : (s.loadLine w n).cfg = s.cfg := rfl
@[simp] theorem State.reg_loadLine (s : State) (w : View) (n : Nat) (k : RegNo) : (s.loadLine w n).reg k = s.reg k := rfl
@[simp] theorem State.pair_loadLine (s : State) (w : View) (n : Nat) (k : RegNo) : (s.loadLine w n).pair k = s.pair k := rfl
@[simp] theorem State.sreg_loadLine (s : State) (w : View) (n : Nat) (k : RegNo) : (s.loadLine w n).sreg k = s.sreg k := rfl
@[simp] theorem State.trapBit_loadLine (s : State) (w : View) (n : Nat) (k : Nat) : (s.loadLine w n).trapBit k = s.trapBit k := rfl
@[simp] theorem State.mainByte_loadLine (s : State) (w : View) (n : Nat) (k : Nat) : (s.loadLine w n).mainByte k = s.mainByte k := rfl
@[simp] theorem State.inMem_loadLine (s : State) (w : View) (n : Nat) (k : Word) (l : Nat) : (s.loadLine w n).inMem k l = s.inMem k l := rfl
@[simp] theorem State.op_loadLine (s : State) (w : View) (n : Nat) (k : Opcode) : (s.loadLine w n).op k = s.op k := rfl
@[simp] theorem State.segment_loadLine (s : State) (w : View) (n : Nat) (k : Space) : (s.loadLine w n).segment k = s.segment k := rfl
@[simp] theorem State.tmtEntry_loadLine (s : State) (w : View) (n : Nat) (k : Nat) : (s.loadLine w n).tmtEntry k = s.tmtEntry k := rfl
@[simp] theorem State.noCcb_loadLine (s : State) (w : View) (n : Nat) : (s.loadLine w n).noCcb = s.noCcb := rfl
@[simp] theorem State.pcbReg_loadLine (s : State) (w : View) (n : Nat) (k : RegNo) : (s.loadLine w n).pcbReg k = s.pcbReg k := rfl

/-! `State.loadLines` -/

@[simp] theorem State.loadLines_regs (s : State) (v : List Word) : (s.loadLines v).regs = s.regs := rfl
@[simp] theorem State.loadLines_pc (s : State) (v : List Word) : (s.loadLines v).pc = s.pc := rfl
@[simp] theorem State.loadLines_mode (s : State) (v : List Word) : (s.loadLines v).mode = s.mode := rfl
@[simp] theorem State.loadLines_paused (s : State) (v : List Word) : (s.loadLines v).paused = s.paused := rfl
@[simp] theorem State.loadLines_stuck (s : State) (v : List Word) : (s.loadLines v).stuck = s.stuck := rfl
@[simp] theorem State.loadLines_sr (s : State) (v : List Word) : (s.loadLines v).sr = s.sr := rfl
@[simp] theorem State.loadLines_trapsEff (s : State) (v : List Word) : (s.loadLines v).trapsEff = s.trapsEff := rfl
@[simp] theorem State.loadLines_trapsOpen (s : State) (v : List Word) : (s.loadLines v).trapsOpen = s.trapsOpen := rfl
@[simp] theorem State.loadLines_mem (s : State) (v : List Word) : (s.loadLines v).mem = s.mem := rfl
@[simp] theorem State.loadLines_memEpoch (s : State) (v : List Word) : (s.loadLines v).memEpoch = s.memEpoch := rfl
@[simp] theorem State.loadLines_tmt (s : State) (v : List Word) : (s.loadLines v).tmt = s.tmt := rfl
@[simp] theorem State.loadLines_codeLines (s : State) (v : List Word) : (s.loadLines v).codeLines = s.codeLines := rfl
@[simp] theorem State.loadLines_prefetch (s : State) (v : List Word) : (s.loadLines v).prefetch = s.prefetch := rfl
@[simp] theorem State.loadLines_mask1 (s : State) (v : List Word) : (s.loadLines v).mask1 = s.mask1 := rfl
@[simp] theorem State.loadLines_mask2 (s : State) (v : List Word) : (s.loadLines v).mask2 = s.mask2 := rfl
@[simp] theorem State.loadLines_powerFail (s : State) (v : List Word) : (s.loadLines v).powerFail = s.powerFail := rfl
@[simp] theorem State.loadLines_powerFailDue (s : State) (v : List Word) : (s.loadLines v).powerFailDue = s.powerFailDue := rfl
@[simp] theorem State.loadLines_switch0Due (s : State) (v : List Word) : (s.loadLines v).switch0Due = s.switch0Due := rfl
@[simp] theorem State.loadLines_parityDue (s : State) (v : List Word) : (s.loadLines v).parityDue = s.parityDue := rfl
@[simp] theorem State.loadLines_logData (s : State) (v : List Word) : (s.loadLines v).logData = s.logData := rfl
@[simp] theorem State.loadLines_logCount (s : State) (v : List Word) : (s.loadLines v).logCount = s.logCount := rfl
@[simp] theorem State.loadLines_clockOut (s : State) (v : List Word) : (s.loadLines v).clockOut = s.clockOut := rfl
@[simp] theorem State.loadLines_clockIn (s : State) (v : List Word) : (s.loadLines v).clockIn = s.clockIn := rfl
@[simp] theorem State.loadLines_boards (s : State) (v : List Word) : (s.loadLines v).boards = s.boards := rfl
@[simp] theorem State.loadLines_transfer (s : State) (v : List Word) : (s.loadLines v).transfer = s.transfer := rfl
@[simp] theorem State.loadLines_busLog (s : State) (v : List Word) : (s.loadLines v).busLog = s.busLog := rfl
@[simp] theorem State.loadLines_inputs (s : State) (v : List Word) : (s.loadLines v).inputs = s.inputs := rfl
@[simp] theorem State.loadLines_between (s : State) (v : List Word) : (s.loadLines v).between = s.between := rfl
@[simp] theorem State.loadLines_draws (s : State) (v : List Word) : (s.loadLines v).draws = s.draws := rfl
@[simp] theorem State.loadLines_cfg (s : State) (v : List Word) : (s.loadLines v).cfg = s.cfg := rfl
@[simp] theorem State.reg_loadLines (s : State) (v : List Word) (k : RegNo) : (s.loadLines v).reg k = s.reg k := rfl
@[simp] theorem State.pair_loadLines (s : State) (v : List Word) (k : RegNo) : (s.loadLines v).pair k = s.pair k := rfl
@[simp] theorem State.sreg_loadLines (s : State) (v : List Word) (k : RegNo) : (s.loadLines v).sreg k = s.sreg k := rfl
@[simp] theorem State.trapBit_loadLines (s : State) (v : List Word) (k : Nat) : (s.loadLines v).trapBit k = s.trapBit k := rfl
@[simp] theorem State.mainByte_loadLines (s : State) (v : List Word) (k : Nat) : (s.loadLines v).mainByte k = s.mainByte k := rfl
@[simp] theorem State.inMem_loadLines (s : State) (v : List Word) (k : Word) (l : Nat) : (s.loadLines v).inMem k l = s.inMem k l := rfl
@[simp] theorem State.op_loadLines (s : State) (v : List Word) (k : Opcode) : (s.loadLines v).op k = s.op k := rfl
@[simp] theorem State.segment_loadLines (s : State) (v : List Word) (k : Space) : (s.loadLines v).segment k = s.segment k := rfl
@[simp] theorem State.tmtEntry_loadLines (s : State) (v : List Word) (k : Nat) : (s.loadLines v).tmtEntry k = s.tmtEntry k := rfl
@[simp] theorem State.noCcb_loadLines (s : State) (v : List Word) : (s.loadLines v).noCcb = s.noCcb := rfl
@[simp] theorem State.pcbReg_loadLines (s : State) (v : List Word) (k : RegNo) : (s.loadLines v).pcbReg k = s.pcbReg k := rfl

/-! `State.searched` -/

@[simp] theorem State.searched_regs (s : State) (h : Half) (v : Word) : (s.searched h v).regs = s.regs := rfl
@[simp] theorem State.searched_pc (s : State) (h : Half) (v : Word) : (s.searched h v).pc = s.pc := rfl
@[simp] theorem State.searched_mode (s : State) (h : Half) (v : Word) : (s.searched h v).mode = s.mode := rfl
@[simp] theorem State.searched_paused (s : State) (h : Half) (v : Word) : (s.searched h v).paused = s.paused := rfl
@[simp] theorem State.searched_stuck (s : State) (h : Half) (v : Word) : (s.searched h v).stuck = s.stuck := rfl
@[simp] theorem State.searched_sr (s : State) (h : Half) (v : Word) : (s.searched h v).sr = s.sr := rfl
@[simp] theorem State.searched_trapsEff (s : State) (h : Half) (v : Word) : (s.searched h v).trapsEff = s.trapsEff := rfl
@[simp] theorem State.searched_trapsOpen (s : State) (h : Half) (v : Word) : (s.searched h v).trapsOpen = s.trapsOpen := rfl
@[simp] theorem State.searched_mem (s : State) (h : Half) (v : Word) : (s.searched h v).mem = s.mem := rfl
@[simp] theorem State.searched_memEpoch (s : State) (h : Half) (v : Word) : (s.searched h v).memEpoch = s.memEpoch := rfl
@[simp] theorem State.searched_tmt (s : State) (h : Half) (v : Word) : (s.searched h v).tmt = s.tmt := rfl
@[simp] theorem State.searched_codeLines (s : State) (h : Half) (v : Word) : (s.searched h v).codeLines = s.codeLines := rfl
@[simp] theorem State.searched_prefetch (s : State) (h : Half) (v : Word) : (s.searched h v).prefetch = s.prefetch := rfl
@[simp] theorem State.searched_mask1 (s : State) (h : Half) (v : Word) : (s.searched h v).mask1 = s.mask1 := rfl
@[simp] theorem State.searched_mask2 (s : State) (h : Half) (v : Word) : (s.searched h v).mask2 = s.mask2 := rfl
@[simp] theorem State.searched_powerFail (s : State) (h : Half) (v : Word) : (s.searched h v).powerFail = s.powerFail := rfl
@[simp] theorem State.searched_powerFailDue (s : State) (h : Half) (v : Word) : (s.searched h v).powerFailDue = s.powerFailDue := rfl
@[simp] theorem State.searched_switch0Due (s : State) (h : Half) (v : Word) : (s.searched h v).switch0Due = s.switch0Due := rfl
@[simp] theorem State.searched_parityDue (s : State) (h : Half) (v : Word) : (s.searched h v).parityDue = s.parityDue := rfl
@[simp] theorem State.searched_logData (s : State) (h : Half) (v : Word) : (s.searched h v).logData = s.logData := rfl
@[simp] theorem State.searched_logCount (s : State) (h : Half) (v : Word) : (s.searched h v).logCount = s.logCount := rfl
@[simp] theorem State.searched_clockOut (s : State) (h : Half) (v : Word) : (s.searched h v).clockOut = s.clockOut := rfl
@[simp] theorem State.searched_clockIn (s : State) (h : Half) (v : Word) : (s.searched h v).clockIn = s.clockIn := rfl
@[simp] theorem State.searched_boards (s : State) (h : Half) (v : Word) : (s.searched h v).boards = s.boards := rfl
@[simp] theorem State.searched_transfer (s : State) (h : Half) (v : Word) : (s.searched h v).transfer = s.transfer := rfl
@[simp] theorem State.searched_busLog (s : State) (h : Half) (v : Word) : (s.searched h v).busLog = s.busLog := rfl
@[simp] theorem State.searched_inputs (s : State) (h : Half) (v : Word) : (s.searched h v).inputs = s.inputs := rfl
@[simp] theorem State.searched_between (s : State) (h : Half) (v : Word) : (s.searched h v).between = s.between := rfl
@[simp] theorem State.searched_draws (s : State) (h : Half) (v : Word) : (s.searched h v).draws = s.draws := rfl
@[simp] theorem State.searched_cfg (s : State) (h : Half) (v : Word) : (s.searched h v).cfg = s.cfg := rfl
@[simp] theorem State.reg_searched (s : State) (h : Half) (v : Word) (k : RegNo) : (s.searched h v).reg k = s.reg k := rfl
@[simp] theorem State.pair_searched (s : State) (h : Half) (v : Word) (k : RegNo) : (s.searched h v).pair k = s.pair k := rfl
@[simp] theorem State.sreg_searched (s : State) (h : Half) (v : Word) (k : RegNo) : (s.searched h v).sreg k = s.sreg k := rfl
@[simp] theorem State.trapBit_searched (s : State) (h : Half) (v : Word) (k : Nat) : (s.searched h v).trapBit k = s.trapBit k := rfl
@[simp] theorem State.mainByte_searched (s : State) (h : Half) (v : Word) (k : Nat) : (s.searched h v).mainByte k = s.mainByte k := rfl
@[simp] theorem State.inMem_searched (s : State) (h : Half) (v : Word) (k : Word) (l : Nat) : (s.searched h v).inMem k l = s.inMem k l := rfl
@[simp] theorem State.op_searched (s : State) (h : Half) (v : Word) (k : Opcode) : (s.searched h v).op k = s.op k := rfl
@[simp] theorem State.segment_searched (s : State) (h : Half) (v : Word) (k : Space) : (s.searched h v).segment k = s.segment k := rfl
@[simp] theorem State.tmtEntry_searched (s : State) (h : Half) (v : Word) (k : Nat) : (s.searched h v).tmtEntry k = s.tmtEntry k := rfl
@[simp] theorem State.noCcb_searched (s : State) (h : Half) (v : Word) : (s.searched h v).noCcb = s.noCcb := rfl
@[simp] theorem State.pcbReg_searched (s : State) (h : Half) (v : Word) (k : RegNo) : (s.searched h v).pcbReg k = s.pcbReg k := rfl

/-! `State.readAhead` -/

@[simp] theorem State.readAhead_regs (s : State) : (s.readAhead).regs = s.regs := rfl
@[simp] theorem State.readAhead_pc (s : State) : (s.readAhead).pc = s.pc := rfl
@[simp] theorem State.readAhead_mode (s : State) : (s.readAhead).mode = s.mode := rfl
@[simp] theorem State.readAhead_paused (s : State) : (s.readAhead).paused = s.paused := rfl
@[simp] theorem State.readAhead_stuck (s : State) : (s.readAhead).stuck = s.stuck := rfl
@[simp] theorem State.readAhead_sr (s : State) : (s.readAhead).sr = s.sr := rfl
@[simp] theorem State.readAhead_trapsEff (s : State) : (s.readAhead).trapsEff = s.trapsEff := rfl
@[simp] theorem State.readAhead_trapsOpen (s : State) : (s.readAhead).trapsOpen = s.trapsOpen := rfl
@[simp] theorem State.readAhead_mem (s : State) : (s.readAhead).mem = s.mem := rfl
@[simp] theorem State.readAhead_memEpoch (s : State) : (s.readAhead).memEpoch = s.memEpoch := rfl
@[simp] theorem State.readAhead_tmt (s : State) : (s.readAhead).tmt = s.tmt := rfl
@[simp] theorem State.readAhead_dataLines (s : State) : (s.readAhead).dataLines = s.dataLines := rfl
@[simp] theorem State.readAhead_mask1 (s : State) : (s.readAhead).mask1 = s.mask1 := rfl
@[simp] theorem State.readAhead_mask2 (s : State) : (s.readAhead).mask2 = s.mask2 := rfl
@[simp] theorem State.readAhead_powerFail (s : State) : (s.readAhead).powerFail = s.powerFail := rfl
@[simp] theorem State.readAhead_powerFailDue (s : State) : (s.readAhead).powerFailDue = s.powerFailDue := rfl
@[simp] theorem State.readAhead_switch0Due (s : State) : (s.readAhead).switch0Due = s.switch0Due := rfl
@[simp] theorem State.readAhead_parityDue (s : State) : (s.readAhead).parityDue = s.parityDue := rfl
@[simp] theorem State.readAhead_logData (s : State) : (s.readAhead).logData = s.logData := rfl
@[simp] theorem State.readAhead_logCount (s : State) : (s.readAhead).logCount = s.logCount := rfl
@[simp] theorem State.readAhead_clockOut (s : State) : (s.readAhead).clockOut = s.clockOut := rfl
@[simp] theorem State.readAhead_clockIn (s : State) : (s.readAhead).clockIn = s.clockIn := rfl
@[simp] theorem State.readAhead_boards (s : State) : (s.readAhead).boards = s.boards := rfl
@[simp] theorem State.readAhead_transfer (s : State) : (s.readAhead).transfer = s.transfer := rfl
@[simp] theorem State.readAhead_busLog (s : State) : (s.readAhead).busLog = s.busLog := rfl
@[simp] theorem State.readAhead_inputs (s : State) : (s.readAhead).inputs = s.inputs := rfl
@[simp] theorem State.readAhead_between (s : State) : (s.readAhead).between = s.between := rfl
@[simp] theorem State.readAhead_draws (s : State) : (s.readAhead).draws = s.draws := rfl
@[simp] theorem State.readAhead_cfg (s : State) : (s.readAhead).cfg = s.cfg := rfl
@[simp] theorem State.reg_readAhead (s : State) (k : RegNo) : (s.readAhead).reg k = s.reg k := rfl
@[simp] theorem State.pair_readAhead (s : State) (k : RegNo) : (s.readAhead).pair k = s.pair k := rfl
@[simp] theorem State.sreg_readAhead (s : State) (k : RegNo) : (s.readAhead).sreg k = s.sreg k := rfl
@[simp] theorem State.trapBit_readAhead (s : State) (k : Nat) : (s.readAhead).trapBit k = s.trapBit k := rfl
@[simp] theorem State.mainByte_readAhead (s : State) (k : Nat) : (s.readAhead).mainByte k = s.mainByte k := rfl
@[simp] theorem State.inMem_readAhead (s : State) (k : Word) (l : Nat) : (s.readAhead).inMem k l = s.inMem k l := rfl
@[simp] theorem State.op_readAhead (s : State) (k : Opcode) : (s.readAhead).op k = s.op k := rfl
@[simp] theorem State.segment_readAhead (s : State) (k : Space) : (s.readAhead).segment k = s.segment k := rfl
@[simp] theorem State.tmtEntry_readAhead (s : State) (k : Nat) : (s.readAhead).tmtEntry k = s.tmtEntry k := rfl
@[simp] theorem State.noCcb_readAhead (s : State) : (s.readAhead).noCcb = s.noCcb := rfl
@[simp] theorem State.ucodeRead_readAhead (s : State) (k : Word) : (s.readAhead).ucodeRead k = s.ucodeRead k := rfl
@[simp] theorem State.structRead_readAhead (s : State) (k l : Word) : (s.readAhead).structRead k l = s.structRead k l := rfl
@[simp] theorem State.pcbReg_readAhead (s : State) (k : RegNo) : (s.readAhead).pcbReg k = s.pcbReg k := rfl

/-! `State.halt` -/

@[simp] theorem State.halt_regs (s : State) (v : Stuck) : (s.halt v).regs = s.regs := rfl
@[simp] theorem State.halt_pc (s : State) (v : Stuck) : (s.halt v).pc = s.pc := rfl
@[simp] theorem State.halt_mode (s : State) (v : Stuck) : (s.halt v).mode = s.mode := rfl
@[simp] theorem State.halt_paused (s : State) (v : Stuck) : (s.halt v).paused = s.paused := rfl
@[simp] theorem State.halt_sr (s : State) (v : Stuck) : (s.halt v).sr = s.sr := rfl
@[simp] theorem State.halt_trapsEff (s : State) (v : Stuck) : (s.halt v).trapsEff = s.trapsEff := rfl
@[simp] theorem State.halt_trapsOpen (s : State) (v : Stuck) : (s.halt v).trapsOpen = s.trapsOpen := rfl
@[simp] theorem State.halt_mem (s : State) (v : Stuck) : (s.halt v).mem = s.mem := rfl
@[simp] theorem State.halt_memEpoch (s : State) (v : Stuck) : (s.halt v).memEpoch = s.memEpoch := rfl
@[simp] theorem State.halt_tmt (s : State) (v : Stuck) : (s.halt v).tmt = s.tmt := rfl
@[simp] theorem State.halt_codeLines (s : State) (v : Stuck) : (s.halt v).codeLines = s.codeLines := rfl
@[simp] theorem State.halt_dataLines (s : State) (v : Stuck) : (s.halt v).dataLines = s.dataLines := rfl
@[simp] theorem State.halt_prefetch (s : State) (v : Stuck) : (s.halt v).prefetch = s.prefetch := rfl
@[simp] theorem State.halt_mask1 (s : State) (v : Stuck) : (s.halt v).mask1 = s.mask1 := rfl
@[simp] theorem State.halt_mask2 (s : State) (v : Stuck) : (s.halt v).mask2 = s.mask2 := rfl
@[simp] theorem State.halt_powerFail (s : State) (v : Stuck) : (s.halt v).powerFail = s.powerFail := rfl
@[simp] theorem State.halt_powerFailDue (s : State) (v : Stuck) : (s.halt v).powerFailDue = s.powerFailDue := rfl
@[simp] theorem State.halt_switch0Due (s : State) (v : Stuck) : (s.halt v).switch0Due = s.switch0Due := rfl
@[simp] theorem State.halt_parityDue (s : State) (v : Stuck) : (s.halt v).parityDue = s.parityDue := rfl
@[simp] theorem State.halt_logData (s : State) (v : Stuck) : (s.halt v).logData = s.logData := rfl
@[simp] theorem State.halt_logCount (s : State) (v : Stuck) : (s.halt v).logCount = s.logCount := rfl
@[simp] theorem State.halt_clockOut (s : State) (v : Stuck) : (s.halt v).clockOut = s.clockOut := rfl
@[simp] theorem State.halt_clockIn (s : State) (v : Stuck) : (s.halt v).clockIn = s.clockIn := rfl
@[simp] theorem State.halt_boards (s : State) (v : Stuck) : (s.halt v).boards = s.boards := rfl
@[simp] theorem State.halt_transfer (s : State) (v : Stuck) : (s.halt v).transfer = s.transfer := rfl
@[simp] theorem State.halt_busLog (s : State) (v : Stuck) : (s.halt v).busLog = s.busLog := rfl
@[simp] theorem State.halt_inputs (s : State) (v : Stuck) : (s.halt v).inputs = s.inputs := rfl
@[simp] theorem State.halt_between (s : State) (v : Stuck) : (s.halt v).between = s.between := rfl
@[simp] theorem State.halt_draws (s : State) (v : Stuck) : (s.halt v).draws = s.draws := rfl
@[simp] theorem State.halt_cfg (s : State) (v : Stuck) : (s.halt v).cfg = s.cfg := rfl
@[simp] theorem State.reg_halt (s : State) (v : Stuck) (k : RegNo) : (s.halt v).reg k = s.reg k := rfl
@[simp] theorem State.pair_halt (s : State) (v : Stuck) (k : RegNo) : (s.halt v).pair k = s.pair k := rfl
@[simp] theorem State.sreg_halt (s : State) (v : Stuck) (k : RegNo) : (s.halt v).sreg k = s.sreg k := rfl
@[simp] theorem State.trapBit_halt (s : State) (v : Stuck) (k : Nat) : (s.halt v).trapBit k = s.trapBit k := rfl
@[simp] theorem State.mainByte_halt (s : State) (v : Stuck) (k : Nat) : (s.halt v).mainByte k = s.mainByte k := rfl
@[simp] theorem State.readByte_halt (s : State) (v : Stuck) (w : View) (k : Nat) : (s.halt v).readByte w k = s.readByte w k := rfl
@[simp] theorem State.inMem_halt (s : State) (v : Stuck) (k : Word) (l : Nat) : (s.halt v).inMem k l = s.inMem k l := rfl
@[simp] theorem State.op_halt (s : State) (v : Stuck) (k : Opcode) : (s.halt v).op k = s.op k := rfl
@[simp] theorem State.segment_halt (s : State) (v : Stuck) (k : Space) : (s.halt v).segment k = s.segment k := rfl
@[simp] theorem State.tmtEntry_halt (s : State) (v : Stuck) (k : Nat) : (s.halt v).tmtEntry k = s.tmtEntry k := rfl
@[simp] theorem State.noCcb_halt (s : State) (v : Stuck) : (s.halt v).noCcb = s.noCcb := rfl
@[simp] theorem State.ucodeRead_halt (s : State) (v : Stuck) (k : Word) : (s.halt v).ucodeRead k = s.ucodeRead k := rfl
@[simp] theorem State.structRead_halt (s : State) (v : Stuck) (k l : Word) : (s.halt v).structRead k l = s.structRead k l := rfl
@[simp] theorem State.pcbReg_halt (s : State) (v : Stuck) (k : RegNo) : (s.halt v).pcbReg k = s.pcbReg k := rfl

/-! `State.flushCache` -/

@[simp] theorem State.flushCache_regs (s : State) : (s.flushCache).regs = s.regs := rfl
@[simp] theorem State.flushCache_pc (s : State) : (s.flushCache).pc = s.pc := rfl
@[simp] theorem State.flushCache_mode (s : State) : (s.flushCache).mode = s.mode := rfl
@[simp] theorem State.flushCache_paused (s : State) : (s.flushCache).paused = s.paused := rfl
@[simp] theorem State.flushCache_stuck (s : State) : (s.flushCache).stuck = s.stuck := rfl
@[simp] theorem State.flushCache_sr (s : State) : (s.flushCache).sr = s.sr := rfl
@[simp] theorem State.flushCache_trapsEff (s : State) : (s.flushCache).trapsEff = s.trapsEff := rfl
@[simp] theorem State.flushCache_trapsOpen (s : State) : (s.flushCache).trapsOpen = s.trapsOpen := rfl
@[simp] theorem State.flushCache_mem (s : State) : (s.flushCache).mem = s.mem := rfl
@[simp] theorem State.flushCache_memEpoch (s : State) : (s.flushCache).memEpoch = s.memEpoch := rfl
@[simp] theorem State.flushCache_tmt (s : State) : (s.flushCache).tmt = s.tmt := rfl
@[simp] theorem State.flushCache_prefetch (s : State) : (s.flushCache).prefetch = s.prefetch := rfl
@[simp] theorem State.flushCache_mask1 (s : State) : (s.flushCache).mask1 = s.mask1 := rfl
@[simp] theorem State.flushCache_mask2 (s : State) : (s.flushCache).mask2 = s.mask2 := rfl
@[simp] theorem State.flushCache_powerFail (s : State) : (s.flushCache).powerFail = s.powerFail := rfl
@[simp] theorem State.flushCache_powerFailDue (s : State) : (s.flushCache).powerFailDue = s.powerFailDue := rfl
@[simp] theorem State.flushCache_switch0Due (s : State) : (s.flushCache).switch0Due = s.switch0Due := rfl
@[simp] theorem State.flushCache_parityDue (s : State) : (s.flushCache).parityDue = s.parityDue := rfl
@[simp] theorem State.flushCache_logData (s : State) : (s.flushCache).logData = s.logData := rfl
@[simp] theorem State.flushCache_logCount (s : State) : (s.flushCache).logCount = s.logCount := rfl
@[simp] theorem State.flushCache_clockOut (s : State) : (s.flushCache).clockOut = s.clockOut := rfl
@[simp] theorem State.flushCache_clockIn (s : State) : (s.flushCache).clockIn = s.clockIn := rfl
@[simp] theorem State.flushCache_boards (s : State) : (s.flushCache).boards = s.boards := rfl
@[simp] theorem State.flushCache_transfer (s : State) : (s.flushCache).transfer = s.transfer := rfl
@[simp] theorem State.flushCache_busLog (s : State) : (s.flushCache).busLog = s.busLog := rfl
@[simp] theorem State.flushCache_inputs (s : State) : (s.flushCache).inputs = s.inputs := rfl
@[simp] theorem State.flushCache_between (s : State) : (s.flushCache).between = s.between := rfl
@[simp] theorem State.flushCache_draws (s : State) : (s.flushCache).draws = s.draws := rfl
@[simp] theorem State.flushCache_cfg (s : State) : (s.flushCache).cfg = s.cfg := rfl
@[simp] theorem State.reg_flushCache (s : State) (k : RegNo) : (s.flushCache).reg k = s.reg k := rfl
@[simp] theorem State.pair_flushCache (s : State) (k : RegNo) : (s.flushCache).pair k = s.pair k := rfl
@[simp] theorem State.sreg_flushCache (s : State) (k : RegNo) : (s.flushCache).sreg k = s.sreg k := rfl
@[simp] theorem State.trapBit_flushCache (s : State) (k : Nat) : (s.flushCache).trapBit k = s.trapBit k := rfl
@[simp] theorem State.mainByte_flushCache (s : State) (k : Nat) : (s.flushCache).mainByte k = s.mainByte k := rfl
@[simp] theorem State.inMem_flushCache (s : State) (k : Word) (l : Nat) : (s.flushCache).inMem k l = s.inMem k l := rfl
@[simp] theorem State.op_flushCache (s : State) (k : Opcode) : (s.flushCache).op k = s.op k := rfl
@[simp] theorem State.segment_flushCache (s : State) (k : Space) : (s.flushCache).segment k = s.segment k := rfl
@[simp] theorem State.tmtEntry_flushCache (s : State) (k : Nat) : (s.flushCache).tmtEntry k = s.tmtEntry k := rfl
@[simp] theorem State.noCcb_flushCache (s : State) : (s.flushCache).noCcb = s.noCcb := rfl
@[simp] theorem State.pcbReg_flushCache (s : State) (k : RegNo) : (s.flushCache).pcbReg k = s.pcbReg k := rfl

/-! `State.flushTmt` -/

@[simp] theorem State.flushTmt_regs (s : State) : (s.flushTmt).regs = s.regs := rfl
@[simp] theorem State.flushTmt_pc (s : State) : (s.flushTmt).pc = s.pc := rfl
@[simp] theorem State.flushTmt_mode (s : State) : (s.flushTmt).mode = s.mode := rfl
@[simp] theorem State.flushTmt_paused (s : State) : (s.flushTmt).paused = s.paused := rfl
@[simp] theorem State.flushTmt_stuck (s : State) : (s.flushTmt).stuck = s.stuck := rfl
@[simp] theorem State.flushTmt_sr (s : State) : (s.flushTmt).sr = s.sr := rfl
@[simp] theorem State.flushTmt_trapsEff (s : State) : (s.flushTmt).trapsEff = s.trapsEff := rfl
@[simp] theorem State.flushTmt_trapsOpen (s : State) : (s.flushTmt).trapsOpen = s.trapsOpen := rfl
@[simp] theorem State.flushTmt_mem (s : State) : (s.flushTmt).mem = s.mem := rfl
@[simp] theorem State.flushTmt_memEpoch (s : State) : (s.flushTmt).memEpoch = s.memEpoch := rfl
@[simp] theorem State.flushTmt_codeLines (s : State) : (s.flushTmt).codeLines = s.codeLines := rfl
@[simp] theorem State.flushTmt_dataLines (s : State) : (s.flushTmt).dataLines = s.dataLines := rfl
@[simp] theorem State.flushTmt_prefetch (s : State) : (s.flushTmt).prefetch = s.prefetch := rfl
@[simp] theorem State.flushTmt_mask1 (s : State) : (s.flushTmt).mask1 = s.mask1 := rfl
@[simp] theorem State.flushTmt_mask2 (s : State) : (s.flushTmt).mask2 = s.mask2 := rfl
@[simp] theorem State.flushTmt_powerFail (s : State) : (s.flushTmt).powerFail = s.powerFail := rfl
@[simp] theorem State.flushTmt_powerFailDue (s : State) : (s.flushTmt).powerFailDue = s.powerFailDue := rfl
@[simp] theorem State.flushTmt_switch0Due (s : State) : (s.flushTmt).switch0Due = s.switch0Due := rfl
@[simp] theorem State.flushTmt_parityDue (s : State) : (s.flushTmt).parityDue = s.parityDue := rfl
@[simp] theorem State.flushTmt_logData (s : State) : (s.flushTmt).logData = s.logData := rfl
@[simp] theorem State.flushTmt_logCount (s : State) : (s.flushTmt).logCount = s.logCount := rfl
@[simp] theorem State.flushTmt_clockOut (s : State) : (s.flushTmt).clockOut = s.clockOut := rfl
@[simp] theorem State.flushTmt_clockIn (s : State) : (s.flushTmt).clockIn = s.clockIn := rfl
@[simp] theorem State.flushTmt_boards (s : State) : (s.flushTmt).boards = s.boards := rfl
@[simp] theorem State.flushTmt_transfer (s : State) : (s.flushTmt).transfer = s.transfer := rfl
@[simp] theorem State.flushTmt_busLog (s : State) : (s.flushTmt).busLog = s.busLog := rfl
@[simp] theorem State.flushTmt_inputs (s : State) : (s.flushTmt).inputs = s.inputs := rfl
@[simp] theorem State.flushTmt_between (s : State) : (s.flushTmt).between = s.between := rfl
@[simp] theorem State.flushTmt_draws (s : State) : (s.flushTmt).draws = s.draws := rfl
@[simp] theorem State.flushTmt_cfg (s : State) : (s.flushTmt).cfg = s.cfg := rfl
@[simp] theorem State.reg_flushTmt (s : State) (k : RegNo) : (s.flushTmt).reg k = s.reg k := rfl
@[simp] theorem State.pair_flushTmt (s : State) (k : RegNo) : (s.flushTmt).pair k = s.pair k := rfl
@[simp] theorem State.sreg_flushTmt (s : State) (k : RegNo) : (s.flushTmt).sreg k = s.sreg k := rfl
@[simp] theorem State.trapBit_flushTmt (s : State) (k : Nat) : (s.flushTmt).trapBit k = s.trapBit k := rfl
@[simp] theorem State.mainByte_flushTmt (s : State) (k : Nat) : (s.flushTmt).mainByte k = s.mainByte k := rfl
@[simp] theorem State.readByte_flushTmt (s : State) (w : View) (k : Nat) : (s.flushTmt).readByte w k = s.readByte w k := rfl
@[simp] theorem State.inMem_flushTmt (s : State) (k : Word) (l : Nat) : (s.flushTmt).inMem k l = s.inMem k l := rfl
@[simp] theorem State.op_flushTmt (s : State) (k : Opcode) : (s.flushTmt).op k = s.op k := rfl
@[simp] theorem State.segment_flushTmt (s : State) (k : Space) : (s.flushTmt).segment k = s.segment k := rfl
@[simp] theorem State.noCcb_flushTmt (s : State) : (s.flushTmt).noCcb = s.noCcb := rfl
@[simp] theorem State.ucodeRead_flushTmt (s : State) (k : Word) : (s.flushTmt).ucodeRead k = s.ucodeRead k := rfl
@[simp] theorem State.structRead_flushTmt (s : State) (k l : Word) : (s.flushTmt).structRead k l = s.structRead k l := rfl
@[simp] theorem State.pcbReg_flushTmt (s : State) (k : RegNo) : (s.flushTmt).pcbReg k = s.pcbReg k := rfl

/-! `State.setTmt` -/

@[simp] theorem State.setTmt_regs (s : State) (n : Nat) (v : Word) : (s.setTmt n v).regs = s.regs := rfl
@[simp] theorem State.setTmt_pc (s : State) (n : Nat) (v : Word) : (s.setTmt n v).pc = s.pc := rfl
@[simp] theorem State.setTmt_mode (s : State) (n : Nat) (v : Word) : (s.setTmt n v).mode = s.mode := rfl
@[simp] theorem State.setTmt_paused (s : State) (n : Nat) (v : Word) : (s.setTmt n v).paused = s.paused := rfl
@[simp] theorem State.setTmt_stuck (s : State) (n : Nat) (v : Word) : (s.setTmt n v).stuck = s.stuck := rfl
@[simp] theorem State.setTmt_sr (s : State) (n : Nat) (v : Word) : (s.setTmt n v).sr = s.sr := rfl
@[simp] theorem State.setTmt_trapsEff (s : State) (n : Nat) (v : Word) : (s.setTmt n v).trapsEff = s.trapsEff := rfl
@[simp] theorem State.setTmt_trapsOpen (s : State) (n : Nat) (v : Word) : (s.setTmt n v).trapsOpen = s.trapsOpen := rfl
@[simp] theorem State.setTmt_mem (s : State) (n : Nat) (v : Word) : (s.setTmt n v).mem = s.mem := rfl
@[simp] theorem State.setTmt_memEpoch (s : State) (n : Nat) (v : Word) : (s.setTmt n v).memEpoch = s.memEpoch := rfl
@[simp] theorem State.setTmt_codeLines (s : State) (n : Nat) (v : Word) : (s.setTmt n v).codeLines = s.codeLines := rfl
@[simp] theorem State.setTmt_dataLines (s : State) (n : Nat) (v : Word) : (s.setTmt n v).dataLines = s.dataLines := rfl
@[simp] theorem State.setTmt_prefetch (s : State) (n : Nat) (v : Word) : (s.setTmt n v).prefetch = s.prefetch := rfl
@[simp] theorem State.setTmt_mask1 (s : State) (n : Nat) (v : Word) : (s.setTmt n v).mask1 = s.mask1 := rfl
@[simp] theorem State.setTmt_mask2 (s : State) (n : Nat) (v : Word) : (s.setTmt n v).mask2 = s.mask2 := rfl
@[simp] theorem State.setTmt_powerFail (s : State) (n : Nat) (v : Word) : (s.setTmt n v).powerFail = s.powerFail := rfl
@[simp] theorem State.setTmt_powerFailDue (s : State) (n : Nat) (v : Word) : (s.setTmt n v).powerFailDue = s.powerFailDue := rfl
@[simp] theorem State.setTmt_switch0Due (s : State) (n : Nat) (v : Word) : (s.setTmt n v).switch0Due = s.switch0Due := rfl
@[simp] theorem State.setTmt_parityDue (s : State) (n : Nat) (v : Word) : (s.setTmt n v).parityDue = s.parityDue := rfl
@[simp] theorem State.setTmt_logData (s : State) (n : Nat) (v : Word) : (s.setTmt n v).logData = s.logData := rfl
@[simp] theorem State.setTmt_logCount (s : State) (n : Nat) (v : Word) : (s.setTmt n v).logCount = s.logCount := rfl
@[simp] theorem State.setTmt_clockOut (s : State) (n : Nat) (v : Word) : (s.setTmt n v).clockOut = s.clockOut := rfl
@[simp] theorem State.setTmt_clockIn (s : State) (n : Nat) (v : Word) : (s.setTmt n v).clockIn = s.clockIn := rfl
@[simp] theorem State.setTmt_boards (s : State) (n : Nat) (v : Word) : (s.setTmt n v).boards = s.boards := rfl
@[simp] theorem State.setTmt_transfer (s : State) (n : Nat) (v : Word) : (s.setTmt n v).transfer = s.transfer := rfl
@[simp] theorem State.setTmt_busLog (s : State) (n : Nat) (v : Word) : (s.setTmt n v).busLog = s.busLog := rfl
@[simp] theorem State.setTmt_inputs (s : State) (n : Nat) (v : Word) : (s.setTmt n v).inputs = s.inputs := rfl
@[simp] theorem State.setTmt_between (s : State) (n : Nat) (v : Word) : (s.setTmt n v).between = s.between := rfl
@[simp] theorem State.setTmt_draws (s : State) (n : Nat) (v : Word) : (s.setTmt n v).draws = s.draws := rfl
@[simp] theorem State.setTmt_cfg (s : State) (n : Nat) (v : Word) : (s.setTmt n v).cfg = s.cfg := rfl
@[simp] theorem State.reg_setTmt (s : State) (n : Nat) (v : Word) (k : RegNo) : (s.setTmt n v).reg k = s.reg k := rfl
@[simp] theorem State.pair_setTmt (s : State) (n : Nat) (v : Word) (k : RegNo) : (s.setTmt n v).pair k = s.pair k := rfl
@[simp] theorem State.sreg_setTmt (s : State) (n : Nat) (v : Word) (k : RegNo) : (s.setTmt n v).sreg k = s.sreg k := rfl
@[simp] theorem State.trapBit_setTmt (s : State) (n : Nat) (v : Word) (k : Nat) : (s.setTmt n v).trapBit k = s.trapBit k := rfl
@[simp] theorem State.mainByte_setTmt (s : State) (n : Nat) (v : Word) (k : Nat) : (s.setTmt n v).mainByte k = s.mainByte k := rfl
@[simp] theorem State.readByte_setTmt (s : State) (n : Nat) (v : Word) (w : View) (k : Nat) : (s.setTmt n v).readByte w k = s.readByte w k := rfl
@[simp] theorem State.inMem_setTmt (s : State) (n : Nat) (v : Word) (k : Word) (l : Nat) : (s.setTmt n v).inMem k l = s.inMem k l := rfl
@[simp] theorem State.op_setTmt (s : State) (n : Nat) (v : Word) (k : Opcode) : (s.setTmt n v).op k = s.op k := rfl
@[simp] theorem State.segment_setTmt (s : State) (n : Nat) (v : Word) (k : Space) : (s.setTmt n v).segment k = s.segment k := rfl
@[simp] theorem State.noCcb_setTmt (s : State) (n : Nat) (v : Word) : (s.setTmt n v).noCcb = s.noCcb := rfl
@[simp] theorem State.ucodeRead_setTmt (s : State) (n : Nat) (v : Word) (k : Word) : (s.setTmt n v).ucodeRead k = s.ucodeRead k := rfl
@[simp] theorem State.structRead_setTmt (s : State) (n : Nat) (v : Word) (k l : Word) : (s.setTmt n v).structRead k l = s.structRead k l := rfl
@[simp] theorem State.pcbReg_setTmt (s : State) (n : Nat) (v : Word) (k : RegNo) : (s.setTmt n v).pcbReg k = s.pcbReg k := rfl

/-! `State.logBus` -/

@[simp] theorem State.logBus_regs (s : State) (v : BusOp) : (s.logBus v).regs = s.regs := rfl
@[simp] theorem State.logBus_pc (s : State) (v : BusOp) : (s.logBus v).pc = s.pc := rfl
@[simp] theorem State.logBus_mode (s : State) (v : BusOp) : (s.logBus v).mode = s.mode := rfl
@[simp] theorem State.logBus_paused (s : State) (v : BusOp) : (s.logBus v).paused = s.paused := rfl
@[simp] theorem State.logBus_stuck (s : State) (v : BusOp) : (s.logBus v).stuck = s.stuck := rfl
@[simp] theorem State.logBus_sr (s : State) (v : BusOp) : (s.logBus v).sr = s.sr := rfl
@[simp] theorem State.logBus_trapsEff (s : State) (v : BusOp) : (s.logBus v).trapsEff = s.trapsEff := rfl
@[simp] theorem State.logBus_trapsOpen (s : State) (v : BusOp) : (s.logBus v).trapsOpen = s.trapsOpen := rfl
@[simp] theorem State.logBus_mem (s : State) (v : BusOp) : (s.logBus v).mem = s.mem := rfl
@[simp] theorem State.logBus_memEpoch (s : State) (v : BusOp) : (s.logBus v).memEpoch = s.memEpoch := rfl
@[simp] theorem State.logBus_tmt (s : State) (v : BusOp) : (s.logBus v).tmt = s.tmt := rfl
@[simp] theorem State.logBus_codeLines (s : State) (v : BusOp) : (s.logBus v).codeLines = s.codeLines := rfl
@[simp] theorem State.logBus_dataLines (s : State) (v : BusOp) : (s.logBus v).dataLines = s.dataLines := rfl
@[simp] theorem State.logBus_prefetch (s : State) (v : BusOp) : (s.logBus v).prefetch = s.prefetch := rfl
@[simp] theorem State.logBus_mask1 (s : State) (v : BusOp) : (s.logBus v).mask1 = s.mask1 := rfl
@[simp] theorem State.logBus_mask2 (s : State) (v : BusOp) : (s.logBus v).mask2 = s.mask2 := rfl
@[simp] theorem State.logBus_powerFail (s : State) (v : BusOp) : (s.logBus v).powerFail = s.powerFail := rfl
@[simp] theorem State.logBus_powerFailDue (s : State) (v : BusOp) : (s.logBus v).powerFailDue = s.powerFailDue := rfl
@[simp] theorem State.logBus_switch0Due (s : State) (v : BusOp) : (s.logBus v).switch0Due = s.switch0Due := rfl
@[simp] theorem State.logBus_parityDue (s : State) (v : BusOp) : (s.logBus v).parityDue = s.parityDue := rfl
@[simp] theorem State.logBus_logData (s : State) (v : BusOp) : (s.logBus v).logData = s.logData := rfl
@[simp] theorem State.logBus_logCount (s : State) (v : BusOp) : (s.logBus v).logCount = s.logCount := rfl
@[simp] theorem State.logBus_clockOut (s : State) (v : BusOp) : (s.logBus v).clockOut = s.clockOut := rfl
@[simp] theorem State.logBus_clockIn (s : State) (v : BusOp) : (s.logBus v).clockIn = s.clockIn := rfl
@[simp] theorem State.logBus_boards (s : State) (v : BusOp) : (s.logBus v).boards = s.boards := rfl
@[simp] theorem State.logBus_transfer (s : State) (v : BusOp) : (s.logBus v).transfer = s.transfer := rfl
@[simp] theorem State.logBus_inputs (s : State) (v : BusOp) : (s.logBus v).inputs = s.inputs := rfl
@[simp] theorem State.logBus_between (s : State) (v : BusOp) : (s.logBus v).between = s.between := rfl
@[simp] theorem State.logBus_draws (s : State) (v : BusOp) : (s.logBus v).draws = s.draws := rfl
@[simp] theorem State.logBus_cfg (s : State) (v : BusOp) : (s.logBus v).cfg = s.cfg := rfl
@[simp] theorem State.reg_logBus (s : State) (v : BusOp) (k : RegNo) : (s.logBus v).reg k = s.reg k := rfl
@[simp] theorem State.pair_logBus (s : State) (v : BusOp) (k : RegNo) : (s.logBus v).pair k = s.pair k := rfl
@[simp] theorem State.sreg_logBus (s : State) (v : BusOp) (k : RegNo) : (s.logBus v).sreg k = s.sreg k := rfl
@[simp] theorem State.trapBit_logBus (s : State) (v : BusOp) (k : Nat) : (s.logBus v).trapBit k = s.trapBit k := rfl
@[simp] theorem State.mainByte_logBus (s : State) (v : BusOp) (k : Nat) : (s.logBus v).mainByte k = s.mainByte k := rfl
@[simp] theorem State.readByte_logBus (s : State) (v : BusOp) (w : View) (k : Nat) : (s.logBus v).readByte w k = s.readByte w k := rfl
@[simp] theorem State.inMem_logBus (s : State) (v : BusOp) (k : Word) (l : Nat) : (s.logBus v).inMem k l = s.inMem k l := rfl
@[simp] theorem State.op_logBus (s : State) (v : BusOp) (k : Opcode) : (s.logBus v).op k = s.op k := rfl
@[simp] theorem State.segment_logBus (s : State) (v : BusOp) (k : Space) : (s.logBus v).segment k = s.segment k := rfl
@[simp] theorem State.tmtEntry_logBus (s : State) (v : BusOp) (k : Nat) : (s.logBus v).tmtEntry k = s.tmtEntry k := rfl
@[simp] theorem State.noCcb_logBus (s : State) (v : BusOp) : (s.logBus v).noCcb = s.noCcb := rfl
@[simp] theorem State.ucodeRead_logBus (s : State) (v : BusOp) (k : Word) : (s.logBus v).ucodeRead k = s.ucodeRead k := rfl
@[simp] theorem State.structRead_logBus (s : State) (v : BusOp) (k l : Word) : (s.logBus v).structRead k l = s.structRead k l := rfl
@[simp] theorem State.pcbReg_logBus (s : State) (v : BusOp) (k : RegNo) : (s.logBus v).pcbReg k = s.pcbReg k := rfl

/-! `State.ackIoi` -/

@[simp] theorem State.ackIoi_regs (s : State) (v : Board) : (s.ackIoi v).regs = s.regs := rfl
@[simp] theorem State.ackIoi_pc (s : State) (v : Board) : (s.ackIoi v).pc = s.pc := rfl
@[simp] theorem State.ackIoi_mode (s : State) (v : Board) : (s.ackIoi v).mode = s.mode := rfl
@[simp] theorem State.ackIoi_paused (s : State) (v : Board) : (s.ackIoi v).paused = s.paused := rfl
@[simp] theorem State.ackIoi_stuck (s : State) (v : Board) : (s.ackIoi v).stuck = s.stuck := rfl
@[simp] theorem State.ackIoi_sr (s : State) (v : Board) : (s.ackIoi v).sr = s.sr := rfl
@[simp] theorem State.ackIoi_trapsEff (s : State) (v : Board) : (s.ackIoi v).trapsEff = s.trapsEff := rfl
@[simp] theorem State.ackIoi_trapsOpen (s : State) (v : Board) : (s.ackIoi v).trapsOpen = s.trapsOpen := rfl
@[simp] theorem State.ackIoi_mem (s : State) (v : Board) : (s.ackIoi v).mem = s.mem := rfl
@[simp] theorem State.ackIoi_memEpoch (s : State) (v : Board) : (s.ackIoi v).memEpoch = s.memEpoch := rfl
@[simp] theorem State.ackIoi_tmt (s : State) (v : Board) : (s.ackIoi v).tmt = s.tmt := rfl
@[simp] theorem State.ackIoi_codeLines (s : State) (v : Board) : (s.ackIoi v).codeLines = s.codeLines := rfl
@[simp] theorem State.ackIoi_dataLines (s : State) (v : Board) : (s.ackIoi v).dataLines = s.dataLines := rfl
@[simp] theorem State.ackIoi_prefetch (s : State) (v : Board) : (s.ackIoi v).prefetch = s.prefetch := rfl
@[simp] theorem State.ackIoi_mask1 (s : State) (v : Board) : (s.ackIoi v).mask1 = s.mask1 := rfl
@[simp] theorem State.ackIoi_mask2 (s : State) (v : Board) : (s.ackIoi v).mask2 = s.mask2 := rfl
@[simp] theorem State.ackIoi_powerFail (s : State) (v : Board) : (s.ackIoi v).powerFail = s.powerFail := rfl
@[simp] theorem State.ackIoi_powerFailDue (s : State) (v : Board) : (s.ackIoi v).powerFailDue = s.powerFailDue := rfl
@[simp] theorem State.ackIoi_switch0Due (s : State) (v : Board) : (s.ackIoi v).switch0Due = s.switch0Due := rfl
@[simp] theorem State.ackIoi_parityDue (s : State) (v : Board) : (s.ackIoi v).parityDue = s.parityDue := rfl
@[simp] theorem State.ackIoi_logData (s : State) (v : Board) : (s.ackIoi v).logData = s.logData := rfl
@[simp] theorem State.ackIoi_logCount (s : State) (v : Board) : (s.ackIoi v).logCount = s.logCount := rfl
@[simp] theorem State.ackIoi_clockOut (s : State) (v : Board) : (s.ackIoi v).clockOut = s.clockOut := rfl
@[simp] theorem State.ackIoi_clockIn (s : State) (v : Board) : (s.ackIoi v).clockIn = s.clockIn := rfl
@[simp] theorem State.ackIoi_transfer (s : State) (v : Board) : (s.ackIoi v).transfer = s.transfer := rfl
@[simp] theorem State.ackIoi_inputs (s : State) (v : Board) : (s.ackIoi v).inputs = s.inputs := rfl
@[simp] theorem State.ackIoi_between (s : State) (v : Board) : (s.ackIoi v).between = s.between := rfl
@[simp] theorem State.ackIoi_draws (s : State) (v : Board) : (s.ackIoi v).draws = s.draws := rfl
@[simp] theorem State.ackIoi_cfg (s : State) (v : Board) : (s.ackIoi v).cfg = s.cfg := rfl
@[simp] theorem State.reg_ackIoi (s : State) (v : Board) (k : RegNo) : (s.ackIoi v).reg k = s.reg k := rfl
@[simp] theorem State.pair_ackIoi (s : State) (v : Board) (k : RegNo) : (s.ackIoi v).pair k = s.pair k := rfl
@[simp] theorem State.sreg_ackIoi (s : State) (v : Board) (k : RegNo) : (s.ackIoi v).sreg k = s.sreg k := rfl
@[simp] theorem State.trapBit_ackIoi (s : State) (v : Board) (k : Nat) : (s.ackIoi v).trapBit k = s.trapBit k := rfl
@[simp] theorem State.mainByte_ackIoi (s : State) (v : Board) (k : Nat) : (s.ackIoi v).mainByte k = s.mainByte k := rfl
@[simp] theorem State.readByte_ackIoi (s : State) (v : Board) (w : View) (k : Nat) : (s.ackIoi v).readByte w k = s.readByte w k := rfl
@[simp] theorem State.inMem_ackIoi (s : State) (v : Board) (k : Word) (l : Nat) : (s.ackIoi v).inMem k l = s.inMem k l := rfl
@[simp] theorem State.op_ackIoi (s : State) (v : Board) (k : Opcode) : (s.ackIoi v).op k = s.op k := rfl
@[simp] theorem State.segment_ackIoi (s : State) (v : Board) (k : Space) : (s.ackIoi v).segment k = s.segment k := rfl
@[simp] theorem State.tmtEntry_ackIoi (s : State) (v : Board) (k : Nat) : (s.ackIoi v).tmtEntry k = s.tmtEntry k := rfl
@[simp] theorem State.noCcb_ackIoi (s : State) (v : Board) : (s.ackIoi v).noCcb = s.noCcb := rfl
@[simp] theorem State.ucodeRead_ackIoi (s : State) (v : Board) (k : Word) : (s.ackIoi v).ucodeRead k = s.ucodeRead k := rfl
@[simp] theorem State.structRead_ackIoi (s : State) (v : Board) (k l : Word) : (s.ackIoi v).structRead k l = s.structRead k l := rfl
@[simp] theorem State.pcbReg_ackIoi (s : State) (v : Board) (k : RegNo) : (s.ackIoi v).pcbReg k = s.pcbReg k := rfl

/-! `State.writeLog` -/

@[simp] theorem State.writeLog_regs (s : State) (v : Word) : (s.writeLog v).regs = s.regs := by
 simp only [State.writeLog]
@[simp] theorem State.writeLog_pc (s : State) (v : Word) : (s.writeLog v).pc = s.pc := by
 simp only [State.writeLog]
@[simp] theorem State.writeLog_mode (s : State) (v : Word) : (s.writeLog v).mode = s.mode := by
 simp only [State.writeLog]
@[simp] theorem State.writeLog_paused (s : State) (v : Word) : (s.writeLog v).paused = s.paused := by
 simp only [State.writeLog]
@[simp] theorem State.writeLog_stuck (s : State) (v : Word) : (s.writeLog v).stuck = s.stuck := by
 simp only [State.writeLog]
@[simp] theorem State.writeLog_sr (s : State) (v : Word) : (s.writeLog v).sr = s.sr := by
 simp only [State.writeLog]
@[simp] theorem State.writeLog_trapsEff (s : State) (v : Word) : (s.writeLog v).trapsEff = s.trapsEff := by
 simp only [State.writeLog]
@[simp] theorem State.writeLog_trapsOpen (s : State) (v : Word) : (s.writeLog v).trapsOpen = s.trapsOpen := by
 simp only [State.writeLog]
@[simp] theorem State.writeLog_mem (s : State) (v : Word) : (s.writeLog v).mem = s.mem := by
 simp only [State.writeLog]
@[simp] theorem State.writeLog_memEpoch (s : State) (v : Word) : (s.writeLog v).memEpoch = s.memEpoch := by
 simp only [State.writeLog]
@[simp] theorem State.writeLog_tmt (s : State) (v : Word) : (s.writeLog v).tmt = s.tmt := by
 simp only [State.writeLog]
@[simp] theorem State.writeLog_codeLines (s : State) (v : Word) : (s.writeLog v).codeLines = s.codeLines := by
 simp only [State.writeLog]
@[simp] theorem State.writeLog_dataLines (s : State) (v : Word) : (s.writeLog v).dataLines = s.dataLines := by
 simp only [State.writeLog]
@[simp] theorem State.writeLog_prefetch (s : State) (v : Word) : (s.writeLog v).prefetch = s.prefetch := by
 simp only [State.writeLog]
@[simp] theorem State.writeLog_mask1 (s : State) (v : Word) : (s.writeLog v).mask1 = s.mask1 := by
 simp only [State.writeLog]
@[simp] theorem State.writeLog_mask2 (s : State) (v : Word) : (s.writeLog v).mask2 = s.mask2 := by
 simp only [State.writeLog]
@[simp] theorem State.writeLog_powerFail (s : State) (v : Word) : (s.writeLog v).powerFail = s.powerFail := by
 simp only [State.writeLog]
@[simp] theorem State.writeLog_powerFailDue (s : State) (v : Word) : (s.writeLog v).powerFailDue = s.powerFailDue := by
 simp only [State.writeLog]
@[simp] theorem State.writeLog_switch0Due (s : State) (v : Word) : (s.writeLog v).switch0Due = s.switch0Due := by
 simp only [State.writeLog]
@[simp] theorem State.writeLog_parityDue (s : State) (v : Word) : (s.writeLog v).parityDue = s.parityDue := by
 simp only [State.writeLog]
@[simp] theorem State.writeLog_clockOut (s : State) (v : Word) : (s.writeLog v).clockOut = s.clockOut := by
 simp only [State.writeLog]
@[simp] theorem State.writeLog_clockIn (s : State) (v : Word) : (s.writeLog v).clockIn = s.clockIn := by
 simp only [State.writeLog]
@[simp] theorem State.writeLog_boards (s : State) (v : Word) : (s.writeLog v).boards = s.boards := by
 simp only [State.writeLog]
@[simp] theorem State.writeLog_transfer (s : State) (v : Word) : (s.writeLog v).transfer = s.transfer := by
 simp only [State.writeLog]
@[simp] theorem State.writeLog_busLog (s : State) (v : Word) : (s.writeLog v).busLog = s.busLog := by
 simp only [State.writeLog]
@[simp] theorem State.writeLog_inputs (s : State) (v : Word) : (s.writeLog v).inputs = s.inputs := by
 simp only [State.writeLog]
@[simp] theorem State.writeLog_between (s : State) (v : Word) : (s.writeLog v).between = s.between := by
 simp only [State.writeLog]
@[simp] theorem State.writeLog_draws (s : State) (v : Word) : (s.writeLog v).draws = s.draws := by
 simp only [State.writeLog]
@[simp] theorem State.writeLog_cfg (s : State) (v : Word) : (s.writeLog v).cfg = s.cfg := by
 simp only [State.writeLog]
@[simp] theorem State.reg_writeLog (s : State) (v : Word) (k : RegNo) : (s.writeLog v).reg k = s.reg k := by
 unfold State.reg
 simp only [State.writeLog_regs]
@[simp] theorem State.pair_writeLog (s : State) (v : Word) (k : RegNo) : (s.writeLog v).pair k = s.pair k := by
 unfold State.pair
 simp only [State.reg_writeLog]
@[simp] theorem State.sreg_writeLog (s : State) (v : Word) (k : RegNo) : (s.writeLog v).sreg k = s.sreg k := by
 unfold State.sreg
 simp only [State.writeLog_sr]
@[simp] theorem State.trapBit_writeLog (s : State) (v : Word) (k : Nat) : (s.writeLog v).trapBit k = s.trapBit k := by
 unfold State.trapBit
 simp only [State.writeLog_trapsEff, State.writeLog_trapsOpen, State.writeLog_draws]
@[simp] theorem State.mainByte_writeLog (s : State) (v : Word) (k : Nat) : (s.writeLog v).mainByte k = s.mainByte k := by
 unfold State.mainByte
 simp only [State.writeLog_mem, State.writeLog_memEpoch]
@[simp] theorem State.readByte_writeLog (s : State) (v : Word) (w : View) (k : Nat) : (s.writeLog v).readByte w k = s.readByte w k := by
 cases w <;> simp only [State.readByte, State.throughLines, State.mainByte_writeLog, State.writeLog_codeLines, State.writeLog_dataLines, State.writeLog_prefetch]
@[simp] theorem State.inMem_writeLog (s : State) (v : Word) (k : Word) (l : Nat) : (s.writeLog v).inMem k l = s.inMem k l := by
 unfold State.inMem
 simp only [State.writeLog_cfg]
@[simp] theorem State.op_writeLog (s : State) (v : Word) (k : Opcode) : (s.writeLog v).op k = s.op k := by
 unfold State.op
 simp only [State.writeLog_cfg]
@[simp] theorem State.segment_writeLog (s : State) (v : Word) (k : Space) : (s.writeLog v).segment k = s.segment k := by
 cases k <;> simp only [State.segment, State.sreg_writeLog]
@[simp] theorem State.tmtEntry_writeLog (s : State) (v : Word) (k : Nat) : (s.writeLog v).tmtEntry k = s.tmtEntry k := by
 unfold State.tmtEntry
 simp only [State.writeLog_tmt]
@[simp] theorem State.noCcb_writeLog (s : State) (v : Word) : (s.writeLog v).noCcb = s.noCcb := by
 unfold State.noCcb
 simp only [State.sreg_writeLog]
@[simp] theorem State.ucodeRead_writeLog (s : State) (v : Word) (k : Word) : (s.writeLog v).ucodeRead k = s.ucodeRead k := by
 simp only [State.ucodeRead, State.readWord, State.inMem_writeLog, State.readByte_writeLog]
@[simp] theorem State.structRead_writeLog (s : State) (v : Word) (k l : Word) : (s.writeLog v).structRead k l = s.structRead k l := by
 simp only [State.structRead, State.structAddr, State.ucodeRead_writeLog, State.writeLog_cfg]
@[simp] theorem State.pcbReg_writeLog (s : State) (v : Word) (k : RegNo) : (s.writeLog v).pcbReg k = s.pcbReg k := by
 unfold State.pcbReg
 simp only [State.writeLog_cfg]

/-! `State.clockTransfer` -/

@[simp] theorem State.clockTransfer_pc (s : State) (n : RegNo) : (s.clockTransfer n).pc = s.pc := rfl
@[simp] theorem State.clockTransfer_mode (s : State) (n : RegNo) : (s.clockTransfer n).mode = s.mode := rfl
@[simp] theorem State.clockTransfer_paused (s : State) (n : RegNo) : (s.clockTransfer n).paused = s.paused := rfl
@[simp] theorem State.clockTransfer_stuck (s : State) (n : RegNo) : (s.clockTransfer n).stuck = s.stuck := rfl
@[simp] theorem State.clockTransfer_sr (s : State) (n : RegNo) : (s.clockTransfer n).sr = s.sr := rfl
@[simp] theorem State.clockTransfer_trapsEff (s : State) (n : RegNo) : (s.clockTransfer n).trapsEff = s.trapsEff := rfl
@[simp] theorem State.clockTransfer_trapsOpen (s : State) (n : RegNo) : (s.clockTransfer n).trapsOpen = s.trapsOpen := rfl
@[simp] theorem State.clockTransfer_mem (s : State) (n : RegNo) : (s.clockTransfer n).mem = s.mem := rfl
@[simp] theorem State.clockTransfer_memEpoch (s : State) (n : RegNo) : (s.clockTransfer n).memEpoch = s.memEpoch := rfl
@[simp] theorem State.clockTransfer_tmt (s : State) (n : RegNo) : (s.clockTransfer n).tmt = s.tmt := rfl
@[simp] theorem State.clockTransfer_codeLines (s : State) (n : RegNo) : (s.clockTransfer n).codeLines = s.codeLines := rfl
@[simp] theorem State.clockTransfer_dataLines (s : State) (n : RegNo) : (s.clockTransfer n).dataLines = s.dataLines := rfl
@[simp] theorem State.clockTransfer_prefetch (s : State) (n : RegNo) : (s.clockTransfer n).prefetch = s.prefetch := rfl
@[simp] theorem State.clockTransfer_mask1 (s : State) (n : RegNo) : (s.clockTransfer n).mask1 = s.mask1 := rfl
@[simp] theorem State.clockTransfer_mask2 (s : State) (n : RegNo) : (s.clockTransfer n).mask2 = s.mask2 := rfl
@[simp] theorem State.clockTransfer_powerFail (s : State) (n : RegNo) : (s.clockTransfer n).powerFail = s.powerFail := rfl
@[simp] theorem State.clockTransfer_powerFailDue (s : State) (n : RegNo) : (s.clockTransfer n).powerFailDue = s.powerFailDue := rfl
@[simp] theorem State.clockTransfer_switch0Due (s : State) (n : RegNo) : (s.clockTransfer n).switch0Due = s.switch0Due := rfl
@[simp] theorem State.clockTransfer_parityDue (s : State) (n : RegNo) : (s.clockTransfer n).parityDue = s.parityDue := rfl
@[simp] theorem State.clockTransfer_logData (s : State) (n : RegNo) : (s.clockTransfer n).logData = s.logData := rfl
@[simp] theorem State.clockTransfer_logCount (s : State) (n : RegNo) : (s.clockTransfer n).logCount = s.logCount := rfl
@[simp] theorem State.clockTransfer_clockIn (s : State) (n : RegNo) : (s.clockTransfer n).clockIn = s.clockIn := rfl
@[simp] theorem State.clockTransfer_boards (s : State) (n : RegNo) : (s.clockTransfer n).boards = s.boards := rfl
@[simp] theorem State.clockTransfer_transfer (s : State) (n : RegNo) : (s.clockTransfer n).transfer = s.transfer := rfl
@[simp] theorem State.clockTransfer_busLog (s : State) (n : RegNo) : (s.clockTransfer n).busLog = s.busLog := rfl
@[simp] theorem State.clockTransfer_inputs (s : State) (n : RegNo) : (s.clockTransfer n).inputs = s.inputs := rfl
@[simp] theorem State.clockTransfer_between (s : State) (n : RegNo) : (s.clockTransfer n).between = s.between := rfl
@[simp] theorem State.clockTransfer_draws (s : State) (n : RegNo) : (s.clockTransfer n).draws = s.draws := rfl
@[simp] theorem State.clockTransfer_cfg (s : State) (n : RegNo) : (s.clockTransfer n).cfg = s.cfg := rfl
@[simp] theorem State.sreg_clockTransfer (s : State) (n : RegNo) (k : RegNo) : (s.clockTransfer n).sreg k = s.sreg k := rfl
@[simp] theorem State.trapBit_clockTransfer (s : State) (n : RegNo) (k : Nat) : (s.clockTransfer n).trapBit k = s.trapBit k := rfl
@[simp] theorem State.mainByte_clockTransfer (s : State) (n : RegNo) (k : Nat) : (s.clockTransfer n).mainByte k = s.mainByte k := rfl
@[simp] theorem State.readByte_clockTransfer (s : State) (n : RegNo) (w : View) (k : Nat) : (s.clockTransfer n).readByte w k = s.readByte w k := rfl
@[simp] theorem State.inMem_clockTransfer (s : State) (n : RegNo) (k : Word) (l : Nat) : (s.clockTransfer n).inMem k l = s.inMem k l := rfl
@[simp] theorem State.op_clockTransfer (s : State) (n : RegNo) (k : Opcode) : (s.clockTransfer n).op k = s.op k := rfl
@[simp] theorem State.segment_clockTransfer (s : State) (n : RegNo) (k : Space) : (s.clockTransfer n).segment k = s.segment k := rfl
@[simp] theorem State.tmtEntry_clockTransfer (s : State) (n : RegNo) (k : Nat) : (s.clockTransfer n).tmtEntry k = s.tmtEntry k := rfl
@[simp] theorem State.noCcb_clockTransfer (s : State) (n : RegNo) : (s.clockTransfer n).noCcb = s.noCcb := rfl
@[simp] theorem State.ucodeRead_clockTransfer (s : State) (n : RegNo) (k : Word) : (s.clockTransfer n).ucodeRead k = s.ucodeRead k := rfl
@[simp] theorem State.structRead_clockTransfer (s : State) (n : RegNo) (k l : Word) : (s.clockTransfer n).structRead k l = s.structRead k l := rfl
@[simp] theorem State.pcbReg_clockTransfer (s : State) (n : RegNo) (k : RegNo) : (s.clockTransfer n).pcbReg k = s.pcbReg k := rfl

/-! `State.loadTraps` -/

@[simp] theorem State.loadTraps_regs (s : State) (v : Word) : (s.loadTraps v).regs = s.regs := rfl
@[simp] theorem State.loadTraps_pc (s : State) (v : Word) : (s.loadTraps v).pc = s.pc := rfl
@[simp] theorem State.loadTraps_mode (s : State) (v : Word) : (s.loadTraps v).mode = s.mode := rfl
@[simp] theorem State.loadTraps_paused (s : State) (v : Word) : (s.loadTraps v).paused = s.paused := rfl
@[simp] theorem State.loadTraps_stuck (s : State) (v : Word) : (s.loadTraps v).stuck = s.stuck := rfl
@[simp] theorem State.loadTraps_mem (s : State) (v : Word) : (s.loadTraps v).mem = s.mem := rfl
@[simp] theorem State.loadTraps_memEpoch (s : State) (v : Word) : (s.loadTraps v).memEpoch = s.memEpoch := rfl
@[simp] theorem State.loadTraps_tmt (s : State) (v : Word) : (s.loadTraps v).tmt = s.tmt := rfl
@[simp] theorem State.loadTraps_codeLines (s : State) (v : Word) : (s.loadTraps v).codeLines = s.codeLines := rfl
@[simp] theorem State.loadTraps_dataLines (s : State) (v : Word) : (s.loadTraps v).dataLines = s.dataLines := rfl
@[simp] theorem State.loadTraps_prefetch (s : State) (v : Word) : (s.loadTraps v).prefetch = s.prefetch := rfl
@[simp] theorem State.loadTraps_mask1 (s : State) (v : Word) : (s.loadTraps v).mask1 = s.mask1 := rfl
@[simp] theorem State.loadTraps_mask2 (s : State) (v : Word) : (s.loadTraps v).mask2 = s.mask2 := rfl
@[simp] theorem State.loadTraps_powerFail (s : State) (v : Word) : (s.loadTraps v).powerFail = s.powerFail := rfl
@[simp] theorem State.loadTraps_powerFailDue (s : State) (v : Word) : (s.loadTraps v).powerFailDue = s.powerFailDue := rfl
@[simp] theorem State.loadTraps_switch0Due (s : State) (v : Word) : (s.loadTraps v).switch0Due = s.switch0Due := rfl
@[simp] theorem State.loadTraps_parityDue (s : State) (v : Word) : (s.loadTraps v).parityDue = s.parityDue := rfl
@[simp] theorem State.loadTraps_logData (s : State) (v : Word) : (s.loadTraps v).logData = s.logData := rfl
@[simp] theorem State.loadTraps_logCount (s : State) (v : Word) : (s.loadTraps v).logCount = s.logCount := rfl
@[simp] theorem State.loadTraps_clockOut (s : State) (v : Word) : (s.loadTraps v).clockOut = s.clockOut := rfl
@[simp] theorem State.loadTraps_clockIn (s : State) (v : Word) : (s.loadTraps v).clockIn = s.clockIn := rfl
@[simp] theorem State.loadTraps_boards (s : State) (v : Word) : (s.loadTraps v).boards = s.boards := rfl
@[simp] theorem State.loadTraps_transfer (s : State) (v : Word) : (s.loadTraps v).transfer = s.transfer := rfl
@[simp] theorem State.loadTraps_busLog (s : State) (v : Word) : (s.loadTraps v).busLog = s.busLog := rfl
@[simp] theorem State.loadTraps_inputs (s : State) (v : Word) : (s.loadTraps v).inputs = s.inputs := rfl
@[simp] theorem State.loadTraps_between (s : State) (v : Word) : (s.loadTraps v).between = s.between := rfl
@[simp] theorem State.loadTraps_draws (s : State) (v : Word) : (s.loadTraps v).draws = s.draws := rfl
@[simp] theorem State.loadTraps_cfg (s : State) (v : Word) : (s.loadTraps v).cfg = s.cfg := rfl
@[simp] theorem State.reg_loadTraps (s : State) (v : Word) (k : RegNo) : (s.loadTraps v).reg k = s.reg k := rfl
@[simp] theorem State.pair_loadTraps (s : State) (v : Word) (k : RegNo) : (s.loadTraps v).pair k = s.pair k := rfl
@[simp] theorem State.mainByte_loadTraps (s : State) (v : Word) (k : Nat) : (s.loadTraps v).mainByte k = s.mainByte k := rfl
@[simp] theorem State.readByte_loadTraps (s : State) (v : Word) (w : View) (k : Nat) : (s.loadTraps v).readByte w k = s.readByte w k := rfl
@[simp] theorem State.inMem_loadTraps (s : State) (v : Word) (k : Word) (l : Nat) : (s.loadTraps v).inMem k l = s.inMem k l := rfl
@[simp] theorem State.op_loadTraps (s : State) (v : Word) (k : Opcode) : (s.loadTraps v).op k = s.op k := rfl
@[simp] theorem State.tmtEntry_loadTraps (s : State) (v : Word) (k : Nat) : (s.loadTraps v).tmtEntry k = s.tmtEntry k := rfl
@[simp] theorem State.ucodeRead_loadTraps (s : State) (v : Word) (k : Word) : (s.loadTraps v).ucodeRead k = s.ucodeRead k := rfl
@[simp] theorem State.structRead_loadTraps (s : State) (v : Word) (k l : Word) : (s.loadTraps v).structRead k l = s.structRead k l := rfl
@[simp] theorem State.pcbReg_loadTraps (s : State) (v : Word) (k : RegNo) : (s.loadTraps v).pcbReg k = s.pcbReg k := rfl

/-! `State.setSegments` -/

@[simp] theorem State.setSegments_regs (s : State) (v : Word) : (s.setSegments v).regs = s.regs := by
 unfold State.setSegments
 split <;> rfl
@[simp] theorem State.setSegments_pc (s : State) (v : Word) : (s.setSegments v).pc = s.pc := by
 unfold State.setSegments
 split <;> rfl
@[simp] theorem State.setSegments_mode (s : State) (v : Word) : (s.setSegments v).mode = s.mode := by
 unfold State.setSegments
 split <;> rfl
@[simp] theorem State.setSegments_paused (s : State) (v : Word) : (s.setSegments v).paused = s.paused := by
 unfold State.setSegments
 split <;> rfl
@[simp] theorem State.setSegments_stuck (s : State) (v : Word) : (s.setSegments v).stuck = s.stuck := by
 unfold State.setSegments
 split <;> rfl
@[simp] theorem State.setSegments_trapsEff (s : State) (v : Word) : (s.setSegments v).trapsEff = s.trapsEff := by
 unfold State.setSegments
 split <;> rfl
@[simp] theorem State.setSegments_trapsOpen (s : State) (v : Word) : (s.setSegments v).trapsOpen = s.trapsOpen := by
 unfold State.setSegments
 split <;> rfl
@[simp] theorem State.setSegments_mem (s : State) (v : Word) : (s.setSegments v).mem = s.mem := by
 unfold State.setSegments
 split <;> rfl
@[simp] theorem State.setSegments_memEpoch (s : State) (v : Word) : (s.setSegments v).memEpoch = s.memEpoch := by
 unfold State.setSegments
 split <;> rfl
@[simp] theorem State.setSegments_tmt (s : State) (v : Word) : (s.setSegments v).tmt = s.tmt := by
 unfold State.setSegments
 split <;> rfl
@[simp] theorem State.setSegments_codeLines (s : State) (v : Word) : (s.setSegments v).codeLines = s.codeLines := by
 unfold State.setSegments
 split <;> rfl
@[simp] theorem State.setSegments_dataLines (s : State) (v : Word) : (s.setSegments v).dataLines = s.dataLines := by
 unfold State.setSegments
 split <;> rfl
@[simp] theorem State.setSegments_prefetch (s : State) (v : Word) : (s.setSegments v).prefetch = s.prefetch := by
 unfold State.setSegments
 split <;> rfl
@[simp] theorem State.setSegments_mask1 (s : State) (v : Word) : (s.setSegments v).mask1 = s.mask1 := by
 unfold State.setSegments
 split <;> rfl
@[simp] theorem State.setSegments_mask2 (s : State) (v : Word) : (s.setSegments v).mask2 = s.mask2 := by
 unfold State.setSegments
 split <;> rfl
@[simp] theorem State.setSegments_powerFail (s : State) (v : Word) : (s.setSegments v).powerFail = s.powerFail := by
 unfold State.setSegments
 split <;> rfl
@[simp] theorem State.setSegments_powerFailDue (s : State) (v : Word) : (s.setSegments v).powerFailDue = s.powerFailDue := by
 unfold State.setSegments
 split <;> rfl
@[simp] theorem State.setSegments_switch0Due (s : State) (v : Word) : (s.setSegments v).switch0Due = s.switch0Due := by
 unfold State.setSegments
 split <;> rfl
@[simp] theorem State.setSegments_parityDue (s : State) (v : Word) : (s.setSegments v).parityDue = s.parityDue := by
 unfold State.setSegments
 split <;> rfl
@[simp] theorem State.setSegments_logData (s : State) (v : Word) : (s.setSegments v).logData = s.logData := by
 unfold State.setSegments
 split <;> rfl
@[simp] theorem State.setSegments_logCount (s : State) (v : Word) : (s.setSegments v).logCount = s.logCount := by
 unfold State.setSegments
 split <;> rfl
@[simp] theorem State.setSegments_clockOut (s : State) (v : Word) : (s.setSegments v).clockOut = s.clockOut := by
 unfold State.setSegments
 split <;> rfl
@[simp] theorem State.setSegments_clockIn (s : State) (v : Word) : (s.setSegments v).clockIn = s.clockIn := by
 unfold State.setSegments
 split <;> rfl
@[simp] theorem State.setSegments_boards (s : State) (v : Word) : (s.setSegments v).boards = s.boards := by
 unfold State.setSegments
 split <;> rfl
@[simp] theorem State.setSegments_transfer (s : State) (v : Word) : (s.setSegments v).transfer = s.transfer := by
 unfold State.setSegments
 split <;> rfl
@[simp] theorem State.setSegments_busLog (s : State) (v : Word) : (s.setSegments v).busLog = s.busLog := by
 unfold State.setSegments
 split <;> rfl
@[simp] theorem State.setSegments_inputs (s : State) (v : Word) : (s.setSegments v).inputs = s.inputs := by
 unfold State.setSegments
 split <;> rfl
@[simp] theorem State.setSegments_between (s : State) (v : Word) : (s.setSegments v).between = s.between := by
 unfold State.setSegments
 split <;> rfl
@[simp] theorem State.setSegments_draws (s : State) (v : Word) : (s.setSegments v).draws = s.draws := by
 unfold State.setSegments
 split <;> rfl
@[simp] theorem State.setSegments_cfg (s : State) (v : Word) : (s.setSegments v).cfg = s.cfg := by
 unfold State.setSegments
 split <;> rfl
@[simp] theorem State.reg_setSegments (s : State) (v : Word) (k : RegNo) : (s.setSegments v).reg k = s.reg k := by
 unfold State.setSegments
 split <;> rfl
@[simp] theorem State.pair_setSegments (s : State) (v : Word) (k : RegNo) : (s.setSegments v).pair k = s.pair k := by
 unfold State.setSegments
 split <;> rfl
@[simp] theorem State.trapBit_setSegments (s : State) (v : Word) (k : Nat) : (s.setSegments v).trapBit k = s.trapBit k := by
 unfold State.setSegments
 split <;> rfl
@[simp] theorem State.mainByte_setSegments (s : State) (v : Word) (k : Nat) : (s.setSegments v).mainByte k = s.mainByte k := by
 unfold State.setSegments
 split <;> rfl
@[simp] theorem State.readByte_setSegments (s : State) (v : Word) (w : View) (k : Nat) : (s.setSegments v).readByte w k = s.readByte w k := by
 unfold State.setSegments
 split <;> rfl
@[simp] theorem State.inMem_setSegments (s : State) (v : Word) (k : Word) (l : Nat) : (s.setSegments v).inMem k l = s.inMem k l := by
 unfold State.setSegments
 split <;> rfl
@[simp] theorem State.op_setSegments (s : State) (v : Word) (k : Opcode) : (s.setSegments v).op k = s.op k := by
 unfold State.setSegments
 split <;> rfl
@[simp] theorem State.tmtEntry_setSegments (s : State) (v : Word) (k : Nat) : (s.setSegments v).tmtEntry k = s.tmtEntry k := by
 unfold State.setSegments
 split <;> rfl
@[simp] theorem State.ucodeRead_setSegments (s : State) (v : Word) (k : Word) : (s.setSegments v).ucodeRead k = s.ucodeRead k := by
 unfold State.setSegments
 split <;> rfl
@[simp] theorem State.structRead_setSegments (s : State) (v : Word) (k l : Word) : (s.setSegments v).structRead k l = s.structRead k l := by
 unfold State.setSegments
 split <;> rfl
@[simp] theorem State.pcbReg_setSegments (s : State) (v : Word) (k : RegNo) : (s.setSegments v).pcbReg k = s.pcbReg k := by
 unfold State.setSegments
 split <;> rfl

/-! `State.moveToSreg` -/

@[simp] theorem State.moveToSreg_regs (s : State) (n : RegNo) (v : Word) : (s.moveToSreg n v).regs = s.regs := by
 unfold State.moveToSreg
 split <;> rfl
@[simp] theorem State.moveToSreg_pc (s : State) (n : RegNo) (v : Word) : (s.moveToSreg n v).pc = s.pc := by
 unfold State.moveToSreg
 split <;> rfl
@[simp] theorem State.moveToSreg_mode (s : State) (n : RegNo) (v : Word) : (s.moveToSreg n v).mode = s.mode := by
 unfold State.moveToSreg
 split <;> rfl
@[simp] theorem State.moveToSreg_paused (s : State) (n : RegNo) (v : Word) : (s.moveToSreg n v).paused = s.paused := by
 unfold State.moveToSreg
 split <;> rfl
@[simp] theorem State.moveToSreg_stuck (s : State) (n : RegNo) (v : Word) : (s.moveToSreg n v).stuck = s.stuck := by
 unfold State.moveToSreg
 split <;> rfl
@[simp] theorem State.moveToSreg_trapsEff (s : State) (n : RegNo) (v : Word) : (s.moveToSreg n v).trapsEff = s.trapsEff := by
 unfold State.moveToSreg
 split <;> rfl
@[simp] theorem State.moveToSreg_mem (s : State) (n : RegNo) (v : Word) : (s.moveToSreg n v).mem = s.mem := by
 unfold State.moveToSreg
 split <;> rfl
@[simp] theorem State.moveToSreg_memEpoch (s : State) (n : RegNo) (v : Word) : (s.moveToSreg n v).memEpoch = s.memEpoch := by
 unfold State.moveToSreg
 split <;> rfl
@[simp] theorem State.moveToSreg_tmt (s : State) (n : RegNo) (v : Word) : (s.moveToSreg n v).tmt = s.tmt := by
 unfold State.moveToSreg
 split <;> rfl
@[simp] theorem State.moveToSreg_codeLines (s : State) (n : RegNo) (v : Word) : (s.moveToSreg n v).codeLines = s.codeLines := by
 unfold State.moveToSreg
 split <;> rfl
@[simp] theorem State.moveToSreg_dataLines (s : State) (n : RegNo) (v : Word) : (s.moveToSreg n v).dataLines = s.dataLines := by
 unfold State.moveToSreg
 split <;> rfl
@[simp] theorem State.moveToSreg_prefetch (s : State) (n : RegNo) (v : Word) : (s.moveToSreg n v).prefetch = s.prefetch := by
 unfold State.moveToSreg
 split <;> rfl
@[simp] theorem State.moveToSreg_mask1 (s : State) (n : RegNo) (v : Word) : (s.moveToSreg n v).mask1 = s.mask1 := by
 unfold State.moveToSreg
 split <;> rfl
@[simp] theorem State.moveToSreg_mask2 (s : State) (n : RegNo) (v : Word) : (s.moveToSreg n v).mask2 = s.mask2 := by
 unfold State.moveToSreg
 split <;> rfl
@[simp] theorem State.moveToSreg_powerFail (s : State) (n : RegNo) (v : Word) : (s.moveToSreg n v).powerFail = s.powerFail := by
 unfold State.moveToSreg
 split <;> rfl
@[simp] theorem State.moveToSreg_powerFailDue (s : State) (n : RegNo) (v : Word) : (s.moveToSreg n v).powerFailDue = s.powerFailDue := by
 unfold State.moveToSreg
 split <;> rfl
@[simp] theorem State.moveToSreg_switch0Due (s : State) (n : RegNo) (v : Word) : (s.moveToSreg n v).switch0Due = s.switch0Due := by
 unfold State.moveToSreg
 split <;> rfl
@[simp] theorem State.moveToSreg_parityDue (s : State) (n : RegNo) (v : Word) : (s.moveToSreg n v).parityDue = s.parityDue := by
 unfold State.moveToSreg
 split <;> rfl
@[simp] theorem State.moveToSreg_logData (s : State) (n : RegNo) (v : Word) : (s.moveToSreg n v).logData = s.logData := by
 unfold State.moveToSreg
 split <;> rfl
@[simp] theorem State.moveToSreg_logCount (s : State) (n : RegNo) (v : Word) : (s.moveToSreg n v).logCount = s.logCount := by
 unfold State.moveToSreg
 split <;> rfl
@[simp] theorem State.moveToSreg_clockOut (s : State) (n : RegNo) (v : Word) : (s.moveToSreg n v).clockOut = s.clockOut := by
 unfold State.moveToSreg
 split <;> rfl
@[simp] theorem State.moveToSreg_clockIn (s : State) (n : RegNo) (v : Word) : (s.moveToSreg n v).clockIn = s.clockIn := by
 unfold State.moveToSreg
 split <;> rfl
@[simp] theorem State.moveToSreg_boards (s : State) (n : RegNo) (v : Word) : (s.moveToSreg n v).boards = s.boards := by
 unfold State.moveToSreg
 split <;> rfl
@[simp] theorem State.moveToSreg_transfer (s : State) (n : RegNo) (v : Word) : (s.moveToSreg n v).transfer = s.transfer := by
 unfold State.moveToSreg
 split <;> rfl
@[simp] theorem State.moveToSreg_busLog (s : State) (n : RegNo) (v : Word) : (s.moveToSreg n v).busLog = s.busLog := by
 unfold State.moveToSreg
 split <;> rfl
@[simp] theorem State.moveToSreg_inputs (s : State) (n : RegNo) (v : Word) : (s.moveToSreg n v).inputs = s.inputs := by
 unfold State.moveToSreg
 split <;> rfl
@[simp] theorem State.moveToSreg_between (s : State) (n : RegNo) (v : Word) : (s.moveToSreg n v).between = s.between := by
 unfold State.moveToSreg
 split <;> rfl
@[simp] theorem State.moveToSreg_draws (s : State) (n : RegNo) (v : Word) : (s.moveToSreg n v).draws = s.draws := by
 unfold State.moveToSreg
 split <;> rfl
@[simp] theorem State.moveToSreg_cfg (s : State) (n : RegNo) (v : Word) : (s.moveToSreg n v).cfg = s.cfg := by
 unfold State.moveToSreg
 split <;> rfl
@[simp] theorem State.reg_moveToSreg (s : State) (n : RegNo) (v : Word) (k : RegNo) : (s.moveToSreg n v).reg k = s.reg k := by
 unfold State.moveToSreg
 split <;> rfl
@[simp] theorem State.pair_moveToSreg (s : State) (n : RegNo) (v : Word) (k : RegNo) : (s.moveToSreg n v).pair k = s.pair k := by
 unfold State.moveToSreg
 split <;> rfl
@[simp] theorem State.mainByte_moveToSreg (s : State) (n : RegNo) (v : Word) (k : Nat) : (s.moveToSreg n v).mainByte k = s.mainByte k := by
 unfold State.moveToSreg
 split <;> rfl
@[simp] theorem State.readByte_moveToSreg (s : State) (n : RegNo) (v : Word) (w : View) (k : Nat) : (s.moveToSreg n v).readByte w k = s.readByte w k := by
 unfold State.moveToSreg
 split <;> rfl
@[simp] theorem State.inMem_moveToSreg (s : State) (n : RegNo) (v : Word) (k : Word) (l : Nat) : (s.moveToSreg n v).inMem k l = s.inMem k l := by
 unfold State.moveToSreg
 split <;> rfl
@[simp] theorem State.op_moveToSreg (s : State) (n : RegNo) (v : Word) (k : Opcode) : (s.moveToSreg n v).op k = s.op k := by
 unfold State.moveToSreg
 split <;> rfl
@[simp] theorem State.tmtEntry_moveToSreg (s : State) (n : RegNo) (v : Word) (k : Nat) : (s.moveToSreg n v).tmtEntry k = s.tmtEntry k := by
 unfold State.moveToSreg
 split <;> rfl
@[simp] theorem State.ucodeRead_moveToSreg (s : State) (n : RegNo) (v : Word) (k : Word) : (s.moveToSreg n v).ucodeRead k = s.ucodeRead k := by
 unfold State.moveToSreg
 split <;> rfl
@[simp] theorem State.structRead_moveToSreg (s : State) (n : RegNo) (v : Word) (k l : Word) : (s.moveToSreg n v).structRead k l = s.structRead k l := by
 unfold State.moveToSreg
 split <;> rfl
@[simp] theorem State.pcbReg_moveToSreg (s : State) (n : RegNo) (v : Word) (k : RegNo) : (s.moveToSreg n v).pcbReg k = s.pcbReg k := by
 unfold State.moveToSreg
 split <;> rfl

/-! `State.writeMasks` -/

@[simp] theorem State.writeMasks_regs (s : State) (v : Word) : (s.writeMasks v).regs = s.regs := by
 unfold State.writeMasks
 split <;> rfl
@[simp] theorem State.writeMasks_pc (s : State) (v : Word) : (s.writeMasks v).pc = s.pc := by
 unfold State.writeMasks
 split <;> rfl
@[simp] theorem State.writeMasks_mode (s : State) (v : Word) : (s.writeMasks v).mode = s.mode := by
 unfold State.writeMasks
 split <;> rfl
@[simp] theorem State.writeMasks_paused (s : State) (v : Word) : (s.writeMasks v).paused = s.paused := by
 unfold State.writeMasks
 split <;> rfl
@[simp] theorem State.writeMasks_stuck (s : State) (v : Word) : (s.writeMasks v).stuck = s.stuck := by
 unfold State.writeMasks
 split <;> rfl
@[simp] theorem State.writeMasks_sr (s : State) (v : Word) : (s.writeMasks v).sr = s.sr := by
 unfold State.writeMasks
 split <;> rfl
@[simp] theorem State.writeMasks_trapsEff (s : State) (v : Word) : (s.writeMasks v).trapsEff = s.trapsEff := by
 unfold State.writeMasks
 split <;> rfl
@[simp] theorem State.writeMasks_trapsOpen (s : State) (v : Word) : (s.writeMasks v).trapsOpen = s.trapsOpen := by
 unfold State.writeMasks
 split <;> rfl
@[simp] theorem State.writeMasks_mem (s : State) (v : Word) : (s.writeMasks v).mem = s.mem := by
 unfold State.writeMasks
 split <;> rfl
@[simp] theorem State.writeMasks_memEpoch (s : State) (v : Word) : (s.writeMasks v).memEpoch = s.memEpoch := by
 unfold State.writeMasks
 split <;> rfl
@[simp] theorem State.writeMasks_tmt (s : State) (v : Word) : (s.writeMasks v).tmt = s.tmt := by
 unfold State.writeMasks
 split <;> rfl
@[simp] theorem State.writeMasks_codeLines (s : State) (v : Word) : (s.writeMasks v).codeLines = s.codeLines := by
 unfold State.writeMasks
 split <;> rfl
@[simp] theorem State.writeMasks_dataLines (s : State) (v : Word) : (s.writeMasks v).dataLines = s.dataLines := by
 unfold State.writeMasks
 split <;> rfl
@[simp] theorem State.writeMasks_prefetch (s : State) (v : Word) : (s.writeMasks v).prefetch = s.prefetch := by
 unfold State.writeMasks
 split <;> rfl
@[simp] theorem State.writeMasks_powerFail (s : State) (v : Word) : (s.writeMasks v).powerFail = s.powerFail := by
 unfold State.writeMasks
 split <;> rfl
@[simp] theorem State.writeMasks_powerFailDue (s : State) (v : Word) : (s.writeMasks v).powerFailDue = s.powerFailDue := by
 unfold State.writeMasks
 split <;> rfl
@[simp] theorem State.writeMasks_switch0Due (s : State) (v : Word) : (s.writeMasks v).switch0Due = s.switch0Due := by
 unfold State.writeMasks
 split <;> rfl
@[simp] theorem State.writeMasks_parityDue (s : State) (v : Word) : (s.writeMasks v).parityDue = s.parityDue := by
 unfold State.writeMasks
 split <;> rfl
@[simp] theorem State.writeMasks_logData (s : State) (v : Word) : (s.writeMasks v).logData = s.logData := by
 unfold State.writeMasks
 split <;> rfl
@[simp] theorem State.writeMasks_logCount (s : State) (v : Word) : (s.writeMasks v).logCount = s.logCount := by
 unfold State.writeMasks
 split <;> rfl
@[simp] theorem State.writeMasks_clockOut (s : State) (v : Word) : (s.writeMasks v).clockOut = s.clockOut := by
 unfold State.writeMasks
 split <;> rfl
@[simp] theorem State.writeMasks_clockIn (s : State) (v : Word) : (s.writeMasks v).clockIn = s.clockIn := by
 unfold State.writeMasks
 split <;> rfl
@[simp] theorem State.writeMasks_boards (s : State) (v : Word) : (s.writeMasks v).boards = s.boards := by
 unfold State.writeMasks
 split <;> rfl
@[simp] theorem State.writeMasks_transfer (s : State) (v : Word) : (s.writeMasks v).transfer = s.transfer := by
 unfold State.writeMasks
 split <;> rfl
@[simp] theorem State.writeMasks_busLog (s : State) (v : Word) : (s.writeMasks v).busLog = s.busLog := by
 unfold State.writeMasks
 split <;> rfl
@[simp] theorem State.writeMasks_inputs (s : State) (v : Word) : (s.writeMasks v).inputs = s.inputs := by
 unfold State.writeMasks
 split <;> rfl
@[simp] theorem State.writeMasks_between (s : State) (v : Word) : (s.writeMasks v).between = s.between := by
 unfold State.writeMasks
 split <;> rfl
@[simp] theorem State.writeMasks_draws (s : State) (v : Word) : (s.writeMasks v).draws = s.draws := by
 unfold State.writeMasks
 split <;> rfl
@[simp] theorem State.writeMasks_cfg (s : State) (v : Word) : (s.writeMasks v).cfg = s.cfg := by
 unfold State.writeMasks
 split <;> rfl
@[simp] theorem State.reg_writeMasks (s : State) (v : Word) (k : RegNo) : (s.writeMasks v).reg k = s.reg k := by
 unfold State.writeMasks
 split <;> rfl
@[simp] theorem State.pair_writeMasks (s : State) (v : Word) (k : RegNo) : (s.writeMasks v).pair k = s.pair k := by
 unfold State.writeMasks
 split <;> rfl
@[simp] theorem State.sreg_writeMasks (s : State) (v : Word) (k : RegNo) : (s.writeMasks v).sreg k = s.sreg k := by
 unfold State.writeMasks
 split <;> rfl
@[simp] theorem State.trapBit_writeMasks (s : State) (v : Word) (k : Nat) : (s.writeMasks v).trapBit k = s.trapBit k := by
 unfold State.writeMasks
 split <;> rfl
@[simp] theorem State.mainByte_writeMasks (s : State) (v : Word) (k : Nat) : (s.writeMasks v).mainByte k = s.mainByte k := by
 unfold State.writeMasks
 split <;> rfl
@[simp] theorem State.readByte_writeMasks (s : State) (v : Word) (w : View) (k : Nat) : (s.writeMasks v).readByte w k = s.readByte w k := by
 unfold State.writeMasks
 split <;> rfl
@[simp] theorem State.inMem_writeMasks (s : State) (v : Word) (k : Word) (l : Nat) : (s.writeMasks v).inMem k l = s.inMem k l := by
 unfold State.writeMasks
 split <;> rfl
@[simp] theorem State.op_writeMasks (s : State) (v : Word) (k : Opcode) : (s.writeMasks v).op k = s.op k := by
 unfold State.writeMasks
 split <;> rfl
@[simp] theorem State.segment_writeMasks (s : State) (v : Word) (k : Space) : (s.writeMasks v).segment k = s.segment k := by
 unfold State.writeMasks
 split <;> rfl
@[simp] theorem State.tmtEntry_writeMasks (s : State) (v : Word) (k : Nat) : (s.writeMasks v).tmtEntry k = s.tmtEntry k := by
 unfold State.writeMasks
 split <;> rfl
@[simp] theorem State.noCcb_writeMasks (s : State) (v : Word) : (s.writeMasks v).noCcb = s.noCcb := by
 unfold State.writeMasks
 split <;> rfl
@[simp] theorem State.ucodeRead_writeMasks (s : State) (v : Word) (k : Word) : (s.writeMasks v).ucodeRead k = s.ucodeRead k := by
 unfold State.writeMasks
 split <;> rfl
@[simp] theorem State.structRead_writeMasks (s : State) (v : Word) (k l : Word) : (s.writeMasks v).structRead k l = s.structRead k l := by
 unfold State.writeMasks
 split <;> rfl
@[simp] theorem State.pcbReg_writeMasks (s : State) (v : Word) (k : RegNo) : (s.writeMasks v).pcbReg k = s.pcbReg k := by
 unfold State.writeMasks
 split <;> rfl

/-! `State.testInterrupt` -/

@[simp] theorem State.testInterrupt_pc (s : State) (n : RegNo) : (s.testInterrupt n).pc = s.pc := by
 unfold State.testInterrupt
 split <;> rfl
@[simp] theorem State.testInterrupt_mode (s : State) (n : RegNo) : (s.testInterrupt n).mode = s.mode := by
 unfold State.testInterrupt
 split <;> rfl
@[simp] theorem State.testInterrupt_paused (s : State) (n : RegNo) : (s.testInterrupt n).paused = s.paused := by
 unfold State.testInterrupt
 split <;> rfl
@[simp] theorem State.testInterrupt_stuck (s : State) (n : RegNo) : (s.testInterrupt n).stuck = s.stuck := by
 unfold State.testInterrupt
 split <;> rfl
@[simp] theorem State.testInterrupt_sr (s : State) (n : RegNo) : (s.testInterrupt n).sr = s.sr := by
 unfold State.testInterrupt
 split <;> rfl
@[simp] theorem State.testInterrupt_trapsEff (s : State) (n : RegNo) : (s.testInterrupt n).trapsEff = s.trapsEff := by
 unfold State.testInterrupt
 split <;> rfl
@[simp] theorem State.testInterrupt_trapsOpen (s : State) (n : RegNo) : (s.testInterrupt n).trapsOpen = s.trapsOpen := by
 unfold State.testInterrupt
 split <;> rfl
@[simp] theorem State.testInterrupt_mem (s : State) (n : RegNo) : (s.testInterrupt n).mem = s.mem := by
 unfold State.testInterrupt
 split <;> rfl
@[simp] theorem State.testInterrupt_memEpoch (s : State) (n : RegNo) : (s.testInterrupt n).memEpoch = s.memEpoch := by
 unfold State.testInterrupt
 split <;> rfl
@[simp] theorem State.testInterrupt_tmt (s : State) (n : RegNo) : (s.testInterrupt n).tmt = s.tmt := by
 unfold State.testInterrupt
 split <;> rfl
@[simp] theorem State.testInterrupt_codeLines (s : State) (n : RegNo) : (s.testInterrupt n).codeLines = s.codeLines := by
 unfold State.testInterrupt
 split <;> rfl
@[simp] theorem State.testInterrupt_dataLines (s : State) (n : RegNo) : (s.testInterrupt n).dataLines = s.dataLines := by
 unfold State.testInterrupt
 split <;> rfl
@[simp] theorem State.testInterrupt_prefetch (s : State) (n : RegNo) : (s.testInterrupt n).prefetch = s.prefetch := by
 unfold State.testInterrupt
 split <;> rfl
@[simp] theorem State.testInterrupt_mask1 (s : State) (n : RegNo) : (s.testInterrupt n).mask1 = s.mask1 := by
 unfold State.testInterrupt
 split <;> rfl
@[simp] theorem State.testInterrupt_mask2 (s : State) (n : RegNo) : (s.testInterrupt n).mask2 = s.mask2 := by
 unfold State.testInterrupt
 split <;> rfl
@[simp] theorem State.testInterrupt_powerFail (s : State) (n : RegNo) : (s.testInterrupt n).powerFail = s.powerFail := by
 unfold State.testInterrupt
 split <;> rfl
@[simp] theorem State.testInterrupt_powerFailDue (s : State) (n : RegNo) : (s.testInterrupt n).powerFailDue = s.powerFailDue := by
 unfold State.testInterrupt
 split <;> rfl
@[simp] theorem State.testInterrupt_switch0Due (s : State) (n : RegNo) : (s.testInterrupt n).switch0Due = s.switch0Due := by
 unfold State.testInterrupt
 split <;> rfl
@[simp] theorem State.testInterrupt_parityDue (s : State) (n : RegNo) : (s.testInterrupt n).parityDue = s.parityDue := by
 unfold State.testInterrupt
 split <;> rfl
@[simp] theorem State.testInterrupt_logData (s : State) (n : RegNo) : (s.testInterrupt n).logData = s.logData := by
 unfold State.testInterrupt
 split <;> rfl
@[simp] theorem State.testInterrupt_logCount (s : State) (n : RegNo) : (s.testInterrupt n).logCount = s.logCount := by
 unfold State.testInterrupt
 split <;> rfl
@[simp] theorem State.testInterrupt_clockOut (s : State) (n : RegNo) : (s.testInterrupt n).clockOut = s.clockOut := by
 unfold State.testInterrupt
 split <;> rfl
@[simp] theorem State.testInterrupt_clockIn (s : State) (n : RegNo) : (s.testInterrupt n).clockIn = s.clockIn := by
 unfold State.testInterrupt
 split <;> rfl
@[simp] theorem State.testInterrupt_transfer (s : State) (n : RegNo) : (s.testInterrupt n).transfer = s.transfer := by
 unfold State.testInterrupt
 split <;> rfl
@[simp] theorem State.testInterrupt_inputs (s : State) (n : RegNo) : (s.testInterrupt n).inputs = s.inputs := by
 unfold State.testInterrupt
 split <;> rfl
@[simp] theorem State.testInterrupt_between (s : State) (n : RegNo) : (s.testInterrupt n).between = s.between := by
 unfold State.testInterrupt
 split <;> rfl
@[simp] theorem State.testInterrupt_draws (s : State) (n : RegNo) : (s.testInterrupt n).draws = s.draws := by
 unfold State.testInterrupt
 split <;> rfl
@[simp] theorem State.testInterrupt_cfg (s : State) (n : RegNo) : (s.testInterrupt n).cfg = s.cfg := by
 unfold State.testInterrupt
 split <;> rfl
@[simp] theorem State.sreg_testInterrupt (s : State) (n : RegNo) (k : RegNo) : (s.testInterrupt n).sreg k = s.sreg k := by
 unfold State.testInterrupt
 split <;> rfl
@[simp] theorem State.trapBit_testInterrupt (s : State) (n : RegNo) (k : Nat) : (s.testInterrupt n).trapBit k = s.trapBit k := by
 unfold State.testInterrupt
 split <;> rfl
@[simp] theorem State.mainByte_testInterrupt (s : State) (n : RegNo) (k : Nat) : (s.testInterrupt n).mainByte k = s.mainByte k := by
 unfold State.testInterrupt
 split <;> rfl
@[simp] theorem State.readByte_testInterrupt (s : State) (n : RegNo) (w : View) (k : Nat) : (s.testInterrupt n).readByte w k = s.readByte w k := by
 unfold State.testInterrupt
 split <;> rfl
@[simp] theorem State.inMem_testInterrupt (s : State) (n : RegNo) (k : Word) (l : Nat) : (s.testInterrupt n).inMem k l = s.inMem k l := by
 unfold State.testInterrupt
 split <;> rfl
@[simp] theorem State.op_testInterrupt (s : State) (n : RegNo) (k : Opcode) : (s.testInterrupt n).op k = s.op k := by
 unfold State.testInterrupt
 split <;> rfl
@[simp] theorem State.segment_testInterrupt (s : State) (n : RegNo) (k : Space) : (s.testInterrupt n).segment k = s.segment k := by
 unfold State.testInterrupt
 split <;> rfl
@[simp] theorem State.tmtEntry_testInterrupt (s : State) (n : RegNo) (k : Nat) : (s.testInterrupt n).tmtEntry k = s.tmtEntry k := by
 unfold State.testInterrupt
 split <;> rfl
@[simp] theorem State.noCcb_testInterrupt (s : State) (n : RegNo) : (s.testInterrupt n).noCcb = s.noCcb := by
 unfold State.testInterrupt
 split <;> rfl
@[simp] theorem State.ucodeRead_testInterrupt (s : State) (n : RegNo) (k : Word) : (s.testInterrupt n).ucodeRead k = s.ucodeRead k := by
 unfold State.testInterrupt
 split <;> rfl
@[simp] theorem State.structRead_testInterrupt (s : State) (n : RegNo) (k l : Word) : (s.testInterrupt n).structRead k l = s.structRead k l := by
 unfold State.testInterrupt
 split <;> rfl
@[simp] theorem State.pcbReg_testInterrupt (s : State) (n : RegNo) (k : RegNo) : (s.testInterrupt n).pcbReg k = s.pcbReg k := by
 unfold State.testInterrupt
 split <;> rfl

/-! `State.onBoard` -/

@[simp] theorem State.onBoard_regs (s : State) (n : Byte) (v : Board → Board) : (s.onBoard n v).regs = s.regs := rfl
@[simp] theorem State.onBoard_pc (s : State) (n : Byte) (v : Board → Board) : (s.onBoard n v).pc = s.pc := rfl
@[simp] theorem State.onBoard_mode (s : State) (n : Byte) (v : Board → Board) : (s.onBoard n v).mode = s.mode := rfl
@[simp] theorem State.onBoard_paused (s : State) (n : Byte) (v : Board → Board) : (s.onBoard n v).paused = s.paused := rfl
@[simp] theorem State.onBoard_stuck (s : State) (n : Byte) (v : Board → Board) : (s.onBoard n v).stuck = s.stuck := rfl
@[simp] theorem State.onBoard_sr (s : State) (n : Byte) (v : Board → Board) : (s.onBoard n v).sr = s.sr := rfl
@[simp] theorem State.onBoard_trapsEff (s : State) (n : Byte) (v : Board → Board) : (s.onBoard n v).trapsEff = s.trapsEff := rfl
@[simp] theorem State.onBoard_trapsOpen (s : State) (n : Byte) (v : Board → Board) : (s.onBoard n v).trapsOpen = s.trapsOpen := rfl
@[simp] theorem State.onBoard_mem (s : State) (n : Byte) (v : Board → Board) : (s.onBoard n v).mem = s.mem := rfl
@[simp] theorem State.onBoard_memEpoch (s : State) (n : Byte) (v : Board → Board) : (s.onBoard n v).memEpoch = s.memEpoch := rfl
@[simp] theorem State.onBoard_tmt (s : State) (n : Byte) (v : Board → Board) : (s.onBoard n v).tmt = s.tmt := rfl
@[simp] theorem State.onBoard_codeLines (s : State) (n : Byte) (v : Board → Board) : (s.onBoard n v).codeLines = s.codeLines := rfl
@[simp] theorem State.onBoard_dataLines (s : State) (n : Byte) (v : Board → Board) : (s.onBoard n v).dataLines = s.dataLines := rfl
@[simp] theorem State.onBoard_prefetch (s : State) (n : Byte) (v : Board → Board) : (s.onBoard n v).prefetch = s.prefetch := rfl
@[simp] theorem State.onBoard_mask1 (s : State) (n : Byte) (v : Board → Board) : (s.onBoard n v).mask1 = s.mask1 := rfl
@[simp] theorem State.onBoard_mask2 (s : State) (n : Byte) (v : Board → Board) : (s.onBoard n v).mask2 = s.mask2 := rfl
@[simp] theorem State.onBoard_powerFail (s : State) (n : Byte) (v : Board → Board) : (s.onBoard n v).powerFail = s.powerFail := rfl
@[simp] theorem State.onBoard_powerFailDue (s : State) (n : Byte) (v : Board → Board) : (s.onBoard n v).powerFailDue = s.powerFailDue := rfl
@[simp] theorem State.onBoard_switch0Due (s : State) (n : Byte) (v : Board → Board) : (s.onBoard n v).switch0Due = s.switch0Due := rfl
@[simp] theorem State.onBoard_parityDue (s : State) (n : Byte) (v : Board → Board) : (s.onBoard n v).parityDue = s.parityDue := rfl
@[simp] theorem State.onBoard_logData (s : State) (n : Byte) (v : Board → Board) : (s.onBoard n v).logData = s.logData := rfl
@[simp] theorem State.onBoard_logCount (s : State) (n : Byte) (v : Board → Board) : (s.onBoard n v).logCount = s.logCount := rfl
@[simp] theorem State.onBoard_clockOut (s : State) (n : Byte) (v : Board → Board) : (s.onBoard n v).clockOut = s.clockOut := rfl
@[simp] theorem State.onBoard_clockIn (s : State) (n : Byte) (v : Board → Board) : (s.onBoard n v).clockIn = s.clockIn := rfl
@[simp] theorem State.onBoard_transfer (s : State) (n : Byte) (v : Board → Board) : (s.onBoard n v).transfer = s.transfer := rfl
@[simp] theorem State.onBoard_busLog (s : State) (n : Byte) (v : Board → Board) : (s.onBoard n v).busLog = s.busLog := rfl
@[simp] theorem State.onBoard_inputs (s : State) (n : Byte) (v : Board → Board) : (s.onBoard n v).inputs = s.inputs := rfl
@[simp] theorem State.onBoard_between (s : State) (n : Byte) (v : Board → Board) : (s.onBoard n v).between = s.between := rfl
@[simp] theorem State.onBoard_draws (s : State) (n : Byte) (v : Board → Board) : (s.onBoard n v).draws = s.draws := rfl
@[simp] theorem State.onBoard_cfg (s : State) (n : Byte) (v : Board → Board) : (s.onBoard n v).cfg = s.cfg := rfl
@[simp] theorem State.reg_onBoard (s : State) (n : Byte) (v : Board → Board) (k : RegNo) : (s.onBoard n v).reg k = s.reg k := rfl
@[simp] theorem State.pair_onBoard (s : State) (n : Byte) (v : Board → Board) (k : RegNo) : (s.onBoard n v).pair k = s.pair k := rfl
@[simp] theorem State.sreg_onBoard (s : State) (n : Byte) (v : Board → Board) (k : RegNo) : (s.onBoard n v).sreg k = s.sreg k := rfl
@[simp] theorem State.trapBit_onBoard (s : State) (n : Byte) (v : Board → Board) (k : Nat) : (s.onBoard n v).trapBit k = s.trapBit k := rfl
@[simp] theorem State.mainByte_onBoard (s : State) (n : Byte) (v : Board → Board) (k : Nat) : (s.onBoard n v).mainByte k = s.mainByte k := rfl
@[simp] theorem State.readByte_onBoard (s : State) (n : Byte) (v : Board → Board) (w : View) (k : Nat) : (s.onBoard n v).readByte w k = s.readByte w k := rfl
@[simp] theorem State.inMem_onBoard (s : State) (n : Byte) (v : Board → Board) (k : Word) (l : Nat) : (s.onBoard n v).inMem k l = s.inMem k l := rfl
@[simp] theorem State.op_onBoard (s : State) (n : Byte) (v : Board → Board) (k : Opcode) : (s.onBoard n v).op k = s.op k := rfl
@[simp] theorem State.segment_onBoard (s : State) (n : Byte) (v : Board → Board) (k : Space) : (s.onBoard n v).segment k = s.segment k := rfl
@[simp] theorem State.tmtEntry_onBoard (s : State) (n : Byte) (v : Board → Board) (k : Nat) : (s.onBoard n v).tmtEntry k = s.tmtEntry k := rfl
@[simp] theorem State.noCcb_onBoard (s : State) (n : Byte) (v : Board → Board) : (s.onBoard n v).noCcb = s.noCcb := rfl
@[simp] theorem State.ucodeRead_onBoard (s : State) (n : Byte) (v : Board → Board) (k : Word) : (s.onBoard n v).ucodeRead k = s.ucodeRead k := rfl
@[simp] theorem State.structRead_onBoard (s : State) (n : Byte) (v : Board → Board) (k l : Word) : (s.onBoard n v).structRead k l = s.structRead k l := rfl
@[simp] theorem State.pcbReg_onBoard (s : State) (n : Byte) (v : Board → Board) (k : RegNo) : (s.onBoard n v).pcbReg k = s.pcbReg k := rfl

/-! `State.logError` -/

@[simp] theorem State.logError_regs (s : State) (n : BitVec 4) (v : Word) (m : Nat) : (s.logError n v m).regs = s.regs := rfl
@[simp] theorem State.logError_pc (s : State) (n : BitVec 4) (v : Word) (m : Nat) : (s.logError n v m).pc = s.pc := rfl
@[simp] theorem State.logError_mode (s : State) (n : BitVec 4) (v : Word) (m : Nat) : (s.logError n v m).mode = s.mode := rfl
@[simp] theorem State.logError_paused (s : State) (n : BitVec 4) (v : Word) (m : Nat) : (s.logError n v m).paused = s.paused := rfl
@[simp] theorem State.logError_stuck (s : State) (n : BitVec 4) (v : Word) (m : Nat) : (s.logError n v m).stuck = s.stuck := rfl
@[simp] theorem State.logError_sr (s : State) (n : BitVec 4) (v : Word) (m : Nat) : (s.logError n v m).sr = s.sr := rfl
@[simp] theorem State.logError_trapsEff (s : State) (n : BitVec 4) (v : Word) (m : Nat) : (s.logError n v m).trapsEff = s.trapsEff := rfl
@[simp] theorem State.logError_trapsOpen (s : State) (n : BitVec 4) (v : Word) (m : Nat) : (s.logError n v m).trapsOpen = s.trapsOpen := rfl
@[simp] theorem State.logError_mem (s : State) (n : BitVec 4) (v : Word) (m : Nat) : (s.logError n v m).mem = s.mem := rfl
@[simp] theorem State.logError_memEpoch (s : State) (n : BitVec 4) (v : Word) (m : Nat) : (s.logError n v m).memEpoch = s.memEpoch := rfl
@[simp] theorem State.logError_tmt (s : State) (n : BitVec 4) (v : Word) (m : Nat) : (s.logError n v m).tmt = s.tmt := rfl
@[simp] theorem State.logError_codeLines (s : State) (n : BitVec 4) (v : Word) (m : Nat) : (s.logError n v m).codeLines = s.codeLines := rfl
@[simp] theorem State.logError_dataLines (s : State) (n : BitVec 4) (v : Word) (m : Nat) : (s.logError n v m).dataLines = s.dataLines := rfl
@[simp] theorem State.logError_prefetch (s : State) (n : BitVec 4) (v : Word) (m : Nat) : (s.logError n v m).prefetch = s.prefetch := rfl
@[simp] theorem State.logError_mask1 (s : State) (n : BitVec 4) (v : Word) (m : Nat) : (s.logError n v m).mask1 = s.mask1 := rfl
@[simp] theorem State.logError_mask2 (s : State) (n : BitVec 4) (v : Word) (m : Nat) : (s.logError n v m).mask2 = s.mask2 := rfl
@[simp] theorem State.logError_powerFail (s : State) (n : BitVec 4) (v : Word) (m : Nat) : (s.logError n v m).powerFail = s.powerFail := rfl
@[simp] theorem State.logError_powerFailDue (s : State) (n : BitVec 4) (v : Word) (m : Nat) : (s.logError n v m).powerFailDue = s.powerFailDue := rfl
@[simp] theorem State.logError_switch0Due (s : State) (n : BitVec 4) (v : Word) (m : Nat) : (s.logError n v m).switch0Due = s.switch0Due := rfl
@[simp] theorem State.logError_parityDue (s : State) (n : BitVec 4) (v : Word) (m : Nat) : (s.logError n v m).parityDue = s.parityDue := rfl
@[simp] theorem State.logError_clockOut (s : State) (n : BitVec 4) (v : Word) (m : Nat) : (s.logError n v m).clockOut = s.clockOut := rfl
@[simp] theorem State.logError_clockIn (s : State) (n : BitVec 4) (v : Word) (m : Nat) : (s.logError n v m).clockIn = s.clockIn := rfl
@[simp] theorem State.logError_boards (s : State) (n : BitVec 4) (v : Word) (m : Nat) : (s.logError n v m).boards = s.boards := rfl
@[simp] theorem State.logError_transfer (s : State) (n : BitVec 4) (v : Word) (m : Nat) : (s.logError n v m).transfer = s.transfer := rfl
@[simp] theorem State.logError_busLog (s : State) (n : BitVec 4) (v : Word) (m : Nat) : (s.logError n v m).busLog = s.busLog := rfl
@[simp] theorem State.logError_inputs (s : State) (n : BitVec 4) (v : Word) (m : Nat) : (s.logError n v m).inputs = s.inputs := rfl
@[simp] theorem State.logError_between (s : State) (n : BitVec 4) (v : Word) (m : Nat) : (s.logError n v m).between = s.between := rfl
@[simp] theorem State.logError_draws (s : State) (n : BitVec 4) (v : Word) (m : Nat) : (s.logError n v m).draws = s.draws := rfl
@[simp] theorem State.logError_cfg (s : State) (n : BitVec 4) (v : Word) (m : Nat) : (s.logError n v m).cfg = s.cfg := rfl
@[simp] theorem State.reg_logError (s : State) (n : BitVec 4) (v : Word) (m : Nat) (k : RegNo) : (s.logError n v m).reg k = s.reg k := rfl
@[simp] theorem State.pair_logError (s : State) (n : BitVec 4) (v : Word) (m : Nat) (k : RegNo) : (s.logError n v m).pair k = s.pair k := rfl
@[simp] theorem State.sreg_logError (s : State) (n : BitVec 4) (v : Word) (m : Nat) (k : RegNo) : (s.logError n v m).sreg k = s.sreg k := rfl
@[simp] theorem State.trapBit_logError (s : State) (n : BitVec 4) (v : Word) (m : Nat) (k : Nat) : (s.logError n v m).trapBit k = s.trapBit k := rfl
@[simp] theorem State.mainByte_logError (s : State) (n : BitVec 4) (v : Word) (m : Nat) (k : Nat) : (s.logError n v m).mainByte k = s.mainByte k := rfl
@[simp] theorem State.readByte_logError (s : State) (n : BitVec 4) (v : Word) (m : Nat) (w : View) (k : Nat) : (s.logError n v m).readByte w k = s.readByte w k := rfl
@[simp] theorem State.inMem_logError (s : State) (n : BitVec 4) (v : Word) (m : Nat) (k : Word) (l : Nat) : (s.logError n v m).inMem k l = s.inMem k l := rfl
@[simp] theorem State.op_logError (s : State) (n : BitVec 4) (v : Word) (m : Nat) (k : Opcode) : (s.logError n v m).op k = s.op k := rfl
@[simp] theorem State.segment_logError (s : State) (n : BitVec 4) (v : Word) (m : Nat) (k : Space) : (s.logError n v m).segment k = s.segment k := rfl
@[simp] theorem State.tmtEntry_logError (s : State) (n : BitVec 4) (v : Word) (m : Nat) (k : Nat) : (s.logError n v m).tmtEntry k = s.tmtEntry k := rfl
@[simp] theorem State.noCcb_logError (s : State) (n : BitVec 4) (v : Word) (m : Nat) : (s.logError n v m).noCcb = s.noCcb := rfl
@[simp] theorem State.ucodeRead_logError (s : State) (n : BitVec 4) (v : Word) (m : Nat) (k : Word) : (s.logError n v m).ucodeRead k = s.ucodeRead k := rfl
@[simp] theorem State.structRead_logError (s : State) (n : BitVec 4) (v : Word) (m : Nat) (k l : Word) : (s.logError n v m).structRead k l = s.structRead k l := rfl
@[simp] theorem State.pcbReg_logError (s : State) (n : BitVec 4) (v : Word) (m : Nat) (k : RegNo) : (s.logError n v m).pcbReg k = s.pcbReg k := rfl

/-! `State.setPowerFail` -/

@[simp] theorem State.setPowerFail_regs (s : State) (v : Bool) : (s.setPowerFail v).regs = s.regs := rfl
@[simp] theorem State.setPowerFail_pc (s : State) (v : Bool) : (s.setPowerFail v).pc = s.pc := rfl
@[simp] theorem State.setPowerFail_mode (s : State) (v : Bool) : (s.setPowerFail v).mode = s.mode := rfl
@[simp] theorem State.setPowerFail_paused (s : State) (v : Bool) : (s.setPowerFail v).paused = s.paused := rfl
@[simp] theorem State.setPowerFail_stuck (s : State) (v : Bool) : (s.setPowerFail v).stuck = s.stuck := rfl
@[simp] theorem State.setPowerFail_sr (s : State) (v : Bool) : (s.setPowerFail v).sr = s.sr := rfl
@[simp] theorem State.setPowerFail_trapsEff (s : State) (v : Bool) : (s.setPowerFail v).trapsEff = s.trapsEff := rfl
@[simp] theorem State.setPowerFail_trapsOpen (s : State) (v : Bool) : (s.setPowerFail v).trapsOpen = s.trapsOpen := rfl
@[simp] theorem State.setPowerFail_mem (s : State) (v : Bool) : (s.setPowerFail v).mem = s.mem := rfl
@[simp] theorem State.setPowerFail_memEpoch (s : State) (v : Bool) : (s.setPowerFail v).memEpoch = s.memEpoch := rfl
@[simp] theorem State.setPowerFail_tmt (s : State) (v : Bool) : (s.setPowerFail v).tmt = s.tmt := rfl
@[simp] theorem State.setPowerFail_codeLines (s : State) (v : Bool) : (s.setPowerFail v).codeLines = s.codeLines := rfl
@[simp] theorem State.setPowerFail_dataLines (s : State) (v : Bool) : (s.setPowerFail v).dataLines = s.dataLines := rfl
@[simp] theorem State.setPowerFail_prefetch (s : State) (v : Bool) : (s.setPowerFail v).prefetch = s.prefetch := rfl
@[simp] theorem State.setPowerFail_mask1 (s : State) (v : Bool) : (s.setPowerFail v).mask1 = s.mask1 := rfl
@[simp] theorem State.setPowerFail_mask2 (s : State) (v : Bool) : (s.setPowerFail v).mask2 = s.mask2 := rfl
@[simp] theorem State.setPowerFail_switch0Due (s : State) (v : Bool) : (s.setPowerFail v).switch0Due = s.switch0Due := rfl
@[simp] theorem State.setPowerFail_parityDue (s : State) (v : Bool) : (s.setPowerFail v).parityDue = s.parityDue := rfl
@[simp] theorem State.setPowerFail_logData (s : State) (v : Bool) : (s.setPowerFail v).logData = s.logData := rfl
@[simp] theorem State.setPowerFail_logCount (s : State) (v : Bool) : (s.setPowerFail v).logCount = s.logCount := rfl
@[simp] theorem State.setPowerFail_clockOut (s : State) (v : Bool) : (s.setPowerFail v).clockOut = s.clockOut := rfl
@[simp] theorem State.setPowerFail_clockIn (s : State) (v : Bool) : (s.setPowerFail v).clockIn = s.clockIn := rfl
@[simp] theorem State.setPowerFail_boards (s : State) (v : Bool) : (s.setPowerFail v).boards = s.boards := rfl
@[simp] theorem State.setPowerFail_transfer (s : State) (v : Bool) : (s.setPowerFail v).transfer = s.transfer := rfl
@[simp] theorem State.setPowerFail_busLog (s : State) (v : Bool) : (s.setPowerFail v).busLog = s.busLog := rfl
@[simp] theorem State.setPowerFail_inputs (s : State) (v : Bool) : (s.setPowerFail v).inputs = s.inputs := rfl
@[simp] theorem State.setPowerFail_between (s : State) (v : Bool) : (s.setPowerFail v).between = s.between := rfl
@[simp] theorem State.setPowerFail_draws (s : State) (v : Bool) : (s.setPowerFail v).draws = s.draws := rfl
@[simp] theorem State.setPowerFail_cfg (s : State) (v : Bool) : (s.setPowerFail v).cfg = s.cfg := rfl
@[simp] theorem State.reg_setPowerFail (s : State) (v : Bool) (k : RegNo) : (s.setPowerFail v).reg k = s.reg k := rfl
@[simp] theorem State.pair_setPowerFail (s : State) (v : Bool) (k : RegNo) : (s.setPowerFail v).pair k = s.pair k := rfl
@[simp] theorem State.sreg_setPowerFail (s : State) (v : Bool) (k : RegNo) : (s.setPowerFail v).sreg k = s.sreg k := rfl
@[simp] theorem State.trapBit_setPowerFail (s : State) (v : Bool) (k : Nat) : (s.setPowerFail v).trapBit k = s.trapBit k := rfl
@[simp] theorem State.mainByte_setPowerFail (s : State) (v : Bool) (k : Nat) : (s.setPowerFail v).mainByte k = s.mainByte k := rfl
@[simp] theorem State.readByte_setPowerFail (s : State) (v : Bool) (w : View) (k : Nat) : (s.setPowerFail v).readByte w k = s.readByte w k := rfl
@[simp] theorem State.inMem_setPowerFail (s : State) (v : Bool) (k : Word) (l : Nat) : (s.setPowerFail v).inMem k l = s.inMem k l := rfl
@[simp] theorem State.op_setPowerFail (s : State) (v : Bool) (k : Opcode) : (s.setPowerFail v).op k = s.op k := rfl
@[simp] theorem State.segment_setPowerFail (s : State) (v : Bool) (k : Space) : (s.setPowerFail v).segment k = s.segment k := rfl
@[simp] theorem State.tmtEntry_setPowerFail (s : State) (v : Bool) (k : Nat) : (s.setPowerFail v).tmtEntry k = s.tmtEntry k := rfl
@[simp] theorem State.noCcb_setPowerFail (s : State) (v : Bool) : (s.setPowerFail v).noCcb = s.noCcb := rfl
@[simp] theorem State.ucodeRead_setPowerFail (s : State) (v : Bool) (k : Word) : (s.setPowerFail v).ucodeRead k = s.ucodeRead k := rfl
@[simp] theorem State.structRead_setPowerFail (s : State) (v : Bool) (k l : Word) : (s.setPowerFail v).structRead k l = s.structRead k l := rfl
@[simp] theorem State.pcbReg_setPowerFail (s : State) (v : Bool) (k : RegNo) : (s.setPowerFail v).pcbReg k = s.pcbReg k := rfl

/-! `State.nextBoundary` -/

@[simp] theorem State.nextBoundary_regs (s : State) : (s.nextBoundary).regs = s.regs := rfl
@[simp] theorem State.nextBoundary_pc (s : State) : (s.nextBoundary).pc = s.pc := rfl
@[simp] theorem State.nextBoundary_mode (s : State) : (s.nextBoundary).mode = s.mode := rfl
@[simp] theorem State.nextBoundary_paused (s : State) : (s.nextBoundary).paused = s.paused := rfl
@[simp] theorem State.nextBoundary_stuck (s : State) : (s.nextBoundary).stuck = s.stuck := rfl
@[simp] theorem State.nextBoundary_sr (s : State) : (s.nextBoundary).sr = s.sr := rfl
@[simp] theorem State.nextBoundary_trapsEff (s : State) : (s.nextBoundary).trapsEff = s.trapsEff := rfl
@[simp] theorem State.nextBoundary_trapsOpen (s : State) : (s.nextBoundary).trapsOpen = s.trapsOpen := rfl
@[simp] theorem State.nextBoundary_mem (s : State) : (s.nextBoundary).mem = s.mem := rfl
@[simp] theorem State.nextBoundary_memEpoch (s : State) : (s.nextBoundary).memEpoch = s.memEpoch := rfl
@[simp] theorem State.nextBoundary_tmt (s : State) : (s.nextBoundary).tmt = s.tmt := rfl
@[simp] theorem State.nextBoundary_codeLines (s : State) : (s.nextBoundary).codeLines = s.codeLines := rfl
@[simp] theorem State.nextBoundary_dataLines (s : State) : (s.nextBoundary).dataLines = s.dataLines := rfl
@[simp] theorem State.nextBoundary_prefetch (s : State) : (s.nextBoundary).prefetch = s.prefetch := rfl
@[simp] theorem State.nextBoundary_mask1 (s : State) : (s.nextBoundary).mask1 = s.mask1 := rfl
@[simp] theorem State.nextBoundary_mask2 (s : State) : (s.nextBoundary).mask2 = s.mask2 := rfl
@[simp] theorem State.nextBoundary_powerFail (s : State) : (s.nextBoundary).powerFail = s.powerFail := rfl
@[simp] theorem State.nextBoundary_powerFailDue (s : State) : (s.nextBoundary).powerFailDue = s.powerFailDue := rfl
@[simp] theorem State.nextBoundary_switch0Due (s : State) : (s.nextBoundary).switch0Due = s.switch0Due := rfl
@[simp] theorem State.nextBoundary_parityDue (s : State) : (s.nextBoundary).parityDue = s.parityDue := rfl
@[simp] theorem State.nextBoundary_logData (s : State) : (s.nextBoundary).logData = s.logData := rfl
@[simp] theorem State.nextBoundary_logCount (s : State) : (s.nextBoundary).logCount = s.logCount := rfl
@[simp] theorem State.nextBoundary_clockOut (s : State) : (s.nextBoundary).clockOut = s.clockOut := rfl
@[simp] theorem State.nextBoundary_clockIn (s : State) : (s.nextBoundary).clockIn = s.clockIn := rfl
@[simp] theorem State.nextBoundary_boards (s : State) : (s.nextBoundary).boards = s.boards := rfl
@[simp] theorem State.nextBoundary_transfer (s : State) : (s.nextBoundary).transfer = s.transfer := rfl
@[simp] theorem State.nextBoundary_busLog (s : State) : (s.nextBoundary).busLog = s.busLog := rfl
@[simp] theorem State.nextBoundary_cfg (s : State) : (s.nextBoundary).cfg = s.cfg := rfl
@[simp] theorem State.reg_nextBoundary (s : State) (k : RegNo) : (s.nextBoundary).reg k = s.reg k := rfl
@[simp] theorem State.pair_nextBoundary (s : State) (k : RegNo) : (s.nextBoundary).pair k = s.pair k := rfl
@[simp] theorem State.sreg_nextBoundary (s : State) (k : RegNo) : (s.nextBoundary).sreg k = s.sreg k := rfl
@[simp] theorem State.mainByte_nextBoundary (s : State) (k : Nat) : (s.nextBoundary).mainByte k = s.mainByte k := rfl
@[simp] theorem State.readByte_nextBoundary (s : State) (w : View) (k : Nat) : (s.nextBoundary).readByte w k = s.readByte w k := rfl
@[simp] theorem State.inMem_nextBoundary (s : State) (k : Word) (l : Nat) : (s.nextBoundary).inMem k l = s.inMem k l := rfl
@[simp] theorem State.op_nextBoundary (s : State) (k : Opcode) : (s.nextBoundary).op k = s.op k := rfl
@[simp] theorem State.segment_nextBoundary (s : State) (k : Space) : (s.nextBoundary).segment k = s.segment k := rfl
@[simp] theorem State.tmtEntry_nextBoundary (s : State) (k : Nat) : (s.nextBoundary).tmtEntry k = s.tmtEntry k := rfl
@[simp] theorem State.noCcb_nextBoundary (s : State) : (s.nextBoundary).noCcb = s.noCcb := rfl
@[simp] theorem State.ucodeRead_nextBoundary (s : State) (k : Word) : (s.nextBoundary).ucodeRead k = s.ucodeRead k := rfl
@[simp] theorem State.structRead_nextBoundary (s : State) (k l : Word) : (s.nextBoundary).structRead k l = s.structRead k l := rfl
@[simp] theorem State.pcbReg_nextBoundary (s : State) (k : RegNo) : (s.nextBoundary).pcbReg k = s.pcbReg k := rfl

/-! The lines after a read -/

@[simp] theorem State.loadLine_data_codeLines (s : State) (n : Nat) : (s.loadLine .data n).codeLines = s.codeLines := rfl
@[simp] theorem State.loadLine_data_dataLines (s : State) (n : Nat) :
    (s.loadLine .data n).dataLines = s.fillData s.dataLines n := rfl
@[simp] theorem State.loadLine_code_dataLines (s : State) (n : Nat) : (s.loadLine .code n).dataLines = s.dataLines := rfl
@[simp] theorem State.loadLine_code_codeLines (s : State) (n : Nat) :
    (s.loadLine .code n).codeLines = s.fillCode s.codeLines n := rfl
@[simp] theorem State.loadLine_fetch_dataLines (s : State) (n : Nat) : (s.loadLine .fetch n).dataLines = s.dataLines := rfl

/-! `State.storeBytes` -/

@[simp] theorem State.storeBytes_regs (s : State) (n : Nat) (v : List Byte) : (s.storeBytes n v).regs = s.regs := by
 induction v generalizing s n with
 | nil => rfl
 | cons c cs ih => exact ih (s.storeByte n c) (n + 1)
@[simp] theorem State.storeBytes_pc (s : State) (n : Nat) (v : List Byte) : (s.storeBytes n v).pc = s.pc := by
 induction v generalizing s n with
 | nil => rfl
 | cons c cs ih => exact ih (s.storeByte n c) (n + 1)
@[simp] theorem State.storeBytes_mode (s : State) (n : Nat) (v : List Byte) : (s.storeBytes n v).mode = s.mode := by
 induction v generalizing s n with
 | nil => rfl
 | cons c cs ih => exact ih (s.storeByte n c) (n + 1)
@[simp] theorem State.storeBytes_paused (s : State) (n : Nat) (v : List Byte) : (s.storeBytes n v).paused = s.paused := by
 induction v generalizing s n with
 | nil => rfl
 | cons c cs ih => exact ih (s.storeByte n c) (n + 1)
@[simp] theorem State.storeBytes_stuck (s : State) (n : Nat) (v : List Byte) : (s.storeBytes n v).stuck = s.stuck := by
 induction v generalizing s n with
 | nil => rfl
 | cons c cs ih => exact ih (s.storeByte n c) (n + 1)
@[simp] theorem State.storeBytes_sr (s : State) (n : Nat) (v : List Byte) : (s.storeBytes n v).sr = s.sr := by
 induction v generalizing s n with
 | nil => rfl
 | cons c cs ih => exact ih (s.storeByte n c) (n + 1)
@[simp] theorem State.storeBytes_trapsEff (s : State) (n : Nat) (v : List Byte) : (s.storeBytes n v).trapsEff = s.trapsEff := by
 induction v generalizing s n with
 | nil => rfl
 | cons c cs ih => exact ih (s.storeByte n c) (n + 1)
@[simp] theorem State.storeBytes_trapsOpen (s : State) (n : Nat) (v : List Byte) : (s.storeBytes n v).trapsOpen = s.trapsOpen := by
 induction v generalizing s n with
 | nil => rfl
 | cons c cs ih => exact ih (s.storeByte n c) (n + 1)
@[simp] theorem State.storeBytes_memEpoch (s : State) (n : Nat) (v : List Byte) : (s.storeBytes n v).memEpoch = s.memEpoch := by
 induction v generalizing s n with
 | nil => rfl
 | cons c cs ih => exact ih (s.storeByte n c) (n + 1)
@[simp] theorem State.storeBytes_tmt (s : State) (n : Nat) (v : List Byte) : (s.storeBytes n v).tmt = s.tmt := by
 induction v generalizing s n with
 | nil => rfl
 | cons c cs ih => exact ih (s.storeByte n c) (n + 1)
@[simp] theorem State.storeBytes_codeLines (s : State) (n : Nat) (v : List Byte) : (s.storeBytes n v).codeLines = s.codeLines := by
 induction v generalizing s n with
 | nil => rfl
 | cons c cs ih => exact ih (s.storeByte n c) (n + 1)
@[simp] theorem State.storeBytes_prefetch (s : State) (n : Nat) (v : List Byte) : (s.storeBytes n v).prefetch = s.prefetch := by
 induction v generalizing s n with
 | nil => rfl
 | cons c cs ih => exact ih (s.storeByte n c) (n + 1)
@[simp] theorem State.storeBytes_mask1 (s : State) (n : Nat) (v : List Byte) : (s.storeBytes n v).mask1 = s.mask1 := by
 induction v generalizing s n with
 | nil => rfl
 | cons c cs ih => exact ih (s.storeByte n c) (n + 1)
@[simp] theorem State.storeBytes_mask2 (s : State) (n : Nat) (v : List Byte) : (s.storeBytes n v).mask2 = s.mask2 := by
 induction v generalizing s n with
 | nil => rfl
 | cons c cs ih => exact ih (s.storeByte n c) (n + 1)
@[simp] theorem State.storeBytes_powerFail (s : State) (n : Nat) (v : List Byte) : (s.storeBytes n v).powerFail = s.powerFail := by
 induction v generalizing s n with
 | nil => rfl
 | cons c cs ih => exact ih (s.storeByte n c) (n + 1)
@[simp] theorem State.storeBytes_powerFailDue (s : State) (n : Nat) (v : List Byte) : (s.storeBytes n v).powerFailDue = s.powerFailDue := by
 induction v generalizing s n with
 | nil => rfl
 | cons c cs ih => exact ih (s.storeByte n c) (n + 1)
@[simp] theorem State.storeBytes_switch0Due (s : State) (n : Nat) (v : List Byte) : (s.storeBytes n v).switch0Due = s.switch0Due := by
 induction v generalizing s n with
 | nil => rfl
 | cons c cs ih => exact ih (s.storeByte n c) (n + 1)
@[simp] theorem State.storeBytes_parityDue (s : State) (n : Nat) (v : List Byte) : (s.storeBytes n v).parityDue = s.parityDue := by
 induction v generalizing s n with
 | nil => rfl
 | cons c cs ih => exact ih (s.storeByte n c) (n + 1)
@[simp] theorem State.storeBytes_logData (s : State) (n : Nat) (v : List Byte) : (s.storeBytes n v).logData = s.logData := by
 induction v generalizing s n with
 | nil => rfl
 | cons c cs ih => exact ih (s.storeByte n c) (n + 1)
@[simp] theorem State.storeBytes_logCount (s : State) (n : Nat) (v : List Byte) : (s.storeBytes n v).logCount = s.logCount := by
 induction v generalizing s n with
 | nil => rfl
 | cons c cs ih => exact ih (s.storeByte n c) (n + 1)
@[simp] theorem State.storeBytes_clockOut (s : State) (n : Nat) (v : List Byte) : (s.storeBytes n v).clockOut = s.clockOut := by
 induction v generalizing s n with
 | nil => rfl
 | cons c cs ih => exact ih (s.storeByte n c) (n + 1)
@[simp] theorem State.storeBytes_clockIn (s : State) (n : Nat) (v : List Byte) : (s.storeBytes n v).clockIn = s.clockIn := by
 induction v generalizing s n with
 | nil => rfl
 | cons c cs ih => exact ih (s.storeByte n c) (n + 1)
@[simp] theorem State.storeBytes_boards (s : State) (n : Nat) (v : List Byte) : (s.storeBytes n v).boards = s.boards := by
 induction v generalizing s n with
 | nil => rfl
 | cons c cs ih => exact ih (s.storeByte n c) (n + 1)
@[simp] theorem State.storeBytes_transfer (s : State) (n : Nat) (v : List Byte) : (s.storeBytes n v).transfer = s.transfer := by
 induction v generalizing s n with
 | nil => rfl
 | cons c cs ih => exact ih (s.storeByte n c) (n + 1)
@[simp] theorem State.storeBytes_busLog (s : State) (n : Nat) (v : List Byte) : (s.storeBytes n v).busLog = s.busLog := by
 induction v generalizing s n with
 | nil => rfl
 | cons c cs ih => exact ih (s.storeByte n c) (n + 1)
@[simp] theorem State.storeBytes_inputs (s : State) (n : Nat) (v : List Byte) : (s.storeBytes n v).inputs = s.inputs := by
 induction v generalizing s n with
 | nil => rfl
 | cons c cs ih => exact ih (s.storeByte n c) (n + 1)
@[simp] theorem State.storeBytes_between (s : State) (n : Nat) (v : List Byte) : (s.storeBytes n v).between = s.between := by
 induction v generalizing s n with
 | nil => rfl
 | cons c cs ih => exact ih (s.storeByte n c) (n + 1)
@[simp] theorem State.storeBytes_draws (s : State) (n : Nat) (v : List Byte) : (s.storeBytes n v).draws = s.draws := by
 induction v generalizing s n with
 | nil => rfl
 | cons c cs ih => exact ih (s.storeByte n c) (n + 1)
@[simp] theorem State.storeBytes_cfg (s : State) (n : Nat) (v : List Byte) : (s.storeBytes n v).cfg = s.cfg := by
 induction v generalizing s n with
 | nil => rfl
 | cons c cs ih => exact ih (s.storeByte n c) (n + 1)
@[simp] theorem State.reg_storeBytes (s : State) (n : Nat) (v : List Byte) (k : RegNo) : (s.storeBytes n v).reg k = s.reg k := by
 unfold State.reg
 simp only [State.storeBytes_regs]
@[simp] theorem State.pair_storeBytes (s : State) (n : Nat) (v : List Byte) (k : RegNo) : (s.storeBytes n v).pair k = s.pair k := by
 unfold State.pair
 simp only [State.reg_storeBytes]
@[simp] theorem State.sreg_storeBytes (s : State) (n : Nat) (v : List Byte) (k : RegNo) : (s.storeBytes n v).sreg k = s.sreg k := by
 unfold State.sreg
 simp only [State.storeBytes_sr]
@[simp] theorem State.trapBit_storeBytes (s : State) (n : Nat) (v : List Byte) (k : Nat) : (s.storeBytes n v).trapBit k = s.trapBit k := by
 unfold State.trapBit
 simp only [State.storeBytes_trapsEff, State.storeBytes_trapsOpen, State.storeBytes_draws]
@[simp] theorem State.inMem_storeBytes (s : State) (n : Nat) (v : List Byte) (k : Word) (l : Nat) : (s.storeBytes n v).inMem k l = s.inMem k l := by
 unfold State.inMem
 simp only [State.storeBytes_cfg]
@[simp] theorem State.op_storeBytes (s : State) (n : Nat) (v : List Byte) (k : Opcode) : (s.storeBytes n v).op k = s.op k := by
 unfold State.op
 simp only [State.storeBytes_cfg]
@[simp] theorem State.segment_storeBytes (s : State) (n : Nat) (v : List Byte) (k : Space) : (s.storeBytes n v).segment k = s.segment k := by
 cases k <;> simp only [State.segment, State.sreg, State.storeBytes_sr]
@[simp] theorem State.tmtEntry_storeBytes (s : State) (n : Nat) (v : List Byte) (k : Nat) : (s.storeBytes n v).tmtEntry k = s.tmtEntry k := by
 unfold State.tmtEntry
 simp only [State.storeBytes_tmt]
@[simp] theorem State.noCcb_storeBytes (s : State) (n : Nat) (v : List Byte) : (s.storeBytes n v).noCcb = s.noCcb := by
 unfold State.noCcb
 simp only [State.sreg_storeBytes]
@[simp] theorem State.pcbReg_storeBytes (s : State) (n : Nat) (v : List Byte) (k : RegNo) : (s.storeBytes n v).pcbReg k = s.pcbReg k := by
 unfold State.pcbReg
 simp only [State.storeBytes_cfg]

/-! `State.markEntry` -/

@[simp] theorem State.markEntry_regs (s : State) (p t v : Word) : (s.markEntry p t v).regs = s.regs := State.storeBytes_regs s _ _
@[simp] theorem State.markEntry_pc (s : State) (p t v : Word) : (s.markEntry p t v).pc = s.pc := State.storeBytes_pc s _ _
@[simp] theorem State.markEntry_mode (s : State) (p t v : Word) : (s.markEntry p t v).mode = s.mode := State.storeBytes_mode s _ _
@[simp] theorem State.markEntry_paused (s : State) (p t v : Word) : (s.markEntry p t v).paused = s.paused := State.storeBytes_paused s _ _
@[simp] theorem State.markEntry_stuck (s : State) (p t v : Word) : (s.markEntry p t v).stuck = s.stuck := State.storeBytes_stuck s _ _
@[simp] theorem State.markEntry_sr (s : State) (p t v : Word) : (s.markEntry p t v).sr = s.sr := State.storeBytes_sr s _ _
@[simp] theorem State.markEntry_trapsEff (s : State) (p t v : Word) : (s.markEntry p t v).trapsEff = s.trapsEff := State.storeBytes_trapsEff s _ _
@[simp] theorem State.markEntry_trapsOpen (s : State) (p t v : Word) : (s.markEntry p t v).trapsOpen = s.trapsOpen := State.storeBytes_trapsOpen s _ _
@[simp] theorem State.markEntry_memEpoch (s : State) (p t v : Word) : (s.markEntry p t v).memEpoch = s.memEpoch := State.storeBytes_memEpoch s _ _
@[simp] theorem State.markEntry_tmt (s : State) (p t v : Word) : (s.markEntry p t v).tmt = s.tmt := State.storeBytes_tmt s _ _
@[simp] theorem State.markEntry_codeLines (s : State) (p t v : Word) : (s.markEntry p t v).codeLines = s.codeLines := State.storeBytes_codeLines s _ _
@[simp] theorem State.markEntry_prefetch (s : State) (p t v : Word) : (s.markEntry p t v).prefetch = s.prefetch := State.storeBytes_prefetch s _ _
@[simp] theorem State.markEntry_mask1 (s : State) (p t v : Word) : (s.markEntry p t v).mask1 = s.mask1 := State.storeBytes_mask1 s _ _
@[simp] theorem State.markEntry_mask2 (s : State) (p t v : Word) : (s.markEntry p t v).mask2 = s.mask2 := State.storeBytes_mask2 s _ _
@[simp] theorem State.markEntry_powerFail (s : State) (p t v : Word) : (s.markEntry p t v).powerFail = s.powerFail := State.storeBytes_powerFail s _ _
@[simp] theorem State.markEntry_powerFailDue (s : State) (p t v : Word) : (s.markEntry p t v).powerFailDue = s.powerFailDue := State.storeBytes_powerFailDue s _ _
@[simp] theorem State.markEntry_switch0Due (s : State) (p t v : Word) : (s.markEntry p t v).switch0Due = s.switch0Due := State.storeBytes_switch0Due s _ _
@[simp] theorem State.markEntry_parityDue (s : State) (p t v : Word) : (s.markEntry p t v).parityDue = s.parityDue := State.storeBytes_parityDue s _ _
@[simp] theorem State.markEntry_logData (s : State) (p t v : Word) : (s.markEntry p t v).logData = s.logData := State.storeBytes_logData s _ _
@[simp] theorem State.markEntry_logCount (s : State) (p t v : Word) : (s.markEntry p t v).logCount = s.logCount := State.storeBytes_logCount s _ _
@[simp] theorem State.markEntry_clockOut (s : State) (p t v : Word) : (s.markEntry p t v).clockOut = s.clockOut := State.storeBytes_clockOut s _ _
@[simp] theorem State.markEntry_clockIn (s : State) (p t v : Word) : (s.markEntry p t v).clockIn = s.clockIn := State.storeBytes_clockIn s _ _
@[simp] theorem State.markEntry_boards (s : State) (p t v : Word) : (s.markEntry p t v).boards = s.boards := State.storeBytes_boards s _ _
@[simp] theorem State.markEntry_transfer (s : State) (p t v : Word) : (s.markEntry p t v).transfer = s.transfer := State.storeBytes_transfer s _ _
@[simp] theorem State.markEntry_busLog (s : State) (p t v : Word) : (s.markEntry p t v).busLog = s.busLog := State.storeBytes_busLog s _ _
@[simp] theorem State.markEntry_inputs (s : State) (p t v : Word) : (s.markEntry p t v).inputs = s.inputs := State.storeBytes_inputs s _ _
@[simp] theorem State.markEntry_between (s : State) (p t v : Word) : (s.markEntry p t v).between = s.between := State.storeBytes_between s _ _
@[simp] theorem State.markEntry_draws (s : State) (p t v : Word) : (s.markEntry p t v).draws = s.draws := State.storeBytes_draws s _ _
@[simp] theorem State.markEntry_cfg (s : State) (p t v : Word) : (s.markEntry p t v).cfg = s.cfg := State.storeBytes_cfg s _ _
@[simp] theorem State.reg_markEntry (s : State) (p t v : Word) (k : RegNo) : (s.markEntry p t v).reg k = s.reg k := by
 unfold State.markEntry
 simp
@[simp] theorem State.pair_markEntry (s : State) (p t v : Word) (k : RegNo) : (s.markEntry p t v).pair k = s.pair k := by
 unfold State.markEntry
 simp
@[simp] theorem State.sreg_markEntry (s : State) (p t v : Word) (k : RegNo) : (s.markEntry p t v).sreg k = s.sreg k := by
 unfold State.markEntry
 simp
@[simp] theorem State.trapBit_markEntry (s : State) (p t v : Word) (k : Nat) : (s.markEntry p t v).trapBit k = s.trapBit k := by
 unfold State.markEntry
 simp
@[simp] theorem State.inMem_markEntry (s : State) (p t v : Word) (k : Word) (l : Nat) : (s.markEntry p t v).inMem k l = s.inMem k l := by
 unfold State.markEntry
 simp
@[simp] theorem State.op_markEntry (s : State) (p t v : Word) (k : Opcode) : (s.markEntry p t v).op k = s.op k := by
 unfold State.markEntry
 simp
@[simp] theorem State.segment_markEntry (s : State) (p t v : Word) (k : Space) : (s.markEntry p t v).segment k = s.segment k := by
 unfold State.markEntry
 simp
@[simp] theorem State.tmtEntry_markEntry (s : State) (p t v : Word) (k : Nat) : (s.markEntry p t v).tmtEntry k = s.tmtEntry k := by
 unfold State.markEntry
 simp
@[simp] theorem State.noCcb_markEntry (s : State) (p t v : Word) : (s.markEntry p t v).noCcb = s.noCcb := by
 unfold State.markEntry
 simp
@[simp] theorem State.pcbReg_markEntry (s : State) (p t v : Word) (k : RegNo) : (s.markEntry p t v).pcbReg k = s.pcbReg k := by
 unfold State.markEntry
 simp

/-! Recording an event -/

@[simp] theorem State.recordEvent_regs (s : State) (e : Event) : (s.recordEvent e).regs = s.regs := by
  cases e with
  | pageFault k _ _ => cases k <;> rfl
  | _ => rfl
@[simp] theorem State.savePc_regs (s : State) (e : Event) (r : Word) : (s.savePc e r).regs = s.regs := by
  cases e <;> (unfold State.savePc; dsimp only; try split) <;> rfl
@[simp] theorem State.recordEvent_pc (s : State) (e : Event) : (s.recordEvent e).pc = s.pc := by
  cases e with
  | pageFault k _ _ => cases k <;> rfl
  | _ => rfl
@[simp] theorem State.savePc_pc (s : State) (e : Event) (r : Word) : (s.savePc e r).pc = s.pc := by
  cases e <;> (unfold State.savePc; dsimp only; try split) <;> rfl
@[simp] theorem State.recordEvent_mode (s : State) (e : Event) : (s.recordEvent e).mode = s.mode := by
  cases e with
  | pageFault k _ _ => cases k <;> rfl
  | _ => rfl
@[simp] theorem State.savePc_mode (s : State) (e : Event) (r : Word) : (s.savePc e r).mode = s.mode := by
  cases e <;> (unfold State.savePc; dsimp only; try split) <;> rfl
@[simp] theorem State.recordEvent_paused (s : State) (e : Event) : (s.recordEvent e).paused = s.paused := by
  cases e with
  | pageFault k _ _ => cases k <;> rfl
  | _ => rfl
@[simp] theorem State.savePc_paused (s : State) (e : Event) (r : Word) : (s.savePc e r).paused = s.paused := by
  cases e <;> (unfold State.savePc; dsimp only; try split) <;> rfl
@[simp] theorem State.recordEvent_stuck (s : State) (e : Event) : (s.recordEvent e).stuck = s.stuck := by
  cases e with
  | pageFault k _ _ => cases k <;> rfl
  | _ => rfl
@[simp] theorem State.savePc_stuck (s : State) (e : Event) (r : Word) : (s.savePc e r).stuck = s.stuck := by
  cases e <;> (unfold State.savePc; dsimp only; try split) <;> rfl
@[simp] theorem State.recordEvent_trapsEff (s : State) (e : Event) : (s.recordEvent e).trapsEff = s.trapsEff := by
  cases e with
  | pageFault k _ _ => cases k <;> rfl
  | _ => rfl
@[simp] theorem State.savePc_trapsEff (s : State) (e : Event) (r : Word) : (s.savePc e r).trapsEff = s.trapsEff := by
  cases e <;> (unfold State.savePc; dsimp only; try split) <;> rfl
@[simp] theorem State.recordEvent_trapsOpen (s : State) (e : Event) : (s.recordEvent e).trapsOpen = s.trapsOpen := by
  cases e with
  | pageFault k _ _ => cases k <;> rfl
  | _ => rfl
@[simp] theorem State.savePc_trapsOpen (s : State) (e : Event) (r : Word) : (s.savePc e r).trapsOpen = s.trapsOpen := by
  cases e <;> (unfold State.savePc; dsimp only; try split) <;> rfl
@[simp] theorem State.recordEvent_mem (s : State) (e : Event) : (s.recordEvent e).mem = s.mem := by
  cases e with
  | pageFault k _ _ => cases k <;> rfl
  | _ => rfl
@[simp] theorem State.savePc_mem (s : State) (e : Event) (r : Word) : (s.savePc e r).mem = s.mem := by
  cases e <;> (unfold State.savePc; dsimp only; try split) <;> rfl
@[simp] theorem State.recordEvent_memEpoch (s : State) (e : Event) : (s.recordEvent e).memEpoch = s.memEpoch := by
  cases e with
  | pageFault k _ _ => cases k <;> rfl
  | _ => rfl
@[simp] theorem State.savePc_memEpoch (s : State) (e : Event) (r : Word) : (s.savePc e r).memEpoch = s.memEpoch := by
  cases e <;> (unfold State.savePc; dsimp only; try split) <;> rfl
@[simp] theorem State.recordEvent_tmt (s : State) (e : Event) : (s.recordEvent e).tmt = s.tmt := by
  cases e with
  | pageFault k _ _ => cases k <;> rfl
  | _ => rfl
@[simp] theorem State.savePc_tmt (s : State) (e : Event) (r : Word) : (s.savePc e r).tmt = s.tmt := by
  cases e <;> (unfold State.savePc; dsimp only; try split) <;> rfl
@[simp] theorem State.recordEvent_codeLines (s : State) (e : Event) : (s.recordEvent e).codeLines = s.codeLines := by
  cases e with
  | pageFault k _ _ => cases k <;> rfl
  | _ => rfl
@[simp] theorem State.savePc_codeLines (s : State) (e : Event) (r : Word) : (s.savePc e r).codeLines = s.codeLines := by
  cases e <;> (unfold State.savePc; dsimp only; try split) <;> rfl
@[simp] theorem State.recordEvent_dataLines (s : State) (e : Event) : (s.recordEvent e).dataLines = s.dataLines := by
  cases e with
  | pageFault k _ _ => cases k <;> rfl
  | _ => rfl
@[simp] theorem State.savePc_dataLines (s : State) (e : Event) (r : Word) : (s.savePc e r).dataLines = s.dataLines := by
  cases e <;> (unfold State.savePc; dsimp only; try split) <;> rfl
@[simp] theorem State.recordEvent_prefetch (s : State) (e : Event) : (s.recordEvent e).prefetch = s.prefetch := by
  cases e with
  | pageFault k _ _ => cases k <;> rfl
  | _ => rfl
@[simp] theorem State.savePc_prefetch (s : State) (e : Event) (r : Word) : (s.savePc e r).prefetch = s.prefetch := by
  cases e <;> (unfold State.savePc; dsimp only; try split) <;> rfl
@[simp] theorem State.recordEvent_mask1 (s : State) (e : Event) : (s.recordEvent e).mask1 = s.mask1 := by
  cases e with
  | pageFault k _ _ => cases k <;> rfl
  | _ => rfl
@[simp] theorem State.savePc_mask1 (s : State) (e : Event) (r : Word) : (s.savePc e r).mask1 = s.mask1 := by
  cases e <;> (unfold State.savePc; dsimp only; try split) <;> rfl
@[simp] theorem State.recordEvent_mask2 (s : State) (e : Event) : (s.recordEvent e).mask2 = s.mask2 := by
  cases e with
  | pageFault k _ _ => cases k <;> rfl
  | _ => rfl
@[simp] theorem State.savePc_mask2 (s : State) (e : Event) (r : Word) : (s.savePc e r).mask2 = s.mask2 := by
  cases e <;> (unfold State.savePc; dsimp only; try split) <;> rfl
@[simp] theorem State.recordEvent_powerFail (s : State) (e : Event) : (s.recordEvent e).powerFail = s.powerFail := by
  cases e with
  | pageFault k _ _ => cases k <;> rfl
  | _ => rfl
@[simp] theorem State.savePc_powerFail (s : State) (e : Event) (r : Word) : (s.savePc e r).powerFail = s.powerFail := by
  cases e <;> (unfold State.savePc; dsimp only; try split) <;> rfl
@[simp] theorem State.recordEvent_powerFailDue (s : State) (e : Event) : (s.recordEvent e).powerFailDue = s.powerFailDue := by
  cases e with
  | pageFault k _ _ => cases k <;> rfl
  | _ => rfl
@[simp] theorem State.savePc_powerFailDue (s : State) (e : Event) (r : Word) : (s.savePc e r).powerFailDue = s.powerFailDue := by
  cases e <;> (unfold State.savePc; dsimp only; try split) <;> rfl
@[simp] theorem State.recordEvent_switch0Due (s : State) (e : Event) : (s.recordEvent e).switch0Due = s.switch0Due := by
  cases e with
  | pageFault k _ _ => cases k <;> rfl
  | _ => rfl
@[simp] theorem State.savePc_switch0Due (s : State) (e : Event) (r : Word) : (s.savePc e r).switch0Due = s.switch0Due := by
  cases e <;> (unfold State.savePc; dsimp only; try split) <;> rfl
@[simp] theorem State.recordEvent_parityDue (s : State) (e : Event) : (s.recordEvent e).parityDue = s.parityDue := by
  cases e with
  | pageFault k _ _ => cases k <;> rfl
  | _ => rfl
@[simp] theorem State.savePc_parityDue (s : State) (e : Event) (r : Word) : (s.savePc e r).parityDue = s.parityDue := by
  cases e <;> (unfold State.savePc; dsimp only; try split) <;> rfl
@[simp] theorem State.recordEvent_logData (s : State) (e : Event) : (s.recordEvent e).logData = s.logData := by
  cases e with
  | pageFault k _ _ => cases k <;> rfl
  | _ => rfl
@[simp] theorem State.savePc_logData (s : State) (e : Event) (r : Word) : (s.savePc e r).logData = s.logData := by
  cases e <;> (unfold State.savePc; dsimp only; try split) <;> rfl
@[simp] theorem State.recordEvent_logCount (s : State) (e : Event) : (s.recordEvent e).logCount = s.logCount := by
  cases e with
  | pageFault k _ _ => cases k <;> rfl
  | _ => rfl
@[simp] theorem State.savePc_logCount (s : State) (e : Event) (r : Word) : (s.savePc e r).logCount = s.logCount := by
  cases e <;> (unfold State.savePc; dsimp only; try split) <;> rfl
@[simp] theorem State.recordEvent_clockOut (s : State) (e : Event) : (s.recordEvent e).clockOut = s.clockOut := by
  cases e with
  | pageFault k _ _ => cases k <;> rfl
  | _ => rfl
@[simp] theorem State.savePc_clockOut (s : State) (e : Event) (r : Word) : (s.savePc e r).clockOut = s.clockOut := by
  cases e <;> (unfold State.savePc; dsimp only; try split) <;> rfl
@[simp] theorem State.recordEvent_clockIn (s : State) (e : Event) : (s.recordEvent e).clockIn = s.clockIn := by
  cases e with
  | pageFault k _ _ => cases k <;> rfl
  | _ => rfl
@[simp] theorem State.savePc_clockIn (s : State) (e : Event) (r : Word) : (s.savePc e r).clockIn = s.clockIn := by
  cases e <;> (unfold State.savePc; dsimp only; try split) <;> rfl
@[simp] theorem State.recordEvent_boards (s : State) (e : Event) : (s.recordEvent e).boards = s.boards := by
  cases e with
  | pageFault k _ _ => cases k <;> rfl
  | _ => rfl
@[simp] theorem State.savePc_boards (s : State) (e : Event) (r : Word) : (s.savePc e r).boards = s.boards := by
  cases e <;> (unfold State.savePc; dsimp only; try split) <;> rfl
@[simp] theorem State.recordEvent_transfer (s : State) (e : Event) : (s.recordEvent e).transfer = s.transfer := by
  cases e with
  | pageFault k _ _ => cases k <;> rfl
  | _ => rfl
@[simp] theorem State.savePc_transfer (s : State) (e : Event) (r : Word) : (s.savePc e r).transfer = s.transfer := by
  cases e <;> (unfold State.savePc; dsimp only; try split) <;> rfl
@[simp] theorem State.recordEvent_busLog (s : State) (e : Event) : (s.recordEvent e).busLog = s.busLog := by
  cases e with
  | pageFault k _ _ => cases k <;> rfl
  | _ => rfl
@[simp] theorem State.savePc_busLog (s : State) (e : Event) (r : Word) : (s.savePc e r).busLog = s.busLog := by
  cases e <;> (unfold State.savePc; dsimp only; try split) <;> rfl
@[simp] theorem State.recordEvent_inputs (s : State) (e : Event) : (s.recordEvent e).inputs = s.inputs := by
  cases e with
  | pageFault k _ _ => cases k <;> rfl
  | _ => rfl
@[simp] theorem State.savePc_inputs (s : State) (e : Event) (r : Word) : (s.savePc e r).inputs = s.inputs := by
  cases e <;> (unfold State.savePc; dsimp only; try split) <;> rfl
@[simp] theorem State.recordEvent_between (s : State) (e : Event) : (s.recordEvent e).between = s.between := by
  cases e with
  | pageFault k _ _ => cases k <;> rfl
  | _ => rfl
@[simp] theorem State.savePc_between (s : State) (e : Event) (r : Word) : (s.savePc e r).between = s.between := by
  cases e <;> (unfold State.savePc; dsimp only; try split) <;> rfl
@[simp] theorem State.recordEvent_draws (s : State) (e : Event) : (s.recordEvent e).draws = s.draws := by
  cases e with
  | pageFault k _ _ => cases k <;> rfl
  | _ => rfl
@[simp] theorem State.savePc_draws (s : State) (e : Event) (r : Word) : (s.savePc e r).draws = s.draws := by
  cases e <;> (unfold State.savePc; dsimp only; try split) <;> rfl
@[simp] theorem State.recordEvent_cfg (s : State) (e : Event) : (s.recordEvent e).cfg = s.cfg := by
  cases e with
  | pageFault k _ _ => cases k <;> rfl
  | _ => rfl
@[simp] theorem State.savePc_cfg (s : State) (e : Event) (r : Word) : (s.savePc e r).cfg = s.cfg := by
  cases e <;> (unfold State.savePc; dsimp only; try split) <;> rfl
@[simp] theorem State.enterAt_regs (s : State) (e : Event) (r v : Word) : (s.enterAt e r v).regs = s.regs := by
  simp [State.enterAt]
@[simp] theorem State.enterAt_stuck (s : State) (e : Event) (r v : Word) : (s.enterAt e r v).stuck = s.stuck := by
  simp [State.enterAt]
@[simp] theorem State.enterAt_trapsEff (s : State) (e : Event) (r v : Word) : (s.enterAt e r v).trapsEff = s.trapsEff := by
  simp [State.enterAt]
@[simp] theorem State.enterAt_trapsOpen (s : State) (e : Event) (r v : Word) : (s.enterAt e r v).trapsOpen = s.trapsOpen := by
  simp [State.enterAt]
@[simp] theorem State.enterAt_mem (s : State) (e : Event) (r v : Word) : (s.enterAt e r v).mem = s.mem := by
  simp [State.enterAt]
@[simp] theorem State.enterAt_memEpoch (s : State) (e : Event) (r v : Word) : (s.enterAt e r v).memEpoch = s.memEpoch := by
  simp [State.enterAt]
@[simp] theorem State.enterAt_tmt (s : State) (e : Event) (r v : Word) : (s.enterAt e r v).tmt = s.tmt := by
  simp [State.enterAt]
@[simp] theorem State.enterAt_codeLines (s : State) (e : Event) (r v : Word) : (s.enterAt e r v).codeLines = s.codeLines := by
  simp [State.enterAt]
@[simp] theorem State.enterAt_mask1 (s : State) (e : Event) (r v : Word) : (s.enterAt e r v).mask1 = s.mask1 := by
  simp [State.enterAt]
@[simp] theorem State.enterAt_mask2 (s : State) (e : Event) (r v : Word) : (s.enterAt e r v).mask2 = s.mask2 := by
  simp [State.enterAt]
@[simp] theorem State.enterAt_powerFail (s : State) (e : Event) (r v : Word) : (s.enterAt e r v).powerFail = s.powerFail := by
  simp [State.enterAt]
@[simp] theorem State.enterAt_powerFailDue (s : State) (e : Event) (r v : Word) : (s.enterAt e r v).powerFailDue = s.powerFailDue := by
  simp [State.enterAt]
@[simp] theorem State.enterAt_switch0Due (s : State) (e : Event) (r v : Word) : (s.enterAt e r v).switch0Due = s.switch0Due := by
  simp [State.enterAt]
@[simp] theorem State.enterAt_parityDue (s : State) (e : Event) (r v : Word) : (s.enterAt e r v).parityDue = s.parityDue := by
  simp [State.enterAt]
@[simp] theorem State.enterAt_logData (s : State) (e : Event) (r v : Word) : (s.enterAt e r v).logData = s.logData := by
  simp [State.enterAt]
@[simp] theorem State.enterAt_logCount (s : State) (e : Event) (r v : Word) : (s.enterAt e r v).logCount = s.logCount := by
  simp [State.enterAt]
@[simp] theorem State.enterAt_clockOut (s : State) (e : Event) (r v : Word) : (s.enterAt e r v).clockOut = s.clockOut := by
  simp [State.enterAt]
@[simp] theorem State.enterAt_clockIn (s : State) (e : Event) (r v : Word) : (s.enterAt e r v).clockIn = s.clockIn := by
  simp [State.enterAt]
@[simp] theorem State.enterAt_boards (s : State) (e : Event) (r v : Word) : (s.enterAt e r v).boards = s.boards := by
  simp [State.enterAt]
@[simp] theorem State.enterAt_transfer (s : State) (e : Event) (r v : Word) : (s.enterAt e r v).transfer = s.transfer := by
  simp [State.enterAt]
@[simp] theorem State.enterAt_busLog (s : State) (e : Event) (r v : Word) : (s.enterAt e r v).busLog = s.busLog := by
  simp [State.enterAt]
@[simp] theorem State.enterAt_inputs (s : State) (e : Event) (r v : Word) : (s.enterAt e r v).inputs = s.inputs := by
  simp [State.enterAt]
@[simp] theorem State.enterAt_between (s : State) (e : Event) (r v : Word) : (s.enterAt e r v).between = s.between := by
  simp [State.enterAt]
@[simp] theorem State.enterAt_draws (s : State) (e : Event) (r v : Word) : (s.enterAt e r v).draws = s.draws := by
  simp [State.enterAt]
@[simp] theorem State.enterAt_cfg (s : State) (e : Event) (r v : Word) : (s.enterAt e r v).cfg = s.cfg := by
  simp [State.enterAt]
@[simp] theorem State.reg_enterAt (s : State) (e : Event) (r v : Word) (k : RegNo) : (s.enterAt e r v).reg k = s.reg k := by
  simp [State.reg]
@[simp] theorem State.pair_enterAt (s : State) (e : Event) (r v : Word) (k : RegNo) : (s.enterAt e r v).pair k = s.pair k := by
  simp [State.pair]
@[simp] theorem State.trapBit_enterAt (s : State) (e : Event) (r v : Word) (k : Nat) : (s.enterAt e r v).trapBit k = s.trapBit k := by
  simp [State.trapBit]
@[simp] theorem State.mainByte_enterAt (s : State) (e : Event) (r v : Word) (k : Nat) : (s.enterAt e r v).mainByte k = s.mainByte k := by
  simp [State.mainByte]
@[simp] theorem State.inMem_enterAt (s : State) (e : Event) (r v : Word) (k : Word) (l : Nat) : (s.enterAt e r v).inMem k l = s.inMem k l := by
  simp [State.inMem]
@[simp] theorem State.op_enterAt (s : State) (e : Event) (r v : Word) (k : Opcode) : (s.enterAt e r v).op k = s.op k := by
  simp [State.op]
@[simp] theorem State.tmtEntry_enterAt (s : State) (e : Event) (r v : Word) (k : Nat) : (s.enterAt e r v).tmtEntry k = s.tmtEntry k := by
  simp [State.tmtEntry]
@[simp] theorem State.pcbReg_enterAt (s : State) (e : Event) (r v : Word) (k : RegNo) : (s.enterAt e r v).pcbReg k = s.pcbReg k := by
  simp [State.pcbReg]

end Sys2Proof.Machine
end

