-- ==== Sys2Proof/Laws/Cache.lean ====
section
/-! SUPPORT. Laws of the cache: which line an address hits after a load, a store, a DMA write and a flush, that each keeps
the form of a half of the cache, and what a data read returns after a store. -/

namespace Sys2Proof.Machine

/-! ### Lines of a line number -/

/-- Line number and tag of an address are its quadword. -/
theorem quad_eq_iff {a b : Nat} : (lineIndex a = lineIndex b ∧ lineTag a = lineTag b) ↔ a / 16 = b / 16 := by
  unfold lineIndex lineTag
  omega

theorem lineIndex_lt (a : Nat) : lineIndex a < 256 := Nat.mod_lt _ (by decide)

theorem setLines_nil (c : Lines) (i : Nat) : setLines c i [] = sparseErase c i := rfl

theorem setLines_cons (c : Lines) (i : Nat) {ls : List Line} (h : ls ≠ []) : setLines c i ls = sparseSet c i ls := by
  cases ls with
  | nil => exact absurd rfl h
  | cons l t => rfl

/-- The valid lines after those of a line number were replaced by at least one. -/
theorem linesAt_setLines (c : Lines) (i : Nat) {ls : List Line} (h : ls ≠ []) (j : Nat) :
    linesAt (setLines c i ls) j = if j = i then ls else linesAt c j := by
  rw [setLines_cons c i h]
  unfold linesAt
  split
  · subst j
    rw [sparseGet_set_same]
    rfl
  · rename_i hj
    rw [sparseGet_set_other _ _ hj]

/-- In canonical form the valid lines after those of a line number were replaced. -/
theorem linesAt_setLines_wf {c : Lines} (hw : SparseWf c) (i : Nat) (ls : List Line) (j : Nat) :
    linesAt (setLines c i ls) j = if j = i then ls else linesAt c j := by
  cases ls with
  | nil =>
    rw [setLines_nil]
    unfold linesAt
    split
    · subst j
      rw [sparseGet_erase_same hw]
      rfl
    · rename_i hj
      rw [sparseGet_erase_other hw hj]
  | cons l t => exact linesAt_setLines c i (List.cons_ne_nil l t) j

@[simp] theorem linesAt_nil (i : Nat) : linesAt [] i = [] := rfl
@[simp] theorem findLine_nil (a : Nat) : findLine [] a = none := rfl

/-- The line of a hit is among the valid lines. -/
theorem findLine_mem {c : Lines} {a : Nat} {l : Line} (h : findLine c a = some l) :
    l ∈ linesAt c (lineIndex a) ∧ l.tag = lineTag a := by
  have := List.find?_some h
  exact ⟨List.mem_of_find?_eq_some h, by simpa using this⟩

/-- Addresses of one quadword hit the same line. -/
theorem findLine_quad (c : Lines) {a b : Nat} (h : a / 16 = b / 16) : findLine c a = findLine c b := by
  obtain ⟨h1, h2⟩ := quad_eq_iff.2 h
  unfold findLine
  rw [h1, h2]

/-! ### Bytes of a line -/

theorem Line.byte_setByte (l : Line) (a : Nat) (b : Byte) (c : Nat) :
    (l.setByte a b).byte c = if c % 16 = a % 16 then b else l.byte c := by
  unfold Line.byte Line.setByte
  simp only [Vector.getElem_set, eq_comm]

@[simp] theorem Line.setByte_tag (l : Line) (a : Nat) (b : Byte) : (l.setByte a b).tag = l.tag := rfl

/-- The line an address hits after a byte was replaced in the lines. -/
theorem findLine_setLineByte (c : Lines) (a : Nat) (b : Byte) (x : Nat) :
    findLine (setLineByte c a b) x =
      if x / 16 = a / 16 then (findLine c x).map fun l => l.setByte a b else findLine c x := by
  unfold setLineByte
  split
  · rename_i hn
    split
    · rename_i hx
      rw [findLine_quad c hx, hn]
      rfl
    · rfl
  · rename_i l hl
    have hne : (linesAt c (lineIndex a)).map (fun l => if l.tag = lineTag a then l.setByte a b else l) ≠ [] := by
      have := (findLine_mem hl).1
      intro h
      rw [List.map_eq_nil_iff.1 h] at this
      cases this
    have htag : ∀ m : Line, (if m.tag = lineTag a then m.setByte a b else m).tag = m.tag := by
      intro m
      split <;> rfl
    rw [findLine, linesAt_setLines c _ hne]
    by_cases hi : lineIndex x = lineIndex a
    · rw [if_pos hi, List.find?_map]
      have hp : ((fun m : Line => m.tag == lineTag x) ∘ fun m => if m.tag = lineTag a then m.setByte a b else m) =
          fun m => m.tag == lineTag x := by
        funext m
        simp only [Function.comp, htag]
      rw [hp, ← hi]
      change (findLine c x).map _ = _
      split
      · rename_i hx
        have ht := (quad_eq_iff.2 hx).2
        cases hf : findLine c x with
        | none => rfl
        | some m => simp only [Option.map_some, (findLine_mem hf).2, ht, if_true]
      · rename_i hx
        have ht : lineTag x ≠ lineTag a := fun h => hx (quad_eq_iff.1 ⟨hi, h⟩)
        cases hf : findLine c x with
        | none => rfl
        | some m => simp only [Option.map_some, (findLine_mem hf).2, if_neg ht]
    · rw [if_neg hi]
      split
      · rename_i hx
        exact absurd (quad_eq_iff.2 hx).1 hi
      · rfl

/-- The line an address hits after a quadword was loaded. -/
theorem findLine_loadQuad (c : Lines) (a : Nat) (q : Vector Byte 16) (n x : Nat) :
    findLine (loadQuad c a q n) x =
      if (findLine c a).isSome then findLine c x
      else if x / 16 = a / 16 then some ⟨lineTag a, q⟩
      else if lineIndex x = lineIndex a then
        (keepLine (linesAt c (lineIndex a)) n).find? fun l => l.tag == lineTag x
      else findLine c x := by
  unfold loadQuad
  split
  · rename_i hl
    rw [hl]
    rfl
  · rename_i hl
    rw [hl, findLine, linesAt_setLines c _ (List.cons_ne_nil _ _)]
    by_cases hx : x / 16 = a / 16
    · obtain ⟨h1, h2⟩ := quad_eq_iff.2 hx
      rw [if_pos h1, h2]
      simp [hx]
    · by_cases hi : lineIndex x = lineIndex a
      · have ht : ¬lineTag a = lineTag x := fun h => hx (quad_eq_iff.1 ⟨hi, h.symm⟩)
        rw [if_pos hi]
        simp [hx, hi, ht]
      · rw [if_neg hi]
        simp [hx, hi, findLine]

/-- A quadword just loaded hits. -/
theorem findLine_loadQuad_same {c : Lines} {a : Nat} (q : Vector Byte 16) (n : Nat) :
    findLine (loadQuad c a q n) a = some ((findLine c a).getD ⟨lineTag a, q⟩) := by
  rw [findLine_loadQuad]
  cases h : findLine c a with
  | none => simp
  | some l => simp

/-! ### The form of a half of the cache -/

theorem linesOk_nil : Lines.Ok [] :=
  { wf := List.Pairwise.nil
    keys := fun _ h => nomatch h
    ways := fun _ h => nomatch h
    tags := fun _ h => nomatch h }

/-- At a line number there are at most two valid lines, of different quadwords. -/
theorem Lines.Ok.at {c : Lines} (h : Lines.Ok c) (i : Nat) :
    (linesAt c i).length ≤ 2 ∧ ((linesAt c i).map Line.tag).Nodup := by
  unfold linesAt
  cases hg : sparseGet c i with
  | none => exact ⟨Nat.zero_le _, List.Pairwise.nil⟩
  | some ls =>
    have hm := mem_of_sparseGet hg
    exact ⟨(h.ways _ hm).2, h.tags _ hm⟩

/-- Lines of a line number replaced by at most two of different quadwords keep the form. -/
theorem Lines.Ok.setLines {c : Lines} (h : Lines.Ok c) {i : Nat} (hi : i < 256) {ls : List Line} (h2 : ls.length ≤ 2)
    (ht : (ls.map Line.tag).Nodup) : Lines.Ok (setLines c i ls) := by
  cases ls with
  | nil =>
    exact {
      wf := sparseWf_erase h.wf i
      keys := fun p hp => h.keys p (mem_sparseErase hp)
      ways := fun p hp => h.ways p (mem_sparseErase hp)
      tags := fun p hp => h.tags p (mem_sparseErase hp) }
  | cons l t =>
    have hm : ∀ p ∈ sparseSet c i (l :: t), p = (i, l :: t) ∨ p ∈ c := fun p hp => mem_sparseSet hp
    exact {
      wf := sparseWf_set h.wf i _
      keys := fun p hp => by
        rcases hm p hp with rfl | hp
        · exact hi
        · exact h.keys p hp
      ways := fun p hp => by
        rcases hm p hp with rfl | hp
        · exact ⟨Nat.succ_le_succ (Nat.zero_le _), h2⟩
        · exact h.ways p hp
      tags := fun p hp => by
        rcases hm p hp with rfl | hp
        · exact ht
        · exact h.tags p hp }

/-- What stays when a line is loaded is at most one of the lines. -/
theorem keepLine_cases (ls : List Line) (n : Nat) : keepLine ls n = [] ∨ ∃ l ∈ ls, keepLine ls n = [l] := by
  match ls with
  | [] => exact .inl rfl
  | [l] =>
    show (if n % 2 = 0 then [l] else []) = [] ∨ ∃ k ∈ [l], (if n % 2 = 0 then [l] else []) = [k]
    split
    · exact .inr ⟨l, List.mem_cons_self, rfl⟩
    · exact .inl rfl
  | l :: m :: t =>
    show (if n % 2 = 0 then [l] else [m]) = [] ∨ ∃ k ∈ l :: m :: t, (if n % 2 = 0 then [l] else [m]) = [k]
    split
    · exact .inr ⟨l, List.mem_cons_self, rfl⟩
    · exact .inr ⟨m, List.mem_cons_of_mem _ List.mem_cons_self, rfl⟩

theorem Lines.Ok.loadQuad {c : Lines} (h : Lines.Ok c) (a : Nat) (q : Vector Byte 16) (n : Nat) :
    Lines.Ok (loadQuad c a q n) := by
  unfold Machine.loadQuad
  split
  · exact h
  · rename_i hn
    have hne : ∀ l ∈ linesAt c (lineIndex a), l.tag ≠ lineTag a := by
      intro l hl
      have := List.find?_eq_none.1 hn l hl
      simpa using this
    refine h.setLines (lineIndex_lt a) ?_ ?_
    · rcases keepLine_cases (linesAt c (lineIndex a)) n with e | ⟨l, _, e⟩ <;> rw [e] <;> simp
    · rcases keepLine_cases (linesAt c (lineIndex a)) n with e | ⟨l, hl, e⟩ <;> rw [e]
      · simp
      · simp only [List.map_cons, List.map_nil, List.nodup_cons, List.mem_singleton, List.not_mem_nil, not_false_iff,
          List.nodup_nil, and_true]
        exact (hne l hl).symm

theorem Lines.Ok.setLineByte {c : Lines} (h : Lines.Ok c) (a : Nat) (b : Byte) : Lines.Ok (setLineByte c a b) := by
  unfold Machine.setLineByte
  split
  · exact h
  · obtain ⟨h1, h2⟩ := h.at (lineIndex a)
    refine h.setLines (lineIndex_lt a) (by rwa [List.length_map]) ?_
    rw [List.map_map]
    rw [show Line.tag ∘ (fun l : Line => if l.tag = lineTag a then l.setByte a b else l) = Line.tag from ?_]
    · exact h2
    · funext m
      simp only [Function.comp]
      split <;> rfl

theorem Lines.Ok.setLineBytes {c : Lines} (h : Lines.Ok c) (a : Nat) (bs : List Byte) : Lines.Ok (setLineBytes c a bs) := by
  induction bs generalizing c a with
  | nil => exact h
  | cons b bs ih => exact ih (h.setLineByte a b) (a + 1)

theorem Lines.Ok.dropLine {c : Lines} (h : Lines.Ok c) (a : Nat) : Lines.Ok (dropLine c a) := by
  unfold Machine.dropLine
  split
  · exact h
  · obtain ⟨h1, h2⟩ := h.at (lineIndex a)
    refine h.setLines (lineIndex_lt a) (Nat.le_trans (List.length_filter_le _ _) h1) ?_
    exact h2.sublist (List.filter_sublist.map _)

theorem Lines.Ok.snoopWord {c : Lines} (h : Lines.Ok c) (a : Nat) (bs : List Byte) (n : Nat) :
    Lines.Ok (snoopWord c a bs n) := by
  unfold Machine.snoopWord
  split
  · exact h
  · split
    · exact h
    · split
      · exact h.setLineBytes a bs
      · exact h.dropLine a

theorem Lines.Ok.fillData {c : Lines} (h : Lines.Ok c) (s : State) (a : Nat) : Lines.Ok (s.fillData c a) :=
  h.loadQuad a _ _

theorem Lines.Ok.fillCode {c : Lines} (h : Lines.Ok c) (s : State) (a : Nat) : Lines.Ok (s.fillCode c a) :=
  h.loadQuad a _ _

/-! ### Reads and their lines -/

/-- A read keeps the form of both halves. -/
theorem State.loadLine_ok {s : State} (hc : Lines.Ok s.codeLines) (hd : Lines.Ok s.dataLines) (v : View) (a : Nat) :
    Lines.Ok (s.loadLine v a).codeLines ∧ Lines.Ok (s.loadLine v a).dataLines := by
  cases v with
  | data => exact ⟨hc, hd.fillData s a⟩
  | code => exact ⟨hc.fillCode s a, hd⟩
  | fetch =>
    refine ⟨?_, hd⟩
    show Lines.Ok (if (sparseGet s.prefetch (a / 4)).isSome then s.codeLines else s.fillCode s.codeLines a)
    split
    · exact hc
    · exact hc.fillCode s a

theorem State.loadLines_ok {s : State} (hd : Lines.Ok s.dataLines) (as : List Word) :
    Lines.Ok (s.loadLines as).dataLines := by
  unfold State.loadLines
  dsimp only
  generalize s.dataLines = c at hd ⊢
  induction as generalizing c with
  | nil => exact hd
  | cons a as ih => exact ih _ (hd.fillData s a.toNat)

/-- Words read ahead keep the form of the code lines, and the buffers hold at most one word for each. -/
theorem State.readAheadWords_ok (s : State) (ws : List Nat) {c : Lines} {b : Buffers} (hc : Lines.Ok c)
    (hb : SparseWf b) :
    Lines.Ok (s.readAheadWords ws c b).1 ∧ SparseWf (s.readAheadWords ws c b).2 ∧
      (s.readAheadWords ws c b).2.length ≤ b.length + ws.length := by
  induction ws generalizing c b with
  | nil => exact ⟨hc, hb, Nat.le_refl _⟩
  | cons w ws ih =>
    have hl : ∀ v : Word, (sparseSet b w v).length + ws.length ≤ b.length + (w :: ws).length := by
      intro v
      have := length_sparseSet b w v
      simp only [List.length_cons]
      omega
    unfold State.readAheadWords
    split
    · obtain ⟨h1, h2, h3⟩ := ih hc (sparseWf_set hb w _)
      exact ⟨h1, h2, Nat.le_trans h3 (hl _)⟩
    · obtain ⟨h1, h2, h3⟩ := ih (hc.fillCode s (4 * w)) (sparseWf_set hb w _)
      exact ⟨h1, h2, Nat.le_trans h3 (hl _)⟩

/-- After the read-ahead the buffers hold at most four words. -/
theorem State.readAhead_ok {s : State} (hc : Lines.Ok s.codeLines) :
    Lines.Ok s.readAhead.codeLines ∧ SparseWf s.readAhead.prefetch ∧ s.readAhead.prefetch.length ≤ 4 := by
  unfold State.readAhead
  obtain ⟨h1, h2, h3⟩ := s.readAheadWords_ok
    (((Config.readAhead s.draws).take 4).map (· % (s.cfg.memSize.toNat / 4))) hc sparseWf_nil
  refine ⟨h1, h2, Nat.le_trans h3 ?_⟩
  simp only [List.length_nil, List.length_map, List.length_take]
  omega

/-! ### Data reads after a store -/

/-- What a data read returns after a byte was stored: write-through (20_memory.md rule R125). -/
theorem State.readByte_storeByte (s : State) (a : Nat) (b : Byte) (c : Nat) :
    (s.storeByte a b).readByte .data c = if c = a then b else s.readByte .data c := by
  have hm : (s.storeByte a b).mainByte c = if c = a then b else s.mainByte c := by
    unfold State.mainByte State.storeByte
    split
    · subst c
      simp
    · rename_i h
      simp only [sparseGet_set_other _ _ h]
  have hf : findLine (s.storeByte a b).dataLines c = _ := findLine_setLineByte s.dataLines a b c
  simp only [State.readByte, State.throughLines, hf, hm]
  by_cases hq : c / 16 = a / 16
  · rw [if_pos hq]
    cases findLine s.dataLines c with
    | none => rfl
    | some l =>
      simp only [Option.map_some, Line.byte_setByte]
      have : c % 16 = a % 16 ↔ c = a := by omega
      simp only [this]
  · rw [if_neg hq, if_neg (fun h : c = a => hq (by rw [h])), if_neg (fun h : c = a => hq (by rw [h]))]

/-- What a data read returns after bytes were stored. -/
theorem State.readByte_storeBytes (s : State) (a : Nat) (bs : List Byte) (c : Nat) :
    (s.storeBytes a bs).readByte .data c =
      if a ≤ c ∧ c < a + bs.length then bs.getD (c - a) 0 else s.readByte .data c := by
  induction bs generalizing s a with
  | nil =>
    rw [if_neg (by simp only [List.length_nil]; omega)]
    rfl
  | cons b bs ih =>
    simp only [State.storeBytes, ih, State.readByte_storeByte, List.length_cons]
    by_cases h : c = a
    · subst h
      rw [if_neg (by omega), if_pos rfl, if_pos (by omega)]
      simp
    · rw [if_neg h]
      by_cases h2 : a + 1 ≤ c ∧ c < a + 1 + bs.length
      · rw [if_pos h2, if_pos (by omega), show c - a = (c - (a + 1)) + 1 by omega, List.getD_cons_succ]
      · rw [if_neg h2, if_neg (by omega)]

/-- Where no line holds the quadword of an address, a data read returns main memory. -/
theorem State.readByte_miss {s : State} {a : Nat} (h : findLine s.dataLines a = none) :
    s.readByte .data a = s.mainByte a := by
  simp only [State.readByte, State.throughLines, h]

/-- After every line was made invalid, data reads return main memory (20_memory.md rule R127). -/
theorem State.readByte_flushCache (s : State) (a : Nat) : s.flushCache.readByte .data a = s.mainByte a := rfl

/-! ### Coherence -/

/-- The bytes of the quadword of an address in main memory. -/
theorem State.mainQuad_byte (s : State) {a x : Nat} (h : x / 16 = a / 16) :
    (⟨lineTag a, s.mainQuad a⟩ : Line).byte x = s.mainByte x := by
  have key : ∀ k : Fin 16, (s.mainQuad a)[k.val] = s.mainByte (a / 16 * 16 + k.val) := fun k => by
    fin_cases k <;> rfl
  show (s.mainQuad a)[x % 16] = s.mainByte x
  rw [key ⟨x % 16, Nat.mod_lt _ (by decide)⟩, show a / 16 * 16 + x % 16 = x by omega]

/-- The valid lines of a line number are found by their own tag. -/
theorem Lines.Ok.find_mem {c : Lines} (h : Lines.Ok c) {i : Nat} {l : Line} (hl : l ∈ linesAt c i) :
    (linesAt c i).find? (fun m => m.tag == l.tag) = some l := by
  have hn := (h.at i).2
  generalize linesAt c i = ls at hl hn
  induction ls with
  | nil => cases hl
  | cons m t ih =>
    simp only [List.map_cons, List.nodup_cons] at hn
    rcases List.mem_cons.1 hl with rfl | hl
    · simp
    · have : m.tag ≠ l.tag := fun e => hn.1 (e ▸ List.mem_map_of_mem hl)
      rw [List.find?_cons_of_neg (by simpa using this)]
      exact ih hl hn.2

/-- A read of the data half leaves every data read as it was where the lines hold what main memory holds. -/
theorem State.Coherent.fillData {s : State} (h : s.Coherent) (hd : Lines.Ok s.dataLines) (a : Nat) :
    (s.loadLine .data a).Coherent := by
  intro x
  show (match findLine (loadQuad s.dataLines a (s.mainQuad a) _) x with
    | some l => l.byte x
    | none => s.mainByte x) = s.mainByte x
  have hx := h x
  simp only [State.readByte, State.throughLines] at hx
  rw [findLine_loadQuad]
  split
  · rename_i l hl
    split at hl
    · rw [hl] at hx
      exact hx
    · split at hl
      · rename_i hq
        cases hl
        exact s.mainQuad_byte hq
      · split at hl
        · rename_i hi
          have hm := List.mem_of_find?_eq_some hl
          have ht : l.tag = lineTag x := by simpa using List.find?_some hl
          rcases keepLine_cases (linesAt s.dataLines (lineIndex a)) (Config.freeVictim s.draws false (a / 16)) with
            e | ⟨m, hm2, e⟩
          · rw [e] at hm
            cases hm
          · rw [e, List.mem_singleton] at hm
            subst hm
            have hf : findLine s.dataLines x = some l := by
              rw [← hi] at hm2
              have := hd.find_mem hm2
              rwa [ht] at this
            rw [hf] at hx
            exact hx
        · rw [hl] at hx
          exact hx
  · rfl

/-- A store keeps the data lines and main memory in step. -/
theorem State.Coherent.storeByte {s : State} (h : s.Coherent) (a : Nat) (b : Byte) : (s.storeByte a b).Coherent := by
  intro x
  rw [State.readByte_storeByte, h x]
  unfold State.mainByte State.storeByte
  split
  · subst x
    simp
  · rename_i hx
    simp only [sparseGet_set_other _ _ hx]

theorem State.Coherent.storeBytes {s : State} (h : s.Coherent) (a : Nat) (bs : List Byte) :
    (s.storeBytes a bs).Coherent := by
  induction bs generalizing s a with
  | nil => exact h
  | cons b bs ih => exact ih (h.storeByte a b) (a + 1)

/-- Stores keep the form of the data lines. -/
theorem State.storeBytes_dataOk {s : State} (h : Lines.Ok s.dataLines) (a : Nat) (bs : List Byte) :
    Lines.Ok (s.storeBytes a bs).dataLines := by
  induction bs generalizing s a with
  | nil => exact h
  | cons b bs ih => exact ih (s := s.storeByte a b) (h.setLineByte a b) (a + 1)

/-- A word written by DMA keeps the form of both halves. -/
theorem State.dmaWord_ok {s : State} (hc : Lines.Ok s.codeLines) (hd : Lines.Ok s.dataLines) (a : Nat) (w : Word) :
    Lines.Ok (s.dmaWord a w).codeLines ∧ Lines.Ok (s.dmaWord a w).dataLines :=
  ⟨hc.snoopWord _ _ _, hd.snoopWord _ _ _⟩

end Sys2Proof.Machine
end

