-- ==== Sys2Proof/Laws/Decode.lean ====
section
/-! SUPPORT. The opcode assignment: a legal one gives every name a number of its own, so that names and numbers answer
each other (30_encoding.md rule R150). -/

namespace Sys2Proof

open Sys2Proof.Config

/-- `Opcode.all` lists every opcode at its index. -/
theorem Opcode.all_getElem? (o : Opcode) : Opcode.all[o.ctorIdx]? = some o := by
  cases o <;> rfl

theorem Opcode.ctorIdx_lt (o : Opcode) : o.ctorIdx < Opcode.all.length := by
  obtain ⟨h, _⟩ := List.getElem?_eq_some_iff.1 o.all_getElem?
  exact h

/-- A search in two lists side by side finds the name that stands at the index of a number, when no number occurs
twice. -/
theorem Config.OpcodeMap.lookupIn_getElem {os : List Opcode} {cs : List Byte} {k : Nat} {o : Opcode} {b : Byte}
    (hn : cs.Nodup) (ho : os[k]? = some o) (hc : cs[k]? = some b) : OpcodeMap.lookupIn os cs b = some o := by
  induction os generalizing cs k with
  | nil => simp at ho
  | cons p os ih =>
    cases cs with
    | nil => simp at hc
    | cons c cs =>
      cases k with
      | zero =>
        simp only [List.getElem?_cons_zero, Option.some.injEq] at ho hc
        simp [OpcodeMap.lookupIn, ho, hc]
      | succ k =>
        simp only [List.getElem?_cons_succ] at ho hc
        have hne : c ≠ b := by
          rintro rfl
          exact (List.nodup_cons.1 hn).1 (List.mem_of_getElem? hc)
        simp only [OpcodeMap.lookupIn, if_neg hne]
        exact ih (List.nodup_cons.1 hn).2 ho hc

/-- What a search finds stands at the index of the number. -/
theorem Config.OpcodeMap.lookupIn_some {os : List Opcode} {cs : List Byte} {o : Opcode} {b : Byte}
    (h : OpcodeMap.lookupIn os cs b = some o) : ∃ k : Nat, os[k]? = some o ∧ cs[k]? = some b := by
  induction os generalizing cs with
  | nil => simp [OpcodeMap.lookupIn] at h
  | cons p os ih =>
    cases cs with
    | nil => simp [OpcodeMap.lookupIn] at h
    | cons c cs =>
      unfold OpcodeMap.lookupIn at h
      split at h
      · exact ⟨0, by simpa using h, by simpa⟩
      · obtain ⟨k, h1, h2⟩ := ih h
        exact ⟨k + 1, by simpa using h1, by simpa using h2⟩

/-- The number of a name under a legal assignment leads back to the name. -/
theorem Config.OpcodeMap.lookup_code {m : OpcodeMap} (h : m.legal = true) (o : Opcode) :
    m.lookup (m.code o) = some o := by
  simp only [OpcodeMap.legal, Bool.and_eq_true, beq_iff_eq, decide_eq_true_eq] at h
  refine OpcodeMap.lookupIn_getElem h.1.2 (Opcode.all_getElem? o) ?_
  have hl : o.ctorIdx < m.length := by
    rw [h.1.1]
    exact o.ctorIdx_lt
  simp [OpcodeMap.code, List.getD, List.getElem?_eq_getElem hl]

/-- The name of a number has that number. -/
theorem Config.OpcodeMap.code_of_lookup {m : OpcodeMap} {b : Byte} {o : Opcode} (h : m.lookup b = some o) :
    m.code o = b := by
  obtain ⟨k, h1, h2⟩ := OpcodeMap.lookupIn_some h
  have hk : k = o.ctorIdx := by
    have hn : Opcode.all.Nodup := by decide +kernel
    have h3 := Opcode.all_getElem? o
    obtain ⟨i1, e1⟩ := List.getElem?_eq_some_iff.1 h1
    obtain ⟨i2, e2⟩ := List.getElem?_eq_some_iff.1 h3
    exact (List.Nodup.getElem_inj_iff hn).1 (e1.trans e2.symm)
  subst hk
  simp [OpcodeMap.code, List.getD, h2]

/-- The structure bits of the number of a name under a legal assignment. -/
theorem Config.OpcodeMap.fits_code {m : OpcodeMap} (h : m.legal = true) (o : Opcode) :
    Opcode.fits o (m.code o) = true := by
  simp only [OpcodeMap.legal, Bool.and_eq_true, List.all_eq_true] at h
  exact h.2 o (List.mem_of_getElem? (Opcode.all_getElem? o))

/-- The first byte tells the length of an instruction under a legal assignment (30_encoding.md rule R146). -/
theorem lengthOfFirstByte_code {m : OpcodeMap} (h : m.legal = true) (o : Opcode) :
    lengthOfFirstByte (m.code o) = o.format.length := by
  have hf := OpcodeMap.fits_code h o
  simp only [Opcode.fits, Bool.and_eq_true] at hf
  have h1 := hf.1
  revert h1
  unfold lengthOfFirstByte
  cases o.format <;> simp only [Format.length, Bool.and_eq_true, Bool.not_eq_true']
  · intro a
    simp [a]
  · rintro ⟨a, b⟩
    simp [a, b]
  · rintro ⟨a, b⟩
    simp [a, b]

/-- The bytes of an instruction are as many as its format says. -/
theorem encode_length (m : OpcodeMap) (i : Instr) : (encode m i).length = i.length := by
  cases i <;> rfl

end Sys2Proof
end

