-- ==== Sys2Proof/Laws/Memory.lean ====
section
/-! SUPPORT. Laws of real memory: what a store, a DMA transfer and a microcode access do to each byte, and that every
memory operation keeps the canonical form and stays inside installed memory. -/

namespace Sys2Proof.Machine

/-! ### Bytes and words -/

/-- A word is the concatenation of its bytes. -/
@[simp] theorem wordOfBytes_bytesOfWord (v : Word) :
    wordOfBytes (v.extractLsb' 24 8) (v.extractLsb' 16 8) (v.extractLsb' 8 8) (v.extractLsb' 0 8) = v := by
  unfold wordOfBytes
  ext i hi
  simp only [BitVec.getElem_append, BitVec.getElem_extractLsb']
  split
  · simp [BitVec.getLsbD_eq_getElem hi]
  · split
    · rename_i h1 h2
      rw [show 8 + (i - 8) = i by omega, BitVec.getLsbD_eq_getElem hi]
    · split
      · rename_i h1 h2 h3
        rw [show 16 + (i - 8 - 8) = i by omega, BitVec.getLsbD_eq_getElem hi]
      · rename_i h1 h2 h3
        rw [show 24 + (i - 8 - 8 - 8) = i by omega, BitVec.getLsbD_eq_getElem hi]

/-- A halfword is the concatenation of its bytes. -/
@[simp] theorem halfOfBytes_bytesOfHalf (v : Half) : halfOfBytes (v.extractLsb' 8 8) (v.extractLsb' 0 8) = v := by
  unfold halfOfBytes
  ext i hi
  simp only [BitVec.getElem_append, BitVec.getElem_extractLsb']
  split
  · simp [BitVec.getLsbD_eq_getElem hi]
  · rename_i h1
    rw [show 8 + (i - 8) = i by omega, BitVec.getLsbD_eq_getElem hi]

@[simp] theorem bytesOfWord_length (v : Word) : (bytesOfWord v).length = 4 := by simp [bytesOfWord]
@[simp] theorem bytesOfHalf_length (v : Half) : (bytesOfHalf v).length = 2 := by simp [bytesOfHalf]

/-! ### One byte -/

/-- A stored byte is read back, and every other byte of main memory is as it was. -/
theorem State.mainByte_storeByte (s : State) (a : Nat) (b : Byte) (c : Nat) :
    (s.storeByte a b).mainByte c = if c = a then b else s.mainByte c := by
  unfold State.mainByte State.storeByte
  split
  · subst c
    simp
  · rename_i h
    simp only [sparseGet_set_other _ _ h]

/-- A word written by DMA is in main memory, and every other byte of main memory is as it was. -/
theorem State.mainByte_dmaWord (s : State) (a : Nat) (w : Word) (c : Nat) :
    (s.dmaWord a w).mainByte c = if a ≤ c ∧ c < a + 4 then byteOfWord w (c - a) else s.mainByte c := by
  unfold State.mainByte State.dmaWord
  dsimp only
  rw [sparseGet_setFrom, bytesOfWord_length]
  split
  · rename_i h
    obtain ⟨h1, h2⟩ := h
    have hb : ∀ k : Fin 4, ((bytesOfWord w)[k.val]?).getD (Config.unwrittenByte s.memEpoch c) = byteOfWord w k.val :=
      fun k => by fin_cases k <;> rfl
    exact hb ⟨c - a, by omega⟩
  · rfl

/-! ### Bytes in ascending order -/

/-- What a store of bytes leaves in every byte of main memory. -/
theorem State.mainByte_storeBytes (s : State) (a : Nat) (bs : List Byte) (c : Nat) :
    (s.storeBytes a bs).mainByte c = if a ≤ c ∧ c < a + bs.length then bs.getD (c - a) 0 else s.mainByte c := by
  induction bs generalizing s a with
  | nil =>
    rw [if_neg (by simp only [List.length_nil]; omega)]
    rfl
  | cons b bs ih =>
    simp only [State.storeBytes, ih, State.mainByte_storeByte, List.length_cons]
    by_cases h : c = a
    · subst h
      rw [if_neg (by omega), if_pos rfl, if_pos (by omega)]
      simp
    · rw [if_neg h]
      by_cases h2 : a + 1 ≤ c ∧ c < a + 1 + bs.length
      · rw [if_pos h2, if_pos (by omega), show c - a = (c - (a + 1)) + 1 by omega, List.getD_cons_succ]
      · rw [if_neg h2, if_neg (by omega)]

/-- A byte outside the stored ones is as it was. -/
theorem State.mainByte_storeBytes_other (s : State) (a : Nat) (bs : List Byte) {c : Nat}
    (h : c < a ∨ a + bs.length ≤ c) : (s.storeBytes a bs).mainByte c = s.mainByte c := by
  rw [State.mainByte_storeBytes, if_neg (by omega)]

/-- A stored word is read back from main memory. -/
theorem State.mainWord_storeBytes_same (s : State) (a : Nat) (v : Word) :
    (s.storeBytes a (bytesOfWord v)).mainWord a = v := by
  unfold State.mainWord
  have hl := bytesOfWord_length v
  simp only [State.mainByte_storeBytes]
  rw [if_pos (by omega), if_pos (by omega), if_pos (by omega), if_pos (by omega)]
  simp [bytesOfWord]

/-- A word apart from the stored bytes is as it was. -/
theorem State.mainWord_storeBytes_other (s : State) (a : Nat) (bs : List Byte) {c : Nat}
    (h : c + 4 ≤ a ∨ a + bs.length ≤ c) : (s.storeBytes a bs).mainWord c = s.mainWord c := by
  unfold State.mainWord
  simp only [State.mainByte_storeBytes]
  rw [if_neg (by omega), if_neg (by omega), if_neg (by omega), if_neg (by omega)]

/-! ### The canonical form -/

theorem State.storeByte_memWf {s : State} (h : Memory.wf s.mem) (a : Nat) (b : Byte) :
    Memory.wf (s.storeByte a b).mem := sparseWf_set h a b

theorem State.storeBytes_memWf {s : State} (h : Memory.wf s.mem) (a : Nat) (bs : List Byte) :
    Memory.wf (s.storeBytes a bs).mem := by
  induction bs generalizing s a with
  | nil => exact h
  | cons b bs ih => exact ih (State.storeByte_memWf h a b) (a + 1)

theorem State.dmaWord_memWf {s : State} (h : Memory.wf s.mem) (a : Nat) (w : Word) : Memory.wf (s.dmaWord a w).mem :=
  sparseWf_setFrom h a _

/-- Memory lists only addresses below `n` after a store of bytes below `n`. -/
theorem State.storeBytes_keysBelow {s : State} {n : Nat} (h : KeysBelow n s.mem) {a : Nat} {bs : List Byte}
    (hn : a + bs.length ≤ n) : KeysBelow n (s.storeBytes a bs).mem := by
  induction bs generalizing s a with
  | nil => exact h
  | cons b bs ih =>
    simp only [List.length_cons] at hn
    refine ih (s := s.storeByte a b) (fun p hp => ?_) (by omega)
    rcases mem_sparseSet hp with rfl | hp
    · simp only
      omega
    · exact h p hp

/-- Memory lists only addresses below `n` after a DMA write below `n`. -/
theorem State.dmaWord_keysBelow {s : State} {n : Nat} (h : KeysBelow n s.mem) {a : Nat} (w : Word) (hn : a + 4 ≤ n) :
    KeysBelow n (s.dmaWord a w).mem := fun p hp => by
  rcases key_sparseSetFrom hp with hp | hp
  · rw [bytesOfWord_length] at hp
    omega
  · exact h p hp

/-! ### Microcode accesses -/

/-- Everything a microcode read can answer with a value. -/
theorem State.ucodeRead_ok {s : State} {a v : Word} (h : s.ucodeRead a = .ok v) :
    a.toNat % 4 = 0 ∧ s.inMem a 4 = true ∧ v = s.readWord .data a.toNat := by
  unfold State.ucodeRead at h
  split at h
  · cases h
  · split at h
    · cases h
      exact ⟨by omega, by assumption, rfl⟩
    · cases h

/-- When a microcode read answers with a value. -/
theorem State.ucodeRead_of {s : State} {a : Word} (h1 : a.toNat % 4 = 0) (h2 : s.inMem a 4 = true) :
    s.ucodeRead a = .ok (s.readWord .data a.toNat) := by
  unfold State.ucodeRead
  rw [if_neg (by omega), if_pos h2]

/-- Everything a microcode write can answer with a state. -/
theorem State.ucodeWrite_ok {s t : State} {a v : Word} (h : s.ucodeWrite a v = .ok t) :
    a.toNat % 4 = 0 ∧ s.inMem a 4 = true ∧ t = s.storeBytes a.toNat (bytesOfWord v) := by
  unfold State.ucodeWrite at h
  split at h
  · cases h
  · split at h
    · cases h
      exact ⟨by omega, by assumption, rfl⟩
    · cases h

/-- When a microcode write answers with a state. -/
theorem State.ucodeWrite_of {s : State} {a : Word} (h1 : a.toNat % 4 = 0) (h2 : s.inMem a 4 = true) (v : Word) :
    s.ucodeWrite a v = .ok (s.storeBytes a.toNat (bytesOfWord v)) := by
  unfold State.ucodeWrite
  rw [if_neg (by omega), if_pos h2]

/-- Installed memory, as a bound. -/
theorem State.inMem_iff {s : State} {a : Word} {n : Nat} : s.inMem a n = true ↔ a.toNat + n ≤ s.cfg.memSize.toNat := by
  simp [State.inMem]

/-- Everything a microcode read can answer with a value and a state. -/
theorem State.ucodeLoad_ok {s t : State} {a v : Word} (h : s.ucodeLoad a = .ok (v, t)) :
    s.ucodeRead a = .ok v ∧ t = s.loadLine .data a.toNat := by
  unfold State.ucodeLoad at h
  split at h
  · cases h
  · rename_i w hw
    cases h
    exact ⟨hw, rfl⟩

/-! ### Control structures -/

/-- Everything the address of a word of a control structure can be (93_implementation_defined.md U13). -/
theorem State.structAddr_ok {s : State} {base offset a : Word} (h : s.structAddr base offset = .ok a) :
    base.toNat % 4 = 0 ∧ base.toNat + offset.toNat + 4 ≤ s.cfg.memSize.toNat ∧ a = base + offset ∧
      a.toNat = base.toNat + offset.toNat := by
  unfold State.structAddr at h
  split at h
  · cases h
  · split at h
    · rename_i h1 h2
      cases h
      have := s.cfg.memSize.isLt
      exact ⟨by omega, h2, rfl, by rw [BitVec.toNat_add, Nat.mod_eq_of_lt (by omega)]⟩
    · cases h

/-- When a control structure has a word at an offset. -/
theorem State.structAddr_of {s : State} {base offset : Word} (h1 : base.toNat % 4 = 0)
    (h2 : base.toNat + offset.toNat + 4 ≤ s.cfg.memSize.toNat) : s.structAddr base offset = .ok (base + offset) := by
  unfold State.structAddr
  rw [if_neg (by omega), if_pos h2]

/-- Everything a read of a control structure can answer with a value. -/
theorem State.structRead_ok {s : State} {base offset v : Word} (h : s.structRead base offset = .ok v) :
    base.toNat % 4 = 0 ∧ base.toNat + offset.toNat + 4 ≤ s.cfg.memSize.toNat ∧
      s.ucodeRead (base + offset) = .ok v := by
  unfold State.structRead at h
  split at h
  · cases h
  · rename_i a ha
    obtain ⟨h1, h2, rfl, _⟩ := State.structAddr_ok ha
    exact ⟨h1, h2, h⟩

/-- Everything a read of a control structure can answer with a value and a state. -/
theorem State.structLoad_ok {s t : State} {base offset v : Word} (h : s.structLoad base offset = .ok (v, t)) :
    s.structRead base offset = .ok v ∧ t = s.loadLine .data (base + offset).toNat := by
  unfold State.structLoad at h
  split at h
  · cases h
  · rename_i a ha
    obtain ⟨_, _, rfl, _⟩ := State.structAddr_ok ha
    obtain ⟨h1, h2⟩ := State.ucodeLoad_ok h
    unfold State.structRead
    rw [ha]
    exact ⟨h1, h2⟩

/-- Everything a write of a control structure can answer with a state. -/
theorem State.structWrite_ok {s t : State} {base offset v : Word} (h : s.structWrite base offset v = .ok t) :
    base.toNat % 4 = 0 ∧ base.toNat + offset.toNat + 4 ≤ s.cfg.memSize.toNat ∧ s.inMem (base + offset) 4 = true ∧
      t = s.storeBytes (base + offset).toNat (bytesOfWord v) := by
  unfold State.structWrite at h
  split at h
  · cases h
  · rename_i a ha
    obtain ⟨h1, h2, rfl, _⟩ := State.structAddr_ok ha
    obtain ⟨_, h3, h4⟩ := State.ucodeWrite_ok h
    exact ⟨h1, h2, h3, h4⟩

/-! ### DMA -/

/-- A transfer has at most four words. -/
theorem Dma.cycles_length (d : Dma) : d.cycles.length ≤ 4 := by
  cases d with
  | read w burst errors => cases burst <;> simp [Dma.cycles, cyclesFrom, List.range, List.range.loop]
  | write w v => simp [Dma.cycles, cyclesFrom]
  | writeBurst w v0 v1 v2 v3 => simp [Dma.cycles, cyclesFrom]

/-- Words at ascending word addresses from an aligned one are aligned. -/
theorem cyclesFrom_aligned {a : Nat} (h : a % 4 = 0) (os : List DmaOp) : ∀ c ∈ cyclesFrom a os, c.address % 4 = 0 := by
  induction os generalizing a with
  | nil => exact fun c hc => by cases hc
  | cons o os ih =>
    intro c hc
    rcases List.mem_cons.1 hc with rfl | hc
    · exact h
    · exact ih (by omega) c hc

/-- Every transfer is of aligned words (60_exceptions.md rule R543). -/
theorem Dma.cycles_aligned (d : Dma) : ∀ c ∈ d.cycles, c.address % 4 = 0 := by
  cases d <;> exact cyclesFrom_aligned (Nat.mul_mod_left _ _) _

/-- The first matching element changed keeps the length of every part that the change does not move. -/
theorem updateFirst_filter_length {α : Type} {p q : α → Bool} {f : α → α} (hf : ∀ x, q (f x) = q x) (l : List α) :
    ((updateFirst p f l).filter q).length = (l.filter q).length := by
  induction l with
  | nil => rfl
  | cons x t ih =>
    simp only [updateFirst]
    split
    · simp only [List.filter_cons, hf]
      split <;> rfl
    · simp only [List.filter_cons]
      split
      · simp only [List.length_cons, ih]
      · exact ih

/-- Everything a DMA event can answer with a state: boards with other queues, after a grant the transfer of the board of
the highest priority on the bus, after a word that word in the log or in installed memory. -/
theorem State.dma_ok {s t : State} {e : DmaEvent} (h : s.dma e = .ok t) :
    (∃ device d, e = .request device d ∧ t = s.onBoard device (Board.addTransfer d)) ∨
    ((∀ device d, e ≠ .request device d) ∧ t = s) ∨
    (∃ b d, e = .grant ∧ s.transfer = [] ∧ s.dmaRequester = some b ∧ b.transfers.head? = some d ∧
      t = { s with boards := updateFirst (fun c => c == b) Board.granted s.boards, transfer := d.cycles }) ∨
    ∃ c cs, e = .word ∧ s.transfer = c :: cs ∧ c.address + 4 ≤ s.cfg.memSize.toNat ∧
      t = ({ s with transfer := cs } : State).dmaCycle c := by
  cases e with
  | request device d =>
    cases h
    exact .inl ⟨device, d, rfl, rfl⟩
  | grant =>
    simp only [State.dma, State.dmaGrant] at h
    split at h
    · rename_i hi
      split at h
      · cases h
        exact .inr (.inl ⟨nofun, rfl⟩)
      · rename_i b hb
        split at h
        · cases h
          exact .inr (.inl ⟨nofun, rfl⟩)
        · rename_i d ds hd
          cases h
          exact .inr (.inr (.inl ⟨b, d, rfl, List.isEmpty_iff.1 hi, hb, by rw [hd]; rfl, rfl⟩))
    · cases h
      exact .inr (.inl ⟨nofun, rfl⟩)
  | word =>
    simp only [State.dma] at h
    split at h
    · cases h
      exact .inr (.inl ⟨nofun, rfl⟩)
    · rename_i c cs hc
      split at h
      · rename_i hm
        cases h
        exact .inr (.inr (.inr ⟨c, cs, rfl, hc, by simpa [State.dmaInMem] using hm, rfl⟩))
      · cases h

/-- What holds before a DMA event and is kept by a change of the boards that leaves each on its chain, by a transfer that
gets the bus, by the end of a word, by a log entry and by a word written to installed memory holds after it. -/
theorem State.dma_induct {P : State → Prop} {s t : State} {e : DmaEvent} (h : s.dma e = .ok t) (h0 : P s)
    (hboard : ∀ u p f, (∀ b : Board, (f b).chain2 = b.chain2) → P u → P { u with boards := updateFirst p f u.boards })
    (hgrant : ∀ u (d : Dma), P u → P { u with transfer := d.cycles })
    (hnext : ∀ u c cs, u.transfer = c :: cs → P u → P { u with transfer := cs })
    (hlog : ∀ u o, P u → P { u with busLog := o :: u.busLog })
    (hwrite : ∀ u a w, P u → a + 4 ≤ u.cfg.memSize.toNat → P (u.dmaWord a w)) : P t := by
  rcases State.dma_ok h with ⟨device, d, _, rfl⟩ | ⟨_, rfl⟩ | ⟨b, d, _, _, _, _, rfl⟩ | ⟨c, cs, _, hc, hm, rfl⟩
  · exact hboard s _ (Board.addTransfer d) (fun _ => rfl) h0
  · exact h0
  · exact hgrant _ d (hboard s (fun c => c == b) Board.granted (fun _ => rfl) h0)
  · have h1 := hnext s c cs hc h0
    unfold State.dmaCycle
    split
    · exact hlog _ _ h1
    · exact hwrite _ _ _ h1 hm

theorem State.dmaAll_induct {P : State → Prop} {s t : State} {ds : List DmaEvent} (h : s.dmaAll ds = .ok t) (h0 : P s)
    (hboard : ∀ u p f, (∀ b : Board, (f b).chain2 = b.chain2) → P u → P { u with boards := updateFirst p f u.boards })
    (hgrant : ∀ u (d : Dma), P u → P { u with transfer := d.cycles })
    (hnext : ∀ u c cs, u.transfer = c :: cs → P u → P { u with transfer := cs })
    (hlog : ∀ u o, P u → P { u with busLog := o :: u.busLog })
    (hwrite : ∀ u a w, P u → a + 4 ≤ u.cfg.memSize.toNat → P (u.dmaWord a w)) : P t := by
  induction ds generalizing s with
  | nil =>
    cases h
    exact h0
  | cons d ds ih =>
    simp only [State.dmaAll] at h
    split at h
    · cases h
    · rename_i s1 h1
      exact ih h (State.dma_induct h1 h0 hboard hgrant hnext hlog hwrite)

/-- DMA events change memory, the lines of the cache, the boards, the transfer on the bus and the bus log only. -/
theorem State.dmaAll_frame {s t : State} {ds : List DmaEvent} (h : s.dmaAll ds = .ok t) :
    t = { s with mem := t.mem, codeLines := t.codeLines, dataLines := t.dataLines, boards := t.boards,
                 transfer := t.transfer, busLog := t.busLog } := by
  refine State.dmaAll_induct (P := fun u => u = { s with
    mem := u.mem, codeLines := u.codeLines, dataLines := u.dataLines, boards := u.boards, transfer := u.transfer,
    busLog := u.busLog }) h rfl ?_ ?_ ?_ ?_ ?_
  · intro u p f _ hu
    rw [hu]
  · intro u d hu
    rw [hu]
  · intro u c cs _ hu
    rw [hu]
  · intro u o hu
    rw [hu]
  · intro u a w hu _
    rw [hu]
    rfl

/-- No transfers change nothing. -/
@[simp] theorem State.dmaAll_nil (s : State) : s.dmaAll [] = .ok s := rfl

/-! ### Reset -/

/-- Memory after reset is in canonical form. -/
theorem reset_memWf : Memory.wf State.reset.mem := sparseWf_nil

end Sys2Proof.Machine
end

