-- ==== Sys2Proof/Laws/Ops.lean ====
section
/-! SUPPORT. One lemma for each shared operation that says all it can answer: registers, the end of an instruction,
events, address translation, the delivery of a result. -/

namespace Sys2Proof.Machine

/-! ### Registers -/

/-- A general register after a write. -/
theorem State.reg_setReg (s : State) (n : RegNo) (v : Word) (k : RegNo) :
    (s.setReg n v).reg k = if k = n then v else s.reg k := by
  unfold State.reg State.setReg
  by_cases h : k = n
  · subst h
    simp
  · rw [if_neg h]
    have : n.toNat ≠ k.toNat := fun e => h (BitVec.eq_of_toNat_eq e.symm)
    simp [this]

@[simp] theorem State.reg_setReg_same (s : State) (n : RegNo) (v : Word) : (s.setReg n v).reg n = v := by
  simp [State.reg_setReg]

theorem State.reg_setReg_other (s : State) {n k : RegNo} (v : Word) (h : k ≠ n) : (s.setReg n v).reg k = s.reg k := by
  simp [State.reg_setReg, h]

/-- A special register after a write. -/
theorem State.sreg_setSreg (s : State) (n : RegNo) (v : Word) (k : RegNo) :
    (s.setSreg n v).sreg k = if k = n then v else s.sreg k := by
  unfold State.sreg State.setSreg
  by_cases h : k = n
  · subst h
    simp
  · rw [if_neg h]
    have : n.toNat ≠ k.toNat := fun e => h (BitVec.eq_of_toNat_eq e.symm)
    simp [this]

@[simp] theorem State.sreg_setSreg_same (s : State) (n : RegNo) (v : Word) : (s.setSreg n v).sreg n = v := by
  simp [State.sreg_setSreg]

theorem State.sreg_setSreg_other (s : State) {n k : RegNo} (v : Word) (h : k ≠ n) :
    (s.setSreg n v).sreg k = s.sreg k := by
  simp [State.sreg_setSreg, h]

/-- The two registers of a pair are different. -/
theorem regNo_succ_ne (n : RegNo) : n + 1 ≠ n := by
  revert n
  decide

/-- A general register after a write of a pair. -/
theorem State.reg_setPair (s : State) (n : RegNo) (v : DWord) (k : RegNo) :
    (s.setPair n v).reg k =
      if k = n + 1 then v.extractLsb' 0 32 else if k = n then v.extractLsb' 32 32 else s.reg k := by
  simp only [State.setPair, State.reg_setReg]

theorem State.reg_setPair_high (s : State) (n : RegNo) (v : DWord) :
    (s.setPair n v).reg n = v.extractLsb' 32 32 := by
  rw [State.reg_setPair, if_neg (regNo_succ_ne n).symm, if_pos rfl]

theorem State.reg_setPair_low (s : State) (n : RegNo) (v : DWord) :
    (s.setPair n v).reg (n + 1) = v.extractLsb' 0 32 := by
  rw [State.reg_setPair, if_pos rfl]

/-- A double word is the concatenation of its halves. -/
theorem append_halves (v : DWord) : (v.extractLsb' 32 32 ++ v.extractLsb' 0 32 : BitVec 64) = v := by
  ext i hi
  simp only [BitVec.getElem_append, BitVec.getElem_extractLsb']
  split
  · simp [BitVec.getLsbD_eq_getElem hi]
  · rename_i h
    rw [show 32 + (i - 32) = i by omega, BitVec.getLsbD_eq_getElem hi]

@[simp] theorem State.pair_setPair_same (s : State) (n : RegNo) (v : DWord) : (s.setPair n v).pair n = v := by
  rw [State.pair, State.reg_setPair_high, State.reg_setPair_low, append_halves]

/-! ### The end of an instruction -/

/-- All that the end of an instruction without a transfer can answer with a state. -/
theorem advance_next {il : Nat} {s t : State} : advance il s = .next t ↔ s.Room il ∧ t = s.after il := by
  unfold advance
  split
  · rename_i h
    constructor
    · intro e
      cases e
      exact ⟨h, rfl⟩
    · rintro ⟨_, rfl⟩
      rfl
  · rename_i h
    constructor
    · intro e
      cases e
    · rintro ⟨h1, _⟩
      exact absurd h1 h

theorem advance_room {il : Nat} {s : State} (h : s.Room il) : advance il s = .next (s.after il) :=
  advance_next.2 ⟨h, rfl⟩

/-- All that a transfer of control can answer with a state. -/
theorem jump_next {a : Word} {s t : State} : jump a s = .next t ↔ mbit a 31 = false ∧ t = s.goto a := by
  unfold jump
  split
  · rename_i h
    constructor
    · intro e
      cases e
    · rintro ⟨h', _⟩
      rw [h'] at h
      cases h
  · rename_i h
    constructor
    · intro e
      cases e
      exact ⟨by simpa using h, rfl⟩
    · rintro ⟨_, rfl⟩
      rfl

theorem jump_even {a : Word} {s : State} (h : mbit a 31 = false) : jump a s = .next (s.goto a) := jump_next.2 ⟨h, rfl⟩

/-! ### Events -/

/-- All that taking an event can answer with a state: the kernel function entered, or with no CCB a stuck processor. -/
theorem enter_next {e : Event} {ret : Word} {s t : State} :
    enter e ret s = .next t ↔
      (∃ v, s.HasVector e v ∧ t = s.enterAt e ret v) ∨ (mbit (s.sreg 11) 31 = true ∧ t = s.haltNoCcb) := by
  unfold enter
  constructor
  · intro h
    split at h
    · rename_i h1
      cases h
      exact .inr ⟨h1, rfl⟩
    · rename_i h1
      split at h
      · cases h
      · rename_i v h2
        split at h
        · cases h
        · rename_i h3
          cases h
          exact .inl ⟨v, ⟨by simpa using h1, h2, by simpa using h3⟩, rfl⟩
  · rintro (⟨v, ⟨h1, h2, h3⟩, rfl⟩ | ⟨h1, rfl⟩)
    · simp only [h1, h2, h3, Bool.false_eq_true, if_false]
    · rw [if_pos h1]

theorem enter_vector {e : Event} {s : State} {v : Word} (h : s.HasVector e v) (ret : Word) :
    enter e ret s = .next (s.enterAt e ret v) := enter_next.2 (.inl ⟨v, h, rfl⟩)

theorem enter_noCcb {s : State} (h : mbit (s.sreg 11) 31 = true) (e : Event) (ret : Word) :
    enter e ret s = .next s.haltNoCcb := enter_next.2 (.inr ⟨h, rfl⟩)

theorem raise_vector {e : Event} {s : State} {v : Word} (h : s.HasVector e v) :
    raise e s = .next (s.enterAt e s.pc v) := enter_vector h s.pc

theorem raise_next {e : Event} {s t : State} :
    raise e s = .next t ↔
      (∃ v, s.HasVector e v ∧ t = s.enterAt e s.pc v) ∨ (mbit (s.sreg 11) 31 = true ∧ t = s.haltNoCcb) := enter_next

@[simp] theorem State.haltNoCcb_mode (s : State) : s.haltNoCcb.mode = .kernel := rfl
@[simp] theorem State.haltNoCcb_paused (s : State) : s.haltNoCcb.paused = false := rfl
@[simp] theorem State.haltNoCcb_stuck (s : State) : s.haltNoCcb.stuck = some .noCcb := rfl
@[simp] theorem State.haltNoCcb_pc (s : State) : s.haltNoCcb.pc = s.pc := rfl
@[simp] theorem State.halt_stuck (s : State) (k : Stuck) : (s.halt k).stuck = some k := rfl

@[simp] theorem State.enterAt_mode (s : State) (e : Event) (ret v : Word) : (s.enterAt e ret v).mode = .kernel := rfl
@[simp] theorem State.enterAt_pc (s : State) (e : Event) (ret v : Word) : (s.enterAt e ret v).pc = v := rfl
@[simp] theorem State.enterAt_paused (s : State) (e : Event) (ret v : Word) : (s.enterAt e ret v).paused = false := rfl
@[simp] theorem State.enterAt_prefetch (s : State) (e : Event) (ret v : Word) : (s.enterAt e ret v).prefetch = [] := rfl
@[simp] theorem State.enterAt_dataLines (s : State) (e : Event) (ret v : Word) :
    (s.enterAt e ret v).dataLines = s.fillData s.dataLines (s.sreg 11 + e.offset).toNat := by
  rw [State.enterAt]
  dsimp only
  rw [State.recordEvent_dataLines, State.savePc_dataLines, State.loadLine_data_dataLines]
@[simp] theorem State.enterAt_sr (s : State) (e : Event) (ret v : Word) :
    (s.enterAt e ret v).sr = ((s.savePc e ret).recordEvent e).sr := by
  have hr : ∀ {t u : State}, t.sr = u.sr → (t.recordEvent e).sr = (u.recordEvent e).sr := by
    intro t u h
    cases e with
    | pageFault k _ _ => cases k <;> simp only [State.recordEvent, State.setSreg, h]
    | _ => simp only [State.recordEvent, State.setSreg, h]
  refine hr ?_
  generalize hu : s.loadLine .data (s.sreg 11 + e.offset).toNat = u
  have h1 : u.sr = s.sr := hu ▸ rfl
  have h2 : u.pc = s.pc := hu ▸ rfl
  by_cases hm : s.mode = .user ∧ s.paused = false
  · have hm' : u.mode = .user ∧ u.paused = false := hu ▸ hm
    cases e <;> simp only [State.savePc, if_pos hm, if_pos hm', State.setSreg, h1, h2]
  · have hm' : ¬(u.mode = .user ∧ u.paused = false) := hu ▸ hm
    cases e <;> simp only [State.savePc, if_neg hm, if_neg hm', State.setSreg, h1, h2]

/-- SR4 to SR14 are never written by an event. -/
theorem State.sreg_enterAt {s : State} {e : Event} {ret v : Word} {k : RegNo} (h0 : k ≠ 0) (h1 : k ≠ 1) (h2 : k ≠ 2)
    (h3 : k ≠ 3) (h15 : k ≠ 15) : (s.enterAt e ret v).sreg k = s.sreg k := by
  have hr : ∀ u : State, (u.recordEvent e).sreg k = u.sreg k := by
    intro u
    cases e with
    | pageFault kind _ _ => cases kind <;> simp only [State.recordEvent, State.sreg_setSreg, h1, h2, h3, if_false]
    | _ => simp only [State.recordEvent, State.sreg_setSreg, h1, h2, h3, if_false]
  have hs : (s.savePc e ret).sreg k = s.sreg k := by
    cases e <;> (unfold State.savePc; dsimp only) <;> (try split) <;>
      simp only [State.sreg_setSreg, h0, h15, if_false]
  have he : (s.enterAt e ret v).sreg k = ((s.savePc e ret).recordEvent e).sreg k := by
    unfold State.sreg
    rw [State.enterAt_sr]
  exact he.trans ((hr _).trans hs)

/-! ### Results within an instruction -/

@[simp] theorem Res.bind_ok {α β : Type} (v : α) (s : State) (f : α → State → Res β) : (Res.ok v s).bind f = f v s := rfl
@[simp] theorem Res.bind_event {α β : Type} (e : Event) (s : State) (f : α → State → Res β) :
    (Res.event e s).bind f = .event e s := rfl
@[simp] theorem Res.bind_stuck {α β : Type} (k : Stuck) (s : State) (f : α → State → Res β) :
    (Res.stuck k s).bind f = .stuck k s := rfl
@[simp] theorem Res.bind_fault {α β : Type} (x : Fault) (f : α → State → Res β) : (Res.fault x).bind f = .fault x := rfl
@[simp] theorem Res.finish_ok {α : Type} (v : α) (s : State) (f : α → State → Outcome) : (Res.ok v s).finish f = f v s := rfl
@[simp] theorem Res.finish_event {α : Type} (e : Event) (s : State) (f : α → State → Outcome) :
    (Res.event e s).finish f = raise e s := rfl
@[simp] theorem Res.finish_stuck {α : Type} (k : Stuck) (s : State) (f : α → State → Outcome) :
    (Res.stuck k s).finish f = .next (s.halt k) := rfl
@[simp] theorem Res.finish_fault {α : Type} (x : Fault) (f : α → State → Outcome) : (Res.fault x).finish f = .fault x := rfl

/-- All the ways in which one operation after another answers with a value. -/
theorem Res.bind_eq_ok {α β : Type} {r : Res α} {f : α → State → Res β} {v : β} {t : State} :
    r.bind f = .ok v t ↔ ∃ a u, r = .ok a u ∧ f a u = .ok v t := by
  cases r with
  | ok a u => simp
  | event e u => simp
  | stuck k u => simp
  | fault x => simp

/-- All the ways in which one operation after another answers with an event. -/
theorem Res.bind_eq_event {α β : Type} {r : Res α} {f : α → State → Res β} {e : Event} {t : State} :
    r.bind f = .event e t ↔ r = .event e t ∨ ∃ a u, r = .ok a u ∧ f a u = .event e t := by
  cases r with
  | ok a u => simp
  | event e u => simp
  | stuck k u => simp
  | fault x => simp

/-- All the ways in which an instruction that ends with the result of an operation has a next state. -/
theorem Res.finish_next {α : Type} {r : Res α} {f : α → State → Outcome} {t : State} :
    r.finish f = .next t ↔
      (∃ a u, r = .ok a u ∧ f a u = .next t) ∨ (∃ e u, r = .event e u ∧ raise e u = .next t) ∨
      ∃ k u, r = .stuck k u ∧ t = u.halt k := by
  cases r with
  | ok a u => simp
  | event e u => simp
  | stuck k u => simp [eq_comm]
  | fault x => simp

/-! ### Delivery -/

/-- All the ways in which a register format instruction with an arithmetic result has a next state. -/
theorem deliver_next {α : Type} {o : Opcode} {x y : RegNo} {put : State → α → State} {d : Delivery α} {s t : State} :
    deliver o x y put d s = .next t ↔
      (∃ c, d = .abort c ∧ raise (.arithmetic (s.op o) x y c) s = .next t) ∨
      (d = .keep ∧ advance 2 s = .next t) ∨
      (∃ v, d = .write v none ∧ advance 2 (put s v) = .next t) ∨
      ∃ v c, d = .write v (some c) ∧ raise (.arithmetic (s.op o) x y c) (put s v) = .next t := by
  cases d with
  | abort c => simp [deliver]
  | keep => simp [deliver]
  | write v c => cases c <;> simp [deliver]

/-! ### Privilege -/

theorem kernelOnly_kernel {s : State} (h : s.mode = .kernel) (o : Opcode) (x y : RegNo) (k : State → Outcome) :
    kernelOnly o x y s k = k s := by
  simp only [kernelOnly, h]

theorem kernelOnly_user {s : State} (h : s.mode = .user) (o : Opcode) (x y : RegNo) (k : State → Outcome) :
    kernelOnly o x y s k = raise (.kernelViolation (s.op o) x y) s := by
  simp only [kernelOnly, h]

theorem privileged_allowed {s : State} (h : s.mode = .kernel ∨ s.trapBit 31 = true) (o : Opcode) (x y : RegNo)
    (k : State → Outcome) : privileged o x y s k = k s := if_pos h

theorem privileged_refused {s : State} (h : s.mode = .user) (h2 : s.trapBit 31 = false) (o : Opcode) (x y : RegNo)
    (k : State → Outcome) : privileged o x y s k = raise (.kernelViolation (s.op o) x y) s :=
  if_neg (by simp [h, h2])

/-! ### States that differ in memory, the data lines and the TMT only -/

theorem SameButMemory.refl (s : State) : SameButMemory s s := rfl

theorem SameButMemory.trans {s t u : State} (h1 : SameButMemory s t) (h2 : SameButMemory t u) : SameButMemory s u := by
  rw [SameButMemory] at *
  rw [h2, h1]

theorem SameButMemory.storeBytes (s : State) (a : Nat) (bs : List Byte) : SameButMemory s (s.storeBytes a bs) := by
  induction bs generalizing s a with
  | nil => rfl
  | cons b bs ih =>
    have h1 : SameButMemory s (s.storeByte a b) := rfl
    exact h1.trans (ih (s.storeByte a b) (a + 1))

theorem SameButMemory.loadLine (s : State) (a : Nat) : SameButMemory s (s.loadLine .data a) := rfl
theorem SameButMemory.loadLines (s : State) (as : List Word) : SameButMemory s (s.loadLines as) := rfl
theorem SameButMemory.searched (s : State) (seg : Half) (a : Word) : SameButMemory s (s.searched seg a) := rfl
theorem SameButMemory.setTmt (s : State) (i : Nat) (e : Word) : SameButMemory s (s.setTmt i e) := rfl

theorem SameButMemory.mode {s t : State} (h : SameButMemory s t) : t.mode = s.mode := by
  rw [h]
theorem SameButMemory.pc {s t : State} (h : SameButMemory s t) : t.pc = s.pc := by
  rw [h]
theorem SameButMemory.sr {s t : State} (h : SameButMemory s t) : t.sr = s.sr := by
  rw [h]
theorem SameButMemory.regs {s t : State} (h : SameButMemory s t) : t.regs = s.regs := by
  rw [h]
theorem SameButMemory.cfg {s t : State} (h : SameButMemory s t) : t.cfg = s.cfg := by
  rw [h]
theorem SameButMemory.sreg {s t : State} (h : SameButMemory s t) (k : RegNo) : t.sreg k = s.sreg k := by
  unfold State.sreg
  rw [h.sr]
theorem SameButMemory.reg {s t : State} (h : SameButMemory s t) (k : RegNo) : t.reg k = s.reg k := by
  unfold State.reg
  rw [h.regs]
theorem SameButMemory.segment {s t : State} (h : SameButMemory s t) (sp : Space) : t.segment sp = s.segment sp := by
  cases sp <;> simp only [State.segment, h.sreg]
theorem SameButMemory.inMem {s t : State} (h : SameButMemory s t) (a : Word) (n : Nat) : t.inMem a n = s.inMem a n := by
  unfold State.inMem
  rw [h.cfg]

/-! ### The VRT search -/

/-- What a VRT search finds stands in memory: the TMT Word of the entry is a readable word. -/
theorem State.vrtChain_found {s : State} {seg : Half} {a : Word} {n : Nat} {p q t : Word}
    (h : s.vrtChain seg a n p = .found q t) : s.ucodeRead (q + 8) = .ok t := by
  induction n generalizing p with
  | zero => cases h
  | succ n ih =>
    unfold State.vrtChain at h
    split at h
    · cases h
    · split at h
      · cases h
      · split at h
        · split at h
          · cases h
          · rename_i t' ht
            cases h
            exact ht
        · split at h
          · cases h
          · exact ih h

theorem State.vrtSearch_found {s : State} {seg : Half} {a q t : Word} (h : s.vrtSearch seg a = .found q t) :
    s.ucodeRead (q + 8) = .ok t := by
  unfold State.vrtSearch at h
  split at h
  · cases h
  · exact State.vrtChain_found h

/-! ### Translation -/

/-- What a VRT search finds is a word of installed memory, also after the reads of the search. -/
theorem State.vrtSearch_found_inMem {s : State} {seg : Half} {a q t : Word} (h : s.vrtSearch seg a = .found q t) :
    (s.searched seg a).inMem (q + 8) 4 = true := by
  rw [State.inMem_searched]
  exact (State.ucodeRead_ok (State.vrtSearch_found h)).2.1

/-- All that the lookup of a TMT entry can answer. -/
theorem State.tmtLookup_cases (s : State) (sp : Space) (a : Word) :
    (tmtHit (s.tmtEntry (tmtIndex sp a)) a = true ∧ s.tmtLookup sp a = .ok (s.tmtEntry (tmtIndex sp a)) s) ∨
    (∃ f, s.tmtLookup sp a = .fault f) ∨
    (s.vrtSearch (s.segment sp) a = .endless ∧
      s.tmtLookup sp a = .stuck .vrtChainEndless (s.searched (s.segment sp) a)) ∨
    (s.vrtSearch (s.segment sp) a = .absent ∧
      s.tmtLookup sp a = .event (.pageFault .absent (s.segment sp) a) (s.searched (s.segment sp) a)) ∨
    ∃ p t, s.vrtSearch (s.segment sp) a = .found p t ∧
      s.tmtLookup sp a =
        (if mbit t 30 then
          .ok (t ||| bitR)
            (((s.searched (s.segment sp) a).markEntry p t bitR).setTmt (tmtIndex sp a) (t ||| bitR))
        else
          .stuck .vrtEntryInvalid
            (((s.searched (s.segment sp) a).markEntry p t bitR).setTmt (tmtIndex sp a) (t ||| bitR))) := by
  unfold State.tmtLookup
  dsimp only
  split
  · rename_i h
    exact .inl ⟨h, rfl⟩
  · split
    · exact .inr (.inl ⟨_, rfl⟩)
    · rename_i h
      exact .inr (.inr (.inl ⟨h, rfl⟩))
    · rename_i h
      exact .inr (.inr (.inr (.inl ⟨h, rfl⟩)))
    · rename_i p t h
      exact .inr (.inr (.inr (.inr ⟨p, t, h, rfl⟩)))

/-- The state after an operation, where it has one. -/
def Res.state? {α : Type} : Res α → Option State
  | .ok _ s => some s
  | .event _ s => some s
  | .stuck _ s => some s
  | .fault _ => none

/-- What translation keeps: whatever the reads of a search and a write of a word of installed memory with a TMT entry
keep. -/
theorem State.translate_induct {P : State → Prop} {s t : State} {sp : Space} {a : Word} {acc : Access}
    (h : (s.translate sp a acc).state? = some t) (h0 : P s)
    (hsearch : ∀ u seg b, P u → P (u.searched seg b))
    (hmark : ∀ u p w i e bits, i < 1024 → u.inMem (p + 8) 4 = true → P u → P ((u.markEntry p w bits).setTmt i e)) :
    P t := by
  have hi : tmtIndex sp a < 1024 := by
    have := (a.extractLsb' 12 9).isLt
    cases sp <;> simp only [tmtIndex] <;> omega
  have hd : ∀ {u t : State} {e : Word} {r : Word}, P u →
      ((u.markDirty sp a e).bind fun _ s2 => Res.ok r s2).state? = some t → P t := by
    intro u t e r hu h
    unfold State.markDirty at h
    dsimp only at h
    split at h
    · cases h
    · cases h
      exact hsearch _ _ _ hu
    · cases h
      exact hsearch _ _ _ hu
    · rename_i p w hf
      cases h
      exact hmark _ _ _ _ _ _ hi (State.vrtSearch_found_inMem hf) (hsearch _ _ _ hu)
  have step : ∀ {u t : State} {e : Word}, P u →
      (if acc = .write ∧ mbit e 29 = false then Res.event (.pageFault .writeProtected (u.segment sp) a) u
        else if acc = .write ∧ mbit e 31 = false then
          (u.markDirty sp a e).bind fun _ s2 => .ok (physAddr e a) s2
        else .ok (physAddr e a) u).state? = some t → P t := by
    intro u t e hu h
    split at h
    · cases h
      exact hu
    · split at h
      · exact hd hu h
      · cases h
        exact hu
  unfold State.translate at h
  rcases s.tmtLookup_cases sp a with ⟨_, e⟩ | ⟨f, e⟩ | ⟨_, e⟩ | ⟨_, e⟩ | ⟨p, w, hf, e⟩ <;> rw [e] at h
  · exact step h0 h
  · cases h
  · cases h
    exact hsearch _ _ _ h0
  · cases h
    exact hsearch _ _ _ h0
  · have hm := hmark _ _ w _ (w ||| bitR) bitR hi (State.vrtSearch_found_inMem hf) (hsearch _ _ _ h0)
    split at h
    · exact step hm h
    · cases h
      exact hm

/-- What the search for a real address keeps. -/
theorem State.locate_induct {P : State → Prop} {s t : State} {sp : Space} {a : Word} {acc : Access} {n : Nat}
    (h : (s.locate sp a acc n).state? = some t) (h0 : P s)
    (hsearch : ∀ u seg b, P u → P (u.searched seg b))
    (hmark : ∀ u p w i e bits, i < 1024 → u.inMem (p + 8) 4 = true → P u → P ((u.markEntry p w bits).setTmt i e)) :
    P t := by
  have hreal : ∀ {u : State}, (s.realAddr sp a acc).state? = some u → P u := by
    intro u hu
    unfold State.realAddr at hu
    split at hu
    · cases hu
      exact h0
    · exact State.translate_induct hu h0 hsearch hmark
  unfold State.locate at h
  cases hr : s.realAddr sp a acc with
  | fault f =>
    rw [hr] at h
    cases h
  | stuck k u =>
    rw [hr] at h
    cases h
    exact hreal (by rw [hr]; rfl)
  | event e u =>
    rw [hr] at h
    cases h
    exact hreal (by rw [hr]; rfl)
  | ok r u =>
    rw [hr, Res.bind_ok] at h
    split at h
    · cases h
      exact hreal (by rw [hr]; rfl)
    · cases h

/-- The search for a real address changes memory, the data lines and the TMT only. -/
theorem State.locate_frame {s t : State} {sp : Space} {a : Word} {acc : Access} {n : Nat}
    (h : (s.locate sp a acc n).state? = some t) : SameButMemory s t :=
  State.locate_induct h (SameButMemory.refl s) (fun u _ _ hu => hu.trans (SameButMemory.searched u _ _))
    fun u _ _ i e _ _ _ hu => hu.trans ((SameButMemory.storeBytes u _ _).trans (SameButMemory.setTmt _ i e))

/-- In kernel mode the address of a reference is the real address (20_memory.md rule R85). -/
theorem State.locate_kernel {s : State} (h : s.mode = .kernel) (sp : Space) (a : Word) (acc : Access) (n : Nat) :
    s.locate sp a acc n = if s.inMem a n then .ok a s else .fault .noMemory := by
  unfold State.locate State.realAddr
  simp only [h, Res.bind_ok]

/-- A located operand is installed memory. -/
theorem State.locate_inMem {s t : State} {sp : Space} {a r : Word} {acc : Access} {n : Nat}
    (h : s.locate sp a acc n = .ok r t) : t.inMem r n = true := by
  unfold State.locate at h
  obtain ⟨r', u, _, h2⟩ := Res.bind_eq_ok.1 h
  split at h2
  · cases h2
    assumption
  · cases h2

end Sys2Proof.Machine
end

