-- ==== Sys2Proof/Laws/Instr.lean ====
section
/-! SUPPORT. One lemma for each operation that instructions share: what it answers, so that a proof about an instruction
cites it and unfolds nothing. -/

namespace Sys2Proof.Machine

/-! ### Register results -/

theorem setAndGo_room {s : State} (h : s.Room 2) (x : RegNo) (v : Word) :
    setAndGo x v s = .next ((s.setReg x v).after 2) := advance_room (s := s.setReg x v) h

theorem setPairAndGo_room {s : State} (h : s.Room 2) (x : RegNo) (v : DWord) :
    setPairAndGo x v s = .next ((s.setPair x v).after 2) := advance_room (s := s.setPair x v) h

theorem setAndGo_next {x : RegNo} {v : Word} {s t : State} :
    setAndGo x v s = .next t ↔ s.Room 2 ∧ t = (s.setReg x v).after 2 := advance_next (s := s.setReg x v)

theorem setPairAndGo_next {x : RegNo} {v : DWord} {s t : State} :
    setPairAndGo x v s = .next t ↔ s.Room 2 ∧ t = (s.setPair x v).after 2 := advance_next (s := s.setPair x v)

/-- The overflow condition is the negation of fitting 32 bits (41_integer_logical.md rule R227). -/
theorem fits32_eq_true {r : Int} : fits32 r = true ↔ -2 ^ 31 ≤ r ∧ r ≤ 2 ^ 31 - 1 := decide_eq_true_iff

/-- An exact integer result that needs no trap. -/
theorem exactInto_quiet {s : State} {r : Int} (hq : s.Quiet r) (h : s.Room 2) (o : Opcode) (x y : RegNo) :
    exactInto o x y r s = .next ((s.setReg x (BitVec.ofInt 32 r)).after 2) := by
  have ht : s.trapIf (!fits32 r) 16 = none := by
    unfold State.trapIf
    rcases hq with hq | hq
    · simp [hq]
    · simp [fits32_eq_true.2 hq]
  unfold exactInto deliver State.exactResult State.put
  rw [ht]
  exact advance_room (s := s.setReg x _) h

/-- An exact integer result that overflows with the trap on. -/
theorem exactInto_overflow {s : State} {r : Int} (ho : s.Overflows r) (o : Opcode) (x y : RegNo) :
    exactInto o x y r s = raise (.arithmetic (s.op o) x y 16) (s.setReg x (BitVec.ofInt 32 r)) := by
  have hf : fits32 r = false := by
    rw [← Bool.not_eq_true, fits32_eq_true]
    have := ho.2
    omega
  have ht : s.trapIf (!fits32 r) 16 = some 16 := by
    unfold State.trapIf
    simp [hf, ho.1]
  unfold exactInto deliver State.exactResult State.put
  rw [ht]

/-- A write of a general register changes no vector of the CCB. -/
theorem State.hasVector_setReg {s : State} {e : Event} {v : Word} (x : RegNo) (w : Word) :
    (s.setReg x w).HasVector e v ↔ s.HasVector e v := Iff.rfl

theorem State.hasVector_setPair {s : State} {e : Event} {v : Word} (x : RegNo) (w : DWord) :
    (s.setPair x w).HasVector e v ↔ s.HasVector e v := Iff.rfl

/-! ### References -/

/-- All the ways in which a reference has a next state: a misaligned address, an event or no end of the translation, or
what follows at the real address. -/
theorem reference_next {w : Width} {sp : Space} {acc : Access} {ea : Word} {s t : State}
    {k : Word → State → Outcome} :
    reference w sp acc ea s k = .next t ↔
      (w.aligned ea = false ∧ raise (.dataAlignment (s.segment sp) ea) s = .next t) ∨
      (w.aligned ea = true ∧ ∃ e u, s.locate sp ea acc w.bytes = .event e u ∧ raise e u = .next t) ∨
      (w.aligned ea = true ∧ ∃ c u, s.locate sp ea acc w.bytes = .stuck c u ∧ t = u.halt c) ∨
      (w.aligned ea = true ∧ ∃ r u, s.locate sp ea acc w.bytes = .ok r u ∧ k r u = .next t) := by
  unfold reference
  cases h : w.aligned ea
  · simp
  · simp only [if_true, Res.finish_next, Bool.true_eq_false, false_and, false_or, true_and]
    constructor
    · rintro (h | h | h)
      · exact .inr (.inr h)
      · exact .inl h
      · exact .inr (.inl h)
    · rintro (h | h | h)
      · exact .inr (.inl h)
      · exact .inr (.inr h)
      · exact .inl h

theorem reference_aligned {w : Width} {ea : Word} (h : w.aligned ea = true) (sp : Space) (acc : Access) (s : State)
    (k : Word → State → Outcome) : reference w sp acc ea s k = (s.locate sp ea acc w.bytes).finish k := if_pos h

theorem reference_misaligned {w : Width} {ea : Word} (h : w.aligned ea = false) (sp : Space) (acc : Access) (s : State)
    (k : Word → State → Outcome) : reference w sp acc ea s k = raise (.dataAlignment (s.segment sp) ea) s := by
  unfold reference
  rw [h]
  rfl

theorem Width.aligned_iff {w : Width} {a : Word} : w.aligned a = true ↔ a.toNat % w.bytes = 0 := decide_eq_true_iff

/-- A double-word read: the first word before the transfers, the second after them, and the lines of both. -/
theorem State.readTwo_ok {s t : State} {v : View} {a : Nat} {d : DWord} :
    s.readTwo v a = .ok (d, t) ↔
      ∃ u, (s.loadLine v a).dmaAll s.between = .ok u ∧ d = s.readWord v a ++ u.readWord v (a + 4) ∧
        t = u.loadLine v (a + 4) := by
  unfold State.readTwo
  cases (s.loadLine v a).dmaAll s.between with
  | error f => simp
  | ok u =>
    simp only [Except.ok.injEq, Prod.mk.injEq]
    constructor
    · rintro ⟨rfl, rfl⟩
      exact ⟨u, rfl, rfl, rfl⟩
    · rintro ⟨_, rfl, rfl, rfl⟩
      exact ⟨rfl, rfl⟩

/-- A double-word store: the first word, the transfers, the second word. -/
theorem State.storeTwo_ok {s t : State} {a : Nat} {v : DWord} :
    s.storeTwo a v = .ok t ↔
      ∃ u, (s.storeBytes a (bytesOfWord (v.extractLsb' 32 32))).dmaAll
          (s.storeBytes a (bytesOfWord (v.extractLsb' 32 32))).between = .ok u ∧
        t = u.storeBytes (a + 4) (bytesOfWord (v.extractLsb' 0 32)) := by
  have hb : ∀ (bs : List Byte) (u : State) (k : Nat), (u.storeBytes k bs).between = u.between := by
    intro bs
    induction bs with
    | nil => exact fun _ _ => rfl
    | cons b bs ih => exact fun u k => ih (u.storeByte k b) (k + 1)
  unfold State.storeTwo
  rw [hb]
  cases (s.storeBytes a (bytesOfWord (v.extractLsb' 32 32))).dmaAll s.between with
  | error f => simp
  | ok u => simp [eq_comm]

/-! ### Transfers of control -/

theorem branchIf_taken {t : Word} {s : State} (h : mbit t 31 = false) (il : Nat) :
    branchIf true t il s = .next (s.goto t) := jump_even h

theorem branchIf_notTaken {s : State} {il : Nat} (h : s.Room il) (t : Word) :
    branchIf false t il s = .next (s.after il) := advance_room h

/-- At an even pc a branch target is even (44_program_control.md rule R390). -/
theorem State.target_even {s : State} (h : mbit s.pc 31 = false) (d : Word) : mbit (s.target d) 31 = false := by
  have h1 : (s.pc)[0] = false := by simpa [mbit, BitVec.getMsbD] using h
  have h2 : (d &&& 0xFFFFFFFE)[0] = false := by simp
  show mbit (s.pc + (d &&& 0xFFFFFFFE)) 31 = false
  rw [mbit, BitVec.getMsbD_eq_getLsbD]
  simp only [show decide (31 < 32) = true from rfl, Bool.true_and, show 32 - 1 - 31 = 0 from rfl]
  rw [BitVec.getLsbD_eq_getElem (by decide), BitVec.getElem_add (by decide), h1, h2]
  simp

/-- All that CHK and CHKI can answer with a state. -/
theorem checkRange_next {o : Opcode} {x y : RegNo} {bad : Bool} {s t : State} :
    checkRange o x y bad s = .next t ↔
      (bad = true ∧ raise (.checkTrap (s.op o) x y) s = .next t) ∨ (bad = false ∧ s.Room 2 ∧ t = s.after 2) := by
  cases bad <;> simp [checkRange, advance_next]

/-! ### Kernel instructions -/

/-- All the ways in which a kernel only instruction has a next state. -/
theorem kernelOnly_next {o : Opcode} {x y : RegNo} {s t : State} {k : State → Outcome} :
    kernelOnly o x y s k = .next t ↔
      (s.mode = .kernel ∧ k s = .next t) ∨
      (s.mode = .user ∧ raise (.kernelViolation (s.op o) x y) s = .next t) := by
  unfold kernelOnly
  cases s.mode <;> simp

/-- All the ways in which a privileged instruction has a next state. -/
theorem privileged_next {o : Opcode} {x y : RegNo} {s t : State} {k : State → Outcome} :
    privileged o x y s k = .next t ↔
      ((s.mode = .kernel ∨ s.trapBit 31 = true) ∧ k s = .next t) ∨
      (s.mode = .user ∧ s.trapBit 31 = false ∧ raise (.kernelViolation (s.op o) x y) s = .next t) := by
  unfold privileged
  cases s.mode <;> cases s.trapBit 31 <;> simp

theorem finishFault_next {r : Except Fault State} {t : State} :
    finishFault r = .next t ↔ ∃ s, r = .ok s ∧ s.Room 2 ∧ t = s.after 2 := by
  cases r with
  | error f => simp [finishFault]
  | ok s => simp [finishFault, advance_next]

/-- What registers loaded from the PCB leave as it was: all but the registers and the data lines. -/
theorem State.loadRegs_frame {s t : State} {is : List RegNo} (h : s.loadRegs is = .ok t) :
    t = { s with regs := t.regs, dataLines := t.dataLines } ∧ SameRegsBut is s t := by
  induction is generalizing s with
  | nil =>
    cases h
    exact ⟨rfl, fun _ _ => rfl⟩
  | cons i is ih =>
    unfold State.loadRegs at h
    split at h
    · cases h
    · rename_i v u hv
      obtain ⟨_, rfl⟩ := State.structLoad_ok hv
      obtain ⟨h1, h2⟩ := ih h
      refine ⟨h1, fun n hn => ?_⟩
      rw [List.mem_cons, not_or] at hn
      rw [h2 n hn.2, State.reg_setReg_other _ _ hn.1, State.reg_loadLine]

/-- What registers loaded from the PCB keep: whatever a read of a data word and a write of a register keep. -/
theorem State.loadRegs_induct {P : State → Prop} {s t : State} {is : List RegNo} (h : s.loadRegs is = .ok t)
    (h0 : P s) (hl : ∀ u i a v, P u → P ((u.loadLine .data a).setReg i v)) : P t := by
  induction is generalizing s with
  | nil =>
    cases h
    exact h0
  | cons i is ih =>
    unfold State.loadRegs at h
    split at h
    · cases h
    · rename_i v u hv
      obtain ⟨_, rfl⟩ := State.structLoad_ok hv
      exact ih h (hl _ _ _ _ h0)

/-- What registers stored into the PCB keep: whatever a write of a word of installed memory keeps. -/
theorem State.saveRegs_induct {P : State → Prop} {s t : State} {is : List RegNo} (h : s.saveRegs is = .ok t)
    (h0 : P s) (hw : ∀ u a v, u.inMem a 4 = true → P u → P (u.storeBytes a.toNat (bytesOfWord v))) : P t := by
  induction is generalizing s with
  | nil =>
    cases h
    exact h0
  | cons i is ih =>
    unfold State.saveRegs at h
    split at h
    · cases h
    · rename_i s1 h1
      obtain ⟨_, _, hm, rfl⟩ := State.structWrite_ok h1
      exact ih h (hw _ _ _ hm h0)

/-- What SUS keeps in a state with a process: whatever a write of a word of installed memory keeps. -/
theorem State.saveUser_induct {P : State → Prop} {s t : State} {is : List RegNo} (h : s.saveUser is = .ok t)
    (h0 : P s) (hw : ∀ u a v, u.inMem a 4 = true → P u → P (u.storeBytes a.toNat (bytesOfWord v))) : P t := by
  unfold State.saveUser at h
  split at h
  · cases h
  · rename_i s1 h1
    obtain ⟨_, _, hm, rfl⟩ := State.structWrite_ok h1
    exact State.saveRegs_induct h (hw _ _ _ hm h0) hw

/-- Registers stored into the PCB change memory and the data lines only. -/
theorem State.saveRegs_frame {s t : State} {is : List RegNo} (h : s.saveRegs is = .ok t) : SameButMemory s t :=
  State.saveRegs_induct h (SameButMemory.refl s) fun u _ _ _ hu => hu.trans (SameButMemory.storeBytes u _ _)

/-- All the ways in which TRANS and DIRT have a next state. -/
theorem translateInto_next {x y : RegNo} {bits : Word} {s t : State} :
    translateInto x y bits s = .next t ↔
      (s.vrtSearch ((s.reg y).extractLsb' 0 16) (s.reg (y + 1)) = .absent ∧
        advance 2 ((s.searched ((s.reg y).extractLsb' 0 16) (s.reg (y + 1))).setReg x 0xFFFFFFFF) = .next t) ∨
      (s.vrtSearch ((s.reg y).extractLsb' 0 16) (s.reg (y + 1)) = .endless ∧
        t = (s.searched ((s.reg y).extractLsb' 0 16) (s.reg (y + 1))).halt .vrtChainEndless) ∨
      ∃ p w, s.vrtSearch ((s.reg y).extractLsb' 0 16) (s.reg (y + 1)) = .found p w ∧
        advance 2 (((s.searched ((s.reg y).extractLsb' 0 16) (s.reg (y + 1))).markEntry p w bits).setReg x
          (physAddr w (s.reg (y + 1)))) = .next t := by
  unfold translateInto
  cases s.vrtSearch ((s.reg y).extractLsb' 0 16) (s.reg (y + 1)) <;> simp [eq_comm]

/-- An I/O transaction changes at most the answers of the boards. -/
theorem State.ioCycle_frame {s t : State} {dev : Byte} {r : Option Answer} (h : s.ioCycle dev = (r, t)) :
    t = { s with boards := t.boards } := by
  unfold State.ioCycle at h
  split at h
  · cases h
    rfl
  · cases h
    rfl

/-- READ changes the two registers, the answers of the boards and the bus log. -/
theorem State.ioRead_frame (s : State) (x : RegNo) (a : Word) :
    SameRegsBut [x, x + 1] s (s.ioRead x a) ∧
    s.ioRead x a = { s with
      regs := (s.ioRead x a).regs, boards := (s.ioRead x a).boards, busLog := .ioRead a :: s.busLog } := by
  have hr : ∀ (u : State) (v w : Word) (n : RegNo), n ∉ [x, x + 1] → ((u.setReg x v).setReg (x + 1) w).reg n = u.reg n := by
    intro u v w n hn
    simp only [List.mem_cons, List.not_mem_nil, or_false, not_or] at hn
    rw [State.reg_setReg_other _ _ hn.2, State.reg_setReg_other _ _ hn.1]
  cases hc : s.ioCycle (a.extractLsb' 24 8) with
  | mk r u =>
    have hu := State.ioCycle_frame hc
    have e : ∀ n, u.reg n = s.reg n := fun n => by
      rw [hu]
      rfl
    cases r with
    | none =>
      have hs : s.ioRead x a = ((u.logBus (.ioRead a)).setReg x (s.ioStatus true false)).setReg (x + 1)
          (Config.freeWord s.draws .ioData) := by
        unfold State.ioRead
        rw [hc]
      refine ⟨fun n hn => ?_, ?_⟩
      · rw [hs, hr _ _ _ n hn]
        exact e n
      · rw [hs, hu]
        rfl
    | some b =>
      have hs : s.ioRead x a =
          ((u.logBus (.ioRead a)).setReg x (s.ioStatus false b.notReady)).setReg (x + 1) b.data := by
        unfold State.ioRead
        rw [hc]
      refine ⟨fun n hn => ?_, ?_⟩
      · rw [hs, hr _ _ _ n hn]
        exact e n
      · rw [hs, hu]
        rfl

end Sys2Proof.Machine
end

