-- ==== Sys2Proof/Laws/PerInstr.lean ====
section
/-! SUPPORT. For each instruction: building from its parts gives it back, and its displacement has the bytes of its
format. The round trip of the decoder rests on these. -/

namespace Sys2Proof.Laws

/-- The bytes of a displacement in each format. -/
def dispBytes (f : Format) (d16 : BitVec 16) (d32 : BitVec 32) : List Byte :=
  match f with
  | .register => []
  | .short => bytesOfHalf d16
  | .long => bytesOfWord d32

/-- A well-formed instruction is what its opcode builds from its fields and displacement, and the parts hold no more. -/
def Parts.Statement (i : Instr) : Prop :=
  i.wellFormed = true → ∃ d16 d32,
    i.parts.disp = dispBytes i.parts.opcode.format d16 d32 ∧ i.parts.opcode.build i.parts.x i.parts.y d16 d32 = i

theorem Parts.moverr (x y : RegNo) : Parts.Statement (.moverr x y) := fun _ => ⟨0, 0, rfl, rfl⟩

theorem Parts.neg (x y : RegNo) : Parts.Statement (.neg x y) := fun _ => ⟨0, 0, rfl, rfl⟩

theorem Parts.not (x y : RegNo) : Parts.Statement (.not x y) := fun _ => ⟨0, 0, rfl, rfl⟩

theorem Parts.add (x y : RegNo) : Parts.Statement (.add x y) := fun _ => ⟨0, 0, rfl, rfl⟩

theorem Parts.sub (x y : RegNo) : Parts.Statement (.sub x y) := fun _ => ⟨0, 0, rfl, rfl⟩

theorem Parts.mpy (x y : RegNo) : Parts.Statement (.mpy x y) := fun _ => ⟨0, 0, rfl, rfl⟩

theorem Parts.div (x y : RegNo) : Parts.Statement (.div x y) := fun _ => ⟨0, 0, rfl, rfl⟩

theorem Parts.rem (x y : RegNo) : Parts.Statement (.rem x y) := fun _ => ⟨0, 0, rfl, rfl⟩

theorem Parts.and (x y : RegNo) : Parts.Statement (.and x y) := fun _ => ⟨0, 0, rfl, rfl⟩

theorem Parts.or (x y : RegNo) : Parts.Statement (.or x y) := fun _ => ⟨0, 0, rfl, rfl⟩

theorem Parts.xor (x y : RegNo) : Parts.Statement (.xor x y) := fun _ => ⟨0, 0, rfl, rfl⟩

theorem Parts.nop (x y : RegNo) : Parts.Statement (.nop x y) := fun _ => ⟨0, 0, rfl, rfl⟩

theorem Parts.eadd (x y : RegNo) : Parts.Statement (.eadd x y) := fun _ => ⟨0, 0, rfl, rfl⟩

theorem Parts.esub (x y : RegNo) : Parts.Statement (.esub x y) := fun _ => ⟨0, 0, rfl, rfl⟩

theorem Parts.empy (x y : RegNo) : Parts.Statement (.empy x y) := fun _ => ⟨0, 0, rfl, rfl⟩

theorem Parts.ediv (x y : RegNo) : Parts.Statement (.ediv x y) := fun _ => ⟨0, 0, rfl, rfl⟩

theorem Parts.fixt (x y : RegNo) : Parts.Statement (.fixt x y) := fun _ => ⟨0, 0, rfl, rfl⟩

theorem Parts.fixr (x y : RegNo) : Parts.Statement (.fixr x y) := fun _ => ⟨0, 0, rfl, rfl⟩

theorem Parts.float (x y : RegNo) : Parts.Statement (.float x y) := fun _ => ⟨0, 0, rfl, rfl⟩

theorem Parts.makerd (x y : RegNo) : Parts.Statement (.makerd x y) := fun _ => ⟨0, 0, rfl, rfl⟩

theorem Parts.makedr (x y : RegNo) : Parts.Statement (.makedr x y) := fun _ => ⟨0, 0, rfl, rfl⟩

theorem Parts.radd (x y : RegNo) : Parts.Statement (.radd x y) := fun _ => ⟨0, 0, rfl, rfl⟩

theorem Parts.rsub (x y : RegNo) : Parts.Statement (.rsub x y) := fun _ => ⟨0, 0, rfl, rfl⟩

theorem Parts.rmpy (x y : RegNo) : Parts.Statement (.rmpy x y) := fun _ => ⟨0, 0, rfl, rfl⟩

theorem Parts.rdiv (x y : RegNo) : Parts.Statement (.rdiv x y) := fun _ => ⟨0, 0, rfl, rfl⟩

theorem Parts.rneg (x y : RegNo) : Parts.Statement (.rneg x y) := fun _ => ⟨0, 0, rfl, rfl⟩

theorem Parts.rcomp (x y : RegNo) : Parts.Statement (.rcomp x y) := fun _ => ⟨0, 0, rfl, rfl⟩

theorem Parts.dfixt (x y : RegNo) : Parts.Statement (.dfixt x y) := fun _ => ⟨0, 0, rfl, rfl⟩

theorem Parts.dfixr (x y : RegNo) : Parts.Statement (.dfixr x y) := fun _ => ⟨0, 0, rfl, rfl⟩

theorem Parts.dfloat (x y : RegNo) : Parts.Statement (.dfloat x y) := fun _ => ⟨0, 0, rfl, rfl⟩

theorem Parts.dradd (x y : RegNo) : Parts.Statement (.dradd x y) := fun _ => ⟨0, 0, rfl, rfl⟩

theorem Parts.drsub (x y : RegNo) : Parts.Statement (.drsub x y) := fun _ => ⟨0, 0, rfl, rfl⟩

theorem Parts.drmpy (x y : RegNo) : Parts.Statement (.drmpy x y) := fun _ => ⟨0, 0, rfl, rfl⟩

theorem Parts.drdiv (x y : RegNo) : Parts.Statement (.drdiv x y) := fun _ => ⟨0, 0, rfl, rfl⟩

theorem Parts.drneg (x y : RegNo) : Parts.Statement (.drneg x y) := fun _ => ⟨0, 0, rfl, rfl⟩

theorem Parts.drcomp (x y : RegNo) : Parts.Statement (.drcomp x y) := fun _ => ⟨0, 0, rfl, rfl⟩

theorem Parts.cbit (x y : RegNo) : Parts.Statement (.cbit x y) := fun _ => ⟨0, 0, rfl, rfl⟩

theorem Parts.sbit (x y : RegNo) : Parts.Statement (.sbit x y) := fun _ => ⟨0, 0, rfl, rfl⟩

theorem Parts.tbit (x y : RegNo) : Parts.Statement (.tbit x y) := fun _ => ⟨0, 0, rfl, rfl⟩

theorem Parts.lcomp (x y : RegNo) : Parts.Statement (.lcomp x y) := fun _ => ⟨0, 0, rfl, rfl⟩

theorem Parts.dcomp (x y : RegNo) : Parts.Statement (.dcomp x y) := fun _ => ⟨0, 0, rfl, rfl⟩

theorem Parts.csl (x y : RegNo) : Parts.Statement (.csl x y) := fun _ => ⟨0, 0, rfl, rfl⟩

theorem Parts.lsl (x y : RegNo) : Parts.Statement (.lsl x y) := fun _ => ⟨0, 0, rfl, rfl⟩

theorem Parts.lsr (x y : RegNo) : Parts.Statement (.lsr x y) := fun _ => ⟨0, 0, rfl, rfl⟩

theorem Parts.asl (x y : RegNo) : Parts.Statement (.asl x y) := fun _ => ⟨0, 0, rfl, rfl⟩

theorem Parts.asr (x y : RegNo) : Parts.Statement (.asr x y) := fun _ => ⟨0, 0, rfl, rfl⟩

theorem Parts.dlsl (x y : RegNo) : Parts.Statement (.dlsl x y) := fun _ => ⟨0, 0, rfl, rfl⟩

theorem Parts.dlsr (x y : RegNo) : Parts.Statement (.dlsr x y) := fun _ => ⟨0, 0, rfl, rfl⟩

theorem Parts.seb (x y : RegNo) : Parts.Statement (.seb x y) := fun _ => ⟨0, 0, rfl, rfl⟩

theorem Parts.seh (x y : RegNo) : Parts.Statement (.seh x y) := fun _ => ⟨0, 0, rfl, rfl⟩

theorem Parts.callr (x y : RegNo) : Parts.Statement (.callr x y) := fun _ => ⟨0, 0, rfl, rfl⟩

theorem Parts.ret (x y : RegNo) : Parts.Statement (.ret x y) := fun _ => ⟨0, 0, rfl, rfl⟩

theorem Parts.chk (x y : RegNo) : Parts.Statement (.chk x y) := fun _ => ⟨0, 0, rfl, rfl⟩

theorem Parts.sus (x y : RegNo) : Parts.Statement (.sus x y) := fun _ => ⟨0, 0, rfl, rfl⟩

theorem Parts.lus (x y : RegNo) : Parts.Statement (.lus x y) := fun _ => ⟨0, 0, rfl, rfl⟩

theorem Parts.ldregs (x y : RegNo) : Parts.Statement (.ldregs x y) := fun _ => ⟨0, 0, rfl, rfl⟩

theorem Parts.rum (x y : RegNo) : Parts.Statement (.rum x y) := fun _ => ⟨0, 0, rfl, rfl⟩

theorem Parts.movesr (x y : RegNo) : Parts.Statement (.movesr x y) := fun _ => ⟨0, 0, rfl, rfl⟩

theorem Parts.movers (x y : RegNo) : Parts.Statement (.movers x y) := fun _ => ⟨0, 0, rfl, rfl⟩

theorem Parts.maint (x sub : BitVec 4) : Parts.Statement (.maint x sub) := by
  intro h
  refine ⟨0, 0, rfl, ?_⟩
  revert x sub
  decide

theorem Parts.trans (x y : RegNo) : Parts.Statement (.trans x y) := fun _ => ⟨0, 0, rfl, rfl⟩

theorem Parts.dirt (x y : RegNo) : Parts.Statement (.dirt x y) := fun _ => ⟨0, 0, rfl, rfl⟩

theorem Parts.read (x y : RegNo) : Parts.Statement (.read x y) := fun _ => ⟨0, 0, rfl, rfl⟩

theorem Parts.write (x y : RegNo) : Parts.Statement (.write x y) := fun _ => ⟨0, 0, rfl, rfl⟩

theorem Parts.testGt (x y : RegNo) : Parts.Statement (.testGt x y) := fun _ => ⟨0, 0, rfl, rfl⟩

theorem Parts.testEq (x y : RegNo) : Parts.Statement (.testEq x y) := fun _ => ⟨0, 0, rfl, rfl⟩

theorem Parts.testLt (x y : RegNo) : Parts.Statement (.testLt x y) := fun _ => ⟨0, 0, rfl, rfl⟩

theorem Parts.testLe (x y : RegNo) : Parts.Statement (.testLe x y) := fun _ => ⟨0, 0, rfl, rfl⟩

theorem Parts.testGe (x y : RegNo) : Parts.Statement (.testGe x y) := fun _ => ⟨0, 0, rfl, rfl⟩

theorem Parts.testNe (x y : RegNo) : Parts.Statement (.testNe x y) := fun _ => ⟨0, 0, rfl, rfl⟩

theorem Parts.moveri (x y : RegNo) : Parts.Statement (.moveri x y) := fun _ => ⟨0, 0, rfl, rfl⟩

theorem Parts.noti (x y : RegNo) : Parts.Statement (.noti x y) := fun _ => ⟨0, 0, rfl, rfl⟩

theorem Parts.addi (x y : RegNo) : Parts.Statement (.addi x y) := fun _ => ⟨0, 0, rfl, rfl⟩

theorem Parts.subi (x y : RegNo) : Parts.Statement (.subi x y) := fun _ => ⟨0, 0, rfl, rfl⟩

theorem Parts.andi (x y : RegNo) : Parts.Statement (.andi x y) := fun _ => ⟨0, 0, rfl, rfl⟩

theorem Parts.mpyi (x y : RegNo) : Parts.Statement (.mpyi x y) := fun _ => ⟨0, 0, rfl, rfl⟩

theorem Parts.csli (x y : RegNo) : Parts.Statement (.csli x y) := fun _ => ⟨0, 0, rfl, rfl⟩

theorem Parts.lsli (x y : RegNo) : Parts.Statement (.lsli x y) := fun _ => ⟨0, 0, rfl, rfl⟩

theorem Parts.lsri (x y : RegNo) : Parts.Statement (.lsri x y) := fun _ => ⟨0, 0, rfl, rfl⟩

theorem Parts.asli (x y : RegNo) : Parts.Statement (.asli x y) := fun _ => ⟨0, 0, rfl, rfl⟩

theorem Parts.asri (x y : RegNo) : Parts.Statement (.asri x y) := fun _ => ⟨0, 0, rfl, rfl⟩

theorem Parts.dlsli (x y : RegNo) : Parts.Statement (.dlsli x y) := fun _ => ⟨0, 0, rfl, rfl⟩

theorem Parts.dlsri (x y : RegNo) : Parts.Statement (.dlsri x y) := fun _ => ⟨0, 0, rfl, rfl⟩

theorem Parts.chki (x y : RegNo) : Parts.Statement (.chki x y) := fun _ => ⟨0, 0, rfl, rfl⟩

theorem Parts.trap (x y : RegNo) : Parts.Statement (.trap x y) := fun _ => ⟨0, 0, rfl, rfl⟩

theorem Parts.testiGt (x y : RegNo) : Parts.Statement (.testiGt x y) := fun _ => ⟨0, 0, rfl, rfl⟩

theorem Parts.testiEq (x y : RegNo) : Parts.Statement (.testiEq x y) := fun _ => ⟨0, 0, rfl, rfl⟩

theorem Parts.testiLt (x y : RegNo) : Parts.Statement (.testiLt x y) := fun _ => ⟨0, 0, rfl, rfl⟩

theorem Parts.testiLe (x y : RegNo) : Parts.Statement (.testiLe x y) := fun _ => ⟨0, 0, rfl, rfl⟩

theorem Parts.testiGe (x y : RegNo) : Parts.Statement (.testiGe x y) := fun _ => ⟨0, 0, rfl, rfl⟩

theorem Parts.testiNe (x y : RegNo) : Parts.Statement (.testiNe x y) := fun _ => ⟨0, 0, rfl, rfl⟩

theorem Parts.kcall (num : BitVec 8) : Parts.Statement (.kcall num) := fun _ => ⟨0, 0, rfl, by revert num; decide⟩

theorem Parts.load (x y : RegNo) (disp : BitVec 16) : Parts.Statement (.load x y disp) := fun _ => ⟨disp, 0, rfl, rfl⟩

theorem Parts.loadl (x y : RegNo) (disp : BitVec 32) : Parts.Statement (.loadl x y disp) := fun _ => ⟨0, disp, rfl, rfl⟩

theorem Parts.loadx (x y : RegNo) (disp : BitVec 16) : Parts.Statement (.loadx x y disp) := fun _ => ⟨disp, 0, rfl, rfl⟩

theorem Parts.loadlx (x y : RegNo) (disp : BitVec 32) : Parts.Statement (.loadlx x y disp) := fun _ => ⟨0, disp, rfl, rfl⟩

theorem Parts.loadp (x y : RegNo) (disp : BitVec 16) : Parts.Statement (.loadp x y disp) := fun _ => ⟨disp, 0, rfl, rfl⟩

theorem Parts.loadpl (x y : RegNo) (disp : BitVec 32) : Parts.Statement (.loadpl x y disp) := fun _ => ⟨0, disp, rfl, rfl⟩

theorem Parts.loadpx (x y : RegNo) (disp : BitVec 16) : Parts.Statement (.loadpx x y disp) := fun _ => ⟨disp, 0, rfl, rfl⟩

theorem Parts.loadplx (x y : RegNo) (disp : BitVec 32) : Parts.Statement (.loadplx x y disp) := fun _ => ⟨0, disp, rfl, rfl⟩

theorem Parts.loadh (x y : RegNo) (disp : BitVec 16) : Parts.Statement (.loadh x y disp) := fun _ => ⟨disp, 0, rfl, rfl⟩

theorem Parts.loadhl (x y : RegNo) (disp : BitVec 32) : Parts.Statement (.loadhl x y disp) := fun _ => ⟨0, disp, rfl, rfl⟩

theorem Parts.loadhx (x y : RegNo) (disp : BitVec 16) : Parts.Statement (.loadhx x y disp) := fun _ => ⟨disp, 0, rfl, rfl⟩

theorem Parts.loadhlx (x y : RegNo) (disp : BitVec 32) : Parts.Statement (.loadhlx x y disp) := fun _ => ⟨0, disp, rfl, rfl⟩

theorem Parts.loadhp (x y : RegNo) (disp : BitVec 16) : Parts.Statement (.loadhp x y disp) := fun _ => ⟨disp, 0, rfl, rfl⟩

theorem Parts.loadhpl (x y : RegNo) (disp : BitVec 32) : Parts.Statement (.loadhpl x y disp) := fun _ => ⟨0, disp, rfl, rfl⟩

theorem Parts.loadhpx (x y : RegNo) (disp : BitVec 16) : Parts.Statement (.loadhpx x y disp) := fun _ => ⟨disp, 0, rfl, rfl⟩

theorem Parts.loadhplx (x y : RegNo) (disp : BitVec 32) : Parts.Statement (.loadhplx x y disp) := fun _ => ⟨0, disp, rfl, rfl⟩

theorem Parts.loadb (x y : RegNo) (disp : BitVec 16) : Parts.Statement (.loadb x y disp) := fun _ => ⟨disp, 0, rfl, rfl⟩

theorem Parts.loadbl (x y : RegNo) (disp : BitVec 32) : Parts.Statement (.loadbl x y disp) := fun _ => ⟨0, disp, rfl, rfl⟩

theorem Parts.loadbx (x y : RegNo) (disp : BitVec 16) : Parts.Statement (.loadbx x y disp) := fun _ => ⟨disp, 0, rfl, rfl⟩

theorem Parts.loadblx (x y : RegNo) (disp : BitVec 32) : Parts.Statement (.loadblx x y disp) := fun _ => ⟨0, disp, rfl, rfl⟩

theorem Parts.loadbp (x y : RegNo) (disp : BitVec 16) : Parts.Statement (.loadbp x y disp) := fun _ => ⟨disp, 0, rfl, rfl⟩

theorem Parts.loadbpl (x y : RegNo) (disp : BitVec 32) : Parts.Statement (.loadbpl x y disp) := fun _ => ⟨0, disp, rfl, rfl⟩

theorem Parts.loadbpx (x y : RegNo) (disp : BitVec 16) : Parts.Statement (.loadbpx x y disp) := fun _ => ⟨disp, 0, rfl, rfl⟩

theorem Parts.loadbplx (x y : RegNo) (disp : BitVec 32) : Parts.Statement (.loadbplx x y disp) := fun _ => ⟨0, disp, rfl, rfl⟩

theorem Parts.loadd (x y : RegNo) (disp : BitVec 16) : Parts.Statement (.loadd x y disp) := fun _ => ⟨disp, 0, rfl, rfl⟩

theorem Parts.loaddl (x y : RegNo) (disp : BitVec 32) : Parts.Statement (.loaddl x y disp) := fun _ => ⟨0, disp, rfl, rfl⟩

theorem Parts.loaddx (x y : RegNo) (disp : BitVec 16) : Parts.Statement (.loaddx x y disp) := fun _ => ⟨disp, 0, rfl, rfl⟩

theorem Parts.loaddlx (x y : RegNo) (disp : BitVec 32) : Parts.Statement (.loaddlx x y disp) := fun _ => ⟨0, disp, rfl, rfl⟩

theorem Parts.loaddp (x y : RegNo) (disp : BitVec 16) : Parts.Statement (.loaddp x y disp) := fun _ => ⟨disp, 0, rfl, rfl⟩

theorem Parts.loaddpl (x y : RegNo) (disp : BitVec 32) : Parts.Statement (.loaddpl x y disp) := fun _ => ⟨0, disp, rfl, rfl⟩

theorem Parts.loaddpx (x y : RegNo) (disp : BitVec 16) : Parts.Statement (.loaddpx x y disp) := fun _ => ⟨disp, 0, rfl, rfl⟩

theorem Parts.loaddplx (x y : RegNo) (disp : BitVec 32) : Parts.Statement (.loaddplx x y disp) := fun _ => ⟨0, disp, rfl, rfl⟩

theorem Parts.store (x y : RegNo) (disp : BitVec 16) : Parts.Statement (.store x y disp) := fun _ => ⟨disp, 0, rfl, rfl⟩

theorem Parts.storel (x y : RegNo) (disp : BitVec 32) : Parts.Statement (.storel x y disp) := fun _ => ⟨0, disp, rfl, rfl⟩

theorem Parts.storex (x y : RegNo) (disp : BitVec 16) : Parts.Statement (.storex x y disp) := fun _ => ⟨disp, 0, rfl, rfl⟩

theorem Parts.storelx (x y : RegNo) (disp : BitVec 32) : Parts.Statement (.storelx x y disp) := fun _ => ⟨0, disp, rfl, rfl⟩

theorem Parts.storeh (x y : RegNo) (disp : BitVec 16) : Parts.Statement (.storeh x y disp) := fun _ => ⟨disp, 0, rfl, rfl⟩

theorem Parts.storehl (x y : RegNo) (disp : BitVec 32) : Parts.Statement (.storehl x y disp) := fun _ => ⟨0, disp, rfl, rfl⟩

theorem Parts.storehx (x y : RegNo) (disp : BitVec 16) : Parts.Statement (.storehx x y disp) := fun _ => ⟨disp, 0, rfl, rfl⟩

theorem Parts.storehlx (x y : RegNo) (disp : BitVec 32) : Parts.Statement (.storehlx x y disp) := fun _ => ⟨0, disp, rfl, rfl⟩

theorem Parts.storeb (x y : RegNo) (disp : BitVec 16) : Parts.Statement (.storeb x y disp) := fun _ => ⟨disp, 0, rfl, rfl⟩

theorem Parts.storebl (x y : RegNo) (disp : BitVec 32) : Parts.Statement (.storebl x y disp) := fun _ => ⟨0, disp, rfl, rfl⟩

theorem Parts.storebx (x y : RegNo) (disp : BitVec 16) : Parts.Statement (.storebx x y disp) := fun _ => ⟨disp, 0, rfl, rfl⟩

theorem Parts.storeblx (x y : RegNo) (disp : BitVec 32) : Parts.Statement (.storeblx x y disp) := fun _ => ⟨0, disp, rfl, rfl⟩

theorem Parts.stored (x y : RegNo) (disp : BitVec 16) : Parts.Statement (.stored x y disp) := fun _ => ⟨disp, 0, rfl, rfl⟩

theorem Parts.storedl (x y : RegNo) (disp : BitVec 32) : Parts.Statement (.storedl x y disp) := fun _ => ⟨0, disp, rfl, rfl⟩

theorem Parts.storedx (x y : RegNo) (disp : BitVec 16) : Parts.Statement (.storedx x y disp) := fun _ => ⟨disp, 0, rfl, rfl⟩

theorem Parts.storedlx (x y : RegNo) (disp : BitVec 32) : Parts.Statement (.storedlx x y disp) := fun _ => ⟨0, disp, rfl, rfl⟩

theorem Parts.laddr (x y : RegNo) (disp : BitVec 16) : Parts.Statement (.laddr x y disp) := fun _ => ⟨disp, 0, rfl, rfl⟩

theorem Parts.laddrx (x y : RegNo) (disp : BitVec 16) : Parts.Statement (.laddrx x y disp) := fun _ => ⟨disp, 0, rfl, rfl⟩

theorem Parts.laddrl (x y : RegNo) (disp : BitVec 32) : Parts.Statement (.laddrl x y disp) := fun _ => ⟨0, disp, rfl, rfl⟩

theorem Parts.laddrlx (x y : RegNo) (disp : BitVec 32) : Parts.Statement (.laddrlx x y disp) := fun _ => ⟨0, disp, rfl, rfl⟩

theorem Parts.laddrp (x y : RegNo) (disp : BitVec 16) : Parts.Statement (.laddrp x y disp) := fun _ => ⟨disp, 0, rfl, rfl⟩

theorem Parts.laddrpx (x y : RegNo) (disp : BitVec 16) : Parts.Statement (.laddrpx x y disp) := fun _ => ⟨disp, 0, rfl, rfl⟩

theorem Parts.laddrpl (x y : RegNo) (disp : BitVec 32) : Parts.Statement (.laddrpl x y disp) := fun _ => ⟨0, disp, rfl, rfl⟩

theorem Parts.laddrplx (x y : RegNo) (disp : BitVec 32) : Parts.Statement (.laddrplx x y disp) := fun _ => ⟨0, disp, rfl, rfl⟩

theorem Parts.br (x y : RegNo) (disp : BitVec 16) : Parts.Statement (.br x y disp) := fun _ => ⟨disp, 0, rfl, rfl⟩

theorem Parts.brl (x y : RegNo) (disp : BitVec 32) : Parts.Statement (.brl x y disp) := fun _ => ⟨0, disp, rfl, rfl⟩

theorem Parts.brGt (x y : RegNo) (disp : BitVec 16) : Parts.Statement (.brGt x y disp) := fun _ => ⟨disp, 0, rfl, rfl⟩

theorem Parts.brGtL (x y : RegNo) (disp : BitVec 32) : Parts.Statement (.brGtL x y disp) := fun _ => ⟨0, disp, rfl, rfl⟩

theorem Parts.brEq (x y : RegNo) (disp : BitVec 16) : Parts.Statement (.brEq x y disp) := fun _ => ⟨disp, 0, rfl, rfl⟩

theorem Parts.brEqL (x y : RegNo) (disp : BitVec 32) : Parts.Statement (.brEqL x y disp) := fun _ => ⟨0, disp, rfl, rfl⟩

theorem Parts.brLe (x y : RegNo) (disp : BitVec 16) : Parts.Statement (.brLe x y disp) := fun _ => ⟨disp, 0, rfl, rfl⟩

theorem Parts.brLeL (x y : RegNo) (disp : BitVec 32) : Parts.Statement (.brLeL x y disp) := fun _ => ⟨0, disp, rfl, rfl⟩

theorem Parts.brNe (x y : RegNo) (disp : BitVec 16) : Parts.Statement (.brNe x y disp) := fun _ => ⟨disp, 0, rfl, rfl⟩

theorem Parts.brNeL (x y : RegNo) (disp : BitVec 32) : Parts.Statement (.brNeL x y disp) := fun _ => ⟨0, disp, rfl, rfl⟩

theorem Parts.briGt (x y : RegNo) (disp : BitVec 16) : Parts.Statement (.briGt x y disp) := fun _ => ⟨disp, 0, rfl, rfl⟩

theorem Parts.briGtL (x y : RegNo) (disp : BitVec 32) : Parts.Statement (.briGtL x y disp) := fun _ => ⟨0, disp, rfl, rfl⟩

theorem Parts.briLt (x y : RegNo) (disp : BitVec 16) : Parts.Statement (.briLt x y disp) := fun _ => ⟨disp, 0, rfl, rfl⟩

theorem Parts.briLtL (x y : RegNo) (disp : BitVec 32) : Parts.Statement (.briLtL x y disp) := fun _ => ⟨0, disp, rfl, rfl⟩

theorem Parts.briEq (x y : RegNo) (disp : BitVec 16) : Parts.Statement (.briEq x y disp) := fun _ => ⟨disp, 0, rfl, rfl⟩

theorem Parts.briEqL (x y : RegNo) (disp : BitVec 32) : Parts.Statement (.briEqL x y disp) := fun _ => ⟨0, disp, rfl, rfl⟩

theorem Parts.briLe (x y : RegNo) (disp : BitVec 16) : Parts.Statement (.briLe x y disp) := fun _ => ⟨disp, 0, rfl, rfl⟩

theorem Parts.briLeL (x y : RegNo) (disp : BitVec 32) : Parts.Statement (.briLeL x y disp) := fun _ => ⟨0, disp, rfl, rfl⟩

theorem Parts.briGe (x y : RegNo) (disp : BitVec 16) : Parts.Statement (.briGe x y disp) := fun _ => ⟨disp, 0, rfl, rfl⟩

theorem Parts.briGeL (x y : RegNo) (disp : BitVec 32) : Parts.Statement (.briGeL x y disp) := fun _ => ⟨0, disp, rfl, rfl⟩

theorem Parts.briNe (x y : RegNo) (disp : BitVec 16) : Parts.Statement (.briNe x y disp) := fun _ => ⟨disp, 0, rfl, rfl⟩

theorem Parts.briNeL (x y : RegNo) (disp : BitVec 32) : Parts.Statement (.briNeL x y disp) := fun _ => ⟨0, disp, rfl, rfl⟩

theorem Parts.call (x y : RegNo) (disp : BitVec 16) : Parts.Statement (.call x y disp) := fun _ => ⟨disp, 0, rfl, rfl⟩

theorem Parts.calll (x y : RegNo) (disp : BitVec 32) : Parts.Statement (.calll x y disp) := fun _ => ⟨0, disp, rfl, rfl⟩

theorem Parts.loop (x y : RegNo) (disp : BitVec 16) : Parts.Statement (.loop x y disp) := fun _ => ⟨disp, 0, rfl, rfl⟩

theorem Parts.loopl (x y : RegNo) (disp : BitVec 32) : Parts.Statement (.loopl x y disp) := fun _ => ⟨0, disp, rfl, rfl⟩

theorem Parts.elogr (x : RegNo) : Parts.Statement (.elogr x) := fun _ => ⟨0, 0, rfl, rfl⟩

theorem Parts.elogw (x : RegNo) : Parts.Statement (.elogw x) := fun _ => ⟨0, 0, rfl, rfl⟩

theorem Parts.twrited (x : RegNo) : Parts.Statement (.twrited x) := fun _ => ⟨0, 0, rfl, rfl⟩

theorem Parts.flush (x : RegNo) : Parts.Statement (.flush x) := fun _ => ⟨0, 0, rfl, rfl⟩

theorem Parts.trapexit (x : RegNo) : Parts.Statement (.trapexit x) := fun _ => ⟨0, 0, rfl, rfl⟩

theorem Parts.itest (x : RegNo) : Parts.Statement (.itest x) := fun _ => ⟨0, 0, rfl, rfl⟩

theorem Parts.machineid (x : RegNo) : Parts.Statement (.machineid x) := fun _ => ⟨0, 0, rfl, rfl⟩

theorem Parts.version (x : RegNo) : Parts.Statement (.version x) := fun _ => ⟨0, 0, rfl, rfl⟩

theorem Parts.creg (x : RegNo) : Parts.Statement (.creg x) := fun _ => ⟨0, 0, rfl, rfl⟩

theorem Parts.rdlog (x : RegNo) : Parts.Statement (.rdlog x) := fun _ => ⟨0, 0, rfl, rfl⟩

end Sys2Proof.Laws
end

