-- ==== Sys2Proof/Laws/Step.lean ====
section
/-! SUPPORT. What a step can do, said once: instruction fetch, the events of a boundary, the choice of an interrupt, and
the cases of a step. -/

namespace Sys2Proof.Machine

/-! ### Instruction fetch -/

/-- What instruction fetch keeps: whatever translation and a read of a halfword of code keep. -/
theorem fetchHalf_induct {P : State → Prop} {s t : State} {p : Word} (h : (fetchHalf p s).state? = some t) (h0 : P s)
    (hsearch : ∀ u seg b, P u → P (u.searched seg b))
    (hmark : ∀ u p w i e bits, i < 1024 → u.inMem (p + 8) 4 = true → P u → P ((u.markEntry p w bits).setTmt i e))
    (hline : ∀ u a, P u → P (u.loadLine .fetch a)) : P t := by
  have hl : ∀ {u : State}, (s.locate .code p .fetch 2).state? = some u → P u := fun hu =>
    State.locate_induct hu h0 hsearch hmark
  unfold fetchHalf at h
  cases hr : s.locate .code p .fetch 2 with
  | fault f =>
    rw [hr] at h
    cases h
  | event e u =>
    rw [hr] at h
    cases h
    exact hl (by rw [hr]; rfl)
  | stuck k u =>
    rw [hr] at h
    cases h
    exact hl (by rw [hr]; rfl)
  | ok r u =>
    rw [hr] at h
    cases h
    exact hline _ _ (hl (by rw [hr]; rfl))

theorem fetchHalves_induct {P : State → Prop} {n : Nat} {s t : State} {p : Word}
    (h : (fetchHalves n p s).state? = some t) (h0 : P s)
    (hsearch : ∀ u seg b, P u → P (u.searched seg b))
    (hmark : ∀ u p w i e bits, i < 1024 → u.inMem (p + 8) 4 = true → P u → P ((u.markEntry p w bits).setTmt i e))
    (hline : ∀ u a, P u → P (u.loadLine .fetch a)) : P t := by
  induction n generalizing s t p with
  | zero =>
    cases h
    exact h0
  | succ n ih =>
    have hh : ∀ {u : State}, (fetchHalf p s).state? = some u → P u := fun hu =>
      fetchHalf_induct hu h0 hsearch hmark hline
    unfold fetchHalves at h
    cases hf : fetchHalf p s with
    | fault f =>
      rw [hf] at h
      cases h
    | event e u =>
      rw [hf] at h
      cases h
      exact hh (by rw [hf]; rfl)
    | stuck k u =>
      rw [hf] at h
      cases h
      exact hh (by rw [hf]; rfl)
    | ok bs u =>
      rw [hf, Res.bind_ok] at h
      have hu : P u := hh (by rw [hf]; rfl)
      cases hg : fetchHalves n (p + 2) u with
      | fault f =>
        rw [hg] at h
        cases h
      | event e w =>
        rw [hg] at h
        cases h
        exact ih (by rw [hg]; rfl) hu
      | stuck k w =>
        rw [hg] at h
        cases h
        exact ih (by rw [hg]; rfl) hu
      | ok cs w =>
        rw [hg] at h
        cases h
        exact ih (by rw [hg]; rfl) hu

theorem fetchBytes_induct {P : State → Prop} {s t : State} (h : (fetchBytes s).state? = some t) (h0 : P s)
    (hsearch : ∀ u seg b, P u → P (u.searched seg b))
    (hmark : ∀ u p w i e bits, i < 1024 → u.inMem (p + 8) 4 = true → P u → P ((u.markEntry p w bits).setTmt i e))
    (hline : ∀ u a, P u → P (u.loadLine .fetch a)) (hahead : ∀ u, P u → P u.readAhead) : P t := by
  have hh : ∀ {u : State}, (fetchHalf s.pc s).state? = some u → P u := fun hu =>
    fetchHalf_induct hu h0 hsearch hmark hline
  unfold fetchBytes at h
  split at h
  · cases h
  · cases hf : fetchHalf s.pc s with
    | fault f =>
      rw [hf] at h
      cases h
    | event e u =>
      rw [hf] at h
      cases h
      exact hh (by rw [hf]; rfl)
    | stuck k u =>
      rw [hf] at h
      cases h
      exact hh (by rw [hf]; rfl)
    | ok bs u =>
      rw [hf, Res.bind_ok] at h
      have hu : P u := hh (by rw [hf]; rfl)
      dsimp only at h
      split at h
      · cases h
      · generalize hg : fetchHalves _ (u.pc + 2) u = g at h
        have hw : ∀ {w : State}, g.state? = some w → P w := fun hw =>
          fetchHalves_induct (hg ▸ hw) hu hsearch hmark hline
        cases g with
        | fault f => cases h
        | event e w =>
          cases h
          exact hw rfl
        | stuck k w =>
          cases h
          exact hw rfl
        | ok cs w =>
          cases h
          exact hahead _ (hw rfl)

/-- Instruction fetch changes memory, the cache, the prefetch buffers and the TMT only. -/
theorem fetchBytes_frame {s t : State} (h : (fetchBytes s).state? = some t) :
    t = { s with mem := t.mem, codeLines := t.codeLines, dataLines := t.dataLines, prefetch := t.prefetch,
                 tmt := t.tmt } := by
  refine fetchBytes_induct (P := fun u => u = { s with
    mem := u.mem, codeLines := u.codeLines, dataLines := u.dataLines, prefetch := u.prefetch, tmt := u.tmt }) h rfl
    ?_ ?_ ?_ ?_
  · intro u seg b hu
    rw [hu]
    rfl
  · intro u p w i e bits _ _ hu
    have f := (SameButMemory.storeBytes u (p + 8).toNat (bytesOfWord (w ||| bits))).trans (SameButMemory.setTmt _ i e)
    change (u.markEntry p w bits).setTmt i e = _ at f
    rw [f, hu]
  · intro u a hu
    rw [hu]
    rfl
  · intro u hu
    rw [hu]
    rfl

/-! ### The events of a boundary -/

/-- What a replaced word of a control structure is: a read, then a write of a word of installed memory. -/
theorem State.structAdd_ok {s t : State} {base offset v : Word} (h : s.structAdd base offset v = .ok t) :
    ∃ w, s.structRead base offset = .ok w ∧ s.inMem (base + offset) 4 = true ∧
      t = (s.loadLine .data (base + offset).toNat).storeBytes (base + offset).toNat (bytesOfWord (w + v)) := by
  unfold State.structAdd at h
  split at h
  · cases h
  · rename_i w s1 hw
    obtain ⟨h1, rfl⟩ := State.structLoad_ok hw
    obtain ⟨_, _, h2, h3⟩ := State.structWrite_ok h
    exact ⟨w, h1, h2, h3⟩

/-- What the tick keeps: whatever a read of a data word and a write of a word of installed memory keep. -/
theorem State.tick_induct {P : State → Prop} {s t : State} (h : s.tick = .ok t) (h0 : P s)
    (hl : ∀ u a, P u → P (u.loadLine .data a))
    (hw : ∀ u a v, u.inMem a 4 = true → P u → P (u.storeBytes a.toNat (bytesOfWord v))) : P t := by
  have hadd : ∀ {u t : State} {b o v : Word}, u.structAdd b o v = .ok t → P u → P t := by
    intro u t b o v h hu
    obtain ⟨w, _, hm, rfl⟩ := State.structAdd_ok h
    exact hw _ _ _ (by rwa [State.inMem_loadLine]) (hl _ _ hu)
  have hload : ∀ {u t : State} {b o v : Word}, u.structLoad b o = .ok (v, t) → P u → P t := by
    intro u t b o v h hu
    obtain ⟨_, rfl⟩ := State.structLoad_ok h
    exact hl _ _ hu
  have hwrite : ∀ {u t : State} {b o v : Word}, u.structWrite b o v = .ok t → P u → P t := by
    intro u t b o v h hu
    obtain ⟨_, _, hm, rfl⟩ := State.structWrite_ok h
    exact hw _ _ _ hm hu
  unfold State.tick at h
  split at h
  · cases h
  · rename_i s1 h1
    have hs1 : P s1 := by
      unfold State.tickProcess at h1
      split at h1
      · exact hadd h1 h0
      · split at h1
        · cases h1
          exact h0
        · exact hadd h1 h0
    unfold State.tickTimers at h
    split at h
    · cases h
      exact hs1
    · split at h
      · cases h
      · rename_i s2 h2
        split at h
        · cases h
        · rename_i s3 h3
          have hs3 : P s3 := hadd h3 (hadd h2 hs1)
          unfold State.tickTimeOfDay at h
          split at h
          · cases h
          · rename_i hi s4 h4
            split at h
            · cases h
            · rename_i lo s5 h5
              dsimp only at h
              split at h
              · cases h
              · rename_i s6 h6
                exact hwrite h (hwrite h6 (hload h5 (hload h4 hs3)))

/-- All that the free values of a double-bit error can change: general registers, and in kernel mode, not paused, also
SR8, SR9, SR10, SR15, the traps word in effect and the pc, which stays even. -/
theorem State.spoilReg_kept (s : State) (r : LoadedReg) :
    ((s.mode = .user ∨ s.paused = true) → s.spoilReg r = { s with regs := (s.spoilReg r).regs }) ∧
    s.spoilReg r = { s with
      regs := (s.spoilReg r).regs, sr := (s.spoilReg r).sr, trapsEff := (s.spoilReg r).trapsEff,
      trapsOpen := (s.spoilReg r).trapsOpen, pc := (s.spoilReg r).pc } ∧
    SameSregsBut [8, 9, 10, 15] s (s.spoilReg r) ∧
    (mbit s.pc 31 = false → mbit (s.spoilReg r).pc 31 = false) := by
  have even : ∀ w : Word, mbit (w &&& 0xFFFFFFFE) 31 = false := by
    intro w
    simp [mbit, BitVec.getMsbD]
  cases r with
  | general n => exact ⟨fun _ => rfl, rfl, fun _ _ => rfl, id⟩
  | kernel k =>
    simp only [State.spoilReg]
    split
    · rename_i hk
      refine ⟨fun h => by simp_all, ?_⟩
      cases k
      case pc => exact ⟨rfl, fun _ _ => rfl, fun _ => even _⟩
      all_goals
        exact ⟨rfl, fun n hn => State.sreg_setSreg_other s _ fun h => hn (by simp [h]), id⟩
    · exact ⟨fun _ => rfl, rfl, fun _ _ => rfl, id⟩

/-- What the registers of a double-bit error keep: whatever each of them keeps. -/
theorem State.spoilRegs_induct {P : State → Prop} {s : State} (l : List LoadedReg) (h0 : P s)
    (hr : ∀ u r, P u → P (u.spoilReg r)) : P (s.spoilRegs l) := by
  induction l generalizing s with
  | nil => exact h0
  | cons r rs ih => exact ih (hr s r h0)

/-- A double-bit error frees no register but a general one in user mode or in the pause. -/
theorem State.spoilRegs_low {s : State} (l : List LoadedReg) (h : s.mode = .user ∨ s.paused = true) :
    s.spoilRegs l = { s with regs := (s.spoilRegs l).regs } := by
  refine State.spoilRegs_induct (P := fun u => u = { s with regs := u.regs }) l rfl fun u r hu => ?_
  have hk := (u.spoilReg_kept r).1 (by rw [hu]; exact h)
  rw [hk, hu]

/-- All that an event of the environment can answer with a state. -/
theorem State.input_cases {s t : State} {i : Input} (h : s.input i = .ok t) :
    (i = .tick ∧ s.tick = .ok t) ∨ (∃ d, i = .dma d ∧ s.dma d = .ok t) ∨
    (t = s ∧ ∃ p, i = .resetButton p) ∨
    (∃ l, t = { s.spoilRegs l with parityDue := t.parityDue }) ∨
    t = { s with powerFail := t.powerFail, powerFailDue := t.powerFailDue, switch0Due := t.switch0Due,
                 parityDue := t.parityDue, clockIn := t.clockIn, boards := t.boards } ∨
    ∃ k e n, t = s.logError k e n := by
  cases i with
  | tick => exact .inl ⟨rfl, h⟩
  | resetButton p =>
    cases h
    exact .inr (.inr (.inl ⟨rfl, p, rfl⟩))
  | powerLost => cases h
  | dma d => exact .inr (.inl ⟨d, rfl, h⟩)
  | parityExecute a l =>
    cases h
    exact .inr (.inr (.inr (.inl ⟨l, rfl⟩)))
  | logWrite k e n =>
    cases h
    exact .inr (.inr (.inr (.inr (.inr ⟨k, e, n, rfl⟩))))
  | switch0 =>
    cases h
    exact .inr (.inr (.inr (.inr (.inl rfl))))
  | powerFail on =>
    cases h
    exact .inr (.inr (.inr (.inr (.inl rfl))))
  | parityFetch a =>
    cases h
    exact .inr (.inr (.inr (.inr (.inl rfl))))
  | ioRequest d info =>
    cases h
    exact .inr (.inr (.inr (.inr (.inl rfl))))
  | ioAnswer d a =>
    cases h
    exact .inr (.inr (.inr (.inr (.inl rfl))))
  | clockIn v =>
    cases h
    exact .inr (.inr (.inr (.inr (.inl rfl))))

/-- What the events of a boundary keep: whatever each of them keeps. -/
theorem State.inputAll_induct {P : State → Prop} {s t : State} {is : List Input} (h : s.inputAll is = .ok t) (h0 : P s)
    (hi : ∀ u v i, i ∈ is → u.input i = .ok v → P u → P v) : P t := by
  induction is generalizing s with
  | nil =>
    cases h
    exact h0
  | cons i is ih =>
    unfold State.inputAll at h
    split at h
    · cases h
    · rename_i s1 h1
      exact ih h (hi _ _ i (List.mem_cons_self ..) h1 h0) fun u v j hj => hi u v j (List.mem_cons_of_mem _ hj)

/-- A boot page comes from a press of the reset button. -/
theorem resetPage_mem {is : List Input} {p : List Byte} (h : resetPage is = some p) : .resetButton p ∈ is := by
  induction is with
  | nil => cases h
  | cons i is ih =>
    cases i <;> first
      | (cases h; exact List.mem_cons_self ..)
      | exact List.mem_cons_of_mem _ (ih h)

/-! ### The choice of an interrupt -/

/-- The state after the reads of both timer counts. -/
def State.timersRead (s : State) : State :=
  (s.loadLine .data (s.sreg 11 + 0x440).toNat).loadLine .data (s.sreg 11 + 0x444).toNat

/-- All the interrupts a boundary can take, each with the state in which it is taken. -/
theorem State.pending_take {s t : State} {e : Event} (h : s.pending = .take e t) :
    (∃ p ps, s.parityDue = p :: ps ∧ e = p.event ∧ t = { s with parityDue := ps }) ∨
    (s.powerFailDue ≠ 0 ∧ e = .powerFail ∧ t = { s with powerFailDue := s.powerFailDue - 1 }) ∨
    (s.switch0Due ≠ 0 ∧ e = .switch0 ∧ t = { s with switch0Due := s.switch0Due - 1 }) ∨
    ((s.mode = .user ∨ s.paused = true) ∧
      ((∃ b, s.deliverable = some b ∧ e = .external b.ioir ∧ t = s.ackIoi b) ∨
       (s.noCcb = false ∧ e = .timer1 ∧ t = s.loadLine .data (s.sreg 11 + 0x440).toNat) ∨
       (s.noCcb = false ∧ e = .timer2 ∧ t = s.timersRead))) := by
  unfold State.pending at h
  split at h
  · rename_i p ps hp
    cases h
    exact .inl ⟨p, ps, hp, rfl, rfl⟩
  · split at h
    · rename_i hp
      cases h
      exact .inr (.inl ⟨hp, rfl, rfl⟩)
    · split at h
      · rename_i hp
        cases h
        exact .inr (.inr (.inl ⟨hp, rfl, rfl⟩))
      · split at h
        · rename_i hm
          refine .inr (.inr (.inr ⟨hm, ?_⟩))
          unfold State.pendingLow at h
          split at h
          · rename_i b hb
            cases h
            exact .inl ⟨b, hb, rfl, rfl⟩
          · split at h
            · cases h
            · rename_i hn
              have hn : s.noCcb = false := by simpa using hn
              unfold State.timer at h
              split at h
              · cases h
              · rename_i w s1 h1
                obtain ⟨_, rfl⟩ := State.structLoad_ok h1
                split at h
                · cases h
                  exact .inr (.inl ⟨hn, rfl, rfl⟩)
                · dsimp only at h
                  split at h
                  · cases h
                  · rename_i w2 s2 h2
                    obtain ⟨_, rfl⟩ := State.structLoad_ok h2
                    split at h
                    · cases h
                      exact .inr (.inr ⟨hn, rfl, rfl⟩)
                    · cases h
        · cases h

/-- A boundary that takes no interrupt leaves the state as it was, but for the lines of the timer counts it has read. -/
theorem State.pending_none {s t : State} (h : s.pending = .none t) : t = s ∨ t = s.timersRead := by
  unfold State.pending at h
  split at h
  · cases h
  · split at h
    · cases h
    · split at h
      · cases h
      · split at h
        · unfold State.pendingLow at h
          split at h
          · cases h
          · split at h
            · cases h
              exact .inl rfl
            · unfold State.timer at h
              split at h
              · cases h
              · rename_i w s1 h1
                obtain ⟨_, rfl⟩ := State.structLoad_ok h1
                split at h
                · cases h
                · dsimp only at h
                  split at h
                  · cases h
                  · rename_i w2 s2 h2
                    obtain ⟨_, rfl⟩ := State.structLoad_ok h2
                    split at h
                    · cases h
                    · cases h
                      exact .inr rfl
        · cases h
          exact .inl rfl

/-- Looking for an interrupt does not end the pause. -/
theorem State.pending_none_paused {s t : State} (h : s.pending = .none t) : t.paused = s.paused := by
  rcases State.pending_none h with rfl | rfl <;> rfl

/-! ### The invariant, reads and writes -/

/-- Bytes stored into installed memory keep the invariant. -/
theorem State.Inv.storeBytes {s : State} (h : s.Inv) {a : Nat} {bs : List Byte}
    (hm : a + bs.length ≤ s.cfg.memSize.toNat) : (s.storeBytes a bs).Inv :=
  { memWf := State.storeBytes_memWf h.memWf a bs
    memInstalled := by
      rw [State.storeBytes_cfg]
      exact State.storeBytes_keysBelow h.memInstalled hm
    tmtWf := by
      rw [State.storeBytes_tmt]
      exact h.tmtWf
    tmtKeys := by
      rw [State.storeBytes_tmt]
      exact h.tmtKeys
    tmtNonzero := by
      rw [State.storeBytes_tmt]
      exact h.tmtNonzero
    codeOk := by
      rw [State.storeBytes_codeLines]
      exact h.codeOk
    dataOk := State.storeBytes_dataOk h.dataOk a bs
    prefetchWf := by
      rw [State.storeBytes_prefetch]
      exact h.prefetchWf
    prefetchFour := by
      rw [State.storeBytes_prefetch]
      exact h.prefetchFour
    pcEven := by
      rw [State.storeBytes_pc]
      exact h.pcEven
    pausedIdle := by
      rw [State.storeBytes_paused, State.storeBytes_mode, State.sreg_storeBytes]
      exact h.pausedIdle
    logBound := by
      rw [State.storeBytes_logCount]
      exact h.logBound
    chainBound := fun c => by
      unfold State.chain
      rw [State.storeBytes_boards]
      exact h.chainBound c
    transferFour := by
      rw [State.storeBytes_transfer]
      exact h.transferFour
    transferAligned := by
      rw [State.storeBytes_transfer]
      exact h.transferAligned }

/-- A word of installed memory written by microcode keeps the invariant. -/
theorem State.Inv.storeWord {s : State} (h : s.Inv) {a : Word} (hm : s.inMem a 4 = true) (v : Word) :
    (s.storeBytes a.toNat (bytesOfWord v)).Inv :=
  h.storeBytes (by rw [bytesOfWord_length]; exact State.inMem_iff.1 hm)

/-- A change of boards that leaves each on its chain keeps the invariant. -/
theorem State.Inv.boards {s : State} (h : s.Inv) (p : Board → Bool) {f : Board → Board}
    (hf : ∀ b, (f b).chain2 = b.chain2) : { s with boards := updateFirst p f s.boards }.Inv :=
  { h with
    chainBound := fun c => by
      unfold State.chain
      rw [updateFirst_filter_length fun x => by rw [hf]]
      exact h.chainBound c }

/-- A word written by DMA into installed memory keeps the invariant. -/
theorem State.Inv.dmaWord {s : State} (h : s.Inv) {a : Nat} (w : Word) (hm : a + 4 ≤ s.cfg.memSize.toNat) :
    (s.dmaWord a w).Inv :=
  { h with
    memWf := State.dmaWord_memWf h.memWf a w
    memInstalled := State.dmaWord_keysBelow h.memInstalled w hm
    codeOk := (State.dmaWord_ok h.codeOk h.dataOk a w).1
    dataOk := (State.dmaWord_ok h.codeOk h.dataOk a w).2 }

/-- DMA events keep the invariant. -/
theorem State.Inv.dmaAll {s t : State} {ds : List DmaEvent} (h : s.Inv) (hd : s.dmaAll ds = .ok t) : t.Inv :=
  State.dmaAll_induct (P := State.Inv) hd h (fun _ p _ hf hu => hu.boards p hf)
    (fun _ d hu => { hu with transferFour := d.cycles_length, transferAligned := d.cycles_aligned })
    (fun u c cs hc hu => { hu with
      transferFour := by
        have := hu.transferFour
        rw [hc, List.length_cons] at this
        show cs.length ≤ 4
        omega
      transferAligned := fun x hx => hu.transferAligned x (by rw [hc]; exact List.mem_cons_of_mem _ hx) })
    (fun _ _ hu => { hu with }) fun _ _ w hu hm => hu.dmaWord w hm

/-- A read keeps the invariant. -/
theorem State.Inv.loadLine {s : State} (h : s.Inv) (v : View) (a : Nat) : (s.loadLine v a).Inv :=
  { h with
    codeOk := (State.loadLine_ok h.codeOk h.dataOk v a).1
    dataOk := (State.loadLine_ok h.codeOk h.dataOk v a).2 }

/-- The reads of a VRT search keep the invariant. -/
theorem State.Inv.searched {s : State} (h : s.Inv) (seg : Half) (a : Word) : (s.searched seg a).Inv :=
  { h with dataOk := State.loadLines_ok h.dataOk _ }

/-- The read-ahead keeps the invariant. -/
theorem State.Inv.readAhead {s : State} (h : s.Inv) : s.readAhead.Inv :=
  { h with
    codeOk := (State.readAhead_ok h.codeOk).1
    prefetchWf := (State.readAhead_ok h.codeOk).2.1
    prefetchFour := (State.readAhead_ok h.codeOk).2.2 }

/-! ### The cases of a step -/

/-- A boundary after which an instruction runs. -/
theorem State.boundary_run {s u : State} (h : s.boundary = .run u) :
    ∃ u0, s.nextBoundary.inputAll s.events = .ok u0 ∧ resetPage s.events = none ∧ u0.stuck = none ∧
      u0.pending = .none u ∧ u.paused = false := by
  unfold State.boundary at h
  split at h
  · cases h
  · rename_i s1 h1
    unfold State.settle at h
    split at h
    · cases h
    · rename_i hr
      split at h
      · cases h
      · rename_i hs
        split at h
        · cases h
        · cases h
        · rename_i s2 h2
          split at h
          · cases h
          · rename_i hp
            injection h with h
            subst h
            exact ⟨s1, h1, hr, by simpa using hs, h2,
              by rw [State.pending_none_paused h2]; simpa using hp⟩

/-- All the ways in which a boundary ends the step: the reset button, a stuck processor, an interrupt, the pause. -/
theorem State.boundary_ends {s t : State} (h : s.boundary = .ends (.next t)) :
    ∃ u, s.nextBoundary.inputAll s.events = .ok u ∧
      ((∃ p, resetPage s.events = some p ∧ t = u.pressReset p) ∨
       (resetPage s.events = none ∧ u.stuck ≠ none ∧ t = u) ∨
       (resetPage s.events = none ∧ u.stuck = none ∧ ∃ e u1, u.pending = .take e u1 ∧ enter e u.npc u1 = .next t) ∨
       (resetPage s.events = none ∧ u.stuck = none ∧ t.paused = true ∧ u.pending = .none t)) := by
  unfold State.boundary at h
  split at h
  · cases h
  · rename_i u hu
    refine ⟨u, hu, ?_⟩
    unfold State.settle at h
    split at h
    · rename_i p hr
      cases h
      exact .inl ⟨p, hr, rfl⟩
    · rename_i hr
      split at h
      · rename_i hs
        cases h
        exact .inr (.inl ⟨hr, by simpa [← Option.isSome_iff_ne_none] using hs, rfl⟩)
      · rename_i hs
        have hs : u.stuck = none := by simpa using hs
        split at h
        · cases h
        · rename_i e u1 hp
          refine .inr (.inr (.inl ⟨hr, hs, e, u1, hp, ?_⟩))
          injection h
        · rename_i u1 hn
          split at h
          · rename_i hp
            cases h
            exact .inr (.inr (.inr ⟨hr, hs, by rw [State.pending_none_paused hn]; exact hp, hn⟩))
          · cases h

/-- ALL THAT A STEP CAN DO: end at the boundary, or run the decoded instruction, or take the event of an instruction
fetch or of an undefined instruction, or make no further progress at a fetch. -/
theorem step_next {s t : State} (h : step s = .next t) :
    s.boundary = .ends (.next t) ∨
    ∃ u, s.boundary = .run u ∧
      ((∃ bs s2 i rest, fetchBytes u = .ok bs s2 ∧ decode s2.cfg.opc bs = .ok (i, rest) ∧ exec i s2 = .next t) ∨
       (∃ bs s2 e, fetchBytes u = .ok bs s2 ∧ decode s2.cfg.opc bs = .error e ∧ raise (s2.illegalBytes bs) s2 = .next t) ∨
       (∃ e s2, fetchBytes u = .event e s2 ∧ raise e s2 = .next t) ∨
       ∃ k s2, fetchBytes u = .stuck k s2 ∧ t = s2.halt k) := by
  unfold step at h
  split at h
  · rename_i o ho
    subst h
    exact .inl ho
  · rename_i u hu
    refine .inr ⟨u, hu, ?_⟩
    unfold fetchRun at h
    rcases Res.finish_next.1 h with ⟨bs, s2, hf, hk⟩ | ⟨e, s2, hf, hr⟩ | ⟨k, s2, hf, hr⟩
    · split at hk
      · rename_i i rest hd
        exact .inl ⟨bs, s2, i, rest, hf, hd, hk⟩
      · rename_i e hd
        exact .inr (.inl ⟨bs, s2, e, hf, hd, hk⟩)
    · exact .inr (.inr (.inl ⟨e, s2, hf, hr⟩))
    · exact .inr (.inr (.inr ⟨k, s2, hf, hr⟩))

/-- A step that runs a decoded instruction is `exec` of it. -/
theorem step_run {s u s2 : State} {bs rest : List Byte} {i : Instr} (hb : s.boundary = .run u)
    (hf : fetchBytes u = .ok bs s2) (hd : decode s2.cfg.opc bs = .ok (i, rest)) : step s = exec i s2 := by
  unfold step fetchRun
  rw [hb]
  dsimp only
  rw [hf, Res.finish_ok, hd]

end Sys2Proof.Machine
end

