-- ==== Sys2Proof/Tests/Slice0.lean ====
section
/-! SUPPORT. Tests of the model, with expected results from spec/95_test_vectors.md (the row is named, such as I3) or
worked out from a rule, and for each obligation with hypotheses the states and operands that meet them. -/

namespace Sys2Proof.Tests

set_option Elab.async false

open Sys2Proof.Machine Sys2Proof.Config

/-! ### What is ill formed is refused -/

/-- The ten defined subops are no `maint` terms (30_encoding.md rule R159); the other six are. -/
theorem test_wellFormed_maint :
    (List.range 16).map (fun k => (Instr.maint 1 (BitVec.ofNat 4 k)).wellFormed) =
      [false, false, true, true, true, false, false, false, false, true, false, false, false, false, true, true] := by
  decide +kernel

theorem test_wellFormed_others : (Instr.add 15 15).wellFormed = true ∧ (Instr.elogr 0).wellFormed = true := by decide

theorem test_opcodes_default : defaultOpcodes.legal = true := by decide +kernel
theorem test_params_default : Params.default.legal = true := by
  simp only [Params.legal, Params.default, test_opcodes_default]
  decide

/-- An assignment that is too short, too long or gives one number twice, a register format opcode (KCALL) with bit 0 set,
and a short data load at a number of a long, an indexed and a code load (30_encoding.md rules R145, R150). -/
theorem test_opcodes_refused :
    OpcodeMap.legal (defaultOpcodes.take 173) = false ∧ OpcodeMap.legal (defaultOpcodes ++ [0x7F]) = false ∧
    OpcodeMap.legal (defaultOpcodes.set 1 0x01) = false ∧ Opcode.fits .kcall 0xFF = false ∧
    Opcode.fits .load 0xD8 = false ∧ Opcode.fits .load 0xC9 = false ∧ Opcode.fits .load 0x8A = false ∧
    Opcode.fits .load 0xC8 = true := by
  decide +kernel

/-- A PCB whose words are misaligned, overlap each other, the register area or the process clock, or lie beyond 2048
bytes (10_state.md rule R58). -/
theorem test_pcb_refused :
    PcbLayout.default.legal = true ∧ ({ PcbLayout.default with pc := 0x41 } : PcbLayout).legal = false ∧
    ({ PcbLayout.default with seg := 0x40 } : PcbLayout).legal = false ∧
    ({ PcbLayout.default with traps := 0x3C } : PcbLayout).legal = false ∧
    ({ PcbLayout.default with traps := 0x50 } : PcbLayout).legal = false ∧
    ({ PcbLayout.default with regs := 0x14 } : PcbLayout).legal = false ∧
    ({ PcbLayout.default with regs := 0x102 } : PcbLayout).legal = false ∧
    ({ PcbLayout.default with regs := 0x7C4 } : PcbLayout).legal = false ∧
    ({ PcbLayout.default with seg := 0x800 } : PcbLayout).legal = false := by
  decide +kernel

/-- Too little and too much memory, a machine identification without its two bits, an N bit on the T bit, no opcodes, an
illegal PCB. -/
theorem test_params_refused :
    ({ Params.default with memSize := 0x3FFFFF } : Params).legal = false ∧
    ({ Params.default with memSize := 0x8000001 } : Params).legal = false ∧
    ({ Params.default with machineId := 0x8 } : Params).legal = false ∧
    ({ Params.default with machineId := 0x2 } : Params).legal = false ∧
    ({ Params.default with ioNBit := 30 } : Params).legal = false ∧
    ({ Params.default with opc := [] } : Params).legal = false ∧
    ({ Params.default with pcb := { PcbLayout.default with pc := 0x50 } } : Params).legal = false := by
  have ho : OpcodeMap.legal [] = false := by decide +kernel
  refine ⟨?_, ?_, ?_, ?_, ?_, ?_, ?_⟩ <;> simp only [Params.legal, Params.default, test_opcodes_default, ho] <;> decide

/-! ### Decoding: every constructor, by a word written out (30_encoding.md rules R142 to R148, R151, R159)

The opcode byte, then Rx = 5 in bits 8..11 and Ry = 12 in bits 12..15, then the displacement, most significant byte
first. The opcode numbers are those of `Config.defaultOpcodes` (log 2). -/

/-- The bytes decode to the instruction, which takes all of them, and they are its encoding. -/
def decodesTo (p : List Byte × Instr) : Bool :=
  match decode Params.default.opc p.1 with
  | .ok (i, rest) => i == p.2 && rest.isEmpty && encode Params.default.opc i == p.1
  | .error _ => false

/-- Each of the byte strings decodes to the instruction beside it. -/
def allDecode (l : List (List Byte × Instr)) : Bool := l.all decodesTo

theorem test_decode_integer :
    allDecode [([0x01, 0x5C], .moverr 5 12), ([0x02, 0x5C], .neg 5 12), ([0x03, 0x5C], .not 5 12),
      ([0x04, 0x5C], .add 5 12), ([0x05, 0x5C], .sub 5 12), ([0x06, 0x5C], .mpy 5 12), ([0x07, 0x5C], .div 5 12),
      ([0x08, 0x5C], .rem 5 12), ([0x09, 0x5C], .and 5 12), ([0x0A, 0x5C], .or 5 12), ([0x0B, 0x5C], .xor 5 12),
      ([0x0C, 0x5C], .nop 5 12), ([0x0D, 0x5C], .eadd 5 12), ([0x0E, 0x5C], .esub 5 12),
      ([0x0F, 0x5C], .empy 5 12), ([0x10, 0x5C], .ediv 5 12)] = true ∧
    allDecode [([0x47, 0x5C], .moveri 5 12), ([0x48, 0x5C], .noti 5 12), ([0x49, 0x5C], .addi 5 12),
      ([0x4A, 0x5C], .subi 5 12), ([0x4B, 0x5C], .andi 5 12), ([0x4C, 0x5C], .mpyi 5 12)] = true := by
  decide +kernel

theorem test_decode_real :
    allDecode [([0x11, 0x5C], .fixt 5 12), ([0x12, 0x5C], .fixr 5 12), ([0x13, 0x5C], .float 5 12),
      ([0x14, 0x5C], .makerd 5 12), ([0x15, 0x5C], .makedr 5 12), ([0x16, 0x5C], .radd 5 12),
      ([0x17, 0x5C], .rsub 5 12), ([0x18, 0x5C], .rmpy 5 12), ([0x19, 0x5C], .rdiv 5 12),
      ([0x1A, 0x5C], .rneg 5 12), ([0x1C, 0x5C], .dfixt 5 12), ([0x1D, 0x5C], .dfixr 5 12),
      ([0x1E, 0x5C], .dfloat 5 12), ([0x1F, 0x5C], .dradd 5 12), ([0x20, 0x5C], .drsub 5 12),
      ([0x21, 0x5C], .drmpy 5 12)] = true ∧
    allDecode [([0x22, 0x5C], .drdiv 5 12), ([0x23, 0x5C], .drneg 5 12)] = true := by
  decide +kernel

theorem test_decode_bitShift :
    allDecode [([0x1B, 0x5C], .rcomp 5 12), ([0x24, 0x5C], .drcomp 5 12), ([0x25, 0x5C], .cbit 5 12),
      ([0x26, 0x5C], .sbit 5 12), ([0x27, 0x5C], .tbit 5 12), ([0x28, 0x5C], .lcomp 5 12),
      ([0x29, 0x5C], .dcomp 5 12), ([0x2A, 0x5C], .csl 5 12), ([0x2B, 0x5C], .lsl 5 12), ([0x2C, 0x5C], .lsr 5 12),
      ([0x2D, 0x5C], .asl 5 12), ([0x2E, 0x5C], .asr 5 12), ([0x2F, 0x5C], .dlsl 5 12), ([0x30, 0x5C], .dlsr 5 12),
      ([0x31, 0x5C], .seb 5 12), ([0x32, 0x5C], .seh 5 12)] = true ∧
    allDecode [([0x41, 0x5C], .testGt 5 12), ([0x42, 0x5C], .testEq 5 12), ([0x43, 0x5C], .testLt 5 12),
      ([0x44, 0x5C], .testLe 5 12), ([0x45, 0x5C], .testGe 5 12), ([0x46, 0x5C], .testNe 5 12),
      ([0x4D, 0x5C], .csli 5 12), ([0x4E, 0x5C], .lsli 5 12), ([0x4F, 0x5C], .lsri 5 12),
      ([0x50, 0x5C], .asli 5 12), ([0x51, 0x5C], .asri 5 12), ([0x52, 0x5C], .dlsli 5 12),
      ([0x53, 0x5C], .dlsri 5 12), ([0x56, 0x5C], .testiGt 5 12), ([0x57, 0x5C], .testiEq 5 12),
      ([0x58, 0x5C], .testiLt 5 12)] = true ∧
    allDecode [([0x59, 0x5C], .testiLe 5 12), ([0x5A, 0x5C], .testiGe 5 12), ([0x5B, 0x5C], .testiNe 5 12)] = true := by
  decide +kernel

theorem test_decode_control :
    allDecode [([0x33, 0x5C], .callr 5 12), ([0x34, 0x5C], .ret 5 12), ([0x35, 0x5C], .chk 5 12),
      ([0x54, 0x5C], .chki 5 12), ([0x55, 0x5C], .trap 5 12), ([0x5C, 0xA7], .kcall 0xA7),
      ([0xE0, 0x5C, 0x80, 0x14], .br 5 12 0x8014), ([0xF0, 0x5C, 0x81, 0x23, 0x45, 0x68], .brl 5 12 0x81234568),
      ([0xE1, 0x5C, 0x80, 0x14], .brGt 5 12 0x8014),
      ([0xF1, 0x5C, 0x81, 0x23, 0x45, 0x68], .brGtL 5 12 0x81234568),
      ([0xE2, 0x5C, 0x80, 0x14], .brEq 5 12 0x8014),
      ([0xF2, 0x5C, 0x81, 0x23, 0x45, 0x68], .brEqL 5 12 0x81234568),
      ([0xE3, 0x5C, 0x80, 0x14], .brLe 5 12 0x8014),
      ([0xF3, 0x5C, 0x81, 0x23, 0x45, 0x68], .brLeL 5 12 0x81234568),
      ([0xE4, 0x5C, 0x80, 0x14], .brNe 5 12 0x8014), ([0xF4, 0x5C, 0x81, 0x23, 0x45, 0x68], .brNeL 5 12 0x81234568)] = true ∧
    allDecode [([0xE5, 0x5C, 0x80, 0x14], .briGt 5 12 0x8014),
      ([0xF5, 0x5C, 0x81, 0x23, 0x45, 0x68], .briGtL 5 12 0x81234568),
      ([0xE6, 0x5C, 0x80, 0x14], .briLt 5 12 0x8014),
      ([0xF6, 0x5C, 0x81, 0x23, 0x45, 0x68], .briLtL 5 12 0x81234568),
      ([0xE7, 0x5C, 0x80, 0x14], .briEq 5 12 0x8014),
      ([0xF7, 0x5C, 0x81, 0x23, 0x45, 0x68], .briEqL 5 12 0x81234568),
      ([0xE8, 0x5C, 0x80, 0x14], .briLe 5 12 0x8014),
      ([0xF8, 0x5C, 0x81, 0x23, 0x45, 0x68], .briLeL 5 12 0x81234568),
      ([0xE9, 0x5C, 0x80, 0x14], .briGe 5 12 0x8014),
      ([0xF9, 0x5C, 0x81, 0x23, 0x45, 0x68], .briGeL 5 12 0x81234568),
      ([0xEA, 0x5C, 0x80, 0x14], .briNe 5 12 0x8014),
      ([0xFA, 0x5C, 0x81, 0x23, 0x45, 0x68], .briNeL 5 12 0x81234568),
      ([0xEB, 0x5C, 0x80, 0x14], .call 5 12 0x8014),
      ([0xFB, 0x5C, 0x81, 0x23, 0x45, 0x68], .calll 5 12 0x81234568),
      ([0xEC, 0x5C, 0x80, 0x14], .loop 5 12 0x8014), ([0xFC, 0x5C, 0x81, 0x23, 0x45, 0x68], .loopl 5 12 0x81234568)] = true := by
  decide +kernel

theorem test_decode_kernel :
    allDecode [([0x36, 0x5C], .sus 5 12), ([0x37, 0x5C], .lus 5 12), ([0x38, 0x5C], .ldregs 5 12),
      ([0x39, 0x5C], .rum 5 12), ([0x3A, 0x5C], .movesr 5 12), ([0x3B, 0x5C], .movers 5 12),
      ([0x3C, 0x52], .maint 5 2), ([0x3D, 0x5C], .trans 5 12), ([0x3E, 0x5C], .dirt 5 12),
      ([0x3F, 0x5C], .read 5 12), ([0x40, 0x5C], .write 5 12), ([0x3C, 0x50], .elogr 5), ([0x3C, 0x51], .elogw 5),
      ([0x3C, 0x55], .twrited 5), ([0x3C, 0x56], .flush 5), ([0x3C, 0x57], .trapexit 5)] = true ∧
    allDecode [([0x3C, 0x58], .itest 5), ([0x3C, 0x5A], .machineid 5), ([0x3C, 0x5B], .version 5),
      ([0x3C, 0x5C], .creg 5), ([0x3C, 0x5D], .rdlog 5)] = true := by
  decide +kernel

theorem test_decode_memory :
    allDecode [([0xA4, 0x5C, 0x80, 0x14], .load 5 12 0x8014),
      ([0xB4, 0x5C, 0x81, 0x23, 0x45, 0x68], .loadl 5 12 0x81234568),
      ([0xA5, 0x5C, 0x80, 0x14], .loadx 5 12 0x8014),
      ([0xB5, 0x5C, 0x81, 0x23, 0x45, 0x68], .loadlx 5 12 0x81234568),
      ([0x84, 0x5C, 0x80, 0x14], .loadp 5 12 0x8014),
      ([0x94, 0x5C, 0x81, 0x23, 0x45, 0x68], .loadpl 5 12 0x81234568),
      ([0x85, 0x5C, 0x80, 0x14], .loadpx 5 12 0x8014),
      ([0x95, 0x5C, 0x81, 0x23, 0x45, 0x68], .loadplx 5 12 0x81234568),
      ([0xA2, 0x5C, 0x80, 0x14], .loadh 5 12 0x8014),
      ([0xB2, 0x5C, 0x81, 0x23, 0x45, 0x68], .loadhl 5 12 0x81234568),
      ([0xA3, 0x5C, 0x80, 0x14], .loadhx 5 12 0x8014),
      ([0xB3, 0x5C, 0x81, 0x23, 0x45, 0x68], .loadhlx 5 12 0x81234568),
      ([0x82, 0x5C, 0x80, 0x14], .loadhp 5 12 0x8014),
      ([0x92, 0x5C, 0x81, 0x23, 0x45, 0x68], .loadhpl 5 12 0x81234568),
      ([0x83, 0x5C, 0x80, 0x14], .loadhpx 5 12 0x8014),
      ([0x93, 0x5C, 0x81, 0x23, 0x45, 0x68], .loadhplx 5 12 0x81234568)] = true ∧
    allDecode [([0xA0, 0x5C, 0x80, 0x14], .loadb 5 12 0x8014),
      ([0xB0, 0x5C, 0x81, 0x23, 0x45, 0x68], .loadbl 5 12 0x81234568),
      ([0xA1, 0x5C, 0x80, 0x14], .loadbx 5 12 0x8014),
      ([0xB1, 0x5C, 0x81, 0x23, 0x45, 0x68], .loadblx 5 12 0x81234568),
      ([0x80, 0x5C, 0x80, 0x14], .loadbp 5 12 0x8014),
      ([0x90, 0x5C, 0x81, 0x23, 0x45, 0x68], .loadbpl 5 12 0x81234568),
      ([0x81, 0x5C, 0x80, 0x14], .loadbpx 5 12 0x8014),
      ([0x91, 0x5C, 0x81, 0x23, 0x45, 0x68], .loadbplx 5 12 0x81234568),
      ([0xA6, 0x5C, 0x80, 0x14], .loadd 5 12 0x8014),
      ([0xB6, 0x5C, 0x81, 0x23, 0x45, 0x68], .loaddl 5 12 0x81234568),
      ([0xA7, 0x5C, 0x80, 0x14], .loaddx 5 12 0x8014),
      ([0xB7, 0x5C, 0x81, 0x23, 0x45, 0x68], .loaddlx 5 12 0x81234568),
      ([0x86, 0x5C, 0x80, 0x14], .loaddp 5 12 0x8014),
      ([0x96, 0x5C, 0x81, 0x23, 0x45, 0x68], .loaddpl 5 12 0x81234568),
      ([0x87, 0x5C, 0x80, 0x14], .loaddpx 5 12 0x8014),
      ([0x97, 0x5C, 0x81, 0x23, 0x45, 0x68], .loaddplx 5 12 0x81234568)] = true ∧
    allDecode [([0xAC, 0x5C, 0x80, 0x14], .store 5 12 0x8014),
      ([0xBC, 0x5C, 0x81, 0x23, 0x45, 0x68], .storel 5 12 0x81234568),
      ([0xAD, 0x5C, 0x80, 0x14], .storex 5 12 0x8014),
      ([0xBD, 0x5C, 0x81, 0x23, 0x45, 0x68], .storelx 5 12 0x81234568),
      ([0xAA, 0x5C, 0x80, 0x14], .storeh 5 12 0x8014),
      ([0xBA, 0x5C, 0x81, 0x23, 0x45, 0x68], .storehl 5 12 0x81234568),
      ([0xAB, 0x5C, 0x80, 0x14], .storehx 5 12 0x8014),
      ([0xBB, 0x5C, 0x81, 0x23, 0x45, 0x68], .storehlx 5 12 0x81234568),
      ([0xA8, 0x5C, 0x80, 0x14], .storeb 5 12 0x8014),
      ([0xB8, 0x5C, 0x81, 0x23, 0x45, 0x68], .storebl 5 12 0x81234568),
      ([0xA9, 0x5C, 0x80, 0x14], .storebx 5 12 0x8014),
      ([0xB9, 0x5C, 0x81, 0x23, 0x45, 0x68], .storeblx 5 12 0x81234568),
      ([0xAE, 0x5C, 0x80, 0x14], .stored 5 12 0x8014),
      ([0xBE, 0x5C, 0x81, 0x23, 0x45, 0x68], .storedl 5 12 0x81234568),
      ([0xAF, 0x5C, 0x80, 0x14], .storedx 5 12 0x8014),
      ([0xBF, 0x5C, 0x81, 0x23, 0x45, 0x68], .storedlx 5 12 0x81234568)] = true ∧
    allDecode [([0xC0, 0x5C, 0x80, 0x14], .laddr 5 12 0x8014), ([0xC1, 0x5C, 0x80, 0x14], .laddrx 5 12 0x8014),
      ([0xD0, 0x5C, 0x81, 0x23, 0x45, 0x68], .laddrl 5 12 0x81234568),
      ([0xD1, 0x5C, 0x81, 0x23, 0x45, 0x68], .laddrlx 5 12 0x81234568),
      ([0x88, 0x5C, 0x80, 0x14], .laddrp 5 12 0x8014), ([0x89, 0x5C, 0x80, 0x14], .laddrpx 5 12 0x8014),
      ([0x98, 0x5C, 0x81, 0x23, 0x45, 0x68], .laddrpl 5 12 0x81234568),
      ([0x99, 0x5C, 0x81, 0x23, 0x45, 0x68], .laddrplx 5 12 0x81234568)] = true := by
  decide +kernel

/-- Reserved encodings do not fall through: an unassigned number, and an instruction cut short. -/
theorem test_decode_refused :
    decode Params.default.opc [0x7F, 0x12] = .error (.undefinedOpcode 0x7F) ∧
    decode Params.default.opc [0xFF, 0x12, 0, 0, 0, 0] = .error (.undefinedOpcode 0xFF) ∧
    decode Params.default.opc [0xA6, 0x12, 0x00] = .error .tooShort ∧ decode Params.default.opc [0x04] = .error .tooShort := by
  refine ⟨?_, ?_, ?_, ?_⟩ <;> rfl

/-- A table word: the first halfword is bits 15..0, the displacement the halfwords above it, the bits above `nbits` 0. -/
theorem test_tableWord :
    decodeTableWord 16 0x0412 = some (.add 1 2) ∧ decodeTableWord 32 0x1000A312 = some (.loadhx 1 2 0x1000) ∧
    decodeTableWord 48 0xE0000003B410 = some (.loadl 1 0 0x0003E000) ∧ decodeTableWord 16 0xA410 = some (.load 1 0 0) := by
  decide +kernel

/-! ### Small states -/

/-- Words at ascending addresses, as memory. -/
def words (a : Nat) (ws : List Word) : Memory := bytesFrom a (ws.flatMap bytesOfWord)

/-- The memory of the test vectors: operands (95_test_vectors.md 2.1), a PCB at 8000, the KCALL 3 and KCALL 255 vectors
and the traps and interrupts of a CCB at 10000 (the vector at offset o is 20000 + o), its clock words, a datum at 21008
and the VRT of 2.7. -/
def testMemory : Memory :=
  bytesFrom 0x1000 [0x80, 0x01, 0xFF, 0xFE, 0x12, 0x34, 0x56, 0x78] ++ words 0x3000 [1, 2] ++
  words 0x8000 ((List.range 16).map fun k => BitVec.ofNat 32 (0x500 + k)) ++
  words 0x8040 [0x4002, 0x00120013, 0x00008000, 0x77777777, 9] ++ words 0x1000C [0x2000C] ++
  words 0x103FC [0x203FC] ++ words 0x10400 ((List.range 15).map fun k => BitVec.ofNat 32 (0x20400 + 4 * k)) ++
  words 0x1043C [7, 0, 5, 0, 0xFFF0BDC0] ++ words 0x21008 [0x41] ++ words 0x28094 [0x2900C, 0] ++
  words 0x2900C [0x00150001, 0x29018, 0x00300006, 0x00130001, 0, 0x00210006]

/-- Kernel mode at pc 1000 with the registers of 2.6 and 2.7, no trap enabled. -/
def base : State :=
  { State.reset with
    pc := 0x1000
    sr := #v[0, 0, 0, 0, 0, 0, 0, 0, 0x12, 0x13, 0, 0x10000, 0x28000, 0xFF, 0x8000, 0]
    mem := testMemory }

/-- General registers set. -/
def withRegs (l : List (RegNo × Word)) (s : State) : State := l.foldl (fun s p => s.setReg p.1 p.2) s

/-- A traps word in effect. -/
def withTraps (te : Word) (s : State) : State := { s with trapsEff := te }

/-- User mode. -/
def user (s : State) : State := { s with mode := .user }

/-- The next state. -/
def next? (o : Outcome) : Option State :=
  match o with
  | .next t => some t
  | .fault _ => none
  | .refused _ => none

/-- What one instruction leaves, seen through a function of the state. -/
def see {α : Type} (i : Instr) (s : State) (f : State → α) : Option α := (next? (exec i s)).map f

/-- R1, the pc and SR3 after an instruction on R1 and R2 with a traps word in effect. -/
def out (i : Instr) (te a b : Word) : Option (Word × Word × Word) :=
  see i (withTraps te (withRegs [(1, a), (2, b)] base)) fun t => (t.reg 1, t.pc, t.sreg 3)

/-- RP2, the pc and SR3 after an instruction on RP2 and RP4. -/
def outPair (i : Instr) (te : Word) (a b : DWord) : Option (DWord × Word × Word) :=
  see i (withTraps te ((base.setPair 2 a).setPair 4 b)) fun t => (t.pair 2, t.pc, t.sreg 3)

/-- The instruction completed with a result. -/
def ok {n : Nat} (v : BitVec n) : Option (BitVec n × Word × Word) := some (v, 0x1002, 0)

/-- The instruction left a result and took the arithmetic trap with a code. -/
def trapped {n : Nat} (v : BitVec n) (code : Word) : Option (BitVec n × Word × Word) := some (v, 0x2041C, code)

/-! ### Integer and logical instructions (2.2) -/

/-- I1, I2, I3, I4: SR1 and SR2 name the instruction. -/
theorem test_add : out (.add 1 2) 0 5 0xFFFFFFFD = ok 2 ∧ out (.add 1 2) 0 0x7FFFFFFF 1 = ok 0x80000000 ∧
    out (.add 1 2) 0x8000 0x7FFFFFFF 1 = trapped 0x80000000 16 ∧ out (.add 1 1) 0 0x80000000 0 = ok 0 ∧
    see (.add 1 2) (user (withTraps 0x8000 (withRegs [(1, 0x7FFFFFFF), (2, 1)] base)))
      (fun t => (t.sreg 0, t.sreg 15, t.sreg 1, t.sreg 2, t.mode)) = some (1, 0x1000, 0x04, 0x12, .kernel) := by
  decide +kernel

/-- I5, I6, I7. -/
theorem test_sub : out (.sub 1 2) 0 5 7 = ok 0xFFFFFFFE ∧ out (.sub 1 2) 0x8000 0x80000000 1 = trapped 0x7FFFFFFF 16 ∧
    out (.sub 1 1) 0x8000 0x12345678 0 = ok 0 := by
  decide +kernel

/-- I8 to I12. -/
theorem test_mpy : out (.mpy 1 2) 0 0xFFFFFFFE 3 = ok 0xFFFFFFFA ∧ out (.mpy 1 2) 0 0x10000 0x10000 = ok 0 ∧
    out (.mpy 1 2) 0x8000 0x80000000 0xFFFFFFFF = trapped 0x80000000 16 ∧
    out (.mpy 1 2) 0x8000 0xB504 0xB504 = ok 0x7FFEA810 ∧ out (.mpy 1 2) 0x8000 0xB505 0xB505 = trapped 0x80001219 16 := by
  decide +kernel

/-- I13, I14. -/
theorem test_neg : out (.neg 1 2) 0x8000 9 1 = ok 0xFFFFFFFF ∧ out (.neg 1 2) 0x8000 9 0x80000000 = trapped 0x80000000 16 := by
  decide +kernel

/-- I15 to I22. -/
theorem test_div : out (.div 1 2) 0 7 2 = ok 3 ∧ out (.div 1 2) 0 0xFFFFFFF9 2 = ok 0xFFFFFFFC ∧
    out (.div 1 2) 0 7 0xFFFFFFFE = ok 0xFFFFFFFC ∧ out (.div 1 2) 0 0xFFFFFFF9 0xFFFFFFFE = ok 3 ∧
    out (.div 1 2) 0 1 0xFFFFFFFD = ok 0xFFFFFFFF ∧ out (.div 1 2) 0 0x7FFFFFFF 0xFFFFFFFF = ok 0x80000001 ∧
    out (.div 1 2) 0 0x80000000 0xFFFFFFFF = ok 0x80000000 ∧
    out (.div 1 2) 0x8000 0x80000000 0xFFFFFFFF = trapped 0x80000000 16 ∧
    out (.div 1 2) 0 7 0 = ok 7 ∧ out (.div 1 2) 0x4000 7 0 = trapped 7 17 := by
  decide +kernel

/-- I16, I17, I24, I25 with DIV_ROUND = trunc. -/
theorem test_div_trunc :
    let s := { base with cfg := { base.cfg with divRound := .trunc } }
    let q := fun i a b => see i (withRegs [(1, a), (2, b)] s) (fun t => t.reg 1)
    q (.div 1 2) 0xFFFFFFF9 2 = some 0xFFFFFFFD ∧ q (.div 1 2) 7 0xFFFFFFFE = some 0xFFFFFFFD ∧
    q (.rem 1 2) 0xFFFFFFF9 2 = some 0xFFFFFFFF ∧ q (.rem 1 2) 7 0xFFFFFFFE = some 1 := by
  decide +kernel

/-- I23 to I27. -/
theorem test_rem : out (.rem 1 2) 0 7 2 = ok 1 ∧ out (.rem 1 2) 0 0xFFFFFFF9 2 = ok 1 ∧
    out (.rem 1 2) 0 7 0xFFFFFFFE = ok 0xFFFFFFFF ∧ out (.rem 1 2) 0 0x80000000 0xFFFFFFFF = ok 0 ∧
    out (.rem 1 2) 0x8000 0x80000000 0xFFFFFFFF = trapped 0 16 ∧ out (.rem 1 2) 0x4000 7 0 = trapped 7 17 := by
  decide +kernel

/-- I28. -/
theorem test_and : out (.and 1 2) 0 0xF0F01234 0x0FF0FFFF = ok 0x00F01234 := by decide +kernel
theorem test_or : out (.or 1 2) 0 0xF0F01234 0x0FF0FFFF = ok 0xFFF0FFFF := by decide +kernel
theorem test_xor : out (.xor 1 2) 0 0xF0F01234 0x0FF0FFFF = ok 0xFF00EDCB := by decide +kernel
/-- I29, I30, I31. -/
theorem test_not : out (.not 1 2) 0 9 0x0000FFFF = ok 0xFFFF0000 := by decide +kernel
theorem test_move : out (.moverr 1 2) 0 9 0x89ABCDEF = ok 0x89ABCDEF := by decide +kernel
theorem test_nop : out (.nop 1 2) 0xFFFFFFFF 9 8 = ok 9 := by decide +kernel
/-- I32, I33. -/
theorem test_moveri : out (.moveri 1 9) 0 0xFFFFFFFF 0 = ok 9 ∧ out (.moveri 1 15) 0 0 0 = ok 15 := by decide +kernel
theorem test_noti : out (.noti 1 0) 0 0 0 = ok 0xFFFFFFFF ∧ out (.noti 1 15) 0 0 0 = ok 0xFFFFFFF0 := by decide +kernel
/-- I34, I35. -/
theorem test_addi : out (.addi 1 8) 0x8000 0x7FFFFFF8 0 = trapped 0x80000000 16 ∧
    out (.addi 1 1) 0x8000 0xFFFFFFFF 0 = ok 0 := by
  decide +kernel
/-- I36, I37. -/
theorem test_subi : out (.subi 1 5) 0 3 0 = ok 0xFFFFFFFE ∧ out (.subi 1 1) 0x8000 0x80000000 0 = trapped 0x7FFFFFFF 16 := by
  decide +kernel
/-- I38. -/
theorem test_andi : out (.andi 1 15) 0 0x12345678 0 = ok 8 := by decide +kernel
/-- I39, I41. -/
theorem test_mpyi : out (.mpyi 1 3) 0 7 0 = ok 0x15 ∧ out (.mpyi 1 15) 0x8000 0xFFFFFFFF 0 = ok 0xFFFFFFF1 := by decide +kernel

/-- Rx and R0 after an extended instruction on R2, R4 and R0, with every trap on. -/
def outExt (i : Instr) (r0 a b : Word) : Option (Word × Word × Word) :=
  see i (withTraps 0xFFFFFFFF (withRegs [(0, r0), (2, a), (4, b)] base)) fun t => (t.reg 2, t.reg 0, t.pc)

/-- E1 to E4, with registers 2 and 4. -/
theorem test_eadd : outExt (.eadd 2 4) 0 0xFFFFFFFF 1 = some (0, 1, 0x1002) ∧
    outExt (.eadd 2 4) 1 0x7FFFFFFF 0 = some (0x80000000, 2, 0x1002) ∧
    outExt (.eadd 2 4) 0 0x80000000 0x80000000 = some (0, 3, 0x1002) ∧
    outExt (.eadd 2 4) 0xFFFFFFFF 0xFFFFFFFF 0xFFFFFFFF = some (0xFFFFFFFF, 1, 0x1002) := by
  decide +kernel

/-- E5 to E8. -/
theorem test_esub : outExt (.esub 2 4) 1 5 3 = some (2, 1, 0x1002) ∧
    outExt (.esub 2 4) 1 0 1 = some (0xFFFFFFFF, 0, 0x1002) ∧ outExt (.esub 2 4) 0 1 0 = some (0, 1, 0x1002) ∧
    outExt (.esub 2 4) 1 0x80000000 1 = some (0x7FFFFFFF, 3, 0x1002) := by
  decide +kernel

/-- E9 to E11. -/
theorem test_empy : outPair (.empy 2 4) 0x8000 0xFFFFFFFF00000000 0xFFFFFFFF00000000 = ok 0xFFFFFFFE00000001 ∧
    outPair (.empy 2 4) 0 0x1234567800000000 0x9ABCDEF000000000 = ok 0x0B00EA4E242D2080 ∧
    outPair (.empy 2 3) 0 0x0001000000010000 0 = ok 0x0000000100000000 := by
  decide +kernel

/-- E12 to E17. -/
theorem test_ediv : outPair (.ediv 2 4) 0 0x0000000100000000 0x0000001000000000 = ok 0x1000000000000000 ∧
    outPair (.ediv 2 4) 0 7 0x0000000200000000 = ok 0x0000000300000001 ∧
    outPair (.ediv 2 4) 0 0x123456789ABCDEF0 0x8765432100000000 = ok 0x226B902238BC648E ∧
    outPair (.ediv 2 4) 0 0x0000000100000000 0x0000000100000000 = ok 0x0000000100000000 ∧
    outPair (.ediv 2 4) 0x8000 0x0000000100000000 0x0000000100000000 = trapped 0x0000000100000000 16 ∧
    outPair (.ediv 2 4) 0x8000 0x0000000100000000 0x0000000200000000 = ok 0x8000000000000000 ∧
    outPair (.ediv 2 4) 0x4000 7 0 = trapped 7 17 := by
  decide +kernel

/-- E18: a pair wraps from R15 to R0. -/
theorem test_ediv_wraps : see (.ediv 15 4) (withRegs [(15, 0), (0, 9), (4, 4)] base) (fun t => (t.reg 15, t.reg 0)) =
    some (2, 1) := by
  decide +kernel

/-! ### Real instructions (2.4) -/

/-- F1, F2, F4, F5, F6, F7. -/
theorem test_radd : out (.radd 1 2) 0 0x3F800000 0x40000000 = ok 0x40400000 ∧
    out (.radd 1 2) 0x80 0x3F99999A 0x3F99999A = ok 0x4019999A ∧
    out (.radd 1 2) 0x200 0x3F800000 0x33800000 = ok 0x3F800001 ∧
    out (.radd 1 2) 0x400 0x3F800000 0x33800000 = ok 0x3F800000 ∧
    out (.radd 1 2) 0 0x3F800000 0x34400000 = ok 0x3F800002 ∧
    out (.radd 1 2) 0x80 0x3F800000 0x33800000 = trapped 0x3F800000 24 := by
  decide +kernel

/-- F8, F9, F10, F28, F29, F30, F36. -/
theorem test_radd_special : out (.radd 1 2) 0 0x7F7FFFFF 0x7F7FFFFF = ok 0x7F800000 ∧
    out (.radd 1 2) 0x2000 0x7F7FFFFF 0x7F7FFFFF = trapped 0x7FFFFFFF 18 ∧
    out (.radd 1 2) 0 0x3F800000 0xBF800000 = ok 0 ∧ out (.radd 1 2) 0x400 0x3F800000 0xBF800000 = ok 0x80000000 ∧
    out (.radd 1 2) 0 0x7F800000 0xFF800000 = ok 0x7F800000 ∧ out (.radd 1 2) 0 0x40A00000 0xFFC00000 = ok 0xFF800000 ∧
    out (.radd 1 2) 0 0x40A00000 0x00000001 = ok 0x40A00000 ∧
    out (.radd 1 2) 0x40 0x3F800000 0x7F800000 = trapped 0x3F800000 25 := by
  decide +kernel

/-- F11, F32, F33. -/
theorem test_rsub : out (.rsub 1 2) 0 0x40400000 0x3F800000 = ok 0x40000000 ∧
    out (.rsub 1 2) 0 0 0x3F800000 = ok 0xBF800000 ∧ out (.rsub 1 2) 0 0x3F800000 0x7F800000 = ok 0xFF800000 := by
  decide +kernel

/-- F12, F13, F14, F16, F34 and the two examples of the source (1.2). -/
theorem test_rmpy : out (.rmpy 1 2) 0x80 0x3FC00000 0x3FC00000 = ok 0x40100000 ∧
    out (.rmpy 1 2) 0 0x3F99999A 0x3F99999A = ok 0x3FB851EC ∧ out (.rmpy 1 2) 0 0x80800000 0x3F000000 = ok 0 ∧
    out (.rmpy 1 2) 0x1000 0x00800000 0x3F000000 = trapped 0 19 ∧ out (.rmpy 1 2) 0 0 0xFF800000 = ok 0x80000000 ∧
    out (.rmpy 1 2) 0x2000 0x7F000000 0x40800000 = trapped 0 18 ∧
    out (.rmpy 1 2) 0 0x7F000000 0x40800000 = ok 0x7F800000 := by
  decide +kernel

/-- F17 to F20 and the underflow of 1.2. -/
theorem test_rdiv : out (.rdiv 1 2) 0 0x3F800000 0x40400000 = ok 0x3EAAAAAB ∧
    out (.rdiv 1 2) 0x600 0x3F800000 0x40400000 = ok 0x3EAAAAAA ∧
    out (.rdiv 1 2) 0x200 0xBF800000 0x40400000 = ok 0xBEAAAAAA ∧
    out (.rdiv 1 2) 0x80 0x41200000 0x40800000 = ok 0x40200000 ∧
    out (.rdiv 1 2) 0x1000 0x00800000 0x41000000 = trapped 0x7F000000 19 ∧
    out (.rdiv 1 2) 0 0x00800000 0x41000000 = ok 0 := by
  decide +kernel

/-- F22 to F27. -/
theorem test_rdiv_special : out (.rdiv 1 2) 0 0xBF800000 0 = ok 0xFF800000 ∧
    out (.rdiv 1 2) 0x800 0x3F800000 0 = trapped 0x3F800000 20 ∧
    out (.rdiv 1 2) 0x840 0x3F800000 0 = trapped 0x3F800000 25 ∧ out (.rdiv 1 2) 0 0x3F800000 1 = ok 0x7F800000 ∧
    out (.rdiv 1 2) 0x800 0 0 = ok 0 ∧ out (.rdiv 1 2) 0 0x3F800000 0xFF800000 = ok 0x80000000 := by
  decide +kernel

/-- F37, F38, F39, F40, F41. -/
theorem test_rneg : out (.rneg 1 2) 0x40 0 0x3F800000 = ok 0xBF800000 ∧ out (.rneg 1 2) 0x40 0 0x7FC00000 = ok 0xFFC00000 := by
  decide +kernel
theorem test_float : out (.float 1 2) 0 9 0xFFFFFFFE = ok 0xC0000000 ∧ out (.float 1 2) 0 9 0 = ok 0 ∧
    out (.float 1 2) 0x200 9 0x01000001 = ok 0x4B800001 ∧ out (.float 1 2) 0x80 9 0x80000000 = ok 0xCF000000 ∧
    out (.float 1 2) 0x80 9 0x7FFFFFFF = trapped 0x4F000000 24 := by
  decide +kernel

/-- F42 to F48. -/
theorem test_fixr : out (.fixr 1 2) 0 9 0x40200000 = ok 2 ∧ out (.fixr 1 2) 0x80 9 0x40600000 = trapped 4 24 ∧
    out (.fixr 1 2) 0 9 0xC0300000 = ok 0xFFFFFFFD ∧ out (.fixr 1 2) 0x2000 9 0x4F000000 = trapped 0x7FFFFFFF 18 ∧
    out (.fixr 1 2) 0x2000 9 0xCF000000 = ok 0x80000000 ∧ out (.fixr 1 2) 0 9 0xFFC00000 = ok 0x80000000 ∧
    out (.fixr 1 2) 0 9 1 = ok 0 := by
  decide +kernel

/-- F49, F50. -/
theorem test_fixt : out (.fixt 1 2) 0x80 9 0xC0200000 = ok 0xFFFFFFFE ∧ out (.fixt 1 2) 0x80 9 0x3F7FFFFF = ok 0 ∧
    out (.fixt 1 2) 0x2000 9 0xCF000001 = trapped 0x80000000 18 := by
  decide +kernel

/-- F51 to F53, and 1/2 and the smallest single, whose exponents are below the bias (rules R270, R271, R293). -/
theorem test_makerd : outPair (.makerd 2 4) 0 0 0x3F99999A00000000 = ok 0x3FF3333340000000 ∧
    outPair (.makerd 2 4) 0 0 0xC129999A00000000 = ok 0xC025333340000000 ∧
    outPair (.makerd 2 4) 0 0 0xFF80000000000000 = ok 0xFFF0000000000000 ∧
    outPair (.makerd 2 4) 0 0 0x8000000100000000 = ok 0x8000000000000000 ∧
    outPair (.makerd 2 4) 0 0 0x3F00000000000000 = ok 0x3FE0000000000000 ∧
    outPair (.makerd 2 4) 0 0 0x0080000000000000 = ok 0x3810000000000000 := by
  decide +kernel

/-- F54 to F57, from RP4 into R2. -/
theorem test_makedr : outPair (.makedr 2 4) 0 0 0x3FF3333333333333 = ok 0x3F99999A00000000 ∧
    outPair (.makedr 2 4) 0x2000 0 0x47F0000000000000 = trapped 0x7F80000000000000 18 ∧
    outPair (.makedr 2 4) 0x1000 0 0xB690000000000000 = trapped 0x8000000000000000 19 ∧
    outPair (.makedr 2 4) 0 0 0x3800000000000000 = ok 0 := by
  decide +kernel

/-- F58. -/
theorem test_dradd : outPair (.dradd 2 4) 0 0x3FF0000000000000 0x4000000000000000 = ok 0x4008000000000000 := by decide +kernel
/-- F59, F62. -/
theorem test_drdiv : outPair (.drdiv 2 4) 0 0x3FF0000000000000 0x4008000000000000 = ok 0x3FD5555555555555 ∧
    outPair (.drdiv 2 4) 0x1000 0x0010000000000000 0x4020000000000000 = trapped 0x7FE0000000000000 19 := by
  decide +kernel
/-- F60, F61. -/
theorem test_drmpy : outPair (.drmpy 2 4) 0 0x3FF8000000000000 0x3FF8000000000000 = ok 0x4002000000000000 ∧
    outPair (.drmpy 2 4) 0x2000 0x7FE0000000000000 0x4010000000000000 = trapped 0 18 ∧
    outPair (.drmpy 2 4) 0 0x7FE0000000000000 0x4010000000000000 = ok 0x7FF0000000000000 := by
  decide +kernel
/-- F63, F64, F65. -/
theorem test_drsub : outPair (.drsub 2 4) 0 0x4008000000000000 0x3FF0000000000000 = ok 0x4000000000000000 := by decide +kernel
theorem test_drneg : outPair (.drneg 2 4) 0x40 0 0x3FF0000000000001 = ok 0xBFF0000000000001 := by decide +kernel
theorem test_dfloat : outPair (.dfloat 2 4) 0 0 0x0000000300000000 = ok 0x4008000000000000 ∧
    outPair (.dfloat 2 4) 0 0 0x8000000000000000 = ok 0xC1E0000000000000 ∧
    outPair (.dfloat 2 4) 0 0 0x7FFFFFFF00000000 = ok 0x41DFFFFFFFC00000 := by
  decide +kernel
/-- F66, F67; F68 to F70. -/
theorem test_dfixr : outPair (.dfixr 2 4) 0 0 0x4004000000000000 = ok 0x0000000200000000 ∧
    outPair (.dfixr 2 4) 0x2000 0 0x41DFFFFFFFE00000 = trapped 0x7FFFFFFF00000000 18 := by
  decide +kernel
theorem test_dfixt : outPair (.dfixt 2 4) 0x2000 0 0x41DFFFFFFFE00000 = ok 0x7FFFFFFF00000000 ∧
    outPair (.dfixt 2 4) 0x2000 0 0xC1E0000000100000 = ok 0x8000000000000000 ∧
    outPair (.dfixt 2 4) 0 0 0xC004000000000000 = ok 0xFFFFFFFE00000000 := by
  decide +kernel

/-! ### Bit, test, compare, shift and sign extend instructions (2.3) -/

/-- B1 to B4. -/
theorem test_cbit : outPair (.cbit 2 4) 0 0xFFFFFFFFFFFFFFFF 0 = ok 0x7FFFFFFFFFFFFFFF ∧
    outPair (.cbit 2 4) 0 0xFFFFFFFFFFFFFFFF 0x0000003F00000000 = ok 0xFFFFFFFFFFFFFFFE ∧
    outPair (.cbit 2 4) 0 0xFFFFFFFFFFFFFFFF 0x0000006000000000 = ok 0xFFFFFFFF7FFFFFFF := by
  decide +kernel
/-- B5, B6. -/
theorem test_sbit : outPair (.sbit 2 4) 0 0 0x0000001F00000000 = ok 0x0000000100000000 ∧
    see (.sbit 15 4) (withRegs [(4, 0x21)] base) (fun t => (t.reg 15, t.reg 0)) = some (0, 0x40000000) := by
  decide +kernel
/-- B7, B8, B9. -/
theorem test_tbit : outPair (.tbit 2 4) 0 0x4000000000000000 0x0000000100000000 = ok 0x0000000100000000 ∧
    outPair (.tbit 2 4) 0 0x4000000000000000 0x0000000200000000 = ok 0 ∧
    outPair (.tbit 2 4) 0 1 0x0000003F00000000 = ok 0x0000000100000001 := by
  decide +kernel

/-- The six relations on a pair that is less, equal and greater (B10, B11, B14; rule R335, signed). -/
def relationRow (i : Instr) : List (Option (Word × Word × Word)) :=
  [out i 0 0xFFFFFFFF 1, out i 0 1 1, out i 0 2 1]

theorem test_testGt : relationRow (.testGt 1 2) = [ok 0, ok 0, ok 1] := by decide +kernel
theorem test_testEq : relationRow (.testEq 1 2) = [ok 0, ok 1, ok 0] := by decide +kernel
theorem test_testLt : relationRow (.testLt 1 2) = [ok 1, ok 0, ok 0] := by decide +kernel
theorem test_testLe : relationRow (.testLe 1 2) = [ok 1, ok 1, ok 0] := by decide +kernel
theorem test_testGe : relationRow (.testGe 1 2) = [ok 0, ok 1, ok 1] := by decide +kernel
theorem test_testNe : relationRow (.testNe 1 2) = [ok 1, ok 0, ok 1] := by decide +kernel
/-- The same with the value 1; B12, B13. -/
theorem test_testiGt : relationRow (.testiGt 1 1) = [ok 0, ok 0, ok 1] := by decide +kernel
theorem test_testiEq : relationRow (.testiEq 1 1) = [ok 0, ok 1, ok 0] := by decide +kernel
theorem test_testiLt : relationRow (.testiLt 1 1) = [ok 1, ok 0, ok 0] ∧ out (.testiLt 1 0) 0 0xFFFFFFFF 0 = ok 1 := by
  decide +kernel
theorem test_testiLe : relationRow (.testiLe 1 1) = [ok 1, ok 1, ok 0] := by decide +kernel
theorem test_testiGe : relationRow (.testiGe 1 1) = [ok 0, ok 1, ok 1] ∧ out (.testiGe 1 15) 0 15 0 = ok 1 := by decide +kernel
theorem test_testiNe : relationRow (.testiNe 1 1) = [ok 1, ok 0, ok 1] := by decide +kernel

/-- B15, B16. -/
theorem test_lcomp : out (.lcomp 1 2) 0 1 0xFFFFFFFF = ok 0xFFFFFFFF ∧ out (.lcomp 1 2) 0 0x80000000 0x7FFFFFFF = ok 1 ∧
    out (.lcomp 1 2) 0 3 3 = ok 0 := by
  decide +kernel
/-- B17, B18. -/
theorem test_dcomp : outPair (.dcomp 2 4) 0 0xFFFFFFFFFFFFFFFF 1 = ok 0xFFFFFFFFFFFFFFFF ∧
    outPair (.dcomp 2 4) 0 0x0000000080000000 0x000000007FFFFFFF = ok 0x0000000180000000 := by
  decide +kernel
/-- B19 to B23. -/
theorem test_rcomp : out (.rcomp 1 2) 0 0xBF800000 0x3F800000 = ok 0xFFFFFFFF ∧
    out (.rcomp 1 2) 0 0xC0000000 0xBF800000 = ok 0xFFFFFFFF ∧ out (.rcomp 1 2) 0 0 0x80000000 = ok 0 ∧
    out (.rcomp 1 2) 0 0x7FC00000 0x7F800000 = ok 0 ∧ out (.rcomp 1 2) 0x40 0x3F800000 0 = trapped 0x3F800000 25 := by
  decide +kernel
/-- B24. -/
theorem test_drcomp : outPair (.drcomp 2 4) 0 0x4008000000000000 0x4000000000000000 = ok 0x0000000100000000 := by
  decide +kernel

/-- B25, B27; B26. -/
theorem test_csl : out (.csl 1 2) 0 0x80000001 1 = ok 3 ∧ out (.csl 1 2) 0 0x12345678 0x3F = ok 0x091A2B3C := by decide +kernel
theorem test_csli : out (.csli 1 8) 0 0x12345678 0 = ok 0x34567812 := by decide +kernel
/-- B28, B29; B30. -/
theorem test_lsl : out (.lsl 1 2) 0 0x80000001 1 = ok 2 ∧ out (.lsl 1 2) 0 0x80000001 0x20 = ok 0x80000001 := by decide +kernel
theorem test_lsli : out (.lsli 1 15) 0 0x00018001 0 = ok 0xC0008000 := by decide +kernel
theorem test_lsr : out (.lsr 1 2) 0 0x80000001 1 = ok 0x40000000 := by decide +kernel
theorem test_lsri : out (.lsri 1 15) 0 0x80008000 0 = ok 0x00010001 := by decide +kernel
/-- B32; B31. -/
theorem test_asr : out (.asr 1 2) 0 0xFFFFFFF9 1 = ok 0xFFFFFFFC := by decide +kernel
theorem test_asri : out (.asri 1 4) 0 0x80000000 0 = ok 0xF8000000 := by decide +kernel
/-- B38, B39. -/
theorem test_asl : out (.asl 1 2) 0x8000 0xFFFFFFFF 31 = ok 0x80000000 ∧ out (.asl 1 2) 0x8000 1 31 = trapped 0x80000000 16 := by
  decide +kernel
/-- B33 to B37, B40. -/
theorem test_asli : out (.asli 1 4) 0x8000 0xFFFFFFFF 0 = ok 0xFFFFFFF0 ∧
    out (.asli 1 1) 0x8000 0x40000000 0 = trapped 0x80000000 16 ∧ out (.asli 1 1) 0x8000 0xC0000000 0 = ok 0x80000000 ∧
    out (.asli 1 1) 0x8000 0x80000000 0 = trapped 0 16 ∧ out (.asli 1 0) 0x8000 0x12345678 0 = ok 0x12345678 := by
  decide +kernel
/-- B41 to B43; B44 to B46. -/
theorem test_dlsl : outPair (.dlsl 2 4) 0 0x80000001 0x0000000100000000 = ok 0x0000000100000002 ∧
    outPair (.dlsl 2 4) 0 0x80000001 0x0000002000000000 = ok 0x8000000100000000 ∧
    outPair (.dlsl 2 4) 0 0x80000001 0x0000003F00000000 = ok 0x8000000000000000 := by
  decide +kernel
theorem test_dlsli : outPair (.dlsli 2 15) 0 0x0000000180010000 0 = ok 0x0000C00080000000 := by decide +kernel
theorem test_dlsr : outPair (.dlsr 2 4) 0 0x8000000100000000 0x0000000100000000 = ok 0x4000000080000000 ∧
    outPair (.dlsr 2 4) 0 0x8000000100000000 0x0000003F00000000 = ok 1 := by
  decide +kernel
theorem test_dlsri : outPair (.dlsri 2 15) 0 0x8000000100000000 0 = ok 0x0001000000020000 := by decide +kernel
/-- B47, B48; B49, B50. -/
theorem test_seb : out (.seb 1 2) 0 0 0x12345680 = ok 0xFFFFFF80 ∧ out (.seb 1 2) 0 0 0x1234567F = ok 0x7F := by decide +kernel
theorem test_seh : out (.seh 1 2) 0 0 0x00018000 = ok 0xFFFF8000 ∧ out (.seh 1 2) 0 0 0xFFFF7FFF = ok 0x7FFF := by decide +kernel

/-! ### Memory reference instructions (2.1, 2.7) -/

/-- What a load into Rx leaves in Rx, R(x+1) and the pc, with the registers given. -/
def loaded (i : Instr) (x : RegNo) (l : List (RegNo × Word)) (s : State) : Option (Word × Word × Word) :=
  see i (withRegs l s) fun t => (t.reg x, t.reg (x + 1), t.pc)

/-- The state at pc FF4, from which code references with displacement 10 reach 1004 (M11, M12). -/
def atFF4 : State := { base with pc := 0xFF4 }

/-- The pc, SR0, SR2 and SR3 after an instruction that takes an event in kernel mode. -/
def trapSeen (i : Instr) (s : State) : Option (Word × Word × Word × Word) :=
  see i s fun t => (t.pc, t.sreg 0, t.sreg 2, t.sreg 3)

/-- M5, M6, M8, M7. -/
theorem test_load : loaded (.load 4 0 0x1004) 4 [(4, 9)] base = some (0x12345678, 0, 0x1004) ∧
    trapSeen (.load 4 0 0x1002) base = some (0x20400, 0x1000, 0x13, 0x1002) := by decide +kernel
theorem test_loadx : loaded (.loadx 4 4 4) 4 [(4, 0x1000)] base = some (0x12345678, 0, 0x1004) ∧
    loaded (.loadx 4 3 0xFFFC) 4 [(3, 0x1008)] base = some (0x12345678, 0, 0x1004) := by decide +kernel
/-- M24. -/
theorem test_loadl : loaded (.loadl 1 0 0x0003E000) 1 [] { base with mem := words 0x3E000 [0xCAFEF00D] } =
    some (0xCAFEF00D, 0, 0x1006) := by decide +kernel
theorem test_loadlx : loaded (.loadlx 1 2 0xFFFFFFF8) 1 [(2, 0x100C)] base = some (0x12345678, 0x100C, 0x1006) := by
  decide +kernel
/-- M11, M12: the pc is a base of its own (rule R181). -/
theorem test_loadp : loaded (.loadp 1 0 0x10) 1 [] atFF4 = some (0x12345678, 0, 0xFF8) := by decide +kernel
theorem test_loadpx : loaded (.loadpx 1 2 8) 1 [(2, 8)] atFF4 = some (0x12345678, 8, 0xFF8) := by decide +kernel
theorem test_loadpl : loaded (.loadpl 1 0 0x10) 1 [] atFF4 = some (0x12345678, 0, 0xFFA) := by decide +kernel
theorem test_loadplx : loaded (.loadplx 1 2 8) 1 [(2, 8)] atFF4 = some (0x12345678, 8, 0xFFA) := by decide +kernel
/-- M3, M4, and the same halfword by the other forms. -/
theorem test_loadh : loaded (.loadh 1 0 0x1002) 1 [(1, 9)] base = some (0x0000FFFE, 0, 0x1004) ∧
    trapSeen (.loadh 1 0 0x1001) base = some (0x20400, 0x1000, 0x13, 0x1001) := by decide +kernel
theorem test_loadhx : loaded (.loadhx 1 2 2) 1 [(2, 0x1000)] base = some (0x0000FFFE, 0x1000, 0x1004) := by decide +kernel
theorem test_loadhl : loaded (.loadhl 1 0 0x1000) 1 [] base = some (0x00008001, 0, 0x1006) := by decide +kernel
theorem test_loadhlx : loaded (.loadhlx 1 2 2) 1 [(2, 0x1000)] base = some (0x0000FFFE, 0x1000, 0x1006) := by decide +kernel
theorem test_loadhp : loaded (.loadhp 1 0 0xE) 1 [] atFF4 = some (0x0000FFFE, 0, 0xFF8) ∧
    trapSeen (.loadhp 1 0 0xD) atFF4 = some (0x20400, 0xFF4, 0x12, 0x1001) := by decide +kernel
theorem test_loadhpx : loaded (.loadhpx 1 2 6) 1 [(2, 8)] atFF4 = some (0x0000FFFE, 8, 0xFF8) := by decide +kernel
theorem test_loadhpl : loaded (.loadhpl 1 0 0xE) 1 [] atFF4 = some (0x0000FFFE, 0, 0xFFA) := by decide +kernel
theorem test_loadhplx : loaded (.loadhplx 1 2 6) 1 [(2, 8)] atFF4 = some (0x0000FFFE, 8, 0xFFA) := by decide +kernel
/-- M1, M2, and the same byte by the other forms. -/
theorem test_loadb : loaded (.loadb 2 0 0x1000) 2 [(2, 9)] base = some (0x00000080, 0, 0x1004) ∧
    loaded (.loadb 2 0 0x1003) 2 [] base = some (0x000000FE, 0, 0x1004) := by decide +kernel
theorem test_loadbx : loaded (.loadbx 1 2 0xFFFF) 1 [(2, 0x1004)] base = some (0xFE, 0x1004, 0x1004) := by decide +kernel
theorem test_loadbl : loaded (.loadbl 1 0 0x1003) 1 [] base = some (0xFE, 0, 0x1006) := by decide +kernel
theorem test_loadblx : loaded (.loadblx 1 2 2) 1 [(2, 0x1001)] base = some (0xFE, 0x1001, 0x1006) := by decide +kernel
theorem test_loadbp : loaded (.loadbp 1 0 0xF) 1 [] atFF4 = some (0xFE, 0, 0xFF8) := by decide +kernel
theorem test_loadbpx : loaded (.loadbpx 1 2 7) 1 [(2, 8)] atFF4 = some (0xFE, 8, 0xFF8) := by decide +kernel
theorem test_loadbpl : loaded (.loadbpl 1 0 0xF) 1 [] atFF4 = some (0xFE, 0, 0xFFA) := by decide +kernel
theorem test_loadbplx : loaded (.loadbplx 1 2 7) 1 [(2, 8)] atFF4 = some (0xFE, 8, 0xFFA) := by decide +kernel
/-- M9, M10, and the same double word by the other forms. -/
theorem test_loadd : loaded (.loadd 15 0 0x3000) 15 [(15, 9), (0, 9)] base = some (1, 2, 0x1004) ∧
    trapSeen (.loadd 2 0 0x3004) base = some (0x20400, 0x1000, 0x13, 0x3004) := by decide +kernel
theorem test_loaddx : loaded (.loaddx 2 3 0x2000) 2 [(3, 0x1000)] base = some (1, 2, 0x1004) := by decide +kernel
theorem test_loaddl : loaded (.loaddl 2 0 0x3000) 2 [] base = some (1, 2, 0x1006) := by decide +kernel
theorem test_loaddlx : loaded (.loaddlx 2 2 0x2000) 2 [(2, 0x1000)] base = some (1, 2, 0x1006) := by decide +kernel
theorem test_loaddp : loaded (.loaddp 2 0 0x200C) 2 [] atFF4 = some (1, 2, 0xFF8) := by decide +kernel
theorem test_loaddpx : loaded (.loaddpx 2 2 0x2000) 2 [(2, 0xC)] atFF4 = some (1, 2, 0xFF8) := by decide +kernel
theorem test_loaddpl : loaded (.loaddpl 2 0 0x200C) 2 [] atFF4 = some (1, 2, 0xFFA) := by decide +kernel
theorem test_loaddplx : loaded (.loaddplx 2 2 0x2000) 2 [(2, 0xC)] atFF4 = some (1, 2, 0xFFA) := by decide +kernel

/-- Eight bytes from an address and the pc, after a store of R5 = 123456AB, R6 = 89ABCDEF indexed by R2 = 800. -/
def storedAt (i : Instr) (a : Nat) : Option (List Byte × Word) :=
  see i (withRegs [(5, 0x123456AB), (6, 0x89ABCDEF), (2, 0x800)] base) fun t =>
    ((List.range 8).map fun k => t.mainByte (a + k), t.pc)

/-- The bytes at 1000 after a word and after a double word. -/
def wordStored : List Byte := [0x12, 0x34, 0x56, 0xAB, 0x12, 0x34, 0x56, 0x78]
def halfStored : List Byte := [0x80, 0x01, 0x56, 0xAB, 0x12, 0x34, 0x56, 0x78]
def byteStored : List Byte := [0x80, 0xAB, 0xFF, 0xFE, 0x12, 0x34, 0x56, 0x78]
def doubleStored : List Byte := [0x12, 0x34, 0x56, 0xAB, 0x89, 0xAB, 0xCD, 0xEF]

/-- M15 to M17, M14, M13 with one register and one place. -/
theorem test_store : storedAt (.store 5 0 0x1000) 0x1000 = some (wordStored, 0x1004) ∧
    trapSeen (.store 5 0 0x1002) base = some (0x20400, 0x1000, 0x13, 0x1002) := by decide +kernel
theorem test_storex : storedAt (.storex 5 2 0x800) 0x1000 = some (wordStored, 0x1004) := by decide +kernel
theorem test_storel : storedAt (.storel 5 0 0x1000) 0x1000 = some (wordStored, 0x1006) := by decide +kernel
theorem test_storelx : storedAt (.storelx 5 2 0x800) 0x1000 = some (wordStored, 0x1006) := by decide +kernel
theorem test_storeh : storedAt (.storeh 5 0 0x1002) 0x1000 = some (halfStored, 0x1004) := by decide +kernel
theorem test_storehx : storedAt (.storehx 5 2 0x802) 0x1000 = some (halfStored, 0x1004) := by decide +kernel
theorem test_storehl : storedAt (.storehl 5 0 0x1002) 0x1000 = some (halfStored, 0x1006) := by decide +kernel
theorem test_storehlx : storedAt (.storehlx 5 2 0x802) 0x1000 = some (halfStored, 0x1006) := by decide +kernel
theorem test_storeb : storedAt (.storeb 5 0 0x1001) 0x1000 = some (byteStored, 0x1004) := by decide +kernel
theorem test_storebx : storedAt (.storebx 5 2 0x801) 0x1000 = some (byteStored, 0x1004) := by decide +kernel
theorem test_storebl : storedAt (.storebl 5 0 0x1001) 0x1000 = some (byteStored, 0x1006) := by decide +kernel
theorem test_storeblx : storedAt (.storeblx 5 2 0x801) 0x1000 = some (byteStored, 0x1006) := by decide +kernel
theorem test_stored : storedAt (.stored 5 0 0x1000) 0x1000 = some (doubleStored, 0x1004) ∧
    see (.stored 15 0 0x4008) (withRegs [(15, 0xAAAAAAAA), (0, 0xBBBBBBBB)] base)
      (fun t => (t.mainWord 0x4008, t.mainWord 0x400C)) = some (0xAAAAAAAA, 0xBBBBBBBB) := by decide +kernel
theorem test_storedx : storedAt (.storedx 5 2 0x800) 0x1000 = some (doubleStored, 0x1004) := by decide +kernel
theorem test_storedl : storedAt (.storedl 5 0 0x1000) 0x1000 = some (doubleStored, 0x1006) := by decide +kernel
theorem test_storedlx : storedAt (.storedlx 5 2 0x800) 0x1000 = some (doubleStored, 0x1006) := by decide +kernel

/-- M19 to M23, and the other forms of LADDR. -/
theorem test_laddr : loaded (.laddr 1 0 0x8000) 1 [] base = some (0xFFFF8000, 0, 0x1004) := by decide +kernel
theorem test_laddrx : loaded (.laddrx 2 2 0xFFFF) 2 [(2, 5)] base = some (4, 0, 0x1004) ∧
    loaded (.laddrx 1 2 1) 1 [(2, 0x7FFFFFFF)] (withTraps 0x8000 base) = some (0x80000000, 0x7FFFFFFF, 0x1004) := by
  decide +kernel
theorem test_laddrl : loaded (.laddrl 1 0 0x8000) 1 [] base = some (0x8000, 0, 0x1006) := by decide +kernel
theorem test_laddrlx : loaded (.laddrlx 1 2 0xFFFFFFFF) 1 [(2, 5)] base = some (4, 5, 0x1006) := by decide +kernel
theorem test_laddrp : loaded (.laddrp 1 0 0x20) 1 [] base = some (0x1020, 0, 0x1004) := by decide +kernel
theorem test_laddrpx : loaded (.laddrpx 1 2 0x20) 1 [(2, 3)] base = some (0x1023, 3, 0x1004) := by decide +kernel
theorem test_laddrpl : loaded (.laddrpl 1 0 0xFFFFF001) 1 [] base = some (1, 0, 0x1006) := by decide +kernel
theorem test_laddrplx : loaded (.laddrplx 1 2 0x20) 1 [(2, 3)] base = some (0x1023, 3, 0x1006) := by decide +kernel

/-- T1: a miss loads the TMT and sets the R bit. -/
theorem test_translate_miss : see (.loadl 1 0 0x00012008) (user base)
    (fun t => (t.reg 1, t.mainWord 0x29020, t.tmtEntry (512 + 0x12))) = some (0x41, 0x00210016, 0x00210016) := by
  decide +kernel
/-- T2: a store to a clean page sets the D bit. -/
theorem test_translate_dirty : see (.storel 1 0 0x00012008) (withRegs [(1, 0x99)] (user (base.setTmt 530 0x00210016)))
    (fun t => (t.mainWord 0x21008, t.mainWord 0x29020, t.tmtEntry 530)) = some (0x99, 0x00210017, 0x00210017) := by
  decide +kernel
/-- T3: no entry. -/
theorem test_pageFault_absent : see (.loadl 1 0 0x00013000) (user base)
    (fun t => (t.sreg 0, t.sreg 1, t.sreg 2, t.sreg 3, t.sreg 15, t.pc)) =
      some (1, 0xFFFFFFFF, 0x13, 0x13000, 0x1000, 0x20410) := by
  decide +kernel
/-- T4: the write bit is clear. -/
theorem test_pageFault_write : see (.storel 1 0 0x00012008) (user (base.setTmt 530 0x00210012))
    (fun t => (t.sreg 1, t.sreg 3, t.mainWord 0x21008, t.pc)) = some (0xFFFFFFFE, 0x12008, 0x41, 0x20410) := by
  decide +kernel
/-- T5: the index hits, the tag does not. -/
theorem test_pageFault_tag : see (.loadl 1 0 0x00212008) (user (base.setTmt 530 0x00210016))
    (fun t => (t.sreg 1, t.sreg 3, t.tmtEntry 530)) = some (0xFFFFFFFF, 0x212008, 0x00210016) := by
  decide +kernel

/-! ### Program control (2.5) -/

/-- The pc after a branch at 1000 with R1 and R2. -/
def branched (i : Instr) (a b : Word) : Option Word := see i (withRegs [(1, a), (2, b)] base) (·.pc)

/-- J1, J2, J3; J4. -/
theorem test_br : branched (.br 0 0 0x10) 0 0 = some 0x1010 ∧ branched (.br 0 0 0xFFFC) 0 0 = some 0xFFC ∧
    branched (.br 0 0 0x11) 0 0 = some 0x1010 := by decide +kernel
theorem test_brl : branched (.brl 0 0 0x10001) 0 0 = some 0x11000 := by decide +kernel

/-- Where a branch on a register pair that is less, equal and greater goes; a long and a short form differ by two bytes
when not taken. -/
def branchRow (i : Instr) : List (Option Word) := [branched i 0xFFFFFFFF 1, branched i 1 1, branched i 2 1]

/-- J5, J6, J7. -/
theorem test_brGt : branchRow (.brGt 1 2 0x20) = [some 0x1004, some 0x1004, some 0x1020] := by decide +kernel
theorem test_brGtL : branchRow (.brGtL 1 2 0x20) = [some 0x1006, some 0x1006, some 0x1020] := by decide +kernel
theorem test_brEq : branchRow (.brEq 1 2 0x20) = [some 0x1004, some 0x1020, some 0x1004] := by decide +kernel
theorem test_brEqL : branchRow (.brEqL 1 2 0x20) = [some 0x1006, some 0x1020, some 0x1006] := by decide +kernel
theorem test_brLe : branchRow (.brLe 1 2 0x20) = [some 0x1020, some 0x1020, some 0x1004] := by decide +kernel
theorem test_brLeL : branchRow (.brLeL 1 2 0x20) = [some 0x1020, some 0x1020, some 0x1006] := by decide +kernel
theorem test_brNe : branchRow (.brNe 1 2 0x20) = [some 0x1020, some 0x1004, some 0x1020] := by decide +kernel
theorem test_brNeL : branchRow (.brNeL 1 2 0x20) = [some 0x1020, some 0x1006, some 0x1020] := by decide +kernel
/-- The same with the value 1; J8, J9, J10. -/
theorem test_briGt : branchRow (.briGt 1 1 0x20) = [some 0x1004, some 0x1004, some 0x1020] := by decide +kernel
theorem test_briGtL : branchRow (.briGtL 1 1 0x20) = [some 0x1006, some 0x1006, some 0x1020] ∧
    branched (.briGtL 1 15 0x20) 15 0 = some 0x1006 := by decide +kernel
theorem test_briLt : branchRow (.briLt 1 1 0x20) = [some 0x1020, some 0x1004, some 0x1004] := by decide +kernel
theorem test_briLtL : branchRow (.briLtL 1 1 0x20) = [some 0x1020, some 0x1006, some 0x1006] := by decide +kernel
theorem test_briEq : branchRow (.briEq 1 1 0x20) = [some 0x1004, some 0x1020, some 0x1004] := by decide +kernel
theorem test_briEqL : branchRow (.briEqL 1 1 0x20) = [some 0x1006, some 0x1020, some 0x1006] := by decide +kernel
theorem test_briLe : branchRow (.briLe 1 1 0x20) = [some 0x1020, some 0x1020, some 0x1004] := by decide +kernel
theorem test_briLeL : branchRow (.briLeL 1 1 0x20) = [some 0x1020, some 0x1020, some 0x1006] := by decide +kernel
theorem test_briGe : branchRow (.briGe 1 1 0x20) = [some 0x1004, some 0x1020, some 0x1020] := by decide +kernel
theorem test_briGeL : branchRow (.briGeL 1 1 0x20) = [some 0x1006, some 0x1020, some 0x1020] := by decide +kernel
theorem test_briNe : branchRow (.briNe 1 1 0x20) = [some 0x1020, some 0x1004, some 0x1020] := by decide +kernel
theorem test_briNeL : branchRow (.briNeL 1 1 0x20) = [some 0x1020, some 0x1006, some 0x1020] := by decide +kernel

/-- A register and the pc after an instruction at a pc, with registers set. -/
def jumped (i : Instr) (x : RegNo) (pc : Word) (l : List (RegNo × Word)) : Option (Word × Word) :=
  see i (withTraps 0x8000 (withRegs l { base with pc := pc })) fun t => (t.reg x, t.pc)

/-- J11 to J14; the long form. -/
theorem test_loop : jumped (.loop 2 1 0xFFFB) 2 0x1006 [(2, 0xFFFFFFFE)] = some (0xFFFFFFFF, 0x1000) ∧
    jumped (.loop 2 1 0xFFFB) 2 0x1006 [(2, 0xFFFFFFFF)] = some (0, 0x100A) ∧
    jumped (.loop 2 15 0x10) 2 0x1000 [(2, 0x7FFFFFFF)] = some (0x8000000E, 0x1004) ∧
    jumped (.loop 2 0 0x10) 2 0x1000 [(2, 0x80000000)] = some (0x80000000, 0x1010) := by decide +kernel
theorem test_loopl : jumped (.loopl 2 1 0xFFFFFFFB) 2 0x1006 [(2, 0xFFFFFFFE)] = some (0xFFFFFFFF, 0x1000) ∧
    jumped (.loopl 2 1 0xFFFFFFFB) 2 0x1006 [(2, 0xFFFFFFFF)] = some (0, 0x100C) := by decide +kernel
/-- J15, J16. -/
theorem test_call : jumped (.call 11 0 0x100) 11 0x2000 [] = some (0x2004, 0x2100) := by decide +kernel
theorem test_calll : jumped (.calll 11 0 0x100) 11 0x2000 [] = some (0x2006, 0x2100) := by decide +kernel
/-- J17, J18. -/
theorem test_callr : jumped (.callr 11 2) 11 0x3000 [(2, 0x40)] = some (0x3002, 0x3040) ∧
    jumped (.callr 2 2) 2 0x3000 [(2, 0xFFFFFFF0)] = some (0x3002, 0x2FF0) := by decide +kernel
/-- J19, J20. -/
theorem test_ret : jumped (.ret 11 11) 11 0x2100 [(11, 0x2004)] = some (0x2102, 0x2004) ∧
    jumped (.ret 0 11) 11 0x2100 [(11, 0x2004)] = some (0x2004, 0x2004) := by decide +kernel
/-- J21, J22. -/
theorem test_chk : out (.chk 1 2) 0 9 9 = ok 9 ∧ out (.chk 1 2) 0 0xFFFFFFFF 0 = ok 0xFFFFFFFF ∧
    see (.chk 1 2) (withRegs [(1, 10), (2, 9)] base) (fun t => (t.pc, t.sreg 1, t.sreg 2, t.sreg 3, t.reg 1)) =
      some (0x20418, 0x35, 1, 2, 10) := by decide +kernel
/-- J23, J24. -/
theorem test_chki : out (.chki 1 5) 0 5 0 = ok 5 ∧ out (.chki 1 4) 0 5 0 = some (5, 0x20418, 4) ∧
    out (.chki 1 15) 0 0xFFFFFFFF 0 = some (0xFFFFFFFF, 0x20418, 15) := by decide +kernel
/-- J25, J27, J28. -/
theorem test_trap : see (.trap 0 0) (user (withTraps 0x80000000 base))
      (fun t => (t.pc, t.sreg 0, t.sreg 15, t.sreg 1, t.sreg 2, t.sreg 3)) = some (0x2041C, 1, 0x1000, 0x55, 0, 0) ∧
    see (.trap 0 15) (user (withTraps 0x00010000 base)) (fun t => (t.pc, t.sreg 3)) = some (0x2041C, 15) ∧
    see (.trap 0 5) base (fun t => (t.pc, t.sreg 0, t.sreg 15, t.sreg 3)) = some (0x2041C, 0x1000, 0, 5) := by
  decide +kernel
/-- J29, J30, J31. -/
theorem test_kcall : see (.kcall 3) (user base) (fun t => (t.pc, t.mode, t.sreg 15, t.sreg 0, t.sreg 3)) =
      some (0x2000C, .kernel, 0x1002, 0, 0) ∧
    see (.kcall 0xFF) (user base) (·.pc) = some 0x203FC ∧
    see (.kcall 3) base (fun t => (t.pc, t.sreg 0, t.sreg 1, t.sreg 2, t.sreg 3)) = some (0x20414, 0x1000, 0x5C, 0, 3) := by
  decide +kernel

/-! ### Kernel and privileged instructions (2.6) -/

/-- K1 (a word of the area, the pc word, the traps word), K2, K3. -/
theorem test_sus : see (.sus 0 15) (withRegs [(15, 0xF5)] (base.setSreg 15 0x5000))
      (fun t => (t.mainWord 0x803C, t.mainWord 0x8040, t.mainWord 0x8048, t.pc)) = some (0xF5, 0x5000, 0x8000, 0x1002) ∧
    see (.sus 5 2) (withRegs [(5, 0x55), (6, 0x66)] base) (fun t => (t.mainWord 0x8014, t.mainWord 0x8018)) =
      some (0x55, 0x506) ∧
    see (.sus 0 15) (base.setSreg 14 1) (fun t => (t.mainWord 0x8000, t.pc)) = some (0x500, 0x1002) := by decide +kernel
/-- K4. -/
theorem test_lus : see (.lus 0 15) ((base.setSreg 8 7).setTmt 530 0x00210016)
      (fun t => (t.sreg 15, t.sreg 8, t.sreg 9, t.trapsEff, t.reg 15)) = some (0x4002, 0x12, 0x13, 0x8000, 0x50F) ∧
    see (.lus 0 15) (base.setTmt 530 0x00210016) (fun t => (t.sreg 10, t.tmt.length, t.pc)) =
      some (0x8000, 0, 0x1002) := by decide +kernel
/-- K5. -/
theorem test_ldregs : see (.ldregs 0 3) base (fun t => (t.reg 0, t.reg 3, t.reg 4, t.sreg 15)) =
    some (0x500, 0x503, 0, 0) := by decide +kernel
/-- K6, K7. -/
theorem test_rum : see (.rum 0 0) (base.setSreg 15 0x4002) (fun t => (t.mode, t.pc)) = some (.user, 0x4002) ∧
    see (.rum 0 0) (base.setSreg 14 1) (fun t => (t.mode, t.paused, t.npc)) = some (.kernel, true, 0x1002) := by decide +kernel
/-- K8, K10; K9. -/
theorem test_movesr : see (.movesr 11 1) (withRegs [(1, 0x12345679)] base) (·.sreg 11) = some 0x12345679 ∧
    see (.movesr 10 1) (withRegs [(1, 0xC000)] base) (fun t => (t.sreg 10, t.trapsEff, t.trapsOpen)) =
      some (0xC000, 0, 0xC000) := by decide +kernel
theorem test_movers : see (.movers 2 3) (base.setSreg 3 0x12008) (fun t => (t.reg 2, t.pc)) = some (0x12008, 0x1002) := by
  decide +kernel
/-- K11, K16: kernel only instructions trap in user mode whatever PP, privileged ones only without it. -/
theorem test_violations : see (.movers 2 3) (user (withTraps 1 base)) (fun t => (t.pc, t.sreg 2, t.sreg 3)) =
      some (0x20414, 2, 3) ∧
    see (.twrited 1) (user base) (fun t => (t.pc, t.sreg 1, t.sreg 2, t.sreg 3)) = some (0x20414, 0x3C, 1, 5) ∧
    see (.twrited 1) (withRegs [(1, 0x4C)] (user (withTraps 1 base))) (fun t => (t.mask1, t.mask2)) = some (true, false) := by
  decide +kernel
/-- K12 to K15. -/
theorem test_twrited :
    let masks := fun v => see (.twrited 1) (withRegs [(1, v)] { base with mask1 := true }) fun t => (t.mask1, t.mask2)
    masks 0x4C = some (true, false) ∧ masks 0x0C = some (false, false) ∧ masks 0x1C = some (false, true) ∧
    masks 0x10 = some (true, false) := by decide +kernel

/-- A board on chain 1 that requests with the IOIR word 05000001. -/
def board5 : Board :=
  { chain2 := false, device := 5, requesting := true, info := 1, answers := [⟨false, 0xAA⟩], transfers := [] }

/-- K17; K18. -/
theorem test_itest : see (.itest 2) { base with boards := [board5] }
      (fun t => (t.reg 2, t.reg 3, t.boards.map (·.requesting))) = some (0, 0x05000001, [false]) ∧
    see (.itest 2) { base with boards := [board5], mask1 := true }
      (fun t => (t.reg 2, t.reg 3, t.boards.map (·.requesting))) = some (1, 0, [true]) := by decide +kernel
/-- The quadwords at 1000 and 1010 in a half of the cache, with content that main memory does not hold. -/
def staleLines : Lines := [(0, [⟨1, Vector.replicate 16 0x77⟩]), (1, [⟨1, Vector.replicate 16 0x88⟩])]

/-- The base state with such lines in both halves. -/
def stale : State := { base.setTmt 3 6 with codeLines := staleLines, dataLines := staleLines }

/-- K19. -/
theorem test_trapexit : see (.trapexit 0) (stale.setSreg 0 0x20104)
    (fun t => (t.pc, t.mode, t.tmt, t.codeLines.isEmpty, t.dataLines.isEmpty)) = some (0x20104, .kernel, [], true, true) := by decide +kernel
/-- K20: the lines, not the TMT; a load then reads main memory (rule R127). -/
theorem test_flush : see (.flush 0) stale (fun t => (t.pc, t.tmt, t.codeLines.isEmpty, t.dataLines.isEmpty)) =
      some (0x1002, [(3, 6)], true, true) ∧
    see (.flush 0) stale (fun t => t.readWord .data 0x1004) = some 0x12345678 := by decide +kernel

/-- Lines: a hit delivers the line, a miss loads the quadword, a third quadword of a line number takes the
place of one of two (20_memory.md rule R125). -/
theorem test_cache_reads : loaded (.load 4 0 0x1004) 4 [] stale = some (0x77777777, 0, 0x1004) ∧
    see (.load 4 0 0x1004) base (fun t => ((findLine t.dataLines 0x1008).isSome, (findLine t.dataLines 0x1010).isSome,
      t.codeLines.isEmpty)) = some (true, false, true) ∧
    see (.load 4 0 0x3000) { base with dataLines := [(0, [⟨1, Vector.replicate 16 0⟩, ⟨5, Vector.replicate 16 0⟩])] }
      (fun t => ((linesAt t.dataLines 0).map Line.tag).head?) = some (some 3) := by
  decide +kernel
/-- A store writes through to the data line and main memory; the code line keeps its content (rules R125, R126). -/
theorem test_cache_store : see (.storeb 1 0 0x1005) (withRegs [(1, 0xAB)] stale)
    (fun t => (t.mainByte 0x1005, t.readWord .data 0x1004, t.readWord .code 0x1004)) =
      some (0xAB, 0x77AB7777, 0x77777777) := by decide +kernel
/-- K21: bits 16 to 30, whatever the open bits are (rule R449). -/
theorem test_elogr : see (.elogr 1) { base with powerFail := true } (·.pc) = some 0x1002 := by decide +kernel
/-- K22. -/
theorem test_machineid : see (.machineid 1) base (·.reg 1) = some 0x0000000A := by decide +kernel
theorem test_version : see (.version 1) (withRegs [(1, 7)] base) (·.reg 1) = some 0 := by decide +kernel
/-- K23: the count after ELOGW with bit 31 set; a count and a location. -/
theorem test_elogw : see (.elogw 1) (withRegs [(1, 1)] { base with logCount := 9 }) (fun t => (t.logCount, t.pc)) =
    some (0, 0x1002) := by decide +kernel
theorem test_rdlog : let s := { base with logCount := 3, logData := base.logData.set 2 0x77 }
    see (.rdlog 1) (withRegs [(1, 0x80000000)] s) (·.reg 1) = some 3 ∧
    see (.rdlog 1) (withRegs [(1, 0x12)] s) (·.reg 1) = some 0x77 := by decide +kernel
/-- CREG: bits 30 and 31 go out; the pc and Rx (rule R457). -/
theorem test_creg : see (.creg 1) (withRegs [(1, 2)] base) (fun t => (t.clockOut, t.reg 1, t.pc)) =
    some (⟨false, true⟩, 2, 0x1002) := by decide +kernel
/-- K24. -/
theorem test_maint : see (.maint 1 2) (user base) (fun t => (t.pc, t.sreg 1, t.sreg 2, t.sreg 3, t.sreg 15)) =
    some (0x20404, 0x3C, 1, 2, 0x1000) := by decide +kernel

/-- The VRT of K25: the entry of segment 13 and page 5 in the slot of hash 18. -/
def transState : State :=
  withRegs [(2, 0x13), (3, 0x5123)] { base with mem := words 0x28060 [0x29000] ++ words 0x29000 [0x00130000, 0, 0x01230006] }

/-- K25, K27; K26. -/
theorem test_trans : see (.trans 1 2) transState (fun t => (t.reg 1, t.mainWord 0x29008, t.tmt)) =
      some (0x00123123, 0x01230016, []) ∧
    see (.trans 1 2) (withRegs [(2, 0x13), (3, 0x13000)] base) (fun t => (t.reg 1, t.pc)) = some (0xFFFFFFFF, 0x1002) := by
  decide +kernel
theorem test_dirt : see (.dirt 1 2) transState (fun t => (t.reg 1, t.mainWord 0x29008)) = some (0x00123123, 0x01230017) := by
  decide +kernel

/-- K28, K29; K30. -/
theorem test_read : see (.read 4 2) (withRegs [(2, 0x05000010)] { base with boards := [board5] })
      (fun t => (t.reg 4, t.reg 5, t.busLog)) = some (0, 0xAA, [.ioRead 0x05000010]) ∧
    see (.read 4 2) (withRegs [(2, 0x09000000)] { base with boards := [board5] }) (fun t => (t.reg 4, t.pc)) =
      some (2, 0x1002) := by decide +kernel
theorem test_write : see (.write 4 2) (withRegs [(4, 1), (2, 0x05000000)] { base with boards := [board5] })
      (fun t => (t.reg 4, t.busLog)) = some (0, [.ioWrite 0x05000000 1]) := by decide +kernel

/-! ### Events and reset (2.8), and the step -/

/-- What a step leaves, seen through a function of the state. -/
def seeStep {α : Type} (s : State) (f : State → α) : Option α := (next? (step s)).map f

/-- SR0, SR15 and the pc after a step. -/
def entered (s : State) : Option (Word × Word × Word) := seeStep s fun t => (t.sreg 0, t.sreg 15, t.pc)

/-- A user state with the first word of the CCB's timers replaced. -/
def timer1Due : State := user (base.storeBytes 0x10440 (bytesOfWord 0xFFFFFFFF))

/-- X3, X4. -/
theorem test_timer1 : entered timer1Due = some (1, 0x1000, 0x20430) := by decide +kernel
theorem test_timer2 : entered (user (base.storeBytes 0x10444 (bytesOfWord 0x80000000))) = some (1, 0x1000, 0x20434) := by
  decide +kernel
/-- X6, X8. -/
theorem test_external : entered (user { base with boards := [board5] }) = some (0x05000001, 0x1000, 0x20420) ∧
    entered (user { base with boards := [board5, { board5 with chain2 := true, device := 6 }] }) =
      some (0x06000001, 0x1000, 0x20420) := by decide +kernel
/-- X14, and the pause: the saved address is that after the RUM (K7). -/
theorem test_switch0 : entered { base with inputs := [⟨[.switch0], []⟩] } = some (0x1000, 0, 0x20424) ∧
    entered { base with paused := true, switch0Due := 1 } = some (0x1002, 0, 0x20424) := by decide +kernel
/-- Power fail comes before switch 0, a parity error before both (rule R534). -/
theorem test_priority : entered { base with switch0Due := 1, powerFailDue := 1 } = some (0x1000, 0, 0x20428) ∧
    entered { base with powerFailDue := 1, parityDue := [.execute 8] } = some (0x1000, 0, 0x2040C) := by decide +kernel

/-- X9: the tick with a process and with none (X10). -/
theorem test_tick : (match base.input .tick with
      | .ok t => [t.mainWord 0x8050, t.mainWord 0x1043C, t.mainWord 0x10440, t.mainWord 0x10444, t.mainWord 0x10448,
          t.mainWord 0x1044C]
      | .error _ => []) = [0xA, 7, 0xFFFFFFFF, 4, 1, 0] := by decide +kernel
theorem test_tick_idle : (match (base.setSreg 14 1).input .tick with
      | .ok t => [t.mainWord 0x8050, t.mainWord 0x1043C]
      | .error _ => []) = [9, 8] := by decide +kernel

/-- X12: no CCB: the processor makes no further progress, until the reset button (rules R509, R529). -/
theorem test_noCcb : see (.trap 0 0) (base.setSreg 11 1) (fun t => (t.stuck, t.mode, t.pc)) =
      some (some .noCcb, .kernel, 0x1000) ∧
    seeStep { base with stuck := some .noCcb, switch0Due := 1 } (fun t => (t.stuck, t.pc, t.switch0Due)) =
      some (some .noCcb, 0x1000, 1) ∧
    seeStep { base with stuck := some .noCcb, inputs := [⟨[.resetButton []], []⟩] } (fun t => (t.stuck, t.pc)) =
      some (none, 0x3E000) := by decide +kernel
/-- A VRT entry with V = 0, and an entry that links to itself (rules R111, R104). -/
theorem test_stuck : see (.loadl 1 0 0x00012008) (user (base.storeBytes 0x29020 (bytesOfWord 0x00210004))) (·.stuck) =
      some (some .vrtEntryInvalid) ∧
    (base.storeBytes 0x29010 (bytesOfWord 0x2900C)).vrtChain 0x13 0x12008 9 0x2900C = .endless := by decide +kernel

/-- A fault of an instruction, seen. -/
def faultOf (i : Instr) (s : State) : Option Fault :=
  match exec i s with
  | .fault f => some f
  | .next _ => none
  | .refused _ => none

/-- SR14 at FFFFFFFC, at MEMSIZE and not word aligned (93_implementation_defined.md U13). -/
theorem test_pcb_base : faultOf (.sus 1 15) (base.setSreg 14 0xFFFFFFFC) = some .noMemory ∧
    faultOf (.lus 1 15) (base.setSreg 14 0x400000) = some .noMemory ∧
    faultOf (.ldregs 1 1) (base.setSreg 14 0xFFFFFFFC) = some .noMemory ∧
    faultOf (.ldregs 1 1) (base.setSreg 14 0x8002) = some .badStructure := by decide +kernel

/-- Board 5 with a DMA write of word 401 and board 6 on chain 2 with a DMA read of it. -/
def dmaBase : State :=
  { base with boards := [{ board5 with transfers := [.write 0x401 0x99] },
      { board5 with chain2 := true, device := 6, transfers := [.read 0x401 false 0, .read 0x401 false 1] }] }

/-- The bus and a word after DMA events. -/
def afterDma (es : List DmaEvent) : Option (Nat × List Bool × Word) :=
  match dmaBase.dmaAll es with
  | .ok t => some (t.busLog.length, t.busLog.map fun o => match o with
      | .dmaRead _ _ notValid => notValid
      | _ => false, t.mainWord 0x1004)
  | .error _ => none

/-- The board on chain 2 goes first; its second read has a double-bit error; then the write (rules R540, R543, R544). -/
theorem test_dma : afterDma [.grant, .word] = some (1, [false], 0x12345678) ∧
    afterDma [.grant, .grant, .word] = some (1, [false], 0x12345678) ∧
    afterDma [.grant, .word, .grant, .word] = some (2, [true, false], 0x12345678) ∧
    afterDma [.grant, .word, .grant, .word, .grant, .word, .grant, .word] = some (2, [true, false], 0x99) := by
  decide +kernel

/-- The number of words still to move and the words of memory after DMA events on a bus with a burst of board 5. -/
def afterBurst (es : List DmaEvent) : Option (Nat × List Word) :=
  match ({ base with boards := [{ board5 with transfers := [.writeBurst 0x402 1 2 3 4] },
      { board5 with chain2 := true, device := 6 }] } : State).dmaAll es with
  | .ok t => some (t.transfer.length, [0x1008, 0x100C, 0x1010, 0x1014].map t.mainWord)
  | .error _ => none

/-- A burst moves word by word from an unaligned quadword, and keeps the bus against chain 2 (rules R543, R544). -/
theorem test_burst :
    (afterBurst [.grant, .word]).map (fun p => (p.1, p.2.head?)) = some (3, some 1) ∧
    afterBurst [.grant, .word, .request 6 (.write 0x402 9), .grant, .word, .word, .word] = some (0, [1, 2, 3, 4]) ∧
    afterBurst [.grant, .word, .request 6 (.write 0x402 9), .word, .word, .word, .grant, .word] =
      some (0, [9, 2, 3, 4]) := by decide +kernel

/-- SR15 and R1 loaded by LUS from a word with a double-bit error are free, SR8 from another word is not; in user mode
LUS cannot have run (rule R522). -/
theorem test_parity_load (v : Word) :
    let t := (base.setSreg 8 v).spoilRegs [.kernel .userPc, .general 1]
    t.sreg 15 = Config.freeWord base.draws (.paritySr 15) ∧ t.reg 1 = Config.freeWord base.draws (.parityLoad 1) ∧
    t.sreg 8 = v ∧ (user base).spoilRegs [.kernel .userPc] = user base := ⟨rfl, rfl, rfl, rfl⟩

/-- X13: the reset button in user mode. -/
theorem test_reset_button : seeStep (user { base with inputs := [⟨[.resetButton [0x12, 0x34]], []⟩] })
      (fun t => (t.mode, t.pc, t.sreg 2, t.sreg 11, t.sreg 14, t.mainByte 0x3E001)) =
    some (.kernel, 0x3E000, 0x400000, 1, 1, 0x34) := by decide +kernel

/-- X13, R70: the state after reset. -/
theorem test_reset : State.reset.pc = 0x3E000 ∧ State.reset.mode = .kernel ∧ State.reset.sreg 2 = 0x400000 ∧
    State.reset.sreg 11 = 1 ∧ State.reset.sreg 14 = 1 ∧ State.reset.paused = false := by decide +kernel

/-- An instruction placed by `withFetchWord` is the one the next step runs: ADD, and a long load address. -/
theorem test_fetchWord : seeStep ((State.reset.setReg 2 7).withFetchWord 16 0x0412) (fun t => (t.reg 1, t.pc)) =
      some (7, 0x3E002) ∧
    seeStep (State.reset.withFetchWord 48 0xE0000003BE10) (fun t => (t.reg 1, t.pc)) = some (0, 0x3E006) := by
  decide +kernel

/-- X1, X2: an undefined opcode in user mode, fetched through the TMT, and in kernel mode. -/
theorem test_undefined : entered ((user (base.setTmt 1 0x00010002)).placeHalf 0x1000 0x7F 0x5A) =
      some (1, 0x1000, 0x20404) ∧
    seeStep (base.placeHalf 0x1000 0x7F 0x5A) (fun t => (t.pc, t.sreg 0, t.sreg 1, t.sreg 2, t.sreg 3)) =
      some (0x20404, 0x1000, 0x7F, 5, 0xA) := by decide +kernel

/-! ### The hypotheses of the obligations can be met

One witness for each obligation that has hypotheses, clause by clause, at the ends of a range where there is one. -/

theorem nth_mem {α : Type} (l : List α) (n : Nat) (h : n < l.length) {a : α} (e : l[n] = a) : a ∈ l :=
  e ▸ List.getElem_mem h

/-- An outcome with a next state of which something holds. -/
theorem next_of {α : Type} {o : Outcome} {f : State → α} {v : α} (h : (next? o).map f = some v) :
    ∃ t, o = .next t ∧ f t = v := by
  cases o with
  | next t => exact ⟨t, rfl, by simpa [next?] using h⟩
  | fault _ => cases h
  | refused _ => cases h

/-- A user program whose code and data pages are in the TMT: virtual 1000 is real 1000, virtual 12000 is real 21000. -/
def mapped : State := user ((base.setTmt 1 0x00010002).setTmt 530 0x00210007)

/-- Registers R1 and R2 and a traps word in kernel mode at 1000. -/
def with12 (te a b : Word) : State := withTraps te (withRegs [(1, a), (2, b)] base)

/-- Pairs RP2 and RP4 and a traps word. -/
def with24 (te : Word) (a b : DWord) : State := withTraps te ((base.setPair 2 a).setPair 4 b)

theorem witness_DecodeInvertsEncode : defaultOpcodes.legal = true ∧ (Instr.maint 1 15).wellFormed = true ∧
    (Instr.loopl 15 15 0xFFFFFFFF).wellFormed = true := ⟨test_opcodes_default, rfl, rfl⟩

theorem witness_EncodeInvertsDecode : decode defaultOpcodes [0x04, 0xFF, 0x00] = .ok (.add 15 15, [0x00]) := rfl

/-- An undefined register format opcode at 1000 with fields 5 and 10. -/
def undefinedRegister : State := base.placeHalf 0x1000 0x7F 0x5A
/-- An undefined long memory format opcode at 1000, indexed and in the code space by its bits. -/
def undefinedMemory : State := base.placeBytes 0x1000 [0xFF, 0x5A, 0, 0, 0, 0x10]

/-- The state after the fetch of one halfword at 1000, and of three. -/
def fetched1 (s : State) : State := (s.nextBoundary.loadLine .fetch 0x1000).readAhead
def fetched3 (s : State) : State :=
  (((s.nextBoundary.loadLine .fetch 0x1000).loadLine .fetch 0x1002).loadLine .fetch 0x1004).readAhead

theorem witness_UndefinedInstructionsTrap_register :
    undefinedRegister.boundary = .run undefinedRegister.nextBoundary ∧
    fetchBytes undefinedRegister.nextBoundary = .ok [0x7F, 0x5A] (fetched1 undefinedRegister) ∧
    undefinedRegister.cfg.opc.lookup 0x7F = none ∧ mbit (0x7F : Byte) 0 = false ∧
    (fetched1 undefinedRegister).HasVector (.illegalRegister 0x7F 5 10) 0x20404 :=
  ⟨rfl, rfl, by decide +kernel, by decide, by decide +kernel⟩

theorem witness_UndefinedInstructionsTrap_memory :
    undefinedMemory.boundary = .run undefinedMemory.nextBoundary ∧
    fetchBytes undefinedMemory.nextBoundary = .ok [0xFF, 0x5A, 0, 0, 0, 0x10] (fetched3 undefinedMemory) ∧
    undefinedMemory.cfg.opc.lookup 0xFF = none ∧ mbit (0xFF : Byte) 0 = true ∧
    (fetched3 undefinedMemory).HasVector (.illegalMemory 0xFF 0x12 0x1010) 0x20404 :=
  ⟨rfl, rfl, by decide +kernel, by decide, by decide +kernel⟩

theorem witness_UndefinedInstructionsTrap_maint : ((15 : BitVec 4) ∉ definedSubops ∧ (2 : BitVec 4) ∉ definedSubops) ∧
    base.HasVector (.illegalRegister (base.op .maint) 1 2) 0x20404 := ⟨by decide, by decide +kernel⟩

/-- ADD R1,R2 at the last two bytes of memory. -/
def addAtTop : State := { base with pc := 0x3FFFFE, mem := [(0x3FFFFE, 0x04), (0x3FFFFF, 0x12)] }

theorem witness_StepRunsTheDecodedInstruction : addAtTop.boundary = .run addAtTop.nextBoundary ∧
    fetchBytes addAtTop.nextBoundary =
      .ok [0x04, 0x12] (addAtTop.nextBoundary.loadLine .fetch 0x3FFFFE).readAhead ∧
    (Instr.add 1 2).wellFormed = true ∧ decode addAtTop.cfg.opc [0x04, 0x12] = .ok (.add 1 2, []) := ⟨rfl, rfl, rfl, rfl⟩

/-- ADD at the top of memory, with a grant within it and a tick at the next boundary. -/
def addBeforeTick : State := { addAtTop with inputs := [⟨[], [.grant]⟩, ⟨[.tick], []⟩] }

/-- The legality of the default assignment is `test_opcodes_default`. -/
theorem witness_StepRunsTheInstructionInMemory : (Instr.add 1 2).wellFormed = true ∧ addBeforeTick.mode = .kernel ∧
    addBeforeTick.paused = false ∧ addBeforeTick.stuck = none ∧ addBeforeTick.events = [] ∧ addBeforeTick.parityDue = [] ∧
    addBeforeTick.powerFailDue = 0 ∧ addBeforeTick.switch0Due = 0 ∧ mbit addBeforeTick.pc 31 = false ∧
    addBeforeTick.pc.toNat + (encode addBeforeTick.cfg.opc (.add 1 2)).length ≤ addBeforeTick.cfg.memSize.toNat ∧
    ∀ k, k < (encode addBeforeTick.cfg.opc (.add 1 2)).length →
      addBeforeTick.readByte .fetch (addBeforeTick.pc.toNat + k) = (encode addBeforeTick.cfg.opc (.add 1 2)).getD k 0 := by
  decide +kernel

/-- A board granted a DMA write between the halves of a double word. -/
def between7 : State := { base with boards := [{ board5 with transfers := [.write 0 7] }], between := [.grant, .word] }

/-- The last byte, halfword, word and double word of memory, and a double word with a DMA write between its halves. -/
theorem witness_LoadsComplete :
    (∃ f, f ∈ loadForms 1 0 0 0x3FFFFF base ∧ f.ea.toNat % f.width.bytes = 0 ∧ f.width = .byte ∧
      base.locate f.space f.ea .read f.width.bytes = .ok 0x3FFFFF base ∧ base.Room f.il) ∧
    (∃ f, f ∈ loadForms 1 0 0 0x3FFFFE base ∧ f.ea.toNat % f.width.bytes = 0 ∧ f.width = .half ∧
      base.locate f.space f.ea .read f.width.bytes = .ok 0x3FFFFE base ∧ base.Room f.il) ∧
    (∃ f, f ∈ loadForms 1 0 0 0x12FFC mapped ∧ f.ea.toNat % f.width.bytes = 0 ∧ f.width = .word ∧
      mapped.locate f.space f.ea .read f.width.bytes = .ok 0x21FFC mapped ∧ mapped.Room f.il) ∧
    ∃ f s2, f ∈ loadForms 15 0 0 0x3FFFF8 between7 ∧ f.ea.toNat % f.width.bytes = 0 ∧ f.width = .double ∧
      between7.locate f.space f.ea .read f.width.bytes = .ok 0x3FFFF8 between7 ∧ between7.Room f.il ∧
      (between7.loadLine (Space.view f.space) 0x3FFFF8).dmaAll [.grant, .word] = .ok s2 :=
  ⟨⟨_, nth_mem _ 17 (by decide) rfl, by decide, rfl, rfl, by decide +kernel⟩,
   ⟨_, nth_mem _ 9 (by decide) rfl, by decide, rfl, rfl, by decide +kernel⟩,
   ⟨_, nth_mem _ 1 (by decide) rfl, by decide, rfl, rfl, by decide +kernel⟩,
   ⟨_, _, nth_mem _ 25 (by decide) rfl, by decide, rfl, rfl, by decide +kernel, rfl⟩⟩

theorem witness_StoresComplete :
    (∃ f, f ∈ storeForms 1 0 0 0x3FFFFF base ∧ f.ea.toNat % f.width.bytes = 0 ∧ f.width ≠ .double ∧
      base.locate .data f.ea .write f.width.bytes = .ok 0x3FFFFF base ∧ base.Room f.il) ∧
    (∃ f, f ∈ storeForms 1 0 0 0x12008 mapped ∧ f.ea.toNat % f.width.bytes = 0 ∧ f.width = .double ∧
      mapped.locate .data f.ea .write f.width.bytes = .ok 0x21008 mapped ∧ mapped.Room f.il ∧ mapped.between = []) ∧
    ∃ f u, f ∈ storeForms 1 0 0 0x3FFFF8 between7 ∧ f.width = .double ∧
      ((between7.storeBytes 0x3FFFF8 (bytesOfWord (between7.reg 1))).dmaAll [.grant, .word]) = .ok u :=
  ⟨⟨_, nth_mem _ 9 (by decide) rfl, by decide, by decide, rfl, by decide +kernel⟩,
   ⟨_, nth_mem _ 13 (by decide) rfl, by decide, rfl, rfl, by decide +kernel, rfl⟩,
   ⟨_, _, nth_mem _ 13 (by decide) rfl, rfl, rfl⟩⟩

/-- The last address at which a short instruction has room. -/
theorem witness_LoadAddressCompletes : ∃ f, f ∈ laddrForms 1 2 0x8000 0 { base with pc := 0xFFFFFFFA } ∧
    ({ base with pc := 0xFFFFFFFA } : State).Room f.il := ⟨_, nth_mem _ 0 (by decide) rfl, by decide +kernel⟩

theorem witness_MisalignedReferencesTrap : ∃ f g, f ∈ loadForms 1 0 0 0x1001 base ++ storeForms 1 0 0 0x1001 base ∧
    f.ea.toNat % f.width.bytes ≠ 0 ∧ base.HasVector (.dataAlignment (base.segment f.space) f.ea) 0x20400 ∧
    g ∈ loadForms 1 0 0x1004 0 base ++ storeForms 1 0 0x1004 0 base ∧ g.ea.toNat % g.width.bytes ≠ 0 ∧
    base.HasVector (.dataAlignment (base.segment g.space) g.ea) 0x20400 :=
  ⟨_, _, nth_mem _ 9 (by decide) rfl, by decide, by decide +kernel, nth_mem _ 44 (by decide) rfl, by decide,
    by decide +kernel⟩

theorem witness_TmtHitTranslates : (base.mode = .kernel ∧ (0x3FFFFE : Word).toNat + 2 ≤ base.cfg.memSize.toNat) ∧
    mapped.mode = .user ∧ mbit (mapped.tmtEntry (512 + (0x12FFF : Word).toNat / 4096 % 512)) 30 = true ∧
    (mapped.tmtEntry (512 + (0x12FFF : Word).toNat / 4096 % 512)).toNat / 32 % 2048 = (0x12FFF : Word).toNat / 2 ^ 21 ∧
    mbit (mapped.tmtEntry (512 + (0x12FFF : Word).toNat / 4096 % 512)) 29 = true ∧
    mbit (mapped.tmtEntry (512 + (0x12FFF : Word).toNat / 4096 % 512)) 31 = true ∧
    (0x21FFF : Word).toNat = (mapped.tmtEntry (512 + (0x12FFF : Word).toNat / 4096 % 512)).toNat / 2 ^ 16 % 2 ^ 15 * 4096 +
      (0x12FFF : Word).toNat % 4096 ∧
    (0x21FFF : Word).toNat + 1 ≤ mapped.cfg.memSize.toNat := by decide +kernel

/-- The chain of T1: one entry that does not match, then the one that does. -/
theorem base_vrtLeads (s : State) (h1 : s.ucodeRead 0x2900C = .ok 0x00150001) (h2 : s.ucodeRead 0x29010 = .ok 0x29018)
    (h3 : s.ucodeRead 0x29018 = .ok 0x00130001) : VrtLeads s 0x13 0x12008 0x2900C 0x29018 :=
  .link _ _ 0x29018 _ (by decide) h1 (by decide) h2 (.here _ _ (by decide) h3 (by decide))

theorem witness_TmtMissLoadsTheEntry : tmtHit ((user base).tmtEntry (tmtIndex .data 0x12008)) 0x12008 = false ∧
    (user base).structRead ((user base).sreg 12) (((zext ((user base).segment .data) + (0x12008 : Word) >>> 12) &&&
      (user base).sreg 13) <<< 2) = .ok 0x2900C ∧
    VrtLeads (user base) 0x13 0x12008 0x2900C 0x29018 ∧ (user base).segment .data = 0x13 ∧
    (user base).ucodeRead (0x29018 + 8) = .ok 0x00210006 ∧ mbit (0x00210006 : Word) 30 = true ∧
    SparseWf (user base).tmt ∧ ∀ c ∈ (user base).tmt, c.2 ≠ 0 :=
  ⟨by decide +kernel, by decide +kernel, base_vrtLeads _ (by decide +kernel) (by decide +kernel) (by decide +kernel), rfl,
    by decide +kernel, by decide, .nil, fun _ h => by cases h⟩

/-- The state of T2. -/
def clean : State := user { base with tmt := [(530, 0x00210016)] }

theorem witness_StoresMarkPagesDirty : clean.mode = .user ∧
    tmtHit (clean.tmtEntry (tmtIndex .data 0x12008)) 0x12008 = true ∧
    mbit (clean.tmtEntry (tmtIndex .data 0x12008)) 29 = true ∧ mbit (clean.tmtEntry (tmtIndex .data 0x12008)) 31 = false ∧
    clean.structRead (clean.sreg 12) (((zext (clean.segment .data) + (0x12008 : Word) >>> 12) &&& clean.sreg 13) <<< 2) =
      .ok 0x2900C ∧
    VrtLeads clean 0x13 0x12008 0x2900C 0x29018 ∧ clean.ucodeRead (0x29018 + 8) = .ok 0x00210006 ∧
    SparseWf clean.tmt ∧ ∀ c ∈ clean.tmt, c.2 ≠ 0 :=
  ⟨rfl, by decide +kernel, by decide +kernel, by decide +kernel, by decide +kernel,
    base_vrtLeads _ (by decide +kernel) (by decide +kernel) (by decide +kernel), by decide +kernel,
    List.pairwise_singleton _ _, fun c h => by
      rw [List.mem_singleton.1 h]
      decide⟩

/-- An empty chain (T3), a chain without a match (T5), and a page that may not be written (T4). -/
theorem witness_ReferencesPageFault_absent :
    (∃ f, f ∈ loadForms 1 0 0 0x13000 (user base) ++ storeForms 1 0 0 0x13000 (user base) ∧
      f.ea.toNat % f.width.bytes = 0 ∧ tmtHit ((user base).tmtEntry (tmtIndex f.space f.ea)) f.ea = false ∧
      (user base).structRead ((user base).sreg 12) (((zext ((user base).segment f.space) + f.ea >>> 12) &&&
        (user base).sreg 13) <<< 2) = .ok 0 ∧ VrtEnds (user base) ((user base).segment f.space) f.ea 0 ∧
      ((user base).searched ((user base).segment f.space) f.ea).HasVector
        (.pageFault .absent ((user base).segment f.space) f.ea) 0x20410) ∧
    (user base).structRead ((user base).sreg 12) (((zext ((user base).segment .data) + (0x00212008 : Word) >>> 12) &&&
      (user base).sreg 13) <<< 2) = .ok 0x2900C ∧ VrtEnds (user base) 0x13 0x00212008 0x2900C :=
  ⟨⟨_, nth_mem _ 1 (by decide) rfl, by decide, by decide +kernel, by decide +kernel, .zero, by decide +kernel⟩,
    by decide +kernel,
    .link _ 0x00150001 0x29018 (by decide) (by decide +kernel) (by decide) (by decide +kernel)
      (.link _ 0x00130001 0 (by decide) (by decide +kernel) (by decide) (by decide +kernel) .zero)⟩

def readOnly : State := user { base with tmt := [(530, 0x00210012)] }

theorem witness_ReferencesPageFault_write : ∃ f, f ∈ storeForms 1 0 0 0x12008 readOnly ∧ f.ea.toNat % f.width.bytes = 0 ∧
    readOnly.mode = .user ∧ readOnly.tmtLookup .data f.ea = .ok 0x00210012 readOnly ∧ mbit (0x00210012 : Word) 29 = false ∧
    readOnly.HasVector (.pageFault .writeProtected (readOnly.segment .data) f.ea) 0x20410 :=
  ⟨_, nth_mem _ 1 (by decide) rfl, by decide, rfl, rfl, by decide, by decide +kernel⟩

/-- A load of six bytes whose last halfword lies on an absent page. -/
def fetchAcross : State :=
  user { base with
    pc := 0x1FFC
    tmt := [(1, 0x00010002)]
    mem := bytesFrom 0x1FFC [base.op .loadl, 0x12, 0, 0] ++ words 0x10410 [0x20410] ++ words 0x10440 [0, 5] ++
      words 0x28050 [0] }

/-- The first and the last halfword of an instruction on an absent page. -/
theorem witness_ReferencesPageFault_fetch :
    (∃ t, fetchAcross.FetchesUpTo t 0x2000 ∧ t.mode = .user ∧ tmtHit (t.tmtEntry (tmtIndex .code 0x2000)) 0x2000 = false ∧
      t.structRead (t.sreg 12) (((zext (t.segment .code) + (0x2000 : Word) >>> 12) &&& t.sreg 13) <<< 2) = .ok 0 ∧
      VrtEnds t (t.segment .code) 0x2000 0 ∧
      (t.searched (t.segment .code) 0x2000).HasVector (.pageFault .absent (t.segment .code) 0x2000) 0x20410) ∧
    ∃ t, ({ fetchAcross with pc := 0x2000 } : State).FetchesUpTo t 0x2000 ∧ t.mode = .user :=
  ⟨⟨_, ⟨_, 2, _, rfl, by decide, rfl, by decide +kernel, .inr ⟨by decide +kernel, by decide +kernel⟩⟩, by decide +kernel,
    by decide +kernel, by decide +kernel, .zero, by decide +kernel⟩,
   ⟨_, ⟨_, 0, _, rfl, by decide, rfl, by decide +kernel, .inl rfl⟩, by decide +kernel⟩⟩

theorem witness_VrtSearchFollowsTheChain :
    base.structRead (base.sreg 12) (((zext (0x13 : Half) + (0x12008 : Word) >>> 12) &&& base.sreg 13) <<< 2) =
      .ok 0x2900C := by decide +kernel

/-- 2^31 - 1 fits with the trap on, 2^31 does not. -/
theorem witness_IntegerArithmetic :
    (∃ r, (Instr.add 1 2, Opcode.add, r) ∈ integerForms 1 2 (with12 0x8000 0x7FFFFFFE 1) ∧
      (with12 0x8000 0x7FFFFFFE 1).Quiet r ∧ (with12 0x8000 0x7FFFFFFE 1).Room 2) ∧
    ∃ r, (Instr.add 1 2, Opcode.add, r) ∈ integerForms 1 2 (with12 0x8000 0x7FFFFFFF 1) ∧
      (with12 0x8000 0x7FFFFFFF 1).Overflows r ∧
      (with12 0x8000 0x7FFFFFFF 1).HasVector (.arithmetic ((with12 0x8000 0x7FFFFFFF 1).op .add) 1 2 16) 0x2041C :=
  ⟨⟨_, nth_mem _ 0 (by decide) rfl, by decide +kernel, by decide +kernel⟩,
    ⟨_, nth_mem _ 0 (by decide) rfl, by decide +kernel, by decide +kernel⟩⟩

theorem witness_DivideAndRemainder :
    ((with12 0 7 2).reg 2 ≠ 0 ∧ ¬((with12 0 7 2).reg 1 = 0x80000000 ∧ (with12 0 7 2).reg 2 = 0xFFFFFFFF) ∧
      (with12 0 7 2).Room 2) ∧
    ((with12 0 0x80000000 0xFFFFFFFF).reg 2 ≠ 0 ∧ (with12 0 0x80000000 0xFFFFFFFF).reg 1 = 0x80000000 ∧
      (with12 0 0x80000000 0xFFFFFFFF).reg 2 = 0xFFFFFFFF ∧ (with12 0 0x80000000 0xFFFFFFFF).trapBit 16 = false ∧
      (with12 0 0x80000000 0xFFFFFFFF).Room 2) ∧
    (with12 0x8000 0x80000000 0xFFFFFFFF).trapBit 16 = true ∧
    (with12 0x8000 0x80000000 0xFFFFFFFF).HasVector (.arithmetic 0x07 1 2 16) 0x2041C ∧
    base.op .div = 0x07 ∧ base.op .rem = 0x08 := by decide +kernel

theorem witness_DivideByZero : ((with12 0 7 0).reg 2 = 0 ∧ (with12 0 7 0).trapBit 17 = false ∧ (with12 0 7 0).Room 2) ∧
    (with12 0x4000 7 0).reg 2 = 0 ∧ (with12 0x4000 7 0).trapBit 17 = true ∧
    (with12 0x4000 7 0).HasVector (.arithmetic ((with12 0x4000 7 0).op .ediv) 1 2 17) 0x2041C := by decide +kernel

/-- The largest quotient that fits, and the smallest that does not. -/
theorem witness_ExtendedMultiplyAndDivide :
    ((with24 0 0x00000000FFFFFFFF 0x0000000100000000).pair 2).toNat =
        (2 ^ 32 - 1) * ((with24 0 0x00000000FFFFFFFF 0x0000000100000000).reg 4).toNat + 0 ∧
      0 < ((with24 0 0x00000000FFFFFFFF 0x0000000100000000).reg 4).toNat ∧ 2 ^ 32 - 1 < base.cfg.edivOverflow.limit ∧
      (with24 0 0x00000000FFFFFFFF 0x0000000100000000).Room 2 ∧
    (with24 0x8000 0x0000000100000000 0x0000000100000000).reg 4 ≠ 0 ∧
      base.cfg.edivOverflow.limit * ((with24 0x8000 0x0000000100000000 0x0000000100000000).reg 4).toNat ≤
        ((with24 0x8000 0x0000000100000000 0x0000000100000000).pair 2).toNat ∧
      (with24 0 0x0000000100000000 0x0000000100000000).trapBit 16 = false ∧
      (with24 0x8000 0x0000000100000000 0x0000000100000000).trapBit 16 = true ∧
      (with24 0x8000 0x0000000100000000 0x0000000100000000).HasVector (.arithmetic (base.op .ediv) 2 4 16) 0x2041C := by
  decide +kernel

theorem witness_ExtendedAddAndSubtract : (15 : RegNo) ≠ 0 ∧ base.Room 2 := by decide +kernel
theorem witness_MultipleWordArithmetic : ({ base with pc := 0xFFFFFFF8 } : State).pc.toNat + 6 < 2 ^ 32 := by decide +kernel
theorem witness_LogicalAndMove : ({ base with pc := 0xFFFFFFFC } : State).Room 2 ∧
    (Instr.xor 1 2, (5 : Word)) ∈ logicalForms 1 2 (with12 0 7 2) := ⟨by decide +kernel, nth_mem _ 2 (by decide) rfl⟩

theorem witness_RealInstructionsComplete : (Instr.drdiv 15 2) ∈ realForms 15 2 ∧ base.RealQuiet ∧ base.Room 2 :=
  ⟨nth_mem _ 12 (by decide) rfl, by decide +kernel, by decide +kernel⟩

/-- A zero operand and a NaN operand. -/
theorem witness_BeforeTrap : (∃ p, (Instr.radd 1 2, p) ∈ beforeForms 1 2 (with12 0x40 0x3F800000 0) ∧ p) ∧
    (∃ p, (Instr.dfixt 2 4, p) ∈ beforeForms 2 4 (with24 0x40 0 0xFFF8000000000000) ∧ p) ∧
    (with12 0x40 0x3F800000 0).trapBit 25 = true ∧
    (with12 0x40 0x3F800000 0).HasVector (.arithmetic (base.op .radd) 1 2 25) 0x2041C :=
  ⟨⟨_, nth_mem _ 0 (by decide) rfl, by decide +kernel⟩, ⟨_, nth_mem _ 14 (by decide) rfl, by decide +kernel⟩,
    by decide +kernel, by decide +kernel⟩

/-- 1 + 2, which is exact; 1 / 3, which is not, with the inexact trap on; the ends of the range: 1 + 0 ulp at the largest
and the smallest ordinary number. -/
theorem witness_RealResultsAreCorrectlyRounded :
    ((Instr.radd 1 2, RealOp.add) ∈ singleForms 1 2 ∧ (unpackSingle 0x3F800000).cls single = .number ∧
      (unpackSingle 0x40000000).cls single = .number ∧
      single.minValue ≤ |RealOp.onValues .add ((unpackSingle 0x3F800000).value single) ((unpackSingle 0x40000000).value single)| ∧
      |RealOp.onValues .add ((unpackSingle 0x3F800000).value single) ((unpackSingle 0x40000000).value single)| ≤
        single.maxValue) ∧
    ((Instr.drdiv 1 2, RealOp.div) ∈ doubleForms 1 2 ∧ (unpackDouble 0x3FF0000000000000).cls double = .number ∧
      (unpackDouble 0x4008000000000000).cls double = .number ∧
      double.minValue ≤ |RealOp.onValues .div ((unpackDouble 0x3FF0000000000000).value double)
        ((unpackDouble 0x4008000000000000).value double)| ∧
      |RealOp.onValues .div ((unpackDouble 0x3FF0000000000000).value double)
        ((unpackDouble 0x4008000000000000).value double)| ≤ double.maxValue) ∧
    (with12 0x80 0x3F800000 0x40400000).trapBit 24 = true ∧
    (with12 0x80 0x3F800000 0x40400000).HasVector (.arithmetic (base.op .rdiv) 1 2 24) 0x2041C ∧
    (with12 0x80 0x3F800000 0x40400000).Room 2 ∧ base.trapBit 24 = false ∧
    (with12 0x80 0x3F800000 0x40400000).cfg.fpRound = .exact :=
  ⟨⟨nth_mem _ 0 (by decide) rfl, by decide, by decide, by decide +kernel, by decide +kernel⟩,
    ⟨nth_mem _ 3 (by decide) rfl, by decide, by decide, by decide +kernel, by decide +kernel⟩, by decide +kernel,
    by decide +kernel, by decide +kernel, by decide +kernel⟩

/-- A number and a zero, the division with its trap on; two denormalized numbers; a NaN and a number; 1 - 1. -/
theorem witness_RealSpecialOperands :
    (∃ l, l ∈ table41Lines single (with12 0x800 0x3F800000 0).note4 ∧ (with12 0x800 0x3F800000 0).trapBit 25 = false ∧
      (unpackSingle ((with12 0x800 0x3F800000 0).reg 1)).cls single = l.op1 ∧
      (unpackSingle ((with12 0x800 0x3F800000 0).reg 2)).cls single = l.op2 ∧ l.divByZero = true ∧
      (with12 0x800 0x3F800000 0).trapBit 20 = true ∧
      (with12 0x800 0x3F800000 0).HasVector (.arithmetic (base.op .rdiv) 1 2 20) 0x2041C) ∧
    (∃ l, l ∈ table41Lines single base.note4 ∧ (unpackSingle 0x00000001).cls single = l.op1 ∧
      (unpackSingle 0x807FFFFF).cls single = l.op2 ∧ base.trapBit 25 = false ∧ base.trapBit 20 = false ∧ base.Room 2) ∧
    (∃ l, l ∈ table41Lines double base.note4 ∧ (unpackDouble 0x7FF8000000000000).cls double = l.op1 ∧
      (unpackDouble 0x3FF0000000000000).cls double = l.op2 ∧ l.divByZero = false) ∧
    (Instr.rsub 1 2, RealOp.sub) ∈ singleForms 1 2 ∧ (Instr.drsub 1 2, RealOp.sub) ∈ doubleForms 1 2 ∧
    RealOp.onValues .sub ((unpackSingle 0x3F800000).value single) ((unpackSingle 0x3F800000).value single) = 0 ∧
    RealOp.onValues .sub ((unpackDouble 0x3FF0000000000000).value double) ((unpackDouble 0x3FF0000000000000).value double) = 0 :=
  ⟨⟨_, nth_mem _ 0 (by decide) rfl, by decide +kernel, by decide, by decide, rfl, by decide +kernel, by decide +kernel⟩,
    ⟨_, nth_mem _ 11 (by decide) rfl, by decide, by decide, by decide +kernel, by decide +kernel, by decide +kernel⟩,
    ⟨_, nth_mem _ 19 (by decide) rfl, by decide, by decide, rfl⟩, nth_mem _ 1 (by decide) rfl, nth_mem _ 1 (by decide) rfl,
    by decide +kernel, by decide +kernel⟩

theorem witness_RealResultsAreNumbersZerosOrInfinities : base.trapBit 25 = false ∧ base.trapBit 20 = false ∧
    base.trapBit 18 = false ∧ base.trapBit 19 = false ∧ base.Room 2 ∧
    (∃ t, exec (.rdiv 1 2) (with12 0 0x3F800000 0) = .next t) ∧ ∃ t, exec (.makerd 2 4) (with24 0 0 0) = .next t :=
  ⟨by decide +kernel, by decide +kernel, by decide +kernel, by decide +kernel, by decide +kernel, ⟨_, rfl⟩, ⟨_, rfl⟩⟩

/-- The largest integer, 2^31 with the overflow trap on, 2.5 with the inexact trap on, and the special classes. -/
theorem witness_RealConversions :
    ((with12 0 0 0).reg 2 = 0 ∧ (with12 0 0 7).reg 2 ≠ 0 ∧ (unpackSingle 0x00800000).cls single = .number) ∧
    ((Instr.dfixt 2 4, RoundMode.zero, double, unpackDouble 0x41DFFFFFFFE00000, false) ∈
        [(Instr.fixt 2 4, RoundMode.zero, single, unpackSingle 0, false),
          (.dfixt 2 4, .zero, double, unpackDouble 0x41DFFFFFFFE00000, false)] ∧
      (unpackDouble 0x41DFFFFFFFE00000).cls double = .number ∧
      IntRoundsTo .zero ((unpackDouble 0x41DFFFFFFFE00000).value double) (2 ^ 31 - 1)) ∧
    (IntRoundsTo .nearest ((unpackSingle 0x4F000000).value single) (2 ^ 31) ∧
      (with12 0x2000 0 0x4F000000).trapBit 18 = true ∧
      (with12 0x2000 0 0x4F000000).HasVector (.arithmetic (base.op .fixr) 1 2 18) 0x2041C) ∧
    (IntRoundsTo (with24 0x80 0 0x41E0000000100000).fixrMode ((unpackDouble 0x41E0000000100000).value double) (2 ^ 31) ∧
      ((2 ^ 31 : ℤ) : ℚ) ≠ (unpackDouble 0x41E0000000100000).value double ∧
      (with24 0x80 0 0x41E0000000100000).trapBit 18 = false ∧
      (with24 0x80 0 0x41E0000000100000).trapBit 24 = true ∧
      (with24 0x80 0 0x41E0000000100000).HasVector (.arithmetic (base.op .dfixr) 2 4 24) 0x2041C) ∧
    (IntRoundsTo (with12 0x80 0 0x40200000).fixrMode ((unpackSingle 0x40200000).value single) 2 ∧
      (2 : ℚ) ≠ (unpackSingle 0x40200000).value single ∧ (with12 0x80 0 0x40200000).trapBit 24 = true ∧
      (with12 0x80 0 0x40200000).HasVector (.arithmetic (base.op .fixr) 1 2 24) 0x2041C) ∧
    (unpackSingle 0x80000000).cls single = .zero ∧ (unpackSingle 0x007FFFFF).cls single = .denormalized ∧
    (unpackDouble 0xFFF0000000000000).cls double = .infinity ∧ (unpackDouble 0x7FF0000000000001).cls double = .notANumber ∧
    base.trapBit 25 = false ∧ base.Room 2 :=
  ⟨by decide +kernel, ⟨nth_mem _ 1 (by decide) rfl, by decide, by decide +kernel, by decide +kernel, by decide +kernel⟩,
    ⟨⟨by decide +kernel, by decide +kernel⟩, by decide +kernel, by decide +kernel⟩,
    ⟨⟨by decide +kernel, by decide +kernel⟩, by decide +kernel, by decide +kernel, by decide +kernel, by decide +kernel⟩,
    ⟨⟨by decide +kernel, by decide +kernel⟩, by decide +kernel, by decide +kernel, by decide +kernel⟩,
    by decide, by decide, by decide, by decide, by decide +kernel, by decide +kernel⟩

/-- The power of two at or below a magnitude. -/
abbrev atPower (k : ℤ) (q : ℚ) : Prop := (2 : ℚ) ^ k ≤ |q| ∧ |q| < (2 : ℚ) ^ (k + 1)

/-- Half a unit above the largest number, and just below the smallest. -/
theorem witness_RealOutOfRange :
    ((Instr.radd 1 2, RealOp.add) ∈ singleForms 1 2 ∧ (Instr.drmpy 1 2, RealOp.mpy) ∈ doubleForms 1 2 ∧
      [(0x7F7FFFFF : Word), 0x73000000, 0x00FFFFFF, 0x3F000000].map (fun w => (unpackSingle w).cls single) =
        List.replicate 4 .number) ∧
    (atPower 127 (RealOp.onValues .add ((unpackSingle 0x7F7FFFFF).value single) ((unpackSingle 0x73000000).value single)) ∧
      atPower (-127) (RealOp.onValues .mpy ((unpackSingle 0x00FFFFFF).value single)
        ((unpackSingle 0x3F000000).value single))) ∧
    (atPower 1023 (RealOp.onValues .add ((unpackDouble 0x7FEFFFFFFFFFFFFF).value double)
        ((unpackDouble 0x7C90000000000000).value double)) ∧
      atPower (-1023) (RealOp.onValues .mpy ((unpackDouble 0x001FFFFFFFFFFFFF).value double)
        ((unpackDouble 0x3FE0000000000000).value double))) ∧
    (atPower 127 ((unpackDouble 0x47EFFFFFF0000000).value double) ∧
      atPower (-127) ((unpackDouble 0x3800000000000001).value double)) ∧
    ((with12 0x2000 0x7F000000 0x40800000).trapBit 18 = true ∧
      (with12 0x2000 0x7F000000 0x40800000).HasVector (.arithmetic (base.op .rmpy) 1 2 18) 0x2041C ∧
      (with12 0x1000 0x00800000 0x41000000).trapBit 19 = true ∧
      (with12 0x1000 0x00800000 0x41000000).HasVector (.arithmetic (base.op .rdiv) 1 2 19) 0x2041C ∧
      base.trapBit 18 = false ∧ base.trapBit 19 = false ∧ base.trapBit 24 = false ∧ base.Room 2 ∧
      (withTraps 0x80 base).trapBit 24 = true ∧
      (withTraps 0x80 base).HasVector (.arithmetic (base.op .radd) 1 2 24) 0x2041C ∧ base.cfg.fpRound = .exact) := by
  decide +kernel

theorem witness_RealCompare :
    (∃ p, p ∈ [(Instr.rcomp 1 2, single, unpackSingle 0xBF800000, unpackSingle 0x3F800000)] ∧
      p.2.2.1.cls single = .number ∧ p.2.2.2.cls single = .number) ∧
    ((unpackSingle 0x7FC00000).cls single = .notANumber ∧ (unpackSingle 0xFF800000).cls single = .infinity ∧
      (unpackSingle 0x7FC00000).neg ≠ (unpackSingle 0xFF800000).neg ∧
      (unpackSingle 0x7F800000).neg = (unpackSingle 0x7FC00000).neg) ∧
    base.trapBit 25 = false ∧ base.Room 2 :=
  ⟨⟨_, nth_mem _ 0 (by decide) rfl, by decide, by decide⟩, by decide, by decide +kernel, by decide +kernel⟩

theorem witness_BitInstructions : ({ base with pc := 0xFFFFFFFC } : State).Room 2 := by decide +kernel
theorem witness_TestInstructions : (Instr.testiGe 1 15, true) ∈ testForms 1 15 (with12 0 15 0) ∧ (with12 0 15 0).Room 2 :=
  ⟨nth_mem _ 10 (by decide) (by rfl), by decide +kernel⟩
theorem witness_CompareAndSignExtend : base.Room 2 := by decide +kernel

/-- The counts 31, 15 and 63. -/
theorem witness_ShiftsMoveBits : (Instr.csl 1 2, 31, cslBit) ∈ shiftForms 1 2 (with12 0 9 0xFFFFFFFF) ∧
    (Instr.asri 1 15, 15, asrBit) ∈ shiftForms 1 15 base ∧
    (Instr.dlsr 2 4, 63, false) ∈ doubleShiftForms 2 4 (with24 0 1 0xFFFFFFFF00000000) ∧ base.Room 2 :=
  ⟨nth_mem _ 0 (by decide) rfl, nth_mem _ 7 (by decide) rfl, nth_mem _ 2 (by decide) rfl, by decide +kernel⟩

/-- -1 by 31 fits, 1 by 31 does not. -/
theorem witness_ArithmeticShiftMultiplies :
    (Instr.asl 1 2, Opcode.asl, 31) ∈ [(Instr.asl 1 2, Opcode.asl, ((with12 0x8000 1 31).reg 2).toNat % 32),
      (.asli 1 2, .asli, 2)] ∧
    (with12 0x8000 0xFFFFFFFF 31).Quiet (((with12 0x8000 0xFFFFFFFF 31).reg 1).toInt * 2 ^ 31) ∧
    (with12 0x8000 1 31).Overflows (((with12 0x8000 1 31).reg 1).toInt * 2 ^ 31) ∧
    (with12 0x8000 1 31).HasVector (.arithmetic (base.op .asl) 1 2 16) 0x2041C ∧ (with12 0x8000 1 31).Room 2 :=
  ⟨nth_mem _ 0 (by decide) rfl, by decide +kernel, by decide +kernel, by decide +kernel, by decide +kernel⟩

theorem witness_BranchesGoToTheirTarget :
    (∃ f, f ∈ branchForms 1 2 0xFFFC 0 (with12 0 2 1) ∧ f.taken = true ∧ mbit (with12 0 2 1).pc 31 = false) ∧
    ∃ f, f ∈ branchForms 1 2 0 0xFFFFFFFC (with12 0 1 1) ∧ f.taken = false ∧ (with12 0 1 1).Room f.il :=
  ⟨⟨_, nth_mem _ 2 (by decide) rfl, by decide +kernel, by decide +kernel⟩,
    ⟨_, nth_mem _ 3 (by decide) rfl, by decide +kernel, by decide +kernel⟩⟩

/-- A sum of -1 and a sum of 0; even and odd addresses are told apart. -/
theorem witness_LoopsCallsAndReturns :
    (((with12 0 0xFFFFFFF0 0).reg 1).toInt + (15 : RegNo).toNat < 0 ∧ mbit (with12 0 0xFFFFFFF0 0).pc 31 = false ∧
      0 ≤ ((with12 0 0xFFFFFFF1 0).reg 1).toInt + (15 : RegNo).toNat ∧ (with12 0 0xFFFFFFF1 0).Room 4) ∧
    (Instr.loop 1 15 8, (8 : Word), 4) ∈ [(Instr.loop 1 15 8, (8 : BitVec 16).signExtend 32, 4), (.loopl 1 15 0, 0, 6)] ∧
    (Instr.calll 1 2 8, (8 : Word), 6) ∈ [(Instr.call 1 2 0, (0 : BitVec 16).signExtend 32, 4), (.calll 1 2 8, 8, 6)] ∧
    mbit ((with12 0 0 0x40).pc + (with12 0 0 0x40).reg 2) 31 = false ∧ mbit ((with12 0 0 0x40).reg 2) 31 = false := by
  decide +kernel

theorem witness_ChecksAndTraps :
    (((with12 0 9 9).reg 1).toInt ≤ ((with12 0 9 9).reg 2).toInt ∧ (with12 0 9 9).Room 2 ∧
      ((with12 0 10 9).reg 2).toInt < ((with12 0 10 9).reg 1).toInt ∧
      (with12 0 10 9).HasVector (.checkTrap (base.op .chk) 1 2) 0x20418) ∧
    (0 ≤ ((with12 0 15 0).reg 1).toInt ∧ ((with12 0 15 0).reg 1).toInt ≤ (15 : RegNo).toNat ∧
      ((15 : RegNo).toNat : Int) < ((with12 0 16 0).reg 1).toInt ∧ ((with12 0 0xFFFFFFFF 0).reg 1).toInt < 0 ∧
      (with12 0 16 0).HasVector (.checkTrap (base.op .chki) 1 15) 0x20418) ∧
    (base.mode = .kernel ∧ base.HasVector (.arithmetic (base.op .trap) 0 5 5) 0x2041C ∧
      (user (withTraps 0x00010000 base)).trapBit 15 = true ∧
      (user (withTraps 0x00010000 base)).HasVector (.arithmetic (base.op .trap) 0 15 15) 0x2041C) ∧
    (user base).mode = .user ∧ (user base).trapBit 15 = false ∧ (user base).Room 2 := by decide +kernel

theorem witness_KernelCalls : mbit (base.sreg 11) 31 = false ∧
    ((user base).mode = .user ∧ (user base).structRead ((user base).sreg 11) (BitVec.ofNat 32 (4 * (0xFF : Byte).toNat)) =
      .ok 0x203FC ∧ mbit (0x203FC : Word) 31 = false) ∧
    base.mode = .kernel ∧ base.paused = false ∧ base.structRead (base.sreg 11) 0x414 = .ok 0x20414 ∧
    mbit (0x20414 : Word) 31 = false := by decide +kernel

/-- The last address, an odd vector, the first address beyond memory, an entry with V = 0. -/
theorem witness_NamedStops :
    (mbit ((with12 0 0 1).pc + (with12 0 0 1).reg 2) 31 = true ∧ mbit ((with12 0 0 1).reg 2) 31 = true ∧
      base.sreg 14 ≠ 1 ∧ mbit ((base.setSreg 15 1).sreg 15) 31 = true ∧ mbit ((base.setSreg 0 1).sreg 0) 31 = true) ∧
    2 ^ 32 ≤ ({ base with pc := 0xFFFFFFFE } : State).pc.toNat + 2 ∧ mbit ((base.setSreg 11 1).sreg 11) 31 = true ∧
    ((base.storeBytes 0x1041C (bytesOfWord 0x20001)).structRead (base.sreg 11) (Event.arithmetic 0 0 0 0).offset =
      .ok 0x20001 ∧ mbit (0x20001 : Word) 31 = true) ∧
    base.cfg.memSize.toNat < (0x3FFFFF : Word).toNat + 2 ∧
    (tmtHit ((user base).tmtEntry (tmtIndex .data 0x12008)) 0x12008 = false ∧
      (base.storeBytes 0x29020 (bytesOfWord 0x00210004)).vrtSearch 0x13 0x12008 = .found 0x29018 0x00210004 ∧
      mbit (0x00210004 : Word) 30 = false) ∧
    ((0x8002 : Word).toNat % 4 ≠ 0 ∧ (0xFFFFFFFC : Word).toNat % 4 = 0 ∧
      base.cfg.memSize.toNat < (0x3FFFFC : Word).toNat + (4 : Word).toNat + 4 ∧
      (base.setSreg 14 0x400000).sreg 14 ≠ 1 ∧ base.cfg.memSize.toNat ≤ ((base.setSreg 14 0x400000).sreg 14).toNat) ∧
    ({ base with stuck := some .noCcb } : State).stuck = some .noCcb ∧ base.events = [] := by decide +kernel

/-- The hash slot of segment 13 and page 13 leads to an entry that links to itself. -/
def endless : State := { user base with mem := words 0x28098 [0x29000] ++ words 0x29000 [0, 0x29000, 0] }

/-- An entry that does not match and links to itself makes an endless chain. -/
theorem chain_endless {s : State} {seg : Half} {a p m : Word} (hp : p ≠ 0) (hm : s.ucodeRead p = .ok m)
    (hn : ¬vrtMatches m seg a) (hl : s.ucodeRead (p + 4) = .ok p) (n : Nat) : s.vrtChain seg a n p = .endless := by
  induction n with
  | zero => rfl
  | succ n ih =>
    unfold State.vrtChain
    rw [if_neg hp, hm]
    dsimp only
    rw [if_neg hn, hl]
    exact ih

theorem search_endless {s : State} {seg : Half} {a p m : Word} (hs : s.structRead (s.sreg 12) (s.vrtSlot seg a) = .ok p)
    (hp : p ≠ 0) (hm : s.ucodeRead p = .ok m) (hn : ¬vrtMatches m seg a) (hl : s.ucodeRead (p + 4) = .ok p) :
    s.vrtSearch seg a = .endless := by
  unfold State.vrtSearch
  rw [hs]
  exact chain_endless hp hm hn hl _

/-- The search of segment 13 and page 13 along that chain never ends. -/
theorem endless_search : endless.vrtSearch 0x13 0x13000 = .endless :=
  search_endless (p := 0x29000) (m := 0) (by decide +kernel) (by decide) (by decide +kernel) (by decide)
    (by decide +kernel)

/-- A load, and a store to a page whose TMT entry is clean, that meet the endless chain. -/
theorem witness_NamedStops_endless :
    (∃ f, f ∈ loadForms 1 0 0 0x13000 endless ++ storeForms 1 0 0 0x13000 endless ∧ f.ea.toNat % f.width.bytes = 0 ∧
      endless.mode = .user ∧ tmtHit (endless.tmtEntry (tmtIndex f.space f.ea)) f.ea = false ∧
      endless.vrtSearch (endless.segment f.space) f.ea = .endless) ∧
    ∃ f, f ∈ storeForms 1 0 0 0x13000 { endless with tmt := [(531, 0x00210006)] } ∧ f.ea.toNat % f.width.bytes = 0 ∧
      ({ endless with tmt := [(531, 0x00210006)] } : State).tmtEntry (tmtIndex .data f.ea) = 0x00210006 ∧
      tmtHit 0x00210006 f.ea = true ∧ mbit (0x00210006 : Word) 29 = true ∧ mbit (0x00210006 : Word) 31 = false ∧
      ({ endless with tmt := [(531, 0x00210006)] } : State).vrtSearch 0x13 f.ea = .endless :=
  ⟨⟨_, nth_mem _ 1 (by decide) rfl, by decide, rfl, by decide +kernel, endless_search⟩,
   ⟨_, nth_mem _ 1 (by decide) rfl, by decide, by decide +kernel, by decide, by decide, by decide,
    search_endless (p := 0x29000) (m := 0) (by decide +kernel) (by decide) (by decide +kernel) (by decide)
      (by decide +kernel)⟩⟩

/-- A load of a page whose VRT entry has V = 0. -/
theorem witness_NamedStops_invalid : ∃ f, f ∈ loadForms 1 0 0 0x12008 (user (base.storeBytes 0x29020 (bytesOfWord 0x00210004))) ∧
    f.ea.toNat % f.width.bytes = 0 ∧
    tmtHit ((user (base.storeBytes 0x29020 (bytesOfWord 0x00210004))).tmtEntry (tmtIndex f.space f.ea)) f.ea = false ∧
    (user (base.storeBytes 0x29020 (bytesOfWord 0x00210004))).vrtSearch 0x13 f.ea = .found 0x29018 0x00210004 ∧
    mbit (0x00210004 : Word) 30 = false :=
  ⟨_, nth_mem _ 1 (by decide) rfl, by decide, by decide +kernel, by decide +kernel, by decide⟩

/-- User code at 13000 whose hash slot leads to the entry of three words. -/
def fetchEntry (m l t : Word) : State :=
  user { base with
    pc := 0x13000
    mem := words 0x10440 [0, 5] ++ words 0x28094 [0x29000] ++ words 0x29000 [m, l, t] }

/-- A fetch that meets V = 0 and one that meets an endless chain; TRANS on an endless chain. -/
theorem witness_NamedStops_fetch :
    (∃ t, (fetchEntry 0x00120001 0 0x00210004).FetchesUpTo t 0x13000 ∧ t.mode = .user ∧
      tmtHit (t.tmtEntry (tmtIndex .code 0x13000)) 0x13000 = false ∧
      t.vrtSearch (t.segment .code) 0x13000 = .found 0x29000 0x00210004) ∧
    (∃ t, (fetchEntry 0 0x29000 0).FetchesUpTo t 0x13000 ∧ t.mode = .user ∧
      tmtHit (t.tmtEntry (tmtIndex .code 0x13000)) 0x13000 = false ∧
      t.vrtSearch (t.segment .code) 0x13000 = .endless) ∧
    ({ endless with mode := .kernel } : State).vrtSearch
      ((withRegs [(2, 0x13), (3, 0x13000)] endless).reg 2 |>.extractLsb' 0 16)
      ((withRegs [(2, 0x13), (3, 0x13000)] endless).reg 3) = .endless :=
  ⟨⟨_, ⟨_, 0, _, rfl, by decide, rfl, by decide +kernel, .inl rfl⟩, by decide +kernel, by decide +kernel,
    by decide +kernel⟩,
   ⟨_, ⟨_, 0, _, rfl, by decide, rfl, by decide +kernel, .inl rfl⟩, by decide +kernel, by decide +kernel,
    search_endless (p := 0x29000) (m := 0) (by decide +kernel) (by decide) (by decide +kernel) (by decide +kernel)
      (by decide +kernel)⟩,
   search_endless (p := 0x29000) (m := 0) (by decide +kernel) (by decide) (by decide +kernel) (by decide +kernel)
    (by decide +kernel)⟩

theorem witness_EventEntry : base.HasVector (.kernelCall 3) 0x2000C ∧ base.HasVector (.external 0x05000001) 0x20420 ∧
    (user base).HasVector .timer2 0x20434 := by decide +kernel

theorem witness_KernelViolations : (user (withTraps 1 base)).mode = .user ∧ Instr.trapexit 1 ∈ kernelOnlyForms 1 2 ∧
    (user (withTraps 1 base)).HasVector (.kernelViolation (base.op .maint) 1 (Instr.secondField (.trapexit 1))) 0x20414 ∧
    Instr.write 1 2 ∈ privilegedForms 1 2 ∧ (user base).trapBit 31 = false ∧
    (user base).HasVector (.kernelViolation (base.op .write) 1 (Instr.secondField (.write 1 2))) 0x20414 := by
  decide +kernel

theorem witness_SaveUserState : base.mode = .kernel ∧ base.Room 2 ∧ (base.setSreg 14 1).sreg 14 = 1 ∧ base.PcbUsable := by
  decide +kernel
theorem witness_LoadUserState : base.mode = .kernel ∧ base.Room 2 ∧ (base.setSreg 14 1).sreg 14 = 1 ∧ base.PcbUsable :=
  witness_SaveUserState

theorem witness_ResumeUserAndTrapexit : (base.mode = .kernel ∧ base.sreg 14 ≠ 1 ∧ mbit (base.sreg 15) 31 = false ∧
      mbit (base.sreg 0) 31 = false ∧ (base.setSreg 14 1).sreg 14 = 1) ∧
    (mbit (0x4000 : Word) 31 = false ∧ (∀ n, Event.timer1 ≠ .kernelCall n) ∧ (∀ w, Event.timer1 ≠ .external w)) ∧
    (user base).mode = .user ∧ (user base).paused = false ∧ (user base).sreg 14 ≠ 1 :=
  ⟨by decide +kernel, ⟨by decide, fun _ h => (nomatch h), fun _ h => (nomatch h)⟩, by decide +kernel⟩

theorem witness_MoveSpecialRegisters : base.mode = .kernel ∧ base.Room 2 ∧ (11 : RegNo) ≠ 10 := by decide +kernel

theorem witness_MaintenanceReads : ((user (withTraps 1 base)).trapBit 31 = true ∧ base.mode = .kernel ∧ base.Room 2) ∧
    mbit ((with12 0 0x80000000 0).reg 1) 0 = true ∧ mbit ((with12 0 0x7FFFFFFF 0).reg 1) 0 = false ∧
    ((with12 0 0x7FFFFFFF 0).reg 1).toNat % 16 = (15 : Fin 16).val := by decide +kernel

theorem witness_MaintenanceControls : (base.mode = .kernel ∧ base.Room 2) ∧ mbit ((with12 0 1 0).reg 1) 31 = true ∧
    (mbit ((with12 0 0x4C 0).reg 1) 28 = true ∧ mbit ((with12 0 0x4C 0).reg 1) 29 = true ∧
      mbit ((with12 0 0x4C 0).reg 1) 24 = false ∧ mbit ((with12 0 0x4C 0).reg 1) 26 = false) ∧
    base.deliverable = none ∧ ({ base with boards := [board5] } : State).deliverable = some board5 := by decide +kernel

/-- Segment 13 and address 12008 in R2 and R3. -/
def vrtRegs : State := withRegs [(2, 0x13), (3, 0x12008)] base

theorem witness_TransAndDirt : (vrtRegs.mode = .kernel ∧ vrtRegs.Room 2) ∧
    vrtRegs.structRead (vrtRegs.sreg 12) (((zext ((vrtRegs.reg 2).extractLsb' 0 16) + vrtRegs.reg (2 + 1) >>> 12) &&&
      vrtRegs.sreg 13) <<< 2) = .ok 0x2900C ∧
    ((vrtRegs.reg 2).extractLsb' 0 16 = 0x13 ∧ vrtRegs.reg (2 + 1) = 0x12008) ∧
    VrtLeads vrtRegs 0x13 0x12008 0x2900C 0x29018 ∧ vrtRegs.ucodeRead (0x29018 + 8) = .ok 0x00210006 ∧
    (Instr.dirt 1 2, (0x11 : Word)) ∈ [(Instr.trans 1 2, (0x10 : Word)), (.dirt 1 2, 0x11)] ∧
    VrtEnds base 0x13 0x13000 0 :=
  ⟨by decide +kernel, by decide +kernel, by decide +kernel,
    base_vrtLeads _ (by decide +kernel) (by decide +kernel) (by decide +kernel), by decide +kernel, by decide, .zero⟩

/-- Another board before board 5. -/
def twoBoards : State := withRegs [(2, 0x05000010)] { base with boards := [{ board5 with device := 6 }, board5] }

/-- No board; a board whose answer is ready, behind another one; one that is not ready. -/
theorem witness_ReadsAndWrites : (twoBoards.mode = .kernel ∧ twoBoards.Room 2) ∧ (∀ b ∈ base.boards, b.device ≠ 5) ∧
    twoBoards.boards = [{ board5 with device := 6 }] ++ board5 :: [] ∧
    (∀ c ∈ [{ board5 with device := 6 }], c.device ≠ (twoBoards.reg 2).extractLsb' 24 8) ∧
    board5.device = (twoBoards.reg 2).extractLsb' 24 8 ∧ board5.answers = ⟨false, 0xAA⟩ :: [] ∧
    ({ board5 with answers := [⟨true, 0⟩] } : Board).answers = ⟨true, 0⟩ :: [] := by decide +kernel

/-- A board with a transfer on each chain, the one of chain 2 behind the other; the bus free, and not. -/
theorem witness_ReadsAndWrites_dma : ∃ l1 b, dmaBase.boards = l1 ++ b :: [] ∧
    b.transfers = .read 0x401 false 0 :: [.read 0x401 false 1] ∧ (∀ c ∈ l1, c.chain2 = b.chain2 → c.transfers = []) ∧
    b.chain2 = true ∧ dmaBase.transfer = [] ∧ between7.boards = [] ++ { board5 with transfers := [.write 0 7] } :: [] ∧
    (∀ c ∈ between7.boards, c.chain2 = true → c.transfers = []) ∧
    ({ between7 with transfer := [⟨0x3FFFFC, .read true⟩] } : State).transfer ≠ [] :=
  ⟨[_], _, rfl, rfl, by decide +kernel, rfl, rfl, rfl, by decide +kernel, by decide⟩

/-- The last word of memory written, and read, by DMA. -/
theorem witness_ReadsAndWrites_word : (⟨0x3FFFFC, .write 7⟩ : DmaCycle).address + 4 ≤ base.cfg.memSize.toNat ∧
    ({ base with transfer := [⟨0x3FFFFC, .write 7⟩] } : State).transfer = ⟨0x3FFFFC, .write 7⟩ :: [] ∧
    ({ base with transfer := [⟨0x3FFFFC, .read false⟩] } : State).transfer = ⟨0x3FFFFC, .read false⟩ :: [] := by
  decide +kernel

/-- The state at a boundary with parity errors, power fail warnings and presses of switch 0 due. -/
def withDue (p : List ParityError) (f w : Nat) : State :=
  ({ base with parityDue := p, powerFailDue := f, switch0Due := w } : State).nextBoundary

/-- The interrupts that both modes take. -/
theorem witness_InterruptChoice_high : base.events = [] ∧ (withDue [.fetch 8] 1 1).stuck = none ∧
    ((withDue [.fetch 8] 1 1).parityDue = .fetch 8 :: [] ∧ (withDue [.fetch 8] 1 1).HasVector (.parityFetch 8) 0x20408) ∧
    ((withDue [.execute 8] 0 0).parityDue = .execute 8 :: [] ∧
      (withDue [.execute 8] 0 0).HasVector (.parityExecute 8) 0x2040C) ∧
    ((withDue [] 1 1).parityDue = [] ∧ (withDue [] 1 1).powerFailDue = 0 + 1 ∧
      (withDue [] 1 1).HasVector .powerFail 0x20428) ∧
    ((withDue [] 0 1).parityDue = [] ∧ (withDue [] 0 1).powerFailDue = 0 ∧ (withDue [] 0 1).switch0Due = 0 + 1 ∧
      (withDue [] 0 1).HasVector .switch0 0x20424) ∧
    (withDue [] 0 0).parityDue = [] ∧ (withDue [] 0 0).powerFailDue = 0 ∧ (withDue [] 0 0).switch0Due = 0 ∧
    (withDue [] 0 0).mode = .kernel ∧ (withDue [] 0 0).paused = false := by decide +kernel

/-- User mode at a boundary, with a board that requests; with timer 2 due; with nothing due; paused with nothing due. -/
def external5 : State := (user { base with boards := [board5] }).nextBoundary
def timer2Due : State := (user (base.storeBytes 0x10444 (bytesOfWord 0x80000000))).nextBoundary
def quietUser : State := (user base).nextBoundary
def quietPaused : State := ({ base.setSreg 14 1 with paused := true } : State).nextBoundary
def pausedNoCcb : State := ({ (base.setSreg 14 1).setSreg 11 1 with paused := true } : State).nextBoundary

/-- The state after the read of the first timer. -/
def timer1Read (s : State) : State := s.loadLine .data (s.sreg 11 + 0x440).toNat

/-- The interrupts of user mode and the pause, and the boundaries that take none. -/
theorem witness_InterruptChoice_low :
    (external5.mode = .user ∧ external5.parityDue = [] ∧ external5.powerFailDue = 0 ∧ external5.switch0Due = 0 ∧
      external5.deliverable = some board5 ∧ external5.HasVector (.external (board5.device ++ board5.info)) 0x20420) ∧
    (timer1Due.nextBoundary.structRead (timer1Due.nextBoundary.sreg 11) 0x440 = .ok 0xFFFFFFFF ∧
      (0xFFFFFFFF : Word).toInt < 0 ∧ timer1Due.nextBoundary.deliverable = none ∧
      (timer1Read timer1Due.nextBoundary).HasVector .timer1 0x20430) ∧
    (timer2Due.structRead (timer2Due.sreg 11) 0x440 = .ok 0 ∧ 0 ≤ (0 : Word).toInt ∧
      mbit (timer2Due.sreg 11) 31 = false ∧
      (timer1Read timer2Due).structRead (timer2Due.sreg 11) 0x444 = .ok 0x80000000 ∧ (0x80000000 : Word).toInt < 0 ∧
      timer2Due.timersRead.HasVector .timer2 0x20434) ∧
    ((timer1Read quietUser).structRead (quietUser.sreg 11) 0x444 = .ok 5 ∧ 0 ≤ (5 : Word).toInt ∧
      mbit (quietUser.sreg 11) 31 = false ∧ quietUser.paused = false ∧ quietUser.deliverable = none) ∧
    (quietPaused.structRead (quietPaused.sreg 11) 0x440 = .ok 0 ∧ quietPaused.paused = true ∧
      (timer1Read quietPaused).structRead (quietPaused.sreg 11) 0x444 = .ok 5) ∧
    pausedNoCcb.paused = true ∧ pausedNoCcb.deliverable = none ∧ mbit (pausedNoCcb.sreg 11) 31 = true := by decide +kernel

/-- A CCB, a PCB apart from it; a PCB whose clock word ends where the timers begin; no CCB; no process. -/
theorem witness_MillisecondTick : (base.Coherent ∧ Lines.Ok base.dataLines ∧ base.sreg 14 ≠ 1 ∧ (base.sreg 14).toNat % 4 = 0 ∧
      (base.sreg 14).toNat + 0x54 ≤ base.cfg.memSize.toNat ∧ mbit (base.sreg 11) 31 = false ∧
      (base.sreg 11).toNat % 4 = 0 ∧ (base.sreg 11).toNat + 0x450 ≤ base.cfg.memSize.toNat ∧
      (base.sreg 14).toNat + 0x54 ≤ (base.sreg 11).toNat + 0x440) ∧
    ((base.setSreg 14 0x103EC).sreg 14).toNat + 0x54 = (base.sreg 11).toNat + 0x440 ∧
    mbit ((base.setSreg 11 1).sreg 11) 31 = true ∧ (base.setSreg 14 1).sreg 14 = 1 :=
  ⟨⟨fun _ => rfl, linesOk_nil, by decide +kernel⟩, by decide +kernel, by decide +kernel, by decide +kernel⟩

theorem witness_ResetButton :
    (user { base with stuck := some .noCcb, inputs := [⟨[.resetButton (List.replicate 4096 7)], []⟩] }).events =
      [.resetButton (List.replicate 4096 7)] ∧
    (List.replicate 4096 (7 : Byte)).length = 4096 ∧ 0x3F000 ≤ base.cfg.memSize.toNat :=
  ⟨rfl, List.length_replicate, by decide +kernel⟩

/-- ADD at the reset address. -/
def addAtReset : State := { State.reset with mem := [(0x3E000, 0x04), (0x3E001, 0x12)] }

theorem witness_StepKeepsInv : addAtReset.Inv ∧ ∃ t, step addAtReset = .next t :=
  ⟨{ memWf := by decide, memInstalled := by decide +kernel, tmtWf := .nil, tmtKeys := fun _ h => (nomatch h),
     tmtNonzero := fun _ h => (nomatch h), codeOk := linesOk_nil, dataOk := linesOk_nil, prefetchWf := .nil,
     prefetchFour := by decide, pcEven := by decide, pausedIdle := fun h => (nomatch h), logBound := by decide,
     chainBound := by decide, transferFour := by decide, transferAligned := fun _ h => (nomatch h) },
    (next_of (f := State.mode) (v := .kernel) (by decide +kernel)).imp fun _ h => h.1⟩

/-- RUM in kernel mode; an undefined opcode in user mode; an event taken. -/
theorem witness_OnlyRumLeavesKernelMode :
    (∃ t, enter .switch0 0x1000 (user base) = .next t) ∧
    (∃ t, step (base.placeHalf 0x1000 0x39 0x00) = .next t ∧ (base.mode, t.mode) = (.kernel, .user)) ∧
    ∃ t, step (mapped.placeHalf 0x1000 0x7F 0x5A) = .next t ∧ (mapped.mode, t.mode) = (.user, .kernel) :=
  ⟨(next_of (f := State.mode) (v := .kernel) (by decide +kernel)).imp fun _ h => h.1, next_of (f := fun t => (base.mode, t.mode)) (by decide +kernel),
    next_of (f := fun t => (mapped.mode, t.mode)) (by decide +kernel)⟩

/-- ADD in user mode, with no event and no privilege. -/
theorem witness_UserIsolation : (∃ t, step (mapped.placeHalf 0x1000 0x04 0x12) = .next t ∧ t.mode = .user) ∧
    mapped.mode = .user ∧ mapped.events = [] ∧ mbit mapped.trapsEff 31 = false ∧ mbit mapped.trapsOpen 31 = false ∧
    mapped.nextBoundary.between = [] :=
  ⟨next_of (f := State.mode) (by decide +kernel), by decide +kernel⟩

theorem witness_InstructionFrame : (∃ t, exec (.lus 0 15) base = .next t) ∧ (∃ t, exec (.movesr 11 1) base = .next t) ∧
    (Instr.movesr 11 1).opcode ≠ .lus ∧ ∀ y, Instr.movesr 11 1 ≠ .movesr 10 y :=
  ⟨⟨_, rfl⟩, ⟨_, rfl⟩, by decide, by decide⟩

theorem witness_InstructionMemoryFrame : (∃ t, exec (.add 1 2) base = .next t) ∧ Opcode.add.reference = none ∧
    Opcode.add ∉ [Opcode.sus, .trans, .dirt] ∧ (∃ t, exec (.laddr 1 0 0x8000) base = .next t) ∧
    (∃ t, exec (.loadd 15 0 0x3000) base = .next t) ∧ base.mode = .kernel ∧ base.between = [] :=
  ⟨⟨_, rfl⟩, rfl, by decide, ⟨_, rfl⟩, ⟨_, rfl⟩, rfl, rfl⟩

end Sys2Proof.Tests
end

