-- ==== Sys2Proof/Proofs/InstructionEnds.lean ====
section
/-! SUPPORT. All that an instruction can do, said once: what its work before its end keeps, and the ways in which it
ends. The invariant of the machine and the changes of mode are read off from `exec_ends`. -/

namespace Sys2Proof.Machine

/-! ### What the work of an instruction keeps -/

/-- A list of one DMA event is that event. -/
theorem State.dmaAll_one {s t : State} {d : DmaEvent} (h : s.dma d = .ok t) : s.dmaAll [d] = .ok t := by
  rw [State.dmaAll, h]
  rfl

/-- A property of states that the work of an instruction before its end keeps: it changes general registers, memory,
the cache, the TMT, the boards and the other devices, but neither the pc, the mode, the pause nor a special register. -/
structure Kept (P : State → Prop) : Prop where
  regs : ∀ u r, P u → P { u with regs := r }
  line : ∀ u v a, P u → P (u.loadLine v a)
  search : ∀ u seg a, P u → P (u.searched seg a)
  store : ∀ u a bs, a + bs.length ≤ u.cfg.memSize.toNat → P u → P (u.storeBytes a bs)
  tmtEntry : ∀ u i e, i < 1024 → P u → P (u.setTmt i e)
  dma : ∀ u v ds, u.dmaAll ds = .ok v → P u → P v
  flushCache : ∀ u, P u → P u.flushCache
  flushTmt : ∀ u, P u → P u.flushTmt
  boards : ∀ u p f, (∀ b : Board, (f b).chain2 = b.chain2) → P u →
    P { u with boards := updateFirst p f u.boards }
  devices : ∀ u m1 m2 c b, P u → P { u with mask1 := m1, mask2 := m2, clockOut := c, busLog := b }
  log : ∀ u d n, n ≤ 16 → P u → P { u with logData := d, logCount := n }

/-- `P` is kept before an instruction takes an event, and the weaker `Q` also by the changes of special registers and of
the traps word with which an instruction ends that takes no event. -/
structure KeptToEnd (P Q : State → Prop) : Prop where
  work : Kept P
  weaken : ∀ u, P u → Q u
  sregs : ∀ u r e o, Q u → Q { u with sr := r, trapsEff := e, trapsOpen := o }
  endCache : ∀ u, Q u → Q u.flushCache
  endTmt : ∀ u, Q u → Q u.flushTmt

/-- The ways in which an instruction ends in `t`: it takes an event from a state of `P`, or from a state of `Q` it goes
on to the next instruction, transfers control or makes no further progress. -/
inductive Ends (P Q : State → Prop) (t : State) : Prop
  | event (e : Event) (u : State) (h : P u) (ht : raise e u = .next t)
  | after (il : Nat) (u : State) (h : Q u) (hil : il % 2 = 0) (ht : t = u.after il)
  | goto (a : Word) (u : State) (h : Q u) (ha : mbit a 31 = false) (ht : t = u.goto a)
  | halt (k : Stuck) (u : State) (h : Q u) (ht : t = u.halt k)

namespace Kept

variable {P : State → Prop}

theorem setReg (hP : Kept P) {u : State} (h : P u) (n : RegNo) (v : Word) : P (u.setReg n v) := hP.regs _ _ h

theorem setPair (hP : Kept P) {u : State} (h : P u) (n : RegNo) (v : DWord) : P (u.setPair n v) :=
  hP.setReg (hP.setReg h n _) (n + 1) _

theorem storeWord (hP : Kept P) {u : State} {a : Word} (hm : u.inMem a 4 = true) (v : Word) (h : P u) :
    P (u.storeBytes a.toNat (bytesOfWord v)) :=
  hP.store _ _ _ (by rw [bytesOfWord_length]; exact State.inMem_iff.1 hm) h

theorem markEntry (hP : Kept P) {u : State} {p : Word} (hm : u.inMem (p + 8) 4 = true) (w bits : Word) (h : P u) :
    P (u.markEntry p w bits) := hP.storeWord hm (w ||| bits) h

theorem mark (hP : Kept P) (u : State) (p w : Word) (i : Nat) (e bits : Word) (hi : i < 1024)
    (hm : u.inMem (p + 8) 4 = true) (h : P u) : P ((u.markEntry p w bits).setTmt i e) :=
  hP.tmtEntry _ _ _ hi (hP.markEntry hm w bits h)

theorem locate (hP : Kept P) {s t : State} {sp : Space} {a : Word} {acc : Access} {n : Nat} (h0 : P s)
    (h : (s.locate sp a acc n).state? = some t) : P t := State.locate_induct h h0 hP.search hP.mark

theorem logBus (hP : Kept P) {u : State} (h : P u) (o : BusOp) : P (u.logBus o) := hP.devices u _ _ _ _ h

theorem ackIoi (hP : Kept P) {u : State} (h : P u) (b : Board) : P (u.ackIoi b) :=
  hP.logBus (hP.boards u (fun c => c == b) Board.dropRequest (fun _ => rfl) h) _

theorem writeMasks (hP : Kept P) {u : State} (h : P u) (v : Word) : P (u.writeMasks v) := by
  unfold State.writeMasks
  split
  · exact hP.devices _ _ _ _ _ h
  · exact h

theorem writeLog (hP : Kept P) {u : State} (h : P u) (v : Word) : P (u.writeLog v) := by
  refine hP.log _ _ _ ?_ h
  have : u.freeCount < 17 := Nat.mod_lt _ (by decide)
  split <;> omega

theorem clockTransfer (hP : Kept P) {u : State} (h : P u) (x : RegNo) : P (u.clockTransfer x) :=
  hP.devices _ _ _ _ _ (hP.setReg h (x + 1) u.clockWord)

theorem testInterrupt (hP : Kept P) {u : State} (h : P u) (x : RegNo) : P (u.testInterrupt x) := by
  unfold State.testInterrupt
  split
  · exact hP.setReg (hP.setReg (hP.ackIoi h _) _ _) _ _
  · exact hP.setReg h _ _

theorem ioCycle (hP : Kept P) {u v : State} {dev : Byte} {r : Option Answer} (h : P u)
    (hc : u.ioCycle dev = (r, v)) : P v := by
  unfold State.ioCycle at hc
  split at hc
  · cases hc
    exact h
  · cases hc
    exact hP.boards u (fun c => c.device == dev) Board.answered (fun _ => rfl) h

theorem ioRead (hP : Kept P) {u : State} (h : P u) (x : RegNo) (a : Word) : P (u.ioRead x a) := by
  unfold State.ioRead
  split
  all_goals
    rename_i hc
    exact hP.setReg (hP.setReg (hP.logBus (hP.ioCycle h hc) _) _ _) _ _

theorem ioWrite (hP : Kept P) {u : State} (h : P u) (x : RegNo) (a d : Word) : P (u.ioWrite x a d) := by
  unfold State.ioWrite
  split
  all_goals
    rename_i hc
    exact hP.setReg (hP.logBus (hP.ioCycle h hc) _) _ _

end Kept

/-! ### Shared operations -/

namespace KeptToEnd

variable {P Q : State → Prop} {s t : State}

theorem advance (hK : KeptToEnd P Q) {il : Nat} (hil : il % 2 = 0) (h0 : P s) (h : advance il s = .next t) :
    Ends P Q t := .after il s (hK.weaken _ h0) hil (advance_next.1 h).2

theorem jump (hK : KeptToEnd P Q) {a : Word} (h0 : P s) (h : jump a s = .next t) : Ends P Q t :=
  .goto a s (hK.weaken _ h0) (jump_next.1 h).1 (jump_next.1 h).2

theorem setAndGo (hK : KeptToEnd P Q) {x : RegNo} {v : Word} (h0 : P s) (h : setAndGo x v s = .next t) : Ends P Q t :=
  hK.advance rfl (hK.work.setReg h0 x v) h

theorem setPairAndGo (hK : KeptToEnd P Q) {x : RegNo} {v : DWord} (h0 : P s) (h : setPairAndGo x v s = .next t) :
    Ends P Q t := hK.advance rfl (hK.work.setPair h0 x v) h

theorem deliver (hK : KeptToEnd P Q) {α : Type} {o : Opcode} {x y : RegNo} {put : State → α → State} {d : Delivery α}
    (h0 : P s) (hput : ∀ v, P (put s v)) (h : deliver o x y put d s = .next t) : Ends P Q t := by
  rcases deliver_next.1 h with ⟨c, _, h⟩ | ⟨_, h⟩ | ⟨v, _, h⟩ | ⟨v, c, _, h⟩
  · exact .event _ _ h0 h
  · exact hK.advance rfl h0 h
  · exact hK.advance rfl (hput v) h
  · exact .event _ _ (hput v) h

theorem deliverReg (hK : KeptToEnd P Q) {o : Opcode} {x y : RegNo} {d : Delivery Word}
    (h0 : P s) (h : Machine.deliver o x y (State.put x) d s = .next t) : Ends P Q t :=
  hK.deliver h0 (fun v => hK.work.setReg h0 x v) h

theorem deliverPair (hK : KeptToEnd P Q) {o : Opcode} {x y : RegNo} {d : Delivery DWord}
    (h0 : P s) (h : Machine.deliver o x y (State.putPair x) d s = .next t) : Ends P Q t :=
  hK.deliver h0 (fun v => hK.work.setPair h0 x v) h

theorem deliverSingle (hK : KeptToEnd P Q) {o : Opcode} {x y : RegNo} {d : Delivery RealFields}
    (h0 : P s) (h : Machine.deliver o x y (State.putSingle x) d s = .next t) : Ends P Q t :=
  hK.deliver h0 (fun _ => hK.work.setReg h0 x _) h

theorem deliverDouble (hK : KeptToEnd P Q) {o : Opcode} {x y : RegNo} {d : Delivery RealFields}
    (h0 : P s) (h : Machine.deliver o x y (State.putDouble x) d s = .next t) : Ends P Q t :=
  hK.deliver h0 (fun _ => hK.work.setPair h0 x _) h

theorem extendedSum (hK : KeptToEnd P Q) {x : RegNo} {a b : Word} (h0 : P s) (h : extendedSum x a b s = .next t) :
    Ends P Q t := by
  unfold Machine.extendedSum at h
  split at h
  · cases h
  · exact hK.advance rfl (hK.work.setReg (hK.work.setReg h0 _ _) _ _) h

theorem branchIf (hK : KeptToEnd P Q) {c : Bool} {a : Word} {il : Nat} (hil : il % 2 = 0) (h0 : P s)
    (h : branchIf c a il s = .next t) : Ends P Q t := by
  unfold Machine.branchIf at h
  split at h
  · exact hK.jump h0 h
  · exact hK.advance hil h0 h

theorem loopBy (hK : KeptToEnd P Q) {x y : RegNo} {d : Word} {il : Nat} (hil : il % 2 = 0) (h0 : P s)
    (h : loopBy x y d il s = .next t) : Ends P Q t := hK.branchIf hil (hK.work.setReg h0 x _) h

theorem callTo (hK : KeptToEnd P Q) {x : RegNo} {a : Word} {il : Nat} (h0 : P s) (h : callTo x a il s = .next t) :
    Ends P Q t := hK.jump (hK.work.setReg h0 x _) h

theorem checkRange (hK : KeptToEnd P Q) {o : Opcode} {x y : RegNo} {bad : Bool} (h0 : P s)
    (h : checkRange o x y bad s = .next t) : Ends P Q t := by
  rcases checkRange_next.1 h with ⟨_, h⟩ | ⟨_, _, h⟩
  · exact .event _ _ h0 h
  · exact .after 2 s (hK.weaken _ h0) rfl h

theorem trapInstruction (hK : KeptToEnd P Q) {x y : RegNo} (h0 : P s) (h : trapInstruction x y s = .next t) :
    Ends P Q t := by
  unfold Machine.trapInstruction at h
  split at h
  · exact .event _ _ h0 h
  · split at h
    · exact .after 2 (s.setSreg 3 (imm4 y)) (hK.sregs s _ _ _ (hK.weaken _ h0)) rfl (advance_next.1 h).2
    · exact hK.advance rfl h0 h

/-! ### Loads and stores -/

theorem reference (hK : KeptToEnd P Q) {w : Width} {sp : Space} {acc : Access} {ea : Word}
    {k : Word → State → Outcome} (h0 : P s)
    (hk : ∀ r u, P u → u.inMem r w.bytes = true → k r u = .next t → Ends P Q t)
    (h : reference w sp acc ea s k = .next t) : Ends P Q t := by
  rcases reference_next.1 h with ⟨_, h⟩ | ⟨_, e, u, hl, h⟩ | ⟨_, c, u, hl, h⟩ | ⟨_, r, u, hl, h⟩
  · exact .event _ _ h0 h
  · exact .event _ _ (hK.work.locate h0 (by rw [hl]; rfl)) h
  · exact .halt c u (hK.weaken _ (hK.work.locate h0 (by rw [hl]; rfl))) h
  · exact hk r u (hK.work.locate h0 (by rw [hl]; rfl)) (State.locate_inMem hl) h

theorem loadInto (hK : KeptToEnd P Q) {w : Width} {sp : Space} {x : RegNo} {ea : Word} {il : Nat} (hil : il % 2 = 0)
    (h0 : P s) (h : loadInto w sp x ea il s = .next t) : Ends P Q t :=
  hK.reference h0 (fun _ _ hu _ h => hK.advance hil (hK.work.setReg (hK.work.line _ _ _ hu) _ _) h) h

theorem loadPair (hK : KeptToEnd P Q) {sp : Space} {x : RegNo} {ea : Word} {il : Nat} (hil : il % 2 = 0)
    (h0 : P s) (h : loadPair sp x ea il s = .next t) : Ends P Q t := by
  refine hK.reference h0 (fun r u hu _ h => ?_) h
  split at h
  · cases h
  · rename_i v s2 hr
    obtain ⟨m, hd, _, rfl⟩ := State.readTwo_ok.1 hr
    have hm : P m := hK.work.dma _ _ _ hd (hK.work.line _ _ _ hu)
    exact hK.advance hil (hK.work.setPair (hK.work.line _ _ _ hm) x v) h

/-- A store of a register takes no more bytes than its width. -/
theorem operandBytes_length_le (w : Width) (v : Word) : (w.operandBytes v).length ≤ w.bytes := by
  cases w <;> simp [Width.operandBytes, Width.bytes]

theorem storeFrom (hK : KeptToEnd P Q) {w : Width} {x : RegNo} {ea : Word} {il : Nat} (hil : il % 2 = 0)
    (h0 : P s) (h : storeFrom w x ea il s = .next t) : Ends P Q t := by
  refine hK.reference h0 (fun r u hu hm h => hK.advance hil (hK.work.store _ _ _ ?_ hu) h) h
  have := operandBytes_length_le w (u.reg x)
  have := State.inMem_iff.1 hm
  omega

theorem storePair (hK : KeptToEnd P Q) {x : RegNo} {ea : Word} {il : Nat} (hil : il % 2 = 0)
    (h0 : P s) (h : storePair x ea il s = .next t) : Ends P Q t := by
  refine hK.reference h0 (fun r u hu hm h => ?_) h
  split at h
  · cases h
  · rename_i s2 hr
    obtain ⟨m, hd, rfl⟩ := State.storeTwo_ok.1 hr
    have hb : r.toNat + 8 ≤ u.cfg.memSize.toNat := State.inMem_iff.1 hm
    have hc : m.cfg = u.cfg := by
      rw [State.dmaAll_frame hd]
      exact State.storeBytes_cfg u _ _
    have hm : P m := hK.work.dma _ _ _ hd (hK.work.store _ _ _ (by rw [bytesOfWord_length]; omega) hu)
    exact hK.advance hil (hK.work.store _ _ _ (by rw [bytesOfWord_length, hc]; omega) hm) h

/-! ### Kernel instructions -/

theorem kernelOnly {o : Opcode} {x y : RegNo} {k : State → Outcome} (h0 : P s)
    (h : kernelOnly o x y s k = .next t) (hk : k s = .next t → Ends P Q t) : Ends P Q t := by
  rcases kernelOnly_next.1 h with ⟨_, h⟩ | ⟨_, h⟩
  · exact hk h
  · exact .event _ _ h0 h

theorem privileged (hK : KeptToEnd P Q) {o : Opcode} {x y : RegNo} {f : State → State} (h0 : P s)
    (h : privileged o x y s (fun s => Machine.advance 2 (f s)) = .next t) (hf : P (f s)) : Ends P Q t := by
  rcases privileged_next.1 h with ⟨_, h⟩ | ⟨_, _, h⟩
  · exact hK.advance rfl hf h
  · exact .event _ _ h0 h

end KeptToEnd

theorem execKcall_ends {P Q : State → Prop} {s t : State} {n : Byte} (h0 : P s) (h : execKcall n s = .next t) :
    Ends P Q t := by
  unfold execKcall at h
  split at h
  all_goals exact .event _ _ h0 h

/-- All that LUS can answer with a state: four words and the registers, loaded one after another through the data
lines. -/
theorem State.loadUser_ok {s t : State} {is : List RegNo} (h : s.loadUser is = .ok t) :
    ∃ (p w m : Word) (s4 : State),
      (((s.loadLine .data (s.sreg 14 + s.cfg.pcb.pc).toNat).loadLine .data (s.sreg 14 + s.cfg.pcb.seg).toNat).loadLine
        .data (s.sreg 14 + s.cfg.pcb.traps).toNat).loadRegs is = .ok s4 ∧
      t = (((s4.setSreg 15 p).setSegments w).loadTraps m).flushCache.flushTmt := by
  unfold State.loadUser at h
  split at h
  · cases h
  · rename_i p s1 h1
    obtain ⟨_, rfl⟩ := State.structLoad_ok h1
    split at h
    · cases h
    · rename_i w s2 h2
      obtain ⟨_, rfl⟩ := State.structLoad_ok h2
      split at h
      · cases h
      · rename_i m s3 h3
        obtain ⟨_, rfl⟩ := State.structLoad_ok h3
        split at h
        · cases h
        · rename_i s4 h4
          cases h
          exact ⟨p, w, m, s4, h4, rfl⟩

namespace KeptToEnd

variable {P Q : State → Prop} {s t : State}

theorem setSreg (hK : KeptToEnd P Q) {u : State} (h : Q u) (n : RegNo) (v : Word) : Q (u.setSreg n v) :=
  hK.sregs u _ _ _ h

theorem setSegments (hK : KeptToEnd P Q) {u : State} (h : Q u) (w : Word) : Q (u.setSegments w) := by
  unfold State.setSegments
  split
  all_goals exact hK.setSreg (hK.setSreg h _ _) _ _

theorem moveToSreg (hK : KeptToEnd P Q) {u : State} (h : Q u) (n : RegNo) (v : Word) : Q (u.moveToSreg n v) := by
  unfold State.moveToSreg
  split
  · exact hK.sregs u _ _ _ h
  · exact hK.setSreg h n v

theorem saveUser (hK : KeptToEnd P Q) {x y : RegNo} (h0 : P s) (h : execSus x y s = .next t) : Ends P Q t := by
  refine kernelOnly h0 h fun h => ?_
  split at h
  · exact hK.advance rfl h0 h
  · obtain ⟨u, hu, _, rfl⟩ := finishFault_next.1 h
    exact .after 2 u (hK.weaken _ (State.saveUser_induct hu h0 fun _ _ v hm hu => hK.work.storeWord hm v hu)) rfl rfl

theorem loadRegs (hK : KeptToEnd P Q) {is : List RegNo} (h0 : P s) (h : s.loadRegs is = .ok t) : P t :=
  State.loadRegs_induct h h0 fun _ i _ v hu => hK.work.setReg (hK.work.line _ _ _ hu) i v

theorem loadUser (hK : KeptToEnd P Q) {x y : RegNo} (h0 : P s) (h : execLus x y s = .next t) : Ends P Q t := by
  refine kernelOnly h0 h fun h => ?_
  split at h
  · exact hK.advance rfl h0 h
  · obtain ⟨u, hu, _, rfl⟩ := finishFault_next.1 h
    obtain ⟨p, w, m, s4, h4, rfl⟩ := State.loadUser_ok hu
    have hw := hK.weaken _ (hK.loadRegs (hK.work.line _ _ _ (hK.work.line _ _ _ (hK.work.line _ _ _ h0))) h4)
    have hs := hK.setSegments (hK.setSreg hw 15 p) w
    exact .after 2 _ (hK.endTmt _ (hK.endCache _ (hK.sregs _ _ _ _ hs))) rfl rfl

theorem loadUserRegs (hK : KeptToEnd P Q) {x y : RegNo} (h0 : P s) (h : execLdregs x y s = .next t) :
    Ends P Q t := by
  refine kernelOnly h0 h fun h => ?_
  split at h
  · exact hK.advance rfl h0 h
  · obtain ⟨u, hu, _, rfl⟩ := finishFault_next.1 h
    exact .after 2 u (hK.weaken _ (hK.loadRegs h0 hu)) rfl rfl

theorem translateInto (hK : KeptToEnd P Q) {x y : RegNo} {bits : Word} (h0 : P s)
    (h : translateInto x y bits s = .next t) : Ends P Q t := by
  have hs := hK.work.search s ((s.reg y).extractLsb' 0 16) (s.reg (y + 1)) h0
  rcases translateInto_next.1 h with ⟨_, h⟩ | ⟨_, h⟩ | ⟨p, w, hf, h⟩
  · exact hK.advance rfl (hK.work.setReg hs x _) h
  · exact .halt _ _ (hK.weaken _ hs) h
  · exact hK.advance rfl (hK.work.setReg (hK.work.markEntry (State.vrtSearch_found_inMem hf) w bits hs) x _) h

end KeptToEnd

/-! ### Every instruction -/

/-- ALL THAT AN INSTRUCTION CAN DO but RUM: its work keeps `P`; then it takes an event, or in a state of `Q` goes on,
transfers control or makes no further progress. -/
theorem exec_ends {P Q : State → Prop} (hK : KeptToEnd P Q) {i : Instr} {s t : State} (hi : ∀ x y, i ≠ .rum x y)
    (h0 : P s) (h : exec i s = .next t) : Ends P Q t := by
  have hW := hK.work
  cases i with
  | moverr | not | and | or | xor | rneg | tbit | lcomp | dcomp | csl | lsl | lsr | asr | seb | seh | testGt | testEq
  | testLt | testLe | testGe | testNe | moveri | noti | andi | csli | lsli | lsri | asri | testiGt | testiEq | testiLt
  | testiLe | testiGe | testiNe => exact hK.setAndGo h0 h
  | empy | drneg | cbit | sbit | dlsl | dlsr | dlsli | dlsri => exact hK.setPairAndGo h0 h
  | neg | add | sub | mpy | div | rem | addi | subi | mpyi | fixt | fixr | dfixt | dfixr | rcomp | drcomp | asl | asli =>
    exact hK.deliverReg h0 h
  | ediv => exact hK.deliverPair h0 h
  | float | makedr | radd | rsub | rmpy | rdiv => exact hK.deliverSingle h0 h
  | makerd | dfloat | dradd | drsub | drmpy | drdiv => exact hK.deliverDouble h0 h
  | nop => exact hK.advance rfl h0 h
  | eadd | esub => exact hK.extendedSum h0 h
  | br | brl => exact hK.jump h0 h
  | brGt | brGtL | brEq | brEqL | brLe | brLeL | brNe | brNeL | briGt | briGtL | briLt | briLtL | briEq | briEqL | briLe
  | briLeL | briGe | briGeL | briNe | briNeL => exact hK.branchIf rfl h0 h
  | loop | loopl => exact hK.loopBy rfl h0 h
  | callr | ret | call | calll => exact hK.callTo h0 h
  | chk | chki => exact hK.checkRange h0 h
  | trap => exact hK.trapInstruction h0 h
  | kcall => exact execKcall_ends h0 h
  | load | loadl | loadx | loadlx | loadp | loadpl | loadpx | loadplx | loadh | loadhl | loadhx | loadhlx | loadhp
  | loadhpl | loadhpx | loadhplx | loadb | loadbl | loadbx | loadblx | loadbp | loadbpl | loadbpx | loadbplx =>
    exact hK.loadInto rfl h0 h
  | loadd | loaddl | loaddx | loaddlx | loaddp | loaddpl | loaddpx | loaddplx => exact hK.loadPair rfl h0 h
  | store | storel | storex | storelx | storeh | storehl | storehx | storehlx | storeb | storebl | storebx | storeblx =>
    exact hK.storeFrom rfl h0 h
  | stored | storedl | storedx | storedlx => exact hK.storePair rfl h0 h
  | laddr | laddrx | laddrl | laddrlx | laddrp | laddrpx | laddrpl | laddrplx =>
    exact hK.advance rfl (hW.setReg h0 _ _) h
  | sus => exact hK.saveUser h0 h
  | lus => exact hK.loadUser h0 h
  | ldregs => exact hK.loadUserRegs h0 h
  | rum x y => exact absurd rfl (hi x y)
  | movesr x y =>
    refine KeptToEnd.kernelOnly h0 (show execMovesr x y s = _ from h) fun h => ?_
    exact .after 2 _ (hK.moveToSreg (hK.weaken _ h0) x (s.reg y)) rfl (advance_next.1 h).2
  | movers x y =>
    exact KeptToEnd.kernelOnly h0 (show execMovers x y s = _ from h) fun h => hK.advance rfl (hW.setReg h0 _ _) h
  | maint => exact .event _ _ h0 h
  | trans | dirt => exact KeptToEnd.kernelOnly h0 h fun h => hK.translateInto h0 h
  | trapexit => exact KeptToEnd.kernelOnly h0 h fun h => hK.jump (hW.flushTmt _ (hW.flushCache _ h0)) h
  | read x y => exact hK.privileged h0 (show execRead x y s = _ from h) (hW.ioRead h0 _ _)
  | write x y => exact hK.privileged h0 (show execWrite x y s = _ from h) (hW.ioWrite h0 _ _ _)
  | elogr x => exact hK.privileged h0 (show execElogr x s = _ from h) (hW.setReg h0 _ _)
  | machineid x => exact hK.privileged h0 (show execMachineid x s = _ from h) (hW.setReg h0 _ _)
  | version x => exact hK.privileged h0 (show execVersion x s = _ from h) (hW.setReg h0 _ _)
  | rdlog x => exact hK.privileged h0 (show execRdlog x s = _ from h) (hW.setReg h0 _ _)
  | elogw x => exact hK.privileged h0 (show execElogw x s = _ from h) (hW.writeLog h0 _)
  | twrited x => exact hK.privileged h0 (show execTwrited x s = _ from h) (hW.writeMasks h0 _)
  | flush x => exact hK.privileged h0 (show execFlush x s = _ from h) (hW.flushCache _ h0)
  | itest x => exact hK.privileged h0 (show execItest x s = _ from h) (hW.testInterrupt h0 _)
  | creg x => exact hK.privileged h0 (show execCreg x s = _ from h) (hW.clockTransfer h0 _)

end Sys2Proof.Machine
end

