-- ==== Sys2Proof/Proofs/Invariant.lean ====
section
/-! SUPPORT. The invariant of the machine: it holds after reset, and the work and the end of an instruction, the events
of the environment, the reset button, the taking of an event and instruction fetch keep it. -/

namespace Sys2Proof.Machine

/-- Settles O55: after reset memory, the TMT, the cache and the prefetch buffers are empty. -/
theorem invHoldsAtReset : Obligations.InvHoldsAtReset :=
  { memWf := reset_memWf
    memInstalled := fun _ h => nomatch h
    tmtWf := sparseWf_nil
    tmtKeys := fun _ h => nomatch h
    tmtNonzero := fun _ h => nomatch h
    codeOk := linesOk_nil
    dataOk := linesOk_nil
    prefetchWf := sparseWf_nil
    prefetchFour := Nat.zero_le _
    pcEven := by decide
    pausedIdle := fun h => nomatch h
    logBound := Nat.zero_le _
    chainBound := fun _ => Nat.zero_le _
    transferFour := Nat.zero_le _
    transferAligned := fun _ h => nomatch h }

/-! ### Instructions -/

/-- The form of the TMT: canonical, its 1024 entries only, none of them zero. -/
def TmtOk (t : List (Nat × Word)) : Prop := SparseWf t ∧ KeysBelow 1024 t ∧ ∀ p ∈ t, p.2 ≠ 0

theorem tmtOk_nil : TmtOk [] := ⟨sparseWf_nil, fun _ h => (nomatch h), fun _ h => nomatch h⟩

/-- Writing a TMT entry keeps the form of the TMT. -/
theorem TmtOk.set {t : List (Nat × Word)} (h : TmtOk t) {i : Nat} (hi : i < 1024) (e : Word) :
    TmtOk (tmtSet t i e) := by
  obtain ⟨hw, hk, hz⟩ := h
  unfold tmtSet
  split
  · exact ⟨sparseWf_erase hw i, fun p hp => hk p (mem_sparseErase hp), fun p hp => hz p (mem_sparseErase hp)⟩
  · rename_i he
    refine ⟨sparseWf_set hw i e, fun p hp => ?_, fun p hp => ?_⟩
    all_goals rcases mem_sparseSet hp with rfl | hp
    · exact hi
    · exact hk p hp
    · exact he
    · exact hz p hp

theorem State.Inv.tmtOk {s : State} (h : s.Inv) : TmtOk s.tmt := ⟨h.tmtWf, h.tmtKeys, h.tmtNonzero⟩

/-- A TMT in its form put into a state keeps the invariant. -/
theorem State.Inv.withTmt {s : State} (h : s.Inv) {m : List (Nat × Word)} (hm : TmtOk m) : { s with tmt := m }.Inv :=
  { h with tmtWf := hm.1, tmtKeys := hm.2.1, tmtNonzero := hm.2.2 }

theorem State.Inv.setTmt {s : State} (h : s.Inv) {i : Nat} (hi : i < 1024) (e : Word) : (s.setTmt i e).Inv :=
  h.withTmt (h.tmtOk.set hi e)

/-- The invariant of a processor that is not paused, which an instruction finds. -/
def State.Running (s : State) : Prop := s.Inv ∧ s.paused = false

/-- Special registers may change while the processor is not paused. -/
theorem State.Running.sregs {s : State} (h : s.Running) (r : Vector Word 16) (e o : Word) :
    { s with sr := r, trapsEff := e, trapsOpen := o }.Running :=
  ⟨{ h.1 with pausedIdle := fun hp => absurd hp (by rw [show _ = false from h.2]; decide) }, h.2⟩

theorem State.Running.flushCache {s : State} (h : s.Running) : s.flushCache.Running :=
  ⟨{ h.1 with codeOk := linesOk_nil, dataOk := linesOk_nil }, h.2⟩

theorem State.Running.flushTmt {s : State} (h : s.Running) : s.flushTmt.Running := ⟨h.1.withTmt tmtOk_nil, h.2⟩

theorem running_kept : Kept State.Running where
  regs := fun _ _ h => ⟨{ h.1 with }, h.2⟩
  line := fun _ v a h => ⟨h.1.loadLine v a, h.2⟩
  search := fun _ seg a h => ⟨h.1.searched seg a, h.2⟩
  store := fun u a bs hm h => ⟨h.1.storeBytes hm, by rw [State.storeBytes_paused]; exact h.2⟩
  tmtEntry := fun _ _ e hi h => ⟨h.1.setTmt hi e, h.2⟩
  dma := fun _ _ _ hd h => ⟨h.1.dmaAll hd, by rw [State.dmaAll_frame hd]; exact h.2⟩
  flushCache := fun _ h => h.flushCache
  flushTmt := fun _ h => h.flushTmt
  boards := fun _ p _ hf h => ⟨h.1.boards p hf, h.2⟩
  devices := fun _ _ _ _ _ h => ⟨{ h.1 with }, h.2⟩
  log := fun _ _ _ hn h => ⟨{ h.1 with logBound := hn }, h.2⟩

theorem running_keptToEnd : KeptToEnd State.Running State.Running where
  work := running_kept
  weaken := fun _ h => h
  sregs := fun _ r e o h => h.sregs r e o
  endCache := fun _ h => h.flushCache
  endTmt := fun _ h => h.flushTmt

/-- An even number of bytes on from an even pc the pc is even. -/
theorem even_add {a : Word} (h : mbit a 31 = false) {n : Nat} (hn : n % 2 = 0) :
    mbit (a + BitVec.ofNat 32 n) 31 = false := by
  have hodd : ∀ b : Word, mbit b 31 = decide (b.toNat % 2 = 1) := fun b => by
    simp [mbit, BitVec.getMsbD, BitVec.getLsbD, Nat.testBit_zero]
  rw [hodd] at h ⊢
  simp only [BitVec.toNat_add, BitVec.toNat_ofNat, decide_eq_false_iff_not] at h ⊢
  omega

theorem State.Inv.goto {s : State} (h : s.Inv) {a : Word} (ha : mbit a 31 = false) : (s.goto a).Inv :=
  { h with prefetchWf := sparseWf_nil, prefetchFour := Nat.zero_le _, pcEven := ha }

theorem State.Inv.after {s : State} (h : s.Inv) {il : Nat} (hil : il % 2 = 0) : (s.after il).Inv :=
  { h with pcEven := even_add h.pcEven hil }

theorem State.Inv.haltNoCcb {s : State} (h : s.Inv) : s.haltNoCcb.Inv :=
  { h with pausedIdle := fun hp => nomatch hp }

/-- All of the state but the special registers, the pc, the mode, the pause, the data lines and the prefetch buffers is
as it was when a kernel function begins. -/
theorem State.enterAt_frame (s : State) (e : Event) (ret v : Word) :
    s.enterAt e ret v = { s.loadLine .data (s.sreg 11 + e.offset).toNat with
      sr := (s.enterAt e ret v).sr, mode := .kernel, paused := false, pc := v, prefetch := [] } := by
  have hs : ∀ u : State, u.savePc e ret = { u with sr := (u.savePc e ret).sr } := by
    intro u
    cases e with
    | kernelCall _ => rfl
    | _ =>
      unfold State.savePc
      dsimp only
      split <;> rfl
  have hr : ∀ u : State, u.recordEvent e = { u with sr := (u.recordEvent e).sr } := by
    intro u
    cases e with
    | pageFault k _ _ => cases k <;> rfl
    | _ => rfl
  rw [State.enterAt, hr, hs]

theorem State.Inv.enterAt {s : State} (h : s.Inv) {v : Word} (hv : mbit v 31 = false) (e : Event) (ret : Word) :
    (s.enterAt e ret v).Inv := by
  rw [State.enterAt_frame]
  exact { h.loadLine .data (s.sreg 11 + e.offset).toNat with
    prefetchWf := sparseWf_nil, prefetchFour := Nat.zero_le _, pcEven := hv, pausedIdle := fun hp => nomatch hp }

/-- Taking an event keeps the invariant, from any state that meets it. -/
theorem State.Inv.enter {s t : State} {e : Event} {ret : Word} (h : s.Inv) (ht : enter e ret s = .next t) : t.Inv := by
  rcases enter_next.1 ht with ⟨v, ⟨_, _, hv⟩, rfl⟩ | ⟨_, rfl⟩
  · exact h.enterAt hv e ret
  · exact h.haltNoCcb

/-- RUM leaves for user mode, or pauses in kernel mode with SR14 = 1. -/
theorem execRum_keeps_inv {s t : State} {x y : RegNo} (h0 : s.Running) (h : execRum x y s = .next t) : t.Inv := by
  rcases kernelOnly_next.1 h with ⟨hm, h⟩ | ⟨_, h⟩
  · unfold resumeUser at h
    split at h
    · rename_i h14
      cases h
      exact { h0.1 with pausedIdle := fun _ => ⟨hm, h14⟩ }
    · obtain ⟨ha, rfl⟩ := jump_next.1 h
      have hu : { s with mode := .user }.Inv :=
        { h0.1 with pausedIdle := fun hp => absurd hp (by rw [show _ = false from h0.2]; decide) }
      exact hu.goto ha
  · exact h0.1.enter h

/-- Every instruction keeps the invariant. -/
theorem exec_keeps_inv {i : Instr} {s t : State} (h0 : s.Running) (h : exec i s = .next t) : t.Inv := by
  by_cases hi : ∃ x y, i = .rum x y
  · obtain ⟨x, y, rfl⟩ := hi
    exact execRum_keeps_inv h0 h
  · cases exec_ends running_keptToEnd (fun x y hxy => hi ⟨x, y, hxy⟩) h0 h with
    | event e u hu ht => exact hu.1.enter ht
    | after il u hu hil ht => exact ht ▸ hu.1.after hil
    | goto a u hu ha ht => exact ht ▸ hu.1.goto ha
    | halt k u hu ht => exact ht ▸ { hu.1 with }

/-! ### The boundary -/

theorem State.Inv.tick {s t : State} (h : s.Inv) (ht : s.tick = .ok t) : t.Inv :=
  State.tick_induct ht h (fun _ a hu => hu.loadLine .data a) fun _ _ v hm hu => hu.storeWord hm v

/-- The free values of a double-bit error leave the pc even and SR14 as it was. -/
theorem State.Inv.spoilReg {s : State} (h : s.Inv) (r : LoadedReg) : (s.spoilReg r).Inv := by
  obtain ⟨_, hf, hsr, hpc⟩ := s.spoilReg_kept r
  have h14 : (s.spoilReg r).sreg 14 = s.sreg 14 := hsr 14 (by decide)
  have hp := hpc h.pcEven
  rw [hf] at h14 hp ⊢
  exact { h with
    pcEven := hp
    pausedIdle := fun hu => ⟨(h.pausedIdle hu).1, h14.trans (h.pausedIdle hu).2⟩ }

theorem State.Inv.spoilRegs {s : State} (h : s.Inv) (l : List LoadedReg) : (s.spoilRegs l).Inv :=
  State.spoilRegs_induct l h fun _ r hu => hu.spoilReg r

theorem State.Inv.onBoard {s : State} (h : s.Inv) (d : Byte) {f : Board → Board} (hf : ∀ b, (f b).chain2 = b.chain2) :
    (s.onBoard d f).Inv := h.boards (fun b => b.device == d) hf

/-- An event of the environment keeps the invariant. -/
theorem State.Inv.input {s t : State} {i : Input} (h : s.Inv) (ht : s.input i = .ok t) : t.Inv := by
  cases i with
  | tick => exact h.tick ht
  | dma e => exact h.dmaAll (State.dmaAll_one ht)
  | powerLost => cases ht
  | ioRequest d info => exact Except.ok.inj ht ▸ h.onBoard d fun _ => rfl
  | ioAnswer d a => exact Except.ok.inj ht ▸ h.onBoard d fun _ => rfl
  | parityExecute a l => exact Except.ok.inj ht ▸ { h.spoilRegs l with }
  | logWrite k e n => exact Except.ok.inj ht ▸ { h with logBound := Nat.min_le_right _ _ }
  | resetButton _ => exact Except.ok.inj ht ▸ h
  | switch0 | powerFail _ | parityFetch _ | clockIn _ => exact Except.ok.inj ht ▸ { h with }

theorem State.Inv.inputAll {s t : State} {is : List Input} (h : s.Inv) (ht : s.inputAll is = .ok t) : t.Inv :=
  State.inputAll_induct ht h fun _ _ _ _ hi hu => hu.input hi

theorem State.Inv.nextBoundary {s : State} (h : s.Inv) : s.nextBoundary.Inv := { h with }

/-! ### The reset button -/

/-- Bytes at ascending addresses from `a` on are in canonical form, at addresses from `a` on. -/
theorem bytesFrom_wf (a : Nat) (bs : List Byte) :
    SparseWf (bytesFrom a bs) ∧ ∀ p ∈ bytesFrom a bs, a ≤ p.1 ∧ p.1 < a + bs.length := by
  induction bs generalizing a with
  | nil => exact ⟨sparseWf_nil, fun _ h => nomatch h⟩
  | cons b bs ih =>
    obtain ⟨hw, hk⟩ := ih (a + 1)
    refine ⟨List.pairwise_cons.2 ⟨fun p hp => (hk p hp).1, hw⟩, fun p hp => ?_⟩
    rw [List.length_cons]
    rcases List.mem_cons.1 hp with rfl | hp
    · exact ⟨Nat.le_refl _, by omega⟩
    · have := hk p hp
      omega

/-- The boot page lies in installed memory. -/
theorem State.bootMemory_ok (s : State) (page : List Byte) :
    Memory.wf (s.bootMemory page) ∧ KeysBelow s.cfg.memSize.toNat (s.bootMemory page) := by
  obtain ⟨hw, hk⟩ := bytesFrom_wf 0x3E000 (page.take (min 4096 (s.cfg.memSize.toNat - 0x3E000)))
  refine ⟨hw, fun p hp => ?_⟩
  have := hk p hp
  rw [List.length_take] at this
  omega

/-- The free TMT of the reset button is in its form. -/
theorem freeTmt_ok (n : Nat) : TmtOk (freeTmt n) := by
  unfold freeTmt
  generalize Config.resetTmt n = l
  suffices h : ∀ t, TmtOk t → TmtOk (l.foldl (fun t p => tmtSet t (p.1 % 1024) p.2) t) from h [] tmtOk_nil
  induction l with
  | nil => exact fun _ ht => ht
  | cons p l ih => exact fun _ ht => ih _ (ht.set (Nat.mod_lt _ (by decide)) p.2)

/-- The free lines of the reset button are in the form of a half of the cache. -/
theorem freeLines_ok (n : Nat) (code : Bool) : Lines.Ok (freeLines n code) := by
  unfold freeLines
  generalize (Config.resetLines n code).filter _ = l
  suffices h : ∀ c, Lines.Ok c → Lines.Ok (l.foldl (fun c p => loadQuad c p.1
      (quadOfWords p.2.1 p.2.2.1 p.2.2.2.1 p.2.2.2.2) 0) c) from h [] linesOk_nil
  induction l with
  | nil => exact fun _ hc => hc
  | cons p l ih => exact fun _ hc => ih _ (hc.loadQuad _ _ _)

theorem State.Inv.pressReset {s : State} (h : s.Inv) (page : List Byte) : (s.pressReset page).Inv := by
  have hmem := s.bootMemory_ok page
  have htmt := freeTmt_ok s.draws
  have hcount : s.freeCount ≤ 16 := Nat.le_of_lt_succ (Nat.mod_lt _ (by decide))
  unfold State.pressReset
  generalize s.bootMemory page = m at hmem ⊢
  exact {
    memWf := hmem.1
    memInstalled := hmem.2
    tmtWf := htmt.1
    tmtKeys := htmt.2.1
    tmtNonzero := htmt.2.2
    codeOk := freeLines_ok s.draws true
    dataOk := freeLines_ok s.draws false
    prefetchWf := sparseWf_nil
    prefetchFour := Nat.zero_le _
    pcEven := show mbit (0x0003E000 : Word) 31 = false by decide
    pausedIdle := fun hp => nomatch hp
    logBound := hcount
    chainBound := h.chainBound
    transferFour := h.transferFour
    transferAligned := h.transferAligned }

/-! ### The choice of an interrupt -/

theorem State.Inv.timersRead {s : State} (h : s.Inv) : s.timersRead.Inv :=
  (h.loadLine .data (s.sreg 11 + 0x440).toNat).loadLine .data (s.sreg 11 + 0x444).toNat

theorem State.Inv.pending_none {s t : State} (h : s.Inv) (ht : s.pending = .none t) : t.Inv := by
  rcases State.pending_none ht with rfl | rfl
  · exact h
  · exact h.timersRead

theorem State.Inv.ackIoi {s : State} (h : s.Inv) (b : Board) : (s.ackIoi b).Inv :=
  { h.boards (fun c => c == b) (f := Board.dropRequest) fun _ => rfl with }

theorem State.Inv.pending_take {s t : State} {e : Event} (h : s.Inv) (ht : s.pending = .take e t) : t.Inv := by
  rcases State.pending_take ht with ⟨p, ps, _, _, rfl⟩ | ⟨_, _, rfl⟩ | ⟨_, _, rfl⟩ |
    ⟨_, ⟨b, _, _, rfl⟩ | ⟨_, _, rfl⟩ | ⟨_, _, rfl⟩⟩
  · exact { h with }
  · exact { h with }
  · exact { h with }
  · exact h.ackIoi b
  · exact h.loadLine .data _
  · exact h.timersRead

/-- A boundary that ends the step keeps the invariant. -/
theorem State.Inv.boundary_ends {s t : State} (h : s.Inv) (ht : s.boundary = .ends (.next t)) : t.Inv := by
  obtain ⟨u, hu, hc⟩ := State.boundary_ends ht
  have hi : u.Inv := h.nextBoundary.inputAll hu
  rcases hc with ⟨p, _, rfl⟩ | ⟨_, _, rfl⟩ | ⟨_, _, e, u1, hp, he⟩ | ⟨_, _, _, hp⟩
  · exact hi.pressReset p
  · exact hi
  · exact (hi.pending_take hp).enter he
  · exact hi.pending_none hp

/-- A boundary after which an instruction runs keeps the invariant, and the processor is not paused. -/
theorem State.Inv.boundary_run {s u : State} (h : s.Inv) (hu : s.boundary = .run u) : u.Running := by
  obtain ⟨u0, hu0, _, _, hp, hn⟩ := State.boundary_run hu
  exact ⟨(h.nextBoundary.inputAll hu0).pending_none hp, hn⟩

/-! ### The step -/

/-- Instruction fetch keeps the invariant. -/
theorem State.Running.fetchBytes {s t : State} (h : s.Running) (ht : (fetchBytes s).state? = some t) : t.Running := by
  refine fetchBytes_induct ht h running_kept.search running_kept.mark (fun _ a hu => running_kept.line _ _ a hu) ?_
  exact fun _ hu => ⟨hu.1.readAhead, hu.2⟩

/-- Settles O56: the boundary and instruction fetch keep the invariant, and so does every way in which an instruction
ends. -/
theorem stepKeepsInv : Obligations.StepKeepsInv := by
  intro s t hs ht
  rcases step_next ht with hb | ⟨u, hu, hc⟩
  · exact hs.boundary_ends hb
  · have hr := hs.boundary_run hu
    rcases hc with ⟨bs, s2, i, rest, hf, _, hx⟩ | ⟨bs, s2, e, hf, _, hx⟩ | ⟨e, s2, hf, hx⟩ | ⟨k, s2, hf, rfl⟩
    all_goals have h2 : s2.Running := hr.fetchBytes (by rw [hf]; rfl)
    · exact exec_keeps_inv h2 hx
    · exact h2.1.enter hx
    · exact h2.1.enter hx
    · exact { h2.1 with }

end Sys2Proof.Machine
end

