-- ==== Sys2Proof/Proofs/Modes.lean ====
section
/-! SUPPORT. The mode of the processor: which parts of a step keep it, and with it the pc and the special registers in
user mode, so that only RUM leaves kernel mode and only an event or the reset button leaves user mode. -/

namespace Sys2Proof.Machine

/-! ### States with the same mode, pause, pc and special registers -/

/-- The mode, the pause, the pc, the special registers and the parameters of `u` are those of `s`. -/
structure SameControl (s u : State) : Prop where
  mode : u.mode = s.mode
  paused : u.paused = s.paused
  pc : u.pc = s.pc
  sr : u.sr = s.sr
  cfg : u.cfg = s.cfg

namespace SameControl

variable {s t u : State}

theorem refl (s : State) : SameControl s s := ⟨rfl, rfl, rfl, rfl, rfl⟩

theorem trans (h : SameControl s t) (h2 : SameControl t u) : SameControl s u :=
  ⟨h2.mode.trans h.mode, h2.paused.trans h.paused, h2.pc.trans h.pc, h2.sr.trans h.sr, h2.cfg.trans h.cfg⟩

theorem sreg (h : SameControl s u) (n : RegNo) : u.sreg n = s.sreg n := by
  unfold State.sreg
  rw [h.sr]

theorem npc (h : SameControl s u) : u.npc = s.npc := by
  unfold State.npc
  rw [h.paused, h.pc]

theorem storeBytes (s : State) (a : Nat) (bs : List Byte) : SameControl s (s.storeBytes a bs) :=
  ⟨State.storeBytes_mode .., State.storeBytes_paused .., State.storeBytes_pc .., State.storeBytes_sr ..,
    State.storeBytes_cfg ..⟩

theorem dmaAll {ds : List DmaEvent} (h : s.dmaAll ds = .ok t) : SameControl s t := by
  rw [State.dmaAll_frame h]
  exact ⟨rfl, rfl, rfl, rfl, rfl⟩

/-- The work of an instruction changes neither mode nor pc nor special registers. -/
theorem kept (s : State) : Kept (SameControl s) where
  regs := fun _ _ h => h.trans ⟨rfl, rfl, rfl, rfl, rfl⟩
  line := fun _ _ _ h => h.trans ⟨rfl, rfl, rfl, rfl, rfl⟩
  search := fun _ _ _ h => h.trans ⟨rfl, rfl, rfl, rfl, rfl⟩
  store := fun u a bs _ h => h.trans (storeBytes u a bs)
  tmtEntry := fun _ _ _ _ h => h.trans ⟨rfl, rfl, rfl, rfl, rfl⟩
  dma := fun _ _ _ hd h => h.trans (dmaAll hd)
  flushCache := fun _ h => h.trans ⟨rfl, rfl, rfl, rfl, rfl⟩
  flushTmt := fun _ h => h.trans ⟨rfl, rfl, rfl, rfl, rfl⟩
  boards := fun _ _ _ _ h => h.trans ⟨rfl, rfl, rfl, rfl, rfl⟩
  devices := fun _ _ _ _ _ h => h.trans ⟨rfl, rfl, rfl, rfl, rfl⟩
  log := fun _ _ _ _ h => h.trans ⟨rfl, rfl, rfl, rfl, rfl⟩

theorem keptToEnd (s : State) : KeptToEnd (SameControl s) (fun u => u.mode = s.mode) where
  work := kept s
  weaken := fun _ h => h.mode
  sregs := fun _ _ _ _ h => h
  endCache := fun _ h => h
  endTmt := fun _ h => h

theorem fetchBytes (h : (fetchBytes s).state? = some t) : SameControl s t := by
  rw [fetchBytes_frame h]
  exact ⟨rfl, rfl, rfl, rfl, rfl⟩

theorem tick (h : s.tick = .ok t) : SameControl s t :=
  State.tick_induct h (refl s) (fun _ _ hu => hu.trans ⟨rfl, rfl, rfl, rfl, rfl⟩)
    fun u a v _ hu => hu.trans (storeBytes u a.toNat (bytesOfWord v))

/-- In user mode the events of the environment change neither mode nor pc nor special registers. -/
theorem input {i : Input} (hm : s.mode = .user) (h : s.input i = .ok t) : SameControl s t := by
  rcases State.input_cases h with ⟨_, h⟩ | ⟨d, _, h⟩ | ⟨rfl, _⟩ | ⟨l, h⟩ | h | ⟨_, _, _, rfl⟩
  · exact tick h
  · exact dmaAll (State.dmaAll_one h)
  · exact refl _
  · rw [h, State.spoilRegs_low l (.inl hm)]
    exact ⟨rfl, rfl, rfl, rfl, rfl⟩
  · rw [h]
    exact ⟨rfl, rfl, rfl, rfl, rfl⟩
  · exact ⟨rfl, rfl, rfl, rfl, rfl⟩

theorem inputAll {is : List Input} (hm : s.mode = .user) (h : s.inputAll is = .ok t) : SameControl s t :=
  State.inputAll_induct h (refl s) fun _ _ _ _ hi hu => hu.trans (input (hu.mode.trans hm) hi)

theorem pending_none (h : s.pending = .none t) : SameControl s t := by
  rcases State.pending_none h with rfl | rfl
  all_goals exact ⟨rfl, rfl, rfl, rfl, rfl⟩

theorem pending_take {e : Event} (h : s.pending = .take e t) : SameControl s t := by
  rcases State.pending_take h with ⟨_, _, _, _, rfl⟩ | ⟨_, _, rfl⟩ | ⟨_, _, rfl⟩ |
    ⟨_, ⟨_, _, _, rfl⟩ | ⟨_, _, rfl⟩ | ⟨_, _, rfl⟩⟩
  all_goals exact ⟨rfl, rfl, rfl, rfl, rfl⟩

end SameControl

/-! ### The mode -/

/-- Every event that is taken ends in kernel mode. -/
theorem enter_mode {e : Event} {ret : Word} {s t : State} (h : enter e ret s = .next t) : t.mode = .kernel := by
  rcases enter_next.1 h with ⟨v, _, rfl⟩ | ⟨_, rfl⟩
  · exact State.enterAt_mode s e ret v
  · rfl

/-- No event of the environment changes the mode. -/
theorem State.input_mode {s t : State} {i : Input} (h : s.input i = .ok t) : t.mode = s.mode := by
  rcases State.input_cases h with ⟨_, h⟩ | ⟨d, _, h⟩ | ⟨rfl, _⟩ | ⟨l, h⟩ | h | ⟨_, _, _, rfl⟩
  · exact (SameControl.tick h).mode
  · exact (SameControl.dmaAll (State.dmaAll_one h)).mode
  · rfl
  · rw [h]
    refine State.spoilRegs_induct (P := fun u => u.mode = s.mode) l rfl fun u r hu => ?_
    rw [(u.spoilReg_kept r).2.1]
    exact hu
  · rw [h]
  · rfl

theorem State.inputAll_mode {s t : State} {is : List Input} (h : s.inputAll is = .ok t) : t.mode = s.mode :=
  State.inputAll_induct (P := fun u => u.mode = s.mode) h rfl fun _ _ _ _ hi hu => (State.input_mode hi).trans hu

/-- An instruction but RUM keeps the mode, unless it takes an event. -/
theorem exec_mode {i : Instr} {s t : State} (hi : ∀ x y, i ≠ .rum x y) (h : exec i s = .next t) :
    (∃ e u, SameControl s u ∧ raise e u = .next t) ∨ t.mode = s.mode := by
  cases exec_ends (SameControl.keptToEnd s) hi (SameControl.refl s) h with
  | event e u hu ht => exact .inl ⟨e, u, hu, ht⟩
  | after il u hu _ ht => exact .inr (ht ▸ hu)
  | goto a u hu _ ht => exact .inr (ht ▸ hu)
  | halt k u hu ht => exact .inr (ht ▸ hu)

/-- A RUM that leaves kernel mode goes to the address in SR15; in user mode it takes an event. -/
theorem execRum_mode {s t : State} {x y : RegNo} (h : execRum x y s = .next t) :
    (s.mode = .kernel ∧ (t.mode = .user → s.sreg 14 ≠ 1 ∧ t.pc = s.sreg 15)) ∨
    (s.mode = .user ∧ ∃ e, raise e s = .next t) := by
  rcases kernelOnly_next.1 h with ⟨hm, h⟩ | ⟨hm, h⟩
  · refine .inl ⟨hm, fun ht => ?_⟩
    unfold resumeUser at h
    split at h
    · cases h
      exact absurd (hm.symm.trans ht) (by decide)
    · rename_i h14
      obtain ⟨_, rfl⟩ := jump_next.1 h
      exact ⟨h14, rfl⟩
  · exact .inr ⟨hm, _, h⟩

/-! ### From kernel to user mode -/

/-- A step from kernel to user mode runs a RUM. -/
theorem step_kernel_to_user {s t : State} (h : step s = .next t) (hs : s.mode = .kernel) (ht : t.mode = .user) :
    ∃ s1 s2 bs x y rest, s.boundary = .run s1 ∧ fetchBytes s1 = .ok bs s2 ∧
      decode s2.cfg.opc bs = .ok (.rum x y, rest) ∧ s2.sreg 14 ≠ 1 ∧ t.pc = s2.sreg 15 := by
  have hne : t.mode ≠ .kernel := by
    rw [ht]
    decide
  rcases step_next h with hb | ⟨u, hb, hc⟩
  · obtain ⟨u, hu, hc⟩ := State.boundary_ends hb
    have hk : u.mode = .kernel := (State.inputAll_mode hu).trans hs
    rcases hc with ⟨p, _, rfl⟩ | ⟨_, _, rfl⟩ | ⟨_, _, e, u1, _, he⟩ | ⟨_, _, _, hp⟩
    · exact absurd rfl hne
    · exact absurd hk hne
    · exact absurd (enter_mode he) hne
    · exact absurd ((SameControl.pending_none hp).mode.trans hk) hne
  · obtain ⟨u0, hu0, _, _, hp, _⟩ := State.boundary_run hb
    have hk : u.mode = .kernel := (SameControl.pending_none hp).mode.trans ((State.inputAll_mode hu0).trans hs)
    rcases hc with ⟨bs, s2, i, rest, hf, hd, hx⟩ | ⟨bs, s2, e, hf, _, hx⟩ | ⟨e, s2, hf, hx⟩ | ⟨k, s2, hf, rfl⟩
    all_goals have h2 : s2.mode = .kernel := (SameControl.fetchBytes (by rw [hf]; rfl)).mode.trans hk
    · by_cases hi : ∃ x y, i = .rum x y
      · obtain ⟨x, y, rfl⟩ := hi
        rcases execRum_mode hx with ⟨_, hr⟩ | ⟨hm, _⟩
        · obtain ⟨h14, hpc⟩ := hr ht
          exact ⟨u, s2, bs, x, y, rest, hb, hf, hd, h14, hpc⟩
        · exact absurd (h2.symm.trans hm) (by decide)
      · rcases exec_mode (fun x y hxy => hi ⟨x, y, hxy⟩) hx with ⟨e, u1, _, he⟩ | hm
        · exact absurd (enter_mode he) hne
        · exact absurd (hm.trans h2) hne
    · exact absurd (enter_mode hx) hne
    · exact absurd (enter_mode hx) hne
    · exact absurd h2 hne

/-! ### From user to kernel mode -/

/-- An event is taken that a step from `s` in user mode to `t` meets: through the CCB from a state in user mode with the
pc and the special registers of `s`, or with no CCB. -/
def TakesEvent (s t : State) : Prop :=
  (∃ (e : Event) (u : State) (v : Word), u.HasVector e v ∧ t = u.enterAt e s.npc v ∧ u.mode = .user ∧
    u.pc = s.pc ∧ u.paused = s.paused ∧ u.cfg = s.cfg ∧ ∀ n, u.sreg n = s.sreg n) ∨
  (mbit (s.sreg 11) 31 = true ∧ t.stuck = some .noCcb)

theorem SameControl.takesEvent {s u t : State} {e : Event} (hc : SameControl s u) (hm : s.mode = .user)
    (h : enter e s.npc u = .next t) : TakesEvent s t := by
  rcases enter_next.1 h with ⟨v, hv, rfl⟩ | ⟨h11, rfl⟩
  · exact .inl ⟨e, u, v, hv, rfl, hc.mode.trans hm, hc.pc, hc.paused, hc.cfg, hc.sreg⟩
  · exact .inr ⟨hc.sreg 11 ▸ h11, rfl⟩

/-- A running instruction saves the pc of the step. -/
theorem SameControl.takesEvent_raise {s u t : State} {e : Event} (hc : SameControl s u) (hm : s.mode = .user)
    (hp : s.paused = false) (h : raise e u = .next t) : TakesEvent s t := by
  refine hc.takesEvent (e := e) hm ?_
  rw [State.npc, hp]
  exact hc.pc ▸ h

/-- A step from user to kernel mode takes an event, or the reset button is pressed. -/
theorem step_user_to_kernel {s t : State} (h : step s = .next t) (hs : s.mode = .user) (ht : t.mode = .kernel) :
    TakesEvent s t ∨ ∃ page, .resetButton page ∈ s.events := by
  have hn : SameControl s s.nextBoundary := ⟨rfl, rfl, rfl, rfl, rfl⟩
  have stays : ∀ {u : State}, u.mode = s.mode → u.mode ≠ .kernel := fun hu => by
    rw [hu, hs]
    decide
  rcases step_next h with hb | ⟨u, hb, hc⟩
  · obtain ⟨u, hu, hc⟩ := State.boundary_ends hb
    have hsu : SameControl s u := hn.trans (SameControl.inputAll hs hu)
    rcases hc with ⟨p, hp, rfl⟩ | ⟨_, _, rfl⟩ | ⟨_, _, e, u1, hp, he⟩ | ⟨_, _, _, hp⟩
    · exact .inr ⟨p, resetPage_mem hp⟩
    · exact absurd ht (stays hsu.mode)
    · rw [hsu.npc] at he
      exact .inl ((hsu.trans (SameControl.pending_take hp)).takesEvent hs he)
    · exact absurd ht (stays (hsu.trans (SameControl.pending_none hp)).mode)
  · obtain ⟨u0, hu0, _, _, hp, hpu⟩ := State.boundary_run hb
    have hsu : SameControl s u :=
      (hn.trans (SameControl.inputAll hs hu0)).trans (SameControl.pending_none hp)
    have hps : s.paused = false := hsu.paused.symm.trans hpu
    rcases hc with ⟨bs, s2, i, rest, hf, _, hx⟩ | ⟨bs, s2, e, hf, _, hx⟩ | ⟨e, s2, hf, hx⟩ | ⟨k, s2, hf, rfl⟩
    all_goals have h2 : SameControl s s2 := hsu.trans (SameControl.fetchBytes (by rw [hf]; rfl))
    · by_cases hi : ∃ x y, i = .rum x y
      · obtain ⟨x, y, rfl⟩ := hi
        rcases execRum_mode hx with ⟨hm, _⟩ | ⟨_, e, he⟩
        · exact absurd hm (stays h2.mode)
        · exact .inl (h2.takesEvent_raise hs hps he)
      · rcases exec_mode (fun x y hxy => hi ⟨x, y, hxy⟩) hx with ⟨e, u1, hu1, he⟩ | hm
        · exact .inl ((h2.trans hu1).takesEvent_raise hs hps he)
        · exact absurd ht (stays (hm.trans h2.mode))
    · exact .inl (h2.takesEvent_raise hs hps hx)
    · exact .inl (h2.takesEvent_raise hs hps hx)
    · exact absurd ht (stays h2.mode)

/-- Settles O57: a step changes the mode by RUM, by an event or by the reset button, as it keeps the mode elsewhere. -/
theorem onlyRumLeavesKernelMode : Obligations.OnlyRumLeavesKernelMode := by
  refine ⟨fun s t h => ⟨step_kernel_to_user h, fun hs ht => ?_⟩, fun e ret u t h => enter_mode h, fun _ _ => rfl⟩
  exact or_assoc.1 (step_user_to_kernel h hs ht)

end Sys2Proof.Machine
end

