-- ==== Sys2Proof/Proofs/ProcessState.lean ====
section
/-! SUPPORT. The PCB: where its words lie, what SUS stores there, and that the reads of LUS and LDREGS do not disturb each
other, as no two lines of a PCB share a line number of the cache. -/

namespace Sys2Proof.Machine

/-! ### The places of a PCB -/

/-- The registers that SUS, LUS and LDREGS move (45_kernel.md rule R431). -/
theorem mem_regRange {x y i : RegNo} : i ∈ regRange x y ↔ InRange x y i := by
  have hx := x.isLt
  have hy := y.isLt
  unfold regRange
  simp only [List.mem_map, List.mem_range'_1]
  constructor
  · rintro ⟨k, hk, rfl⟩
    rw [InRange, BitVec.toNat_ofNat, Nat.mod_eq_of_lt (by omega)]
    omega
  · rintro ⟨h1, h2⟩
    exact ⟨i.toNat, by omega, BitVec.eq_of_toNat_eq (by simp)⟩

/-- The register area and the single words of a legal layout lie aligned and apart in the first 2048 bytes. -/
theorem legal_layout {p : Config.PcbLayout} (h : p.legal = true) :
    p.regs.toNat % 4 = 0 ∧ p.regs.toNat + 64 ≤ 2048 ∧
      ∀ o ∈ [p.pc, p.seg, p.traps],
        o.toNat % 4 = 0 ∧ o.toNat < 2048 ∧ (o.toNat + 4 ≤ p.regs.toNat ∨ p.regs.toNat + 64 ≤ o.toNat) := by
  simp only [Config.PcbLayout.legal, List.all_cons, Bool.and_eq_true, beq_iff_eq, decide_eq_true_eq,
    Bool.or_eq_true] at h
  simp only [List.mem_cons, List.not_mem_nil, or_false, forall_eq_or_imp, forall_eq]
  omega

/-- The address of register i in the PCB (10_state.md rule R58). -/
def State.pcbRegAddr (s : State) (i : RegNo) : Nat := (s.sreg 14).toNat + s.cfg.pcb.regs.toNat + 4 * i.toNat

/-- The offset of register i is a word of the register area. -/
theorem State.pcbReg_toNat {s : State} (h : s.cfg.pcb.legal = true) (i : RegNo) :
    (s.pcbReg i).toNat = s.cfg.pcb.regs.toNat + 4 * i.toNat := by
  obtain ⟨_, hr, _⟩ := legal_layout h
  have hi := i.isLt
  unfold State.pcbReg zext
  rw [BitVec.toNat_add, BitVec.toNat_mul, BitVec.toNat_setWidth, show (4 : Word).toNat = 4 from rfl]
  omega

/-- SR14 is a word aligned address with 8 Kbytes of installed memory, and the layout of the PCB is legal. -/
structure State.HasPcb (s : State) : Prop where
  aligned : (s.sreg 14).toNat % 4 = 0
  installed : (s.sreg 14).toNat + 8192 ≤ s.cfg.memSize.toNat
  legal : s.cfg.pcb.legal = true

/-- The same SR14 and the same parameters give the same PCB. -/
theorem State.HasPcb.congr {s t : State} (h : s.HasPcb) (hr : t.sreg 14 = s.sreg 14) (hc : t.cfg = s.cfg) :
    t.HasPcb := by
  obtain ⟨h1, h2, h3⟩ := h
  exact ⟨by rwa [hr], by rwa [hr, hc], by rwa [hc]⟩

/-- An offset of a word of the PCB. -/
def PcbOffset (o : Word) : Prop := o.toNat % 4 = 0 ∧ o.toNat < 2048

theorem State.HasPcb.pcbReg {s : State} (h : s.HasPcb) (i : RegNo) : PcbOffset (s.pcbReg i) := by
  obtain ⟨ha, hr, _⟩ := legal_layout h.legal
  have hi := i.isLt
  rw [PcbOffset, State.pcbReg_toNat h.legal]
  omega

theorem State.HasPcb.single {s : State} (h : s.HasPcb) {o : Word}
    (ho : o ∈ [s.cfg.pcb.pc, s.cfg.pcb.seg, s.cfg.pcb.traps]) : PcbOffset o := by
  obtain ⟨_, _, hs⟩ := legal_layout h.legal
  exact ⟨(hs o ho).1, (hs o ho).2.1⟩

/-- The address of a word of the PCB. -/
theorem State.HasPcb.addr {s : State} (h : s.HasPcb) {o : Word} (ho : PcbOffset o) :
    (s.sreg 14 + o).toNat = (s.sreg 14).toNat + o.toNat := by
  obtain ⟨_, ho⟩ := ho
  have := s.cfg.memSize.isLt
  have := h.installed
  rw [BitVec.toNat_add, Nat.mod_eq_of_lt (by omega)]

/-- A word of the PCB is an aligned word of installed memory. -/
theorem State.HasPcb.word {s : State} (h : s.HasPcb) {o : Word} (ho : PcbOffset o) :
    s.structAddr (s.sreg 14) o = .ok (s.sreg 14 + o) ∧ (s.sreg 14 + o).toNat % 4 = 0 ∧
      s.inMem (s.sreg 14 + o) 4 = true := by
  have := h.installed
  have := h.aligned
  rw [State.inMem_iff, h.addr ho]
  obtain ⟨h4, ho⟩ := ho
  exact ⟨State.structAddr_of h.aligned (by omega), by omega, by omega⟩

theorem State.HasPcb.structWrite {s : State} (h : s.HasPcb) {o : Word} (ho : PcbOffset o) (v : Word) :
    s.structWrite (s.sreg 14) o v = .ok (s.storeBytes ((s.sreg 14).toNat + o.toNat) (bytesOfWord v)) := by
  obtain ⟨ha, h4, hm⟩ := h.word ho
  unfold State.structWrite
  rw [ha, ← h.addr ho]
  exact State.ucodeWrite_of h4 hm v

theorem State.HasPcb.structLoad {s : State} (h : s.HasPcb) {o : Word} (ho : PcbOffset o) :
    s.structLoad (s.sreg 14) o =
      .ok (s.readWord .data ((s.sreg 14).toNat + o.toNat), s.loadLine .data ((s.sreg 14).toNat + o.toNat)) := by
  obtain ⟨ha, h4, hm⟩ := h.word ho
  unfold State.structLoad
  rw [ha]
  dsimp only
  unfold State.ucodeLoad
  rw [State.ucodeRead_of h4 hm, h.addr ho]

/-! ### SUS -/

/-- The states differ at most in memory and in the data lines. -/
abbrev SameButStores (s t : State) : Prop := t = { s with mem := t.mem, dataLines := t.dataLines }

theorem SameButStores.trans {s t u : State} (h1 : SameButStores s t) (h2 : SameButStores t u) : SameButStores s u := by
  rw [SameButStores] at *
  rw [h2, h1]

theorem SameButStores.storeBytes (s : State) (a : Nat) (bs : List Byte) : SameButStores s (s.storeBytes a bs) := by
  induction bs generalizing s a with
  | nil => rfl
  | cons b bs ih =>
    have h1 : SameButStores s (s.storeByte a b) := rfl
    exact h1.trans (ih (s.storeByte a b) (a + 1))

/-- A word is the same where its bytes are. -/
theorem State.mainWord_congr {s t : State} {a : Nat} (h : ∀ k, k < 4 → t.mainByte (a + k) = s.mainByte (a + k)) :
    t.mainWord a = s.mainWord a := by
  unfold State.mainWord
  rw [h 1 (by decide), h 2 (by decide), h 3 (by decide), show t.mainByte a = s.mainByte a from h 0 (by decide)]

/-- Registers stored into the PCB: each is in its word, and every other byte is as it was. -/
theorem State.HasPcb.saveRegs {s : State} (h : s.HasPcb) (is : List RegNo) :
    ∃ t, s.saveRegs is = .ok t ∧ (∀ i ∈ is, t.mainWord (s.pcbRegAddr i) = s.reg i) ∧
      (∀ a, (∀ i ∈ is, a < s.pcbRegAddr i ∨ s.pcbRegAddr i + 4 ≤ a) → t.mainByte a = s.mainByte a) ∧
      SameButStores s t := by
  induction is generalizing s with
  | nil => exact ⟨s, rfl, fun _ hi => (nomatch hi), fun _ _ => rfl, rfl⟩
  | cons j js ih =>
    have haddr : (s.sreg 14).toNat + (s.pcbReg j).toNat = s.pcbRegAddr j := by
      rw [State.pcbReg_toNat h.legal, State.pcbRegAddr]
      omega
    have hw := h.structWrite (h.pcbReg j) (s.reg j)
    rw [haddr] at hw
    generalize hu : s.storeBytes (s.pcbRegAddr j) (bytesOfWord (s.reg j)) = u at hw
    have hsu : SameButStores s u := hu ▸ SameButStores.storeBytes s _ _
    have hreg : ∀ i, u.reg i = s.reg i := fun i => by rw [hsu]; rfl
    have hpa : ∀ i, u.pcbRegAddr i = s.pcbRegAddr i := fun i => by rw [hsu]; rfl
    obtain ⟨t, ht, hword, hbyte, hut⟩ := ih (h.congr (by rw [hsu]; rfl) (by rw [hsu]) : u.HasPcb)
    simp only [hpa, hreg] at hword hbyte
    refine ⟨t, ?_, fun i hi => ?_, fun a ha => ?_, hsu.trans hut⟩
    · rw [State.saveRegs, hw]
      exact ht
    · by_cases hjs : i ∈ js
      · exact hword i hjs
      · have hij : i = j := (List.mem_cons.1 hi).resolve_right hjs
        subst hij
        rw [State.mainWord_congr (s := u) fun k hk => hbyte _ fun l hl => ?_, ← hu, State.mainWord_storeBytes_same]
        have hne : l.toNat ≠ i.toNat := fun e => hjs (BitVec.eq_of_toNat_eq e ▸ hl)
        unfold State.pcbRegAddr
        omega
    · have hj := ha j List.mem_cons_self
      rw [hbyte a fun i hi => ha i (List.mem_cons_of_mem _ hi), ← hu, State.mainByte_storeBytes_other]
      rw [bytesOfWord_length]
      exact hj

/-- What SUS leaves in a usable PCB. -/
theorem State.HasPcb.saveUser {s : State} (h : s.HasPcb) (is : List RegNo) :
    ∃ t, s.saveUser is = .ok t ∧ t.mainWord ((s.sreg 14).toNat + s.cfg.pcb.pc.toNat) = s.sreg 15 ∧
      (∀ i ∈ is, t.mainWord (s.pcbRegAddr i) = s.reg i) ∧
      (∀ a, (a < (s.sreg 14).toNat + s.cfg.pcb.pc.toNat ∨ (s.sreg 14).toNat + s.cfg.pcb.pc.toNat + 4 ≤ a) →
        (∀ i ∈ is, a < s.pcbRegAddr i ∨ s.pcbRegAddr i + 4 ≤ a) → t.mainByte a = s.mainByte a) ∧
      SameButStores s t := by
  have hpc : s.cfg.pcb.pc ∈ [s.cfg.pcb.pc, s.cfg.pcb.seg, s.cfg.pcb.traps] := List.mem_cons_self
  have hapart := ((legal_layout h.legal).2.2 _ hpc).2.2
  have hw := h.structWrite (h.single hpc) (s.sreg 15)
  generalize hu : s.storeBytes ((s.sreg 14).toNat + s.cfg.pcb.pc.toNat) (bytesOfWord (s.sreg 15)) = u at hw
  have hsu : SameButStores s u := hu ▸ SameButStores.storeBytes s _ _
  have hreg : ∀ i, u.reg i = s.reg i := fun i => by rw [hsu]; rfl
  have hpa : ∀ i, u.pcbRegAddr i = s.pcbRegAddr i := fun i => by rw [hsu]; rfl
  obtain ⟨t, ht, hword, hbyte, hut⟩ :=
    State.HasPcb.saveRegs (h.congr (by rw [hsu]; rfl) (by rw [hsu]) : u.HasPcb) is
  simp only [hpa, hreg] at hword hbyte
  refine ⟨t, ?_, ?_, hword, fun a ha hi => ?_, hsu.trans hut⟩
  · rw [State.saveUser, hw]
    exact ht
  · rw [State.mainWord_congr (s := u) fun k hk => hbyte _ fun i _ => ?_, ← hu, State.mainWord_storeBytes_same]
    have := i.isLt
    unfold State.pcbRegAddr
    omega
  · rw [hbyte a hi, ← hu, State.mainByte_storeBytes_other]
    rw [bytesOfWord_length]
    exact ha

theorem State.PcbUsable.hasPcb {s : State} (h : s.PcbUsable) : s.HasPcb := by
  obtain ⟨_, h4, hm, hl⟩ := h
  exact ⟨h4, hm, hl⟩

/-- Settles O43: SUS stores SR15 and then register after register, each in a word of its own. -/
theorem saveUserState : Obligations.SaveUserState := by
  intro s x y hk hroom
  have hexec : exec (.sus x y) s =
      if s.sreg 14 = 1 then advance 2 s else finishFault (s.saveUser (regRange x y)) := by
    show execSus x y s = _
    exact kernelOnly_kernel hk ..
  refine ⟨fun h14 => ?_, fun hu => ?_⟩
  · rw [hexec, if_pos h14]
    exact advance_room hroom
  · obtain ⟨t, ht, hpc, hword, hbyte, hst⟩ := hu.hasPcb.saveUser (regRange x y)
    have hroom' : t.Room 2 := by
      rw [hst]
      exact hroom
    refine ⟨t.after 2, ?_, hpc, fun i hi => hword i (mem_regRange.2 hi),
      fun a ha hi => hbyte a ha fun i him => hi i (mem_regRange.1 him), ?_⟩
    · rw [hexec, if_neg hu.1, ht]
      exact advance_room hroom'
    · rw [hst]
      rfl

/-! ### Data reads near a line just loaded -/

/-- A data read loads a line that no data read of another line number, or of its own quadword, sees. -/
theorem State.readByte_loadLine {s : State} {a x : Nat} (h : lineIndex x = lineIndex a → x / 16 = a / 16) :
    (s.loadLine .data a).readByte .data x = s.readByte .data x := by
  have hf : findLine (s.loadLine .data a).dataLines x = _ :=
    findLine_loadQuad s.dataLines a (s.mainQuad a) (Config.freeVictim s.draws false (a / 16)) x
  simp only [State.readByte, State.throughLines, hf, State.mainByte_loadLine]
  cases hh : findLine s.dataLines a with
  | some l => simp
  | none =>
    by_cases hq : x / 16 = a / 16
    · rw [findLine_quad s.dataLines hq, hh]
      simp [hq, s.mainQuad_byte hq]
    · simp [hq, mt h hq]

/-- A data read does not change what is read at an address less than 4000 bytes away. -/
theorem State.readWord_loadLine {s : State} {a x : Nat} (h1 : a < x + 4000) (h2 : x < a + 4000) :
    (s.loadLine .data a).readWord .data x = s.readWord .data x := by
  have near : ∀ k, k < 4 → (s.loadLine .data a).readByte .data (x + k) = s.readByte .data (x + k) := by
    intro k hk
    refine State.readByte_loadLine fun hl => ?_
    unfold lineIndex at hl
    omega
  unfold State.readWord
  rw [near 1 (by decide), near 2 (by decide), near 3 (by decide)]
  rw [show (s.loadLine .data a).readByte .data x = s.readByte .data x from near 0 (by decide)]

/-- A read of one word of the PCB does not change what is read of another. -/
theorem readWord_loadLine_pcb (s : State) (b : Nat) {o p : Word} (ho : PcbOffset o) (hp : PcbOffset p) :
    (s.loadLine .data (b + o.toNat)).readWord .data (b + p.toNat) = s.readWord .data (b + p.toNat) := by
  obtain ⟨_, ho⟩ := ho
  obtain ⟨_, hp⟩ := hp
  exact State.readWord_loadLine (by omega) (by omega)

/-! ### LUS and LDREGS -/

/-- The word of the PCB at an offset, as a data read delivers it. -/
def State.pcbWord (s : State) (o : Word) : Word := s.readWord .data ((s.sreg 14).toNat + o.toNat)

/-- The states read the same in the PCB of `s`, and have the same SR14 and parameters. -/
structure SamePcb (s t : State) : Prop where
  sreg : t.sreg 14 = s.sreg 14
  cfg : t.cfg = s.cfg
  word : ∀ o, PcbOffset o → t.pcbWord o = s.pcbWord o

theorem SamePcb.refl (s : State) : SamePcb s s := ⟨rfl, rfl, fun _ _ => rfl⟩

theorem SamePcb.trans {s t u : State} (h1 : SamePcb s t) (h2 : SamePcb t u) : SamePcb s u :=
  ⟨h2.sreg.trans h1.sreg, h2.cfg.trans h1.cfg, fun o ho => (h2.word o ho).trans (h1.word o ho)⟩

theorem SamePcb.setReg (s : State) (i : RegNo) (v : Word) : SamePcb s (s.setReg i v) := ⟨rfl, rfl, fun _ _ => rfl⟩

theorem SamePcb.pcbReg {s t : State} (h : SamePcb s t) (i : RegNo) : t.pcbReg i = s.pcbReg i := by
  unfold State.pcbReg
  rw [h.cfg]

/-- A read of a word of the PCB of `s`, after other reads of it, delivers what it would have delivered in `s`. -/
theorem State.HasPcb.load {s t : State} (h : s.HasPcb) (hst : SamePcb s t) {o : Word} (ho : PcbOffset o) :
    ∃ u, t.structLoad (s.sreg 14) o = .ok (s.pcbWord o, u) ∧ SamePcb s u ∧ u = { t with dataLines := u.dataLines } := by
  have hl := (h.congr hst.sreg hst.cfg).structLoad ho
  have hsame : SamePcb t (t.loadLine .data ((t.sreg 14).toNat + o.toNat)) :=
    ⟨rfl, rfl, fun _ hp => readWord_loadLine_pcb t (t.sreg 14).toNat ho hp⟩
  refine ⟨t.loadLine .data ((t.sreg 14).toNat + o.toNat), ?_, hst.trans hsame, rfl⟩
  rw [← hst.word o ho, ← hst.sreg]
  exact hl

/-- Registers loaded from the PCB: each holds its word as it was read before the loads. -/
theorem State.HasPcb.loadRegs {s t : State} (h : s.HasPcb) (hst : SamePcb s t) (is : List RegNo) :
    ∃ u, t.loadRegs is = .ok u ∧ (∀ i, u.reg i = if i ∈ is then s.pcbWord (s.pcbReg i) else t.reg i) ∧
      u = { t with regs := u.regs, dataLines := u.dataLines } := by
  induction is generalizing t with
  | nil => exact ⟨t, rfl, fun _ => rfl, rfl⟩
  | cons j js ih =>
    obtain ⟨m, hl, hsm, hm⟩ := h.load hst (h.pcbReg j)
    obtain ⟨u, hu, hreg, hf⟩ := ih (hsm.trans (SamePcb.setReg m j (s.pcbWord (s.pcbReg j))))
    refine ⟨u, ?_, fun i => ?_, ?_⟩
    · rw [State.loadRegs, hst.sreg, hst.pcbReg, hl]
      exact hu
    · rw [hreg]
      by_cases hjs : i ∈ js
      · rw [if_pos hjs, if_pos (List.mem_cons_of_mem _ hjs)]
      · rw [if_neg hjs, State.reg_setReg]
        by_cases hij : i = j
        · subst hij
          rw [if_pos rfl, if_pos List.mem_cons_self]
        · rw [if_neg hij, if_neg fun hi => (List.mem_cons.1 hi).elim hij hjs, hm]
          rfl
    · rw [hf, hm]
      rfl

/-- What LUS loads from a usable PCB. -/
theorem State.HasPcb.loadUser {s : State} (h : s.HasPcb) (is : List RegNo) :
    ∃ u : State, (∀ i, u.reg i = if i ∈ is then s.pcbWord (s.pcbReg i) else s.reg i) ∧
      u = { s with regs := u.regs, dataLines := u.dataLines } ∧
      s.loadUser is = .ok ((((u.setSreg 15 (s.pcbWord s.cfg.pcb.pc)).setSegments (s.pcbWord s.cfg.pcb.seg)).loadTraps
        (s.pcbWord s.cfg.pcb.traps)).flushCache.flushTmt) := by
  obtain ⟨s1, l1, p1, f1⟩ := h.load (SamePcb.refl s) (h.single (o := s.cfg.pcb.pc) (by simp))
  obtain ⟨s2, l2, p2, f2⟩ := h.load p1 (h.single (o := s.cfg.pcb.seg) (by simp))
  obtain ⟨s3, l3, p3, f3⟩ := h.load p2 (h.single (o := s.cfg.pcb.traps) (by simp))
  obtain ⟨u, hl, hreg, hf⟩ := h.loadRegs p3 is
  have hs3 : s3 = { s with dataLines := s3.dataLines } := by rw [f3, f2, f1]
  refine ⟨u, fun i => ?_, ?_, ?_⟩
  · rw [hreg, hs3]
    rfl
  · rw [hf, hs3]
  · unfold State.loadUser
    rw [l1]
    dsimp only
    rw [l2]
    dsimp only
    rw [l3]
    dsimp only
    rw [hl]

/-- The special registers after the segment word was loaded. -/
theorem State.sreg_setSegments (s : State) (w : Word) (n : RegNo) :
    (s.setSegments w).sreg n =
      if n = 9 then (if s.cfg.pcb.codeHigh then zext (w.extractLsb' 0 16) else zext (w.extractLsb' 16 16))
      else if n = 8 then (if s.cfg.pcb.codeHigh then zext (w.extractLsb' 16 16) else zext (w.extractLsb' 0 16))
      else s.sreg n := by
  unfold State.setSegments
  split <;> simp only [State.sreg_setSreg]

/-- The halves of a word as numbers. -/
theorem zext_halves (w : Word) :
    (zext (w.extractLsb' 16 16)).toNat = w.toNat / 2 ^ 16 ∧ (zext (w.extractLsb' 0 16)).toNat = w.toNat % 2 ^ 16 := by
  have := w.isLt
  simp only [zext, BitVec.toNat_setWidth, BitVec.extractLsb'_toNat, Nat.shiftRight_eq_div_pow]
  omega

/-- The word of register i lies at its place in the register area. -/
theorem State.HasPcb.pcbWord_pcbReg {s : State} (h : s.HasPcb) (i : RegNo) :
    s.pcbWord (s.pcbReg i) = s.readWord .data ((s.sreg 14).toNat + s.cfg.pcb.regs.toNat + 4 * i.toNat) := by
  rw [State.pcbWord, State.pcbReg_toNat h.legal, Nat.add_assoc]

/-- A special register after LUS loaded its words. -/
theorem State.sreg_loadedUser (u : State) (p w m : Word) (n : RegNo) :
    ((((u.setSreg 15 p).setSegments w).loadTraps m).flushCache.flushTmt.after 2).sreg n =
      if n = 10 then m
      else if n = 9 then (if u.cfg.pcb.codeHigh then zext (w.extractLsb' 0 16) else zext (w.extractLsb' 16 16))
      else if n = 8 then (if u.cfg.pcb.codeHigh then zext (w.extractLsb' 16 16) else zext (w.extractLsb' 0 16))
      else if n = 15 then p
      else u.sreg n := by
  show ((((u.setSreg 15 p).setSegments w)).setSreg 10 m).sreg n = _
  rw [State.sreg_setSreg, State.sreg_setSegments, State.sreg_setSreg]
  rfl

/-- Every bit of the traps word that LUS loads is in effect. -/
theorem State.trapBit_loadTraps (u : State) (m : Word) (k : Nat) : (u.loadTraps m).trapBit k = mbit m k := by
  simp [State.trapBit, State.loadTraps, mbit]

/-- The state that LUS leaves, field by field. -/
theorem loadedUser_fields {s u : State} {p w m : Word} (hu : u = { s with regs := u.regs, dataLines := u.dataLines })
    {t : State} (ht : t = (((u.setSreg 15 p).setSegments w).loadTraps m).flushCache.flushTmt.after 2) :
    (∀ i, t.reg i = u.reg i) ∧ t.sreg 15 = p ∧ t.sreg 10 = m ∧ (∀ k, t.trapBit k = mbit m k) ∧
    (t.sreg 8).toNat = (if s.cfg.pcb.codeHigh then w.toNat / 2 ^ 16 else w.toNat % 2 ^ 16) ∧
    (t.sreg 9).toNat = (if s.cfg.pcb.codeHigh then w.toNat % 2 ^ 16 else w.toNat / 2 ^ 16) ∧
    SameSregsBut [8, 9, 10, 15] s t ∧ t.mode = s.mode ∧ t.pc = s.pc + 2 ∧ t.tmt = [] ∧ t.codeLines = [] ∧
    t.dataLines = [] ∧ t.mem = s.mem := by
  have hcfg : u.cfg = s.cfg := by rw [hu]
  have hsr : ∀ n, t.sreg n = _ := fun n => ht ▸ State.sreg_loadedUser u p w m n
  have hpc : t.pc = u.pc + 2 := by rw [ht]; simp [State.after]
  have hmode : t.mode = u.mode := by rw [ht]; simp
  have hmem : t.mem = u.mem := by rw [ht]; simp
  obtain ⟨hhigh, hlow⟩ := zext_halves w
  refine ⟨fun i => by rw [ht]; simp, by rw [hsr]; rfl, by rw [hsr]; rfl,
    fun k => ht ▸ State.trapBit_loadTraps ((u.setSreg 15 p).setSegments w) m k, ?_, ?_, fun n hn => ?_,
    by rw [hmode, hu], by rw [hpc, hu], by rw [ht]; rfl, by rw [ht]; rfl, by rw [ht]; rfl, by rw [hmem, hu]⟩
  · rw [hsr, hcfg]
    cases s.cfg.pcb.codeHigh
    · exact hlow
    · exact hhigh
  · rw [hsr, hcfg]
    cases s.cfg.pcb.codeHigh
    · exact hhigh
    · exact hlow
  · simp only [List.mem_cons, List.not_mem_nil, or_false, not_or] at hn
    obtain ⟨h8, h9, h10, h15⟩ := hn
    rw [hsr, if_neg h10, if_neg h9, if_neg h8, if_neg h15, hu]
    rfl

/-- Settles O44: the reads of LUS and LDREGS do not disturb each other, so each register holds its word of the PCB as
it was before the instruction. -/
theorem loadUserState : Obligations.LoadUserState := by
  intro s x y hk hroom
  have hlus : exec (.lus x y) s =
      if s.sreg 14 = 1 then advance 2 s else finishFault (s.loadUser (regRange x y)) := by
    show execLus x y s = _
    exact kernelOnly_kernel hk ..
  have hldregs : exec (.ldregs x y) s =
      if s.sreg 14 = 1 then advance 2 s else finishFault (s.loadRegs (regRange x y)) := by
    show execLdregs x y s = _
    exact kernelOnly_kernel hk ..
  refine ⟨fun h14 => ?_, fun husable => ?_⟩
  · rw [hlus, hldregs, if_pos h14, if_pos h14]
    exact ⟨advance_room hroom, advance_room hroom⟩
  · have hp := husable.hasPcb
    rw [hlus, hldregs, if_neg husable.1, if_neg husable.1]
    dsimp only
    simp only [← mem_regRange, ← hp.pcbWord_pcbReg]
    obtain ⟨u, hreg, hu, hl⟩ := hp.loadUser (regRange x y)
    obtain ⟨v, hv, hvreg, hvf⟩ := hp.loadRegs (SamePcb.refl s) (regRange x y)
    have hur : ((((u.setSreg 15 (s.pcbWord s.cfg.pcb.pc)).setSegments (s.pcbWord s.cfg.pcb.seg)).loadTraps
        (s.pcbWord s.cfg.pcb.traps)).flushCache.flushTmt).Room 2 := by
      have hpc : u.pc = s.pc := by rw [hu]
      simpa [State.Room, hpc] using hroom
    have hvr : v.Room 2 := by
      rw [hvf]
      exact hroom
    refine ⟨⟨_, finishFault_next.2 ⟨_, hl, hur, rfl⟩, ?_⟩, v.after 2, ?_, hvreg, ?_⟩
    · obtain ⟨hregs, hrest⟩ := loadedUser_fields hu rfl
      exact ⟨fun i => (hregs i).trans (hreg i), hk ▸ hrest⟩
    · rw [hv]
      exact advance_room hvr
    · rw [hvf]
      rfl

end Sys2Proof.Machine
end

