-- ==== Sys2Proof/Proofs/Stops.lean ====
section
/-! SUPPORT. Where the machine stops: each operation that ends in a named fault, and the searches of the VRT that leave
the processor without further progress, by a reference, by an instruction fetch and by TRANS and DIRT. -/

namespace Sys2Proof.Machine

/-! ### Named faults -/

theorem jump_odd {a : Word} (h : mbit a 31 = true) (s : State) : jump a s = .fault .oddPc := if_pos h

theorem advance_noRoom {s : State} {il : Nat} (h : 2 ^ 32 ≤ s.pc.toNat + il) : advance il s = .fault .pcWrap :=
  if_neg (Nat.not_lt.2 h)

theorem enter_oddVector {s : State} {e : Event} {v : Word} (h11 : mbit (s.sreg 11) 31 = false)
    (hv : s.structRead (s.sreg 11) e.offset = .ok v) (hodd : mbit v 31 = true) (ret : Word) :
    enter e ret s = .fault .oddPc := by
  unfold enter
  rw [h11, if_neg Bool.false_ne_true, hv]
  exact if_pos hodd

theorem State.locate_beyond {s : State} {a : Word} {n : Nat} (hk : s.mode = .kernel)
    (h : s.cfg.memSize.toNat < a.toNat + n) (sp : Space) (acc : Access) : s.locate sp a acc n = .fault .noMemory := by
  rw [State.locate_kernel hk, if_neg fun hm => absurd (State.inMem_iff.1 hm) (Nat.not_le.2 h)]

theorem State.structAddr_misaligned {s : State} {base : Word} (h : base.toNat % 4 ≠ 0) (offset : Word) :
    s.structAddr base offset = .error .badStructure := if_pos h

theorem State.structAddr_beyond {s : State} {base offset : Word} (h4 : base.toNat % 4 = 0)
    (h : s.cfg.memSize.toNat < base.toNat + offset.toNat + 4) : s.structAddr base offset = .error .noMemory := by
  unfold State.structAddr
  rw [if_neg (not_not.2 h4), if_neg (Nat.not_le.2 h)]

/-- A word of a control structure without an address is neither read nor written. -/
theorem State.struct_error {s : State} {base offset : Word} {f : Fault} (h : s.structAddr base offset = .error f) :
    s.structRead base offset = .error f ∧ s.structLoad base offset = .error f ∧
      ∀ v, s.structWrite base offset v = .error f := by
  unfold State.structRead State.structLoad State.structWrite
  rw [h]
  exact ⟨rfl, rfl, fun _ => rfl⟩

/-- SUS, LUS and LDREGS fault when the PCB has no address. -/
theorem exec_pcb_fault {s : State} {x y : RegNo} {i : Instr} {f : Fault} (hi : i ∈ [Instr.sus x y, .lus x y, .ldregs x y])
    (hk : s.mode = .kernel) (h14 : s.sreg 14 ≠ 1) (hf : ∀ o, s.structAddr (s.sreg 14) o = .error f) :
    exec i s = .fault f := by
  have hpcb : ∀ k : Except Fault State, k = .error f →
      (if s.sreg 14 = 1 then advance 2 s else finishFault k) = .fault f := fun k hk => by
    rw [if_neg h14, hk]
    rfl
  simp only [List.mem_cons, List.not_mem_nil, or_false] at hi
  rcases hi with rfl | rfl | rfl
  · show execSus x y s = _
    refine (kernelOnly_kernel hk ..).trans (hpcb _ ?_)
    rw [State.saveUser, (State.struct_error (hf _)).2.2]
  · show execLus x y s = _
    refine (kernelOnly_kernel hk ..).trans (hpcb _ ?_)
    rw [State.loadUser, (State.struct_error (hf _)).2.1]
  · show execLdregs x y s = _
    refine (kernelOnly_kernel hk ..).trans (hpcb _ ?_)
    cases hr : regRange x y with
    | nil =>
      have hx : x ∈ regRange x y := mem_regRange.2 ⟨Nat.le_refl _, Nat.le_max_left _ _⟩
      rw [hr] at hx
      cases hx
    | cons i is => rw [State.loadRegs, (State.struct_error (hf _)).2.1]

/-! ### A TMT miss without further progress -/

/-- The state after a search has found the entry at `p` with TMT Word `w` and has set its R bit (20_memory.md rule
R107). -/
def State.entryMarked (s : State) (sp : Space) (a p w : Word) : State :=
  ((s.searched (s.segment sp) a).markEntry p w bitR).setTmt (tmtIndex sp a) (w ||| bitR)

/-- In `t` the entry at `p` of the VRT of `u` and the TMT entry of the page are `w` with the R bit; every other byte and
every other TMT entry is as in `u`, and the data lines are those after the reads of the search. -/
def EntryMarked (u t : State) (sp : Space) (a p w : Word) : Prop :=
  t.mainWord (p + 8).toNat = w ||| 0x10 ∧
  (∀ b, b < (p + 8).toNat ∨ (p + 8).toNat + 4 ≤ b → t.mainByte b = u.mainByte b) ∧
  (∀ n, t.tmtEntry n = if n = tmtIndex sp a then w ||| 0x10 else u.tmtEntry n) ∧
  t.dataLines = ((u.searched (u.segment sp) a).markEntry p w 0x10).dataLines

/-- A TMT entry after one was set to a value that is not 0. -/
theorem State.tmtEntry_setTmt_nonzero (s : State) (i : Nat) {e : Word} (he : e ≠ 0) (n : Nat) :
    (s.setTmt i e).tmtEntry n = if n = i then e else s.tmtEntry n := by
  unfold State.tmtEntry State.setTmt tmtSet
  simp only [if_neg he]
  split
  · subst n
    rw [sparseGet_set_same]
    rfl
  · rename_i hn
    rw [sparseGet_set_other _ _ hn]

/-- A TMT Word with its R bit is not 0. -/
theorem or_bitR_ne_zero (w : Word) : w ||| bitR ≠ 0 := by
  intro h
  have h4 : (w ||| bitR)[4] = true := by simp [bitR]
  rw [h] at h4
  exact absurd h4 (by decide)

theorem State.entryMarked_marked (s : State) (sp : Space) (a p w : Word) :
    EntryMarked s (s.entryMarked sp a p w) sp a p w := by
  refine ⟨?_, fun b hb => ?_, fun n => ?_, rfl⟩
  · exact State.mainWord_storeBytes_same (s.searched (s.segment sp) a) (p + 8).toNat (w ||| bitR)
  · refine (State.mainByte_storeBytes_other _ _ _ ?_).trans (State.mainByte_searched ..)
    rwa [bytesOfWord_length]
  · rw [State.entryMarked, State.tmtEntry_setTmt_nonzero _ _ (or_bitR_ne_zero w), State.tmtEntry_markEntry]
    rfl

theorem State.entryMarked_frame (s : State) (sp : Space) (a p w : Word) :
    SameButMemory s (s.entryMarked sp a p w) :=
  (SameButMemory.searched s _ _).trans ((SameButMemory.storeBytes _ _ _).trans (SameButMemory.setTmt _ _ _))

/-- With V = 0 in the matching entry a TMT miss makes no further progress (20_memory.md rule R111). -/
theorem State.tmtLookup_invalid {s : State} {sp : Space} {a p w : Word}
    (hmiss : tmtHit (s.tmtEntry (tmtIndex sp a)) a = false) (hf : s.vrtSearch (s.segment sp) a = .found p w)
    (hv : mbit w 30 = false) : s.tmtLookup sp a = .stuck .vrtEntryInvalid (s.entryMarked sp a p w) := by
  unfold State.tmtLookup
  simp only [hmiss, hf, hv, Bool.false_eq_true, if_false]
  rfl

/-- Along an endless chain a TMT miss makes no further progress (20_memory.md rule R104). -/
theorem State.tmtLookup_endless {s : State} {sp : Space} {a : Word}
    (hmiss : tmtHit (s.tmtEntry (tmtIndex sp a)) a = false) (hf : s.vrtSearch (s.segment sp) a = .endless) :
    s.tmtLookup sp a = .stuck .vrtChainEndless (s.searched (s.segment sp) a) := by
  unfold State.tmtLookup
  simp only [hmiss, hf, Bool.false_eq_true, if_false]

/-- A lookup without further progress leaves a user mode reference without further progress. -/
theorem State.locate_stuck {s t : State} {sp : Space} {a : Word} {k : Stuck} (hu : s.mode = .user)
    (h : s.tmtLookup sp a = .stuck k t) (acc : Access) (n : Nat) : s.locate sp a acc n = .stuck k t := by
  unfold State.locate State.realAddr State.translate
  rw [hu]
  dsimp only
  rw [h]
  rfl

/-- A store to a clean page whose VRT entry is searched along an endless chain makes no further progress. -/
theorem State.locate_dirty_endless {s : State} {sp : Space} {a : Word} (hu : s.mode = .user)
    (hhit : tmtHit (s.tmtEntry (tmtIndex sp a)) a = true) (hw : mbit (s.tmtEntry (tmtIndex sp a)) 29 = true)
    (hd : mbit (s.tmtEntry (tmtIndex sp a)) 31 = false) (hf : s.vrtSearch (s.segment sp) a = .endless) (n : Nat) :
    s.locate sp a .write n = .stuck .vrtChainEndless (s.searched (s.segment sp) a) := by
  have hl : s.tmtLookup sp a = .ok (s.tmtEntry (tmtIndex sp a)) s := if_pos hhit
  have hm : s.markDirty sp a (s.tmtEntry (tmtIndex sp a)) =
      .stuck .vrtChainEndless (s.searched (s.segment sp) a) := by
    unfold State.markDirty
    simp only [hf]
  unfold State.locate State.realAddr State.translate
  rw [hu]
  dsimp only
  rw [hl, Res.bind_ok, hw, hd, if_neg (by simp), if_pos ⟨rfl, rfl⟩, hm]
  rfl

/-! ### Outcomes without further progress -/

/-- The outcome of an access that has met a matching entry with V = 0 in state `u`. -/
def StuckInvalid (o : Outcome) (u : State) (sp : Space) (a p w : Word) : Prop :=
  ∃ t, o = .next t ∧ EntryMarked u t sp a p w ∧
    t = { u with stuck := some .vrtEntryInvalid, mem := t.mem, dataLines := t.dataLines, tmt := t.tmt }

/-- The outcome of an access that has searched along an endless chain in state `u`. -/
def StuckEndless (o : Outcome) (u : State) (seg : Half) (a : Word) : Prop :=
  o = .next { u with stuck := some .vrtChainEndless, dataLines := (u.searched seg a).dataLines }

theorem stuckInvalid_of {o : Outcome} {u : State} {sp : Space} {a p w : Word}
    (h : o = .next ((u.entryMarked sp a p w).halt .vrtEntryInvalid)) : StuckInvalid o u sp a p w := by
  refine ⟨_, h, u.entryMarked_marked sp a p w, ?_⟩
  rw [u.entryMarked_frame sp a p w]
  rfl

theorem stuckEndless_of {o : Outcome} {u : State} {seg : Half} {a : Word}
    (h : o = .next ((u.searched seg a).halt .vrtChainEndless)) : StuckEndless o u seg a := h

/-! ### Loads and stores -/

/-- An instruction that is a reference: the alignment check and the translation come first. -/
def RefForm.Refers (f : RefForm) (acc : Access) (s : State) : Prop :=
  ∃ ea k, f.ea = ea ∧ exec f.i s = reference f.width f.space acc ea s k

theorem loadForms_refer (x y : RegNo) (d : BitVec 16) (e : BitVec 32) (s : State) :
    ∀ f ∈ loadForms x y d e s, f.Refers .read s := by
  simp only [loadForms, List.forall_mem_cons, List.not_mem_nil, IsEmpty.forall_iff, implies_true, and_true]
  and_intros
  all_goals
    refine ⟨_, _, ?_, rfl⟩
    simp [State.eaDirect, State.eaIndexed, State.spaceBase, shortDisp]

theorem storeForms_refer (x y : RegNo) (d : BitVec 16) (e : BitVec 32) (s : State) :
    ∀ f ∈ storeForms x y d e s, f.Refers .write s := by
  simp only [storeForms, List.forall_mem_cons, List.not_mem_nil, IsEmpty.forall_iff, implies_true, and_true]
  and_intros
  all_goals
    refine ⟨_, _, ?_, rfl⟩
    simp [State.eaDirect, State.eaIndexed, State.spaceBase, shortDisp]

theorem storeForms_space (x y : RegNo) (d : BitVec 16) (e : BitVec 32) (s : State) :
    ∀ f ∈ storeForms x y d e s, f.space = .data := by
  simp only [storeForms, List.forall_mem_cons, List.not_mem_nil, IsEmpty.forall_iff, implies_true, and_true]

/-- A reference whose translation makes no further progress leaves the processor stuck. -/
theorem RefForm.Refers.stuck {f : RefForm} {acc : Access} {s t : State} {k : Stuck} (h : f.Refers acc s)
    (ha : f.ea.toNat % f.width.bytes = 0) (hl : s.locate f.space f.ea acc f.width.bytes = .stuck k t) :
    exec f.i s = .next (t.halt k) := by
  obtain ⟨_, _, rfl, hx⟩ := h
  rw [hx, reference_aligned (Width.aligned_iff.2 ha), hl]
  rfl

/-- A load or store whose TMT lookup makes no further progress. -/
theorem exec_form_stuck {x y : RegNo} {d : BitVec 16} {e : BitVec 32} {s t : State} {f : RefForm} {k : Stuck}
    (hf : f ∈ loadForms x y d e s ++ storeForms x y d e s) (ha : f.ea.toNat % f.width.bytes = 0) (hu : s.mode = .user)
    (hl : s.tmtLookup f.space f.ea = .stuck k t) : exec f.i s = .next (t.halt k) := by
  rcases List.mem_append.1 hf with hf | hf
  · exact (loadForms_refer x y d e s f hf).stuck ha (State.locate_stuck hu hl _ _)
  · exact (storeForms_refer x y d e s f hf).stuck ha (State.locate_stuck hu hl _ _)

/-! ### Instruction fetch -/

/-- A fetched halfword is two bytes, and the pc is as it was. -/
theorem fetchHalf_ok {p : Word} {s t : State} {bs : List Byte} (h : fetchHalf p s = .ok bs t) :
    (∃ b0 b1, bs = [b0, b1]) ∧ t.pc = s.pc := by
  obtain ⟨r, u, hl, h⟩ := Res.bind_eq_ok.1 h
  cases h
  exact ⟨⟨_, _, rfl⟩, (State.locate_frame (by rw [hl]; rfl) : SameButMemory s u).pc⟩

theorem fetchHalf_stuck {p : Word} {s t : State} {k : Stuck} (hu : s.mode = .user)
    (h : s.tmtLookup .code p = .stuck k t) : fetchHalf p s = .stuck k t := by
  unfold fetchHalf
  rw [State.locate_stuck hu h]
  rfl

/-- The address of the halfword j places after the second. -/
theorem add_two_halves (p : Word) (j : Nat) :
    p + 2 + BitVec.ofNat 32 (2 * j) = p + BitVec.ofNat 32 (2 * (j + 1)) := by
  rw [BitVec.add_assoc, show (2 : Word) = BitVec.ofNat 32 2 from rfl, ← BitVec.ofNat_add,
    show 2 + 2 * j = 2 * (j + 1) by omega]

/-- Of n halfwords j are fetched and the next one makes no further progress. -/
theorem fetchHalves_stuck {j n : Nat} {p : Word} {s t u : State} {bs : List Byte} {k : Stuck} (hj : j < n)
    (h : fetchHalves j p s = .ok bs t) (hs : fetchHalf (p + BitVec.ofNat 32 (2 * j)) t = .stuck k u) :
    fetchHalves n p s = .stuck k u := by
  induction j generalizing n p s bs with
  | zero =>
    obtain ⟨m, rfl⟩ := Nat.exists_eq_succ_of_ne_zero (Nat.ne_of_gt hj)
    cases h
    rw [show p + BitVec.ofNat 32 (2 * 0) = p from BitVec.add_zero p] at hs
    unfold fetchHalves
    rw [hs]
    rfl
  | succ j ih =>
    obtain ⟨m, rfl⟩ := Nat.exists_eq_succ_of_ne_zero (Nat.ne_of_gt (Nat.zero_lt_of_lt hj))
    unfold fetchHalves at h ⊢
    obtain ⟨b1, s1, h1, h⟩ := Res.bind_eq_ok.1 h
    obtain ⟨b2, s2, h2, h⟩ := Res.bind_eq_ok.1 h
    cases h
    rw [h1, Res.bind_ok, ih (Nat.lt_of_succ_lt_succ hj) h2 (add_two_halves p j ▸ hs)]
    rfl

theorem lengthOfFirstByte_even (b : Byte) : lengthOfFirstByte b % 2 = 0 := by
  unfold lengthOfFirstByte
  split
  · split <;> rfl
  · rfl

/-- A step makes no further progress where its next halfword does not (20_memory.md rule R113). -/
theorem State.FetchesUpTo.stuck {s t u : State} {a : Word} {k : Stuck} (h : s.FetchesUpTo t a)
    (hs : fetchHalf a t = .stuck k u) : step s = .next (u.halt k) := by
  obtain ⟨v, j, bs, hb, heven, hbs, rfl, hlen⟩ := h
  have hf : fetchBytes v = .stuck k u := by
    unfold fetchBytes
    rw [heven, if_neg Bool.false_ne_true]
    cases j with
    | zero =>
      cases hbs
      rw [show t.pc + BitVec.ofNat 32 (2 * 0) = t.pc from BitVec.add_zero _] at hs
      rw [hs]
      rfl
    | succ j =>
      obtain ⟨hl, hend⟩ := hlen.resolve_left (Nat.succ_ne_zero j)
      have hbs' := hbs
      unfold fetchHalves at hbs'
      obtain ⟨b1, s1, h1, h⟩ := Res.bind_eq_ok.1 hbs'
      obtain ⟨b2, s2, h2, h⟩ := Res.bind_eq_ok.1 h
      cases h
      obtain ⟨⟨c0, c1, rfl⟩, hpc⟩ := fetchHalf_ok h1
      simp only [List.cons_append, List.headD_cons] at hl hend
      have hn := lengthOfFirstByte_even c0
      rw [h1, Res.bind_ok]
      dsimp only [List.headD_cons]
      rw [hpc, if_neg (Nat.not_lt.2 hend), fetchHalves_stuck (j := j) (by omega) h2 (add_two_halves v.pc j ▸ hs)]
      rfl
  unfold step fetchRun
  rw [hb]
  dsimp only
  rw [hf]
  rfl

/-! ### The stuck processor -/

/-- A stuck processor takes off the schedule of the boundary, and no more. -/
theorem step_stuck {s : State} {k : Stuck} (hk : s.stuck = some k) (he : s.events = []) :
    step s = .next s.nextBoundary := by
  have hb : s.boundary = .ends (.next s.nextBoundary) := by
    unfold State.boundary
    rw [he]
    show s.nextBoundary.settle none = _
    exact if_pos (by rw [State.nextBoundary_stuck, hk]; rfl)
  unfold step
  rw [hb]

/-! ### The obligation -/

/-- The clause of O40 on searches: V = 0 and an endless chain, met after a TMT miss by a lookup, a load, a store or an
instruction fetch, and the endless chain also by a store to a clean page, by TRANS and by DIRT. -/
theorem searches_stop (s : State) (x y : RegNo) :
    (∀ (sp : Space) (a p w : Word), tmtHit (s.tmtEntry (tmtIndex sp a)) a = false →
      (s.vrtSearch (s.segment sp) a = .found p w → mbit w 30 = false →
        ∃ t, s.tmtLookup sp a = .stuck .vrtEntryInvalid t ∧ EntryMarked s t sp a p w ∧ SameButMemory s t) ∧
      (s.vrtSearch (s.segment sp) a = .endless →
        s.tmtLookup sp a = .stuck .vrtChainEndless
          { s with dataLines := (s.searched (s.segment sp) a).dataLines })) ∧
    (∀ (d : BitVec 16) (e : BitVec 32) (f : RefForm), f ∈ loadForms x y d e s ++ storeForms x y d e s →
      f.ea.toNat % f.width.bytes = 0 → s.mode = .user → tmtHit (s.tmtEntry (tmtIndex f.space f.ea)) f.ea = false →
      (∀ p w, s.vrtSearch (s.segment f.space) f.ea = .found p w → mbit w 30 = false →
        StuckInvalid (exec f.i s) s f.space f.ea p w) ∧
      (s.vrtSearch (s.segment f.space) f.ea = .endless → StuckEndless (exec f.i s) s (s.segment f.space) f.ea)) ∧
    (∀ (d : BitVec 16) (e : BitVec 32) (f : RefForm) (w : Word), f ∈ storeForms x y d e s →
      f.ea.toNat % f.width.bytes = 0 → s.mode = .user → s.tmtEntry (tmtIndex .data f.ea) = w → tmtHit w f.ea = true →
      mbit w 29 = true → mbit w 31 = false → s.vrtSearch (s.segment .data) f.ea = .endless →
      StuckEndless (exec f.i s) s (s.segment .data) f.ea) ∧
    (∀ (t : State) (a : Word), s.FetchesUpTo t a → t.mode = .user → tmtHit (t.tmtEntry (tmtIndex .code a)) a = false →
      (∀ p w, t.vrtSearch (t.segment .code) a = .found p w → mbit w 30 = false →
        StuckInvalid (step s) t .code a p w) ∧
      (t.vrtSearch (t.segment .code) a = .endless → StuckEndless (step s) t (t.segment .code) a)) ∧
    ∀ i, i ∈ [Instr.trans x y, .dirt x y] → s.mode = .kernel →
      s.vrtSearch ((s.reg y).extractLsb' 0 16) (s.reg (y + 1)) = .endless →
      StuckEndless (exec i s) s ((s.reg y).extractLsb' 0 16) (s.reg (y + 1)) := by
  refine ⟨fun sp a p w hmiss => ⟨fun hf hv => ?_, fun hf => State.tmtLookup_endless hmiss hf⟩,
    fun d e f hf ha hu hmiss => ⟨fun p w hs hv => ?_, fun hs => ?_⟩, fun d e f w hf ha hu hw hhit h29 h31 hs => ?_,
    fun t a ht hu hmiss => ⟨fun p w hs hv => ?_, fun hs => ?_⟩, fun i hi hk hs => ?_⟩
  · exact ⟨_, State.tmtLookup_invalid hmiss hf hv, s.entryMarked_marked sp a p w, s.entryMarked_frame sp a p w⟩
  · exact stuckInvalid_of (exec_form_stuck hf ha hu (State.tmtLookup_invalid hmiss hs hv))
  · exact stuckEndless_of (exec_form_stuck hf ha hu (State.tmtLookup_endless hmiss hs))
  · subst hw
    have hl := State.locate_dirty_endless hu hhit h29 h31 hs f.width.bytes
    rw [← storeForms_space x y d e s f hf] at hl ⊢
    exact stuckEndless_of ((storeForms_refer x y d e s f hf).stuck ha hl)
  · exact stuckInvalid_of (ht.stuck (fetchHalf_stuck hu (State.tmtLookup_invalid hmiss hs hv)))
  · exact stuckEndless_of (ht.stuck (fetchHalf_stuck hu (State.tmtLookup_endless hmiss hs)))
  · refine stuckEndless_of ?_
    have hstop : ∀ bits, translateInto x y bits s = _ := fun bits => translateInto_next.2 (.inr (.inl ⟨hs, rfl⟩))
    simp only [List.mem_cons, List.not_mem_nil, or_false] at hi
    rcases hi with rfl | rfl
    · show execTrans x y s = _
      exact (kernelOnly_kernel hk ..).trans (hstop _)
    · show execDirt x y s = _
      exact (kernelOnly_kernel hk ..).trans (hstop _)

/-- Settles O40: each operation of the list stops in its named fault or without further progress. -/
theorem namedStops : Obligations.NamedStops := by
  intro s x y
  refine ⟨⟨rfl, rfl⟩, fun h => jump_odd h _, fun h => jump_odd h _, fun hk h14 h => ?_, fun hk h => ?_,
    fun h => advance_noRoom h, fun e ret v h11 hv hodd => enter_oddVector h11 hv hodd ret,
    fun sp a acc n hk h => State.locate_beyond hk h sp acc, fun base offset w => ⟨fun h => ?_, fun h4 h => ?_⟩,
    fun i hi hk h14 => ⟨fun h => ?_, fun h4 h => ?_⟩, fun e ret h11 => enter_noCcb h11 e ret, searches_stop s x y,
    fun k hk he => step_stuck hk he⟩
  · show execRum x y s = _
    refine (kernelOnly_kernel hk ..).trans ?_
    unfold resumeUser
    rw [if_neg h14]
    exact jump_odd h _
  · show execTrapexit x s = _
    exact (kernelOnly_kernel hk ..).trans (jump_odd h _)
  · obtain ⟨hr, _, hw⟩ := State.struct_error (State.structAddr_misaligned (s := s) h offset)
    exact ⟨hr, hw w⟩
  · obtain ⟨hr, _, hw⟩ := State.struct_error (State.structAddr_beyond h4 h)
    exact ⟨hr, hw w⟩
  · exact exec_pcb_fault hi hk h14 (State.structAddr_misaligned h)
  · exact exec_pcb_fault hi hk h14 fun o => State.structAddr_beyond h4 (by omega)

end Sys2Proof.Machine
end

