-- ==== Sys2Proof/Proofs/VrtSearch.lean ====
section
/-! SUPPORT. The VRT search against the chain in memory: each step of the search by the entry it meets, the bound that
cuts off no chain that ends or matches, and the search as the relations `VrtLeads` and `VrtEnds`. -/

namespace Sys2Proof.Machine

/-! ### One entry of a chain -/

section Chain

variable {s : State} {seg : Half} {a : Word}

@[simp] theorem State.vrtChain_zero (s : State) (seg : Half) (a p : Word) : s.vrtChain seg a 0 p = .endless := rfl

theorem State.vrtChain_end (n : Nat) : s.vrtChain seg a (n + 1) 0 = .absent := if_pos rfl

theorem State.vrtChain_match {p m w : Word} (hp : p ≠ 0) (hm : s.ucodeRead p = .ok m) (hmatch : vrtMatches m seg a)
    (hw : s.ucodeRead (p + 8) = .ok w) (n : Nat) : s.vrtChain seg a (n + 1) p = .found p w := by
  rw [State.vrtChain, if_neg hp, hm]
  dsimp only
  rw [if_pos hmatch, hw]

theorem State.vrtChain_link {p m l : Word} (hp : p ≠ 0) (hm : s.ucodeRead p = .ok m) (hmatch : ¬vrtMatches m seg a)
    (hl : s.ucodeRead (p + 4) = .ok l) (n : Nat) : s.vrtChain seg a (n + 1) p = s.vrtChain seg a n l := by
  rw [State.vrtChain, if_neg hp, hm]
  dsimp only
  rw [if_neg hmatch, hl]

/-- The entry at `p` does not match, and `l` is its Link Word. -/
def State.VrtLinks (s : State) (seg : Half) (a p l : Word) : Prop :=
  p ≠ 0 ∧ ∃ m, s.ucodeRead p = .ok m ∧ ¬vrtMatches m seg a ∧ s.ucodeRead (p + 4) = .ok l

/-- What the search does at an entry, whatever bound is left: it ends, or goes on to the next entry. -/
theorem State.vrtChain_cases (s : State) (seg : Half) (a p : Word) :
    (p = 0 ∧ ∀ n, s.vrtChain seg a (n + 1) p = .absent) ∨
    (∃ f, ∀ n, s.vrtChain seg a (n + 1) p = .fault f) ∨
    (∃ w, VrtLeads s seg a p p ∧ s.ucodeRead (p + 8) = .ok w ∧ ∀ n, s.vrtChain seg a (n + 1) p = .found p w) ∨
    ∃ l, s.VrtLinks seg a p l ∧ ∀ n, s.vrtChain seg a (n + 1) p = s.vrtChain seg a n l := by
  by_cases hp : p = 0
  · subst hp
    exact .inl ⟨rfl, State.vrtChain_end⟩
  refine .inr ?_
  cases hm : s.ucodeRead p with
  | error f => exact .inl ⟨f, fun n => by rw [State.vrtChain, if_neg hp, hm]⟩
  | ok m =>
    by_cases hmatch : vrtMatches m seg a
    · cases hw : s.ucodeRead (p + 8) with
      | error f =>
        refine .inl ⟨f, fun n => ?_⟩
        rw [State.vrtChain, if_neg hp, hm]
        dsimp only
        rw [if_pos hmatch, hw]
      | ok w => exact .inr (.inl ⟨w, .here p m hp hm hmatch, rfl, State.vrtChain_match hp hm hmatch hw⟩)
    · cases hl : s.ucodeRead (p + 4) with
      | error f =>
        refine .inl ⟨f, fun n => ?_⟩
        rw [State.vrtChain, if_neg hp, hm]
        dsimp only
        rw [if_neg hmatch, hl]
      | ok l => exact .inr (.inr ⟨l, ⟨hp, m, hm, hmatch, hl⟩, State.vrtChain_link hp hm hmatch hl⟩)

/-- For the length of a search: an entry ends it, whatever may follow, or links to the next one. -/
theorem State.vrtChain_ends_or_links (s : State) (seg : Half) (a p : Word) :
    (∃ r, r ≠ .endless ∧ ∀ n, s.vrtChain seg a (n + 1) p = r) ∨
    ∃ l, s.VrtLinks seg a p l ∧ ∀ n, s.vrtChain seg a (n + 1) p = s.vrtChain seg a n l := by
  rcases s.vrtChain_cases seg a p with ⟨_, h⟩ | ⟨f, h⟩ | ⟨w, _, _, h⟩ | h
  · exact .inl ⟨.absent, nofun, h⟩
  · exact .inl ⟨.fault f, nofun, h⟩
  · exact .inl ⟨.found p w, nofun, h⟩
  · exact .inr h

/-! ### The bound on a search -/

/-- A search that has ended within n entries ends in the same way within more. -/
theorem State.vrtChain_mono {n k : Nat} {p : Word} (h : s.vrtChain seg a n p ≠ .endless) (hk : n ≤ k) :
    s.vrtChain seg a k p = s.vrtChain seg a n p := by
  induction n generalizing k p with
  | zero => exact absurd rfl h
  | succ n ih =>
    obtain ⟨k, rfl⟩ := Nat.exists_eq_add_of_le' (Nat.zero_lt_of_lt hk)
    rcases s.vrtChain_ends_or_links seg a p with ⟨r, _, hr⟩ | ⟨l, _, hl⟩
    · rw [hr, hr]
    · rw [hl] at h ⊢
      rw [hl]
      exact ih h (Nat.le_of_succ_le_succ hk)

/-- The search from `p` ends within n entries, and not within fewer. -/
def State.VrtLength (s : State) (seg : Half) (a : Word) (n : Nat) (p : Word) : Prop :=
  s.vrtChain seg a n p ≠ .endless ∧ ∀ k < n, s.vrtChain seg a k p = .endless

theorem State.VrtLength.unique {n k : Nat} {p : Word} (hn : s.VrtLength seg a n p) (hk : s.VrtLength seg a k p) :
    n = k := by
  rcases Nat.lt_trichotomy n k with h | h | h
  · exact absurd (hk.2 n h) hn.1
  · exact h
  · exact absurd (hn.2 k h) hk.1

/-- An entry that does not end the search lies in installed memory, and the next entry is nearer to the end. -/
theorem State.VrtLength.next {n : Nat} {p : Word} (h : s.VrtLength seg a (n + 2) p) :
    p.toNat < s.cfg.memSize.toNat ∧ ∃ l, s.VrtLength seg a (n + 1) l := by
  rcases s.vrtChain_ends_or_links seg a p with ⟨r, hr, he⟩ | ⟨l, ⟨_, m, hm, _⟩, hl⟩
  · exact absurd (he 0 ▸ h.2 1 (by omega)) hr
  · obtain ⟨_, hin, _⟩ := State.ucodeRead_ok hm
    have := State.inMem_iff.1 hin
    exact ⟨by omega, l, hl _ ▸ h.1, fun k hk => hl k ▸ h.2 (k + 1) (by omega)⟩

/-- On a chain of n entries there is for each smaller length but 1 an entry of installed memory. -/
theorem State.VrtLength.entry {n j : Nat} {p : Word} (h : s.VrtLength seg a n p) (hj : 2 ≤ j) (hjn : j ≤ n) :
    ∃ k < s.cfg.memSize.toNat, s.VrtLength seg a j (BitVec.ofNat 32 k) := by
  induction n, hjn using Nat.le_induction generalizing p with
  | base =>
    obtain ⟨j, rfl⟩ := Nat.exists_eq_add_of_le' hj
    exact ⟨p.toNat, h.next.1, by rwa [BitVec.ofNat_toNat, BitVec.setWidth_eq]⟩
  | succ n hjn ih =>
    obtain ⟨n, rfl⟩ := Nat.exists_eq_add_of_le' (Nat.le_trans (show 1 ≤ 2 by decide) (Nat.le_trans hj hjn))
    obtain ⟨l, hl⟩ := h.next.2
    exact ih hl

/-- Entries of different lengths are different addresses, so no length exceeds the number of real addresses by more
than one. -/
theorem State.VrtLength.le {n : Nat} {p : Word} (h : s.VrtLength seg a n p) : n ≤ s.cfg.memSize.toNat + 1 := by
  have hcard : (Finset.Icc 2 n).card ≤ (Finset.range s.cfg.memSize.toNat).card := by
    refine Finset.card_le_card_of_forall_subsingleton (fun j k => s.VrtLength seg a j (BitVec.ofNat 32 k)) ?_ ?_
    · intro j hj
      obtain ⟨h2, hn⟩ := Finset.mem_Icc.1 hj
      obtain ⟨k, hk, hjk⟩ := h.entry h2 hn
      exact ⟨k, Finset.mem_range.2 hk, hjk⟩
    · exact fun k _ i hi j hj => hi.2.unique hj.2
  rw [Nat.card_Icc, Finset.card_range] at hcard
  omega

/-- The bound on the search cuts off no chain that ends or matches (20_memory.md rule R104). -/
theorem State.vrtChain_bound {n : Nat} {p : Word} (h : s.vrtChain seg a n p ≠ .endless) :
    s.vrtChain seg a (s.cfg.memSize.toNat + 1) p = s.vrtChain seg a n p := by
  classical
  have hex : ∃ k, s.vrtChain seg a k p ≠ .endless := ⟨n, h⟩
  have hlen : s.VrtLength seg a (Nat.find hex) p := ⟨Nat.find_spec hex, fun k hk => not_not.1 (Nat.find_min hex hk)⟩
  rw [State.vrtChain_mono hlen.1 hlen.le, State.vrtChain_mono hlen.1 (Nat.find_min' hex h)]

/-! ### The chain as a relation -/

theorem State.vrtLeads_of_found {n : Nat} {p q w : Word} (h : s.vrtChain seg a n p = .found q w) :
    VrtLeads s seg a p q := by
  induction n generalizing p with
  | zero => cases h
  | succ n ih =>
    rcases s.vrtChain_cases seg a p with ⟨_, e⟩ | ⟨f, e⟩ | ⟨w, hp, _, e⟩ | ⟨l, ⟨hp, m, hm, hmatch, hl⟩, e⟩
    all_goals rw [e] at h
    · cases h
    · cases h
    · cases h
      exact hp
    · exact .link p m l q hp hm hmatch hl (ih h)

theorem State.vrtEnds_of_absent {n : Nat} {p : Word} (h : s.vrtChain seg a n p = .absent) : VrtEnds s seg a p := by
  induction n generalizing p with
  | zero => cases h
  | succ n ih =>
    rcases s.vrtChain_cases seg a p with ⟨rfl, _⟩ | ⟨f, e⟩ | ⟨w, _, _, e⟩ | ⟨l, ⟨hp, m, hm, hmatch, hl⟩, e⟩
    · exact .zero
    all_goals rw [e] at h
    · cases h
    · cases h
    · exact .link p m l hp hm hmatch hl (ih h)

theorem State.exists_found_of_vrtLeads {p q w : Word} (h : VrtLeads s seg a p q) (hw : s.ucodeRead (q + 8) = .ok w) :
    ∃ n, s.vrtChain seg a n p = .found q w := by
  induction h with
  | here p m hp hm hmatch => exact ⟨1, State.vrtChain_match hp hm hmatch hw 0⟩
  | link p m l q hp hm hmatch hl _ ih =>
    obtain ⟨n, hn⟩ := ih hw
    exact ⟨n + 1, (State.vrtChain_link hp hm hmatch hl n).trans hn⟩

theorem State.exists_absent_of_vrtEnds {p : Word} (h : VrtEnds s seg a p) : ∃ n, s.vrtChain seg a n p = .absent := by
  induction h with
  | zero => exact ⟨1, State.vrtChain_end 0⟩
  | link p m l hp hm hmatch hl _ ih =>
    obtain ⟨n, hn⟩ := ih
    exact ⟨n + 1, (State.vrtChain_link hp hm hmatch hl n).trans hn⟩

end Chain

/-! ### The search -/

/-- The hash slot of rule R104, with the page number as a shifted address. -/
theorem State.vrtSlot_eq (s : State) (seg : Half) (a : Word) :
    s.vrtSlot seg a = ((zext seg + a >>> 12) &&& s.sreg 13) <<< 2 := by
  have hpage : zext (a.extractLsb' 12 20) = a >>> 12 := by
    apply BitVec.eq_of_toNat_eq
    simp
    omega
  rw [State.vrtSlot, hpage]

/-- The search from the pointer in the hash slot answers what the chain from it holds. -/
theorem State.vrtSearch_eq {s : State} {seg : Half} {a p : Word}
    (hp : s.structRead (s.sreg 12) (((zext seg + a >>> 12) &&& s.sreg 13) <<< 2) = .ok p) :
    s.vrtSearch seg a = s.vrtChain seg a (s.cfg.memSize.toNat + 1) p := by
  rw [State.vrtSearch, State.vrtSlot_eq, hp]

theorem State.vrtSearch_eq_found {s : State} {seg : Half} {a p q w : Word}
    (hp : s.structRead (s.sreg 12) (((zext seg + a >>> 12) &&& s.sreg 13) <<< 2) = .ok p) :
    s.vrtSearch seg a = .found q w ↔ VrtLeads s seg a p q ∧ s.ucodeRead (q + 8) = .ok w := by
  rw [State.vrtSearch_eq hp]
  refine ⟨fun h => ⟨State.vrtLeads_of_found h, State.vrtChain_found h⟩, fun ⟨hl, hw⟩ => ?_⟩
  obtain ⟨n, hn⟩ := State.exists_found_of_vrtLeads hl hw
  exact (State.vrtChain_bound (by rw [hn]; nofun)).trans hn

theorem State.vrtSearch_eq_absent {s : State} {seg : Half} {a p : Word}
    (hp : s.structRead (s.sreg 12) (((zext seg + a >>> 12) &&& s.sreg 13) <<< 2) = .ok p) :
    s.vrtSearch seg a = .absent ↔ VrtEnds s seg a p := by
  rw [State.vrtSearch_eq hp]
  refine ⟨State.vrtEnds_of_absent, fun h => ?_⟩
  obtain ⟨n, hn⟩ := State.exists_absent_of_vrtEnds h
  exact (State.vrtChain_bound (by rw [hn]; nofun)).trans hn

/-- Settles O15: the search and the chain go the same way entry by entry, and a chain that ends or matches visits no
address twice, so that it is shorter than the bound. -/
theorem vrtSearchFollowsTheChain : Obligations.VrtSearchFollowsTheChain :=
  fun _ _ _ _ hp => ⟨fun _ _ => State.vrtSearch_eq_found hp, State.vrtSearch_eq_absent hp⟩

end Sys2Proof.Machine
end

