-- ==== Sys2Proof/Proofs/References.lean ====
section
/-! SUPPORT. References: the fields of an address and of a TMT entry as numbers, what a lookup and a translation answer
in each case, and the events that loads, stores and instruction fetches take before they access memory. -/

namespace Sys2Proof.Machine

/-! ### The fields of an address and of a TMT entry (20_memory.md rules R97, R98, R100) -/

theorem tmtIndex_eq (sp : Space) (a : Word) :
    tmtIndex sp a = (if sp = .code then 0 else 512) + a.toNat / 4096 % 512 := by
  have hbits : (a.extractLsb' 12 9).toNat = a.toNat / 4096 % 512 := by
    rw [BitVec.extractLsb'_toNat, Nat.shiftRight_eq_div_pow]
  cases sp <;> simp [tmtIndex, hbits]

theorem tmtHit_iff {e a : Word} :
    tmtHit e a = true ↔ mbit e 30 = true ∧ e.toNat / 32 % 2048 = a.toNat / 2 ^ 21 := by
  have htag : a.toNat / 2 ^ 21 % 2 ^ 11 = a.toNat / 2 ^ 21 := by omega
  rw [tmtHit, Bool.and_eq_true, beq_iff_eq, ← BitVec.toNat_inj, BitVec.extractLsb'_toNat, BitVec.extractLsb'_toNat,
    Nat.shiftRight_eq_div_pow, Nat.shiftRight_eq_div_pow, htag]

theorem physAddr_toNat (e a : Word) :
    (physAddr e a).toNat = e.toNat / 2 ^ 16 % 2 ^ 15 * 4096 + a.toNat % 4096 := by
  have hlow : a.toNat % 4096 < 2 ^ 12 := Nat.mod_lt _ (by decide)
  rw [physAddr, zext, BitVec.toNat_setWidth, BitVec.toNat_append, BitVec.extractLsb'_toNat, BitVec.extractLsb'_toNat,
    Nat.shiftRight_eq_div_pow, Nat.shiftRight_zero, ← Nat.shiftLeft_add_eq_or_of_lt hlow, Nat.shiftLeft_eq]
  omega

/-! ### Lookup -/

section Lookup

variable {s t : State} {sp : Space} {a q w e : Word}

theorem State.tmtLookup_hit (h : tmtHit (s.tmtEntry (tmtIndex sp a)) a = true) :
    s.tmtLookup sp a = .ok (s.tmtEntry (tmtIndex sp a)) s := if_pos h

/-- A miss loads the TMT entry from the VRT (20_memory.md rules R104, R107). -/
theorem State.tmtLookup_found (hmiss : tmtHit (s.tmtEntry (tmtIndex sp a)) a = false)
    (hf : s.vrtSearch (s.segment sp) a = .found q w) (hv : mbit w 30 = true) :
    s.tmtLookup sp a = .ok (w ||| bitR) (s.entryMarked sp a q w) := by
  unfold State.tmtLookup
  simp only [hmiss, hf, hv, Bool.false_eq_true, if_false, if_true]
  rfl

/-- A miss with no VRT entry is a page fault (20_memory.md rules R104, R108). -/
theorem State.tmtLookup_absent (hmiss : tmtHit (s.tmtEntry (tmtIndex sp a)) a = false)
    (hf : s.vrtSearch (s.segment sp) a = .absent) :
    s.tmtLookup sp a = .event (.pageFault .absent (s.segment sp) a) (s.searched (s.segment sp) a) := by
  unfold State.tmtLookup
  simp only [hmiss, hf, Bool.false_eq_true, if_false]

/-- A lookup changes memory, the data lines and the TMT only. -/
theorem State.tmtLookup_frame (h : s.tmtLookup sp a = .ok w t) : SameButMemory s t := by
  rcases s.tmtLookup_cases sp a with ⟨_, e⟩ | ⟨f, e⟩ | ⟨_, e⟩ | ⟨_, e⟩ | ⟨p, v, _, e⟩ <;> rw [e] at h
  · cases h
    exact .refl s
  · cases h
  · cases h
  · cases h
  · split at h
    · cases h
      exact s.entryMarked_frame sp a p v
    · cases h

/-! ### Translation (20_memory.md rule R100) -/

theorem State.translate_permitted {acc : Access} (hl : s.tmtLookup sp a = .ok e t)
    (h : acc = .write → mbit e 29 = true ∧ mbit e 31 = true) : s.translate sp a acc = .ok (physAddr e a) t := by
  have h29 : ¬(acc = .write ∧ mbit e 29 = false) := fun ⟨hw, h29⟩ => absurd ((h hw).1.symm.trans h29) (by decide)
  have h31 : ¬(acc = .write ∧ mbit e 31 = false) := fun ⟨hw, h31⟩ => absurd ((h hw).2.symm.trans h31) (by decide)
  rw [State.translate, hl, Res.bind_ok, if_neg h29, if_neg h31]

theorem State.translate_protected (hl : s.tmtLookup sp a = .ok e t) (h : mbit e 29 = false) :
    s.translate sp a .write = .event (.pageFault .writeProtected (t.segment sp) a) t := by
  rw [State.translate, hl, Res.bind_ok, if_pos ⟨rfl, h⟩]

/-- A store to a clean page marks its VRT and TMT entries (20_memory.md rule R109). -/
theorem State.translate_clean (hl : s.tmtLookup sp a = .ok e t) (h29 : mbit e 29 = true) (h31 : mbit e 31 = false)
    (hf : t.vrtSearch (t.segment sp) a = .found q w) :
    s.translate sp a .write = .ok (physAddr e a)
      (((t.searched (t.segment sp) a).markEntry q w (bitR ||| bitD)).setTmt (tmtIndex sp a) (e ||| bitD)) := by
  have hm : t.markDirty sp a e = .ok () (((t.searched (t.segment sp) a).markEntry q w (bitR ||| bitD)).setTmt
      (tmtIndex sp a) (e ||| bitD)) := by
    unfold State.markDirty
    simp only [hf]
  rw [State.translate, hl, Res.bind_ok, h29, if_neg (by simp), if_pos ⟨rfl, h31⟩, hm, Res.bind_ok]

theorem State.translate_event {acc : Access} {ev : Event} (h : s.tmtLookup sp a = .event ev t) :
    s.translate sp a acc = .event ev t := by
  rw [State.translate, h, Res.bind_event]

theorem State.locate_user (hu : s.mode = .user) (acc : Access) (n : Nat) :
    s.locate sp a acc n =
      (s.translate sp a acc).bind fun r u => if u.inMem r n then .ok r u else .fault .noMemory := by
  rw [State.locate, State.realAddr, hu]

theorem State.locate_event {acc : Access} {ev : Event} (hu : s.mode = .user) (h : s.translate sp a acc = .event ev t)
    (n : Nat) : s.locate sp a acc n = .event ev t := by
  rw [State.locate_user hu, h, Res.bind_event]

/-- Bits set in the VRT entry at `p` after a search, and a TMT entry written: the TMT Word, every other byte, the TMT,
and the rest of the state. -/
theorem State.markEntry_setTmt (s : State) (seg : Half) (a p w bits : Word) (i : Nat) {e : Word} (he : e ≠ 0) :
    let t := ((s.searched seg a).markEntry p w bits).setTmt i e
    t.mainWord (p + 8).toNat = w ||| bits ∧
    (∀ b, b < (p + 8).toNat ∨ (p + 8).toNat + 4 ≤ b → t.mainByte b = s.mainByte b) ∧
    (∀ n, t.tmtEntry n = if n = i then e else s.tmtEntry n) ∧ SameButMemory s t := by
  refine ⟨?_, fun b hb => ?_, fun n => ?_, ?_⟩
  · exact State.mainWord_storeBytes_same (s.searched seg a) (p + 8).toNat (w ||| bits)
  · refine (State.mainByte_storeBytes_other _ _ _ ?_).trans (State.mainByte_searched ..)
    rwa [bytesOfWord_length]
  · rw [State.tmtEntry_setTmt_nonzero _ _ he, State.tmtEntry_markEntry]
    rfl
  · exact (SameButMemory.searched s _ _).trans ((SameButMemory.storeBytes _ _ _).trans (SameButMemory.setTmt _ _ _))

/-- A TMT entry with its D bit is not 0. -/
theorem or_bitD_ne_zero (w : Word) : w ||| bitD ≠ 0 := by
  intro h
  have h0 : (w ||| bitD)[0] = true := by simp [bitD]
  rw [h] at h0
  exact absurd h0 (by decide)

end Lookup

/-- Settles O11: a hit gives the entry without a change, and the fields of the entry and the address are the numbers of
the statement. -/
theorem tmtHitTranslates : Obligations.TmtHitTranslates := by
  refine ⟨fun s sp a acc n hk hn => ?_, fun s sp a r acc n hu => ?_⟩
  · rw [State.locate_kernel hk, if_pos (State.inMem_iff.2 hn)]
  · rw [← tmtIndex_eq]
    intro e h30 htag hw hr hn
    have hl : s.tmtLookup sp a = .ok e s := State.tmtLookup_hit (tmtHit_iff.2 ⟨h30, htag⟩)
    have hphys : physAddr e a = r := BitVec.eq_of_toNat_eq ((physAddr_toNat e a).trans hr.symm)
    rw [State.locate_user hu, State.translate_permitted hl hw, Res.bind_ok, hphys, if_pos (State.inMem_iff.2 hn)]

/-- Settles O12: the search finds the entry to which the chain leads, and the miss marks it. -/
theorem tmtMissLoadsTheEntry : Obligations.TmtMissLoadsTheEntry := by
  intro s sp a p q w hmiss hp hq hw hv _ _
  have hf := (State.vrtSearch_eq_found hp).2 ⟨hq, hw⟩
  exact ⟨_, State.tmtLookup_found hmiss hf hv, s.markEntry_setTmt _ a q w bitR _ (or_bitR_ne_zero w)⟩

/-- Settles O13: the search for the clean page finds the entry to which the chain leads, and the store marks it. -/
theorem storesMarkPagesDirty : Obligations.StoresMarkPagesDirty := by
  intro s sp a p q w _ e hhit h29 h31 hp hq hw _ _
  have hf := (State.vrtSearch_eq_found hp).2 ⟨hq, hw⟩
  exact ⟨_, State.translate_clean (State.tmtLookup_hit hhit) h29 h31 hf,
    s.markEntry_setTmt _ a q w (bitR ||| bitD) _ (or_bitD_ne_zero e)⟩

/-! ### Events of loads and stores (40_memory_reference.md rule R182) -/

/-- Settles O10: the alignment check comes first. -/
theorem misalignedReferencesTrap : Obligations.MisalignedReferencesTrap := by
  intro s x y d e f v hf ha hv
  have traps : ∀ acc, f.Refers acc s → exec f.i s = raise (.dataAlignment (s.segment f.space) f.ea) s := by
    rintro acc ⟨_, _, rfl, hx⟩
    rw [hx, reference_misaligned (decide_eq_false ha)]
  rw [← raise_vector hv]
  rcases List.mem_append.1 hf with hf | hf
  · exact traps _ (loadForms_refer x y d e s f hf)
  · exact traps _ (storeForms_refer x y d e s f hf)

/-- A reference whose translation takes an event. -/
theorem RefForm.Refers.event {f : RefForm} {acc : Access} {s t : State} {ev : Event} (h : f.Refers acc s)
    (ha : f.ea.toNat % f.width.bytes = 0) (hu : s.mode = .user) (ht : s.translate f.space f.ea acc = .event ev t) :
    exec f.i s = raise ev t := by
  obtain ⟨_, _, rfl, hx⟩ := h
  rw [hx, reference_aligned (Width.aligned_iff.2 ha), State.locate_event hu ht, Res.finish_event]

/-- A load or store with no TMT hit and no VRT entry. -/
theorem exec_form_absent {s : State} {x y : RegNo} {d : BitVec 16} {e : BitVec 32} {f : RefForm}
    (hf : f ∈ loadForms x y d e s ++ storeForms x y d e s) (ha : f.ea.toNat % f.width.bytes = 0) (hu : s.mode = .user)
    (hmiss : tmtHit (s.tmtEntry (tmtIndex f.space f.ea)) f.ea = false)
    (hs : s.vrtSearch (s.segment f.space) f.ea = .absent) :
    exec f.i s =
      raise (.pageFault .absent (s.segment f.space) f.ea) (s.searched (s.segment f.space) f.ea) := by
  have hl := State.tmtLookup_absent hmiss hs
  rcases List.mem_append.1 hf with hf | hf
  · exact (loadForms_refer x y d e s f hf).event ha hu (State.translate_event hl)
  · exact (storeForms_refer x y d e s f hf).event ha hu (State.translate_event hl)

/-- A store to a page whose TMT entry has the write bit clear. -/
theorem exec_store_protected {s t : State} {x y : RegNo} {d : BitVec 16} {e : BitVec 32} {f : RefForm} {w : Word}
    (hf : f ∈ storeForms x y d e s) (ha : f.ea.toNat % f.width.bytes = 0) (hu : s.mode = .user)
    (hl : s.tmtLookup .data f.ea = .ok w t) (h29 : mbit w 29 = false) :
    exec f.i s = raise (.pageFault .writeProtected (s.segment .data) f.ea) t := by
  rw [← (State.tmtLookup_frame hl).segment]
  refine (storeForms_refer x y d e s f hf).event ha hu ?_
  rw [storeForms_space x y d e s f hf]
  exact State.translate_protected hl h29

/-! ### Events of an instruction fetch (20_memory.md rule R113) -/

/-- A result after which nothing follows: an event, no further progress or a fault. -/
def Res.Final {α : Type} (r : Res α) : Prop := ∀ f : α → State → Res α, r.bind f = r

theorem Res.final_event {α : Type} (e : Event) (s : State) : (Res.event e s : Res α).Final := fun _ => rfl

/-- Of n halfwords j are fetched and the next one ends the fetch. -/
theorem fetchHalves_final {j n : Nat} {p : Word} {s t : State} {bs : List Byte} {r : Res (List Byte)} (hr : r.Final)
    (hj : j < n) (h : fetchHalves j p s = .ok bs t) (hs : fetchHalf (p + BitVec.ofNat 32 (2 * j)) t = r) :
    fetchHalves n p s = r := by
  induction j generalizing n p s bs with
  | zero =>
    obtain ⟨m, rfl⟩ := Nat.exists_eq_succ_of_ne_zero (Nat.ne_of_gt hj)
    cases h
    rw [show p + BitVec.ofNat 32 (2 * 0) = p from BitVec.add_zero p] at hs
    rw [fetchHalves, hs, hr]
  | succ j ih =>
    obtain ⟨m, rfl⟩ := Nat.exists_eq_succ_of_ne_zero (Nat.ne_of_gt (Nat.zero_lt_of_lt hj))
    rw [fetchHalves] at h ⊢
    obtain ⟨b1, s1, h1, h⟩ := Res.bind_eq_ok.1 h
    obtain ⟨b2, s2, h2, h⟩ := Res.bind_eq_ok.1 h
    cases h
    rw [h1, Res.bind_ok, ih (Nat.lt_of_succ_lt_succ hj) h2 (add_two_halves p j ▸ hs), hr]

/-- A fetch ends where its next halfword does. -/
theorem State.FetchesUpTo.fetchBytes_final {s t : State} {a : Word} {r : Res (List Byte)} (h : s.FetchesUpTo t a)
    (hr : r.Final) (hs : fetchHalf a t = r) : ∃ u, s.boundary = .run u ∧ fetchBytes u = r := by
  obtain ⟨v, j, bs, hb, heven, hbs, rfl, hlen⟩ := h
  refine ⟨v, hb, ?_⟩
  rw [fetchBytes, heven, if_neg Bool.false_ne_true]
  cases j with
  | zero =>
    cases hbs
    rw [show t.pc + BitVec.ofNat 32 (2 * 0) = t.pc from BitVec.add_zero _] at hs
    rw [hs, hr]
  | succ j =>
    obtain ⟨hl, hend⟩ := hlen.resolve_left (Nat.succ_ne_zero j)
    rw [fetchHalves] at hbs
    obtain ⟨b1, s1, h1, h⟩ := Res.bind_eq_ok.1 hbs
    obtain ⟨b2, s2, h2, h⟩ := Res.bind_eq_ok.1 h
    cases h
    obtain ⟨⟨c0, c1, rfl⟩, hpc⟩ := fetchHalf_ok h1
    simp only [List.cons_append, List.headD_cons] at hl hend
    have heven := lengthOfFirstByte_even c0
    rw [h1, Res.bind_ok]
    dsimp only [List.headD_cons]
    rw [hpc, if_neg (Nat.not_lt.2 hend),
      fetchHalves_final (j := j) hr (by omega) h2 (add_two_halves v.pc j ▸ hs), hr]

/-- The halfwords that a step in user mode has fetched leave mode, pc and special registers as they were. -/
theorem State.FetchesUpTo.sameControl {s t : State} {a : Word} (h : s.FetchesUpTo t a) (hu : t.mode = .user) :
    SameControl s t := by
  obtain ⟨v, j, bs, hb, _, hbs, _⟩ := h
  have hK := SameControl.kept v
  have hvt : SameControl v t :=
    fetchHalves_induct (by rw [hbs]; rfl) (.refl v) hK.search hK.mark fun _ a => hK.line _ .fetch a
  obtain ⟨v0, hv0, _, _, hp, _⟩ := State.boundary_run hb
  have hv0v := SameControl.pending_none hp
  have hm : s.nextBoundary.mode = .user :=
    ((State.inputAll_mode hv0).symm.trans hv0v.mode.symm).trans (hvt.mode.symm.trans hu)
  have hs : SameControl s s.nextBoundary := ⟨rfl, rfl, rfl, rfl, rfl⟩
  exact ((hs.trans (SameControl.inputAll hm hv0)).trans hv0v).trans hvt

/-- A step takes the event that its next halfword takes. -/
theorem State.FetchesUpTo.step_event {s t u : State} {a : Word} {ev : Event} (h : s.FetchesUpTo t a)
    (hu : t.mode = .user) (hl : t.tmtLookup .code a = .event ev u) : step s = raise ev u := by
  have hs : fetchHalf a t = .event ev u := by
    rw [fetchHalf, State.locate_event hu (State.translate_event hl), Res.bind_event]
  obtain ⟨v, hb, hf⟩ := h.fetchBytes_final (Res.final_event ev u) hs
  unfold step fetchRun
  rw [hb]
  dsimp only
  rw [hf, Res.finish_event]

/-- Settles O14: the search finds nothing where the chain ends, and each access takes the event of its lookup. -/
theorem referencesPageFault : Obligations.ReferencesPageFault := by
  refine ⟨fun s x y d e f p v hf ha hu hmiss hp hend hv => ?_,
    fun s s1 x y d e f w v hf ha hu hl h29 hv => ?_, fun s t a p v hft hu hmiss hp hend hv => ?_⟩
  · rw [exec_form_absent hf ha hu hmiss ((State.vrtSearch_eq_absent hp).2 hend), raise_vector hv]
    rfl
  · rw [exec_store_protected hf ha hu hl h29, raise_vector hv, (State.tmtLookup_frame hl).pc]
  · have hl := State.tmtLookup_absent hmiss ((State.vrtSearch_eq_absent hp).2 hend)
    rw [hft.step_event hu hl, raise_vector hv, ← (hft.sameControl hu).pc]
    rfl

end Sys2Proof.Machine
end

