-- ==== Sys2Proof/Proofs/Fetch.lean ====
section
/-! SUPPORT. Instruction fetch in kernel mode: the decoder on an encoded instruction, reads of code that the lines
filled by earlier reads of the same instruction do not disturb, and the bytes that a fetch delivers. -/

namespace Sys2Proof

open Sys2Proof.Config

/-! ### The decoder on an encoded instruction -/

/-- A well-formed instruction by its format: its displacement, and the instruction that its opcode builds from it. -/
theorem Instr.parts_cases {i : Instr} (hi : i.wellFormed = true) :
    (i.parts.opcode.format = .register ∧ i.parts.disp = [] ∧ i.parts.opcode.build i.parts.x i.parts.y 0 0 = i) ∨
    (∃ d, i.parts.opcode.format = .short ∧ i.parts.disp = bytesOfHalf d ∧
      i.parts.opcode.build i.parts.x i.parts.y d 0 = i) ∨
    ∃ d, i.parts.opcode.format = .long ∧ i.parts.disp = bytesOfWord d ∧
      i.parts.opcode.build i.parts.x i.parts.y 0 d = i := by
  cases i with
  | moverr | neg | not | add | sub | mpy | div | rem | and | or | xor | nop | eadd | esub | empy | ediv | fixt |
  fixr | float | makerd | makedr | radd | rsub | rmpy | rdiv | rneg | rcomp | dfixt | dfixr | dfloat | dradd |
  drsub | drmpy | drdiv | drneg | drcomp | cbit | sbit | tbit | lcomp | dcomp | csl | lsl | lsr | asl | asr | dlsl
  | dlsr | seb | seh | callr | ret | chk | sus | lus | ldregs | rum | movesr | movers | trans | dirt | read |
  write | testGt | testEq | testLt | testLe | testGe | testNe | moveri | noti | addi | subi | andi | mpyi | csli |
  lsli | lsri | asli | asri | dlsli | dlsri | chki | trap | testiGt | testiEq | testiLt | testiLe | testiGe |
  testiNe | elogr | elogw | twrited | flush | trapexit | itest | machineid | version | creg | rdlog =>
    exact .inl ⟨rfl, rfl, rfl⟩
  | load | loadx | loadp | loadpx | loadh | loadhx | loadhp | loadhpx | loadb | loadbx | loadbp | loadbpx | loadd |
  loaddx | loaddp | loaddpx | store | storex | storeh | storehx | storeb | storebx | stored | storedx | laddr |
  laddrx | laddrp | laddrpx | br | brGt | brEq | brLe | brNe | briGt | briLt | briEq | briLe | briGe | briNe |
  call | loop =>
    rename_i x y d
    exact .inr (.inl ⟨d, rfl, rfl, rfl⟩)
  | loadl | loadlx | loadpl | loadplx | loadhl | loadhlx | loadhpl | loadhplx | loadbl | loadblx | loadbpl |
  loadbplx | loaddl | loaddlx | loaddpl | loaddplx | storel | storelx | storehl | storehlx | storebl | storeblx |
  storedl | storedlx | laddrl | laddrlx | laddrpl | laddrplx | brl | brGtL | brEqL | brLeL | brNeL | briGtL |
  briLtL | briEqL | briLeL | briGeL | briNeL | calll | loopl =>
    rename_i x y d
    exact .inr (.inr ⟨d, rfl, rfl, rfl⟩)
  | kcall n =>
    obtain ⟨_, _, hdisp, hbuild⟩ := Laws.Parts.kcall n hi
    exact .inl ⟨rfl, hdisp, hbuild⟩
  | maint x sub =>
    obtain ⟨_, _, hdisp, hbuild⟩ := Laws.Parts.maint x sub hi
    exact .inl ⟨rfl, hdisp, hbuild⟩

/-- The two fields of the second byte of an instruction. -/
theorem fields_append (x y : RegNo) :
    (x ++ y : Byte).extractLsb' 4 4 = x ∧ (x ++ y : Byte).extractLsb' 0 4 = y := by
  revert x y
  decide

/-- Under a legal assignment the decoder gives back an encoded instruction and the bytes after it. -/
theorem decode_encode {m : OpcodeMap} {i : Instr} (hm : m.legal = true) (hi : i.wellFormed = true) (rest : List Byte) :
    decode m (encode m i ++ rest) = .ok (i, rest) := by
  obtain ⟨hx, hy⟩ := fields_append i.parts.x i.parts.y
  rw [encode, List.cons_append, List.cons_append, decode, OpcodeMap.lookup_code hm]
  dsimp only
  rw [hx, hy]
  rcases Instr.parts_cases hi with ⟨hfmt, hdisp, hbuild⟩ | ⟨d, hfmt, hdisp, hbuild⟩ | ⟨d, hfmt, hdisp, hbuild⟩
  all_goals
    rw [hfmt, hdisp]
  · dsimp only [List.nil_append]
    rw [hbuild]
  · dsimp only [bytesOfHalf, List.cons_append, List.nil_append]
    rw [Machine.halfOfBytes_bytesOfHalf, hbuild]
  · dsimp only [bytesOfWord, List.cons_append, List.nil_append]
    rw [Machine.wordOfBytes_bytesOfWord, hbuild]

end Sys2Proof

namespace Sys2Proof.Machine

/-! ### Reads of code near a line just loaded (20_memory.md rule R125) -/

/-- A quadword loaded as a line serves reads of it as main memory did, and its neighbours are in other sets. -/
theorem State.throughLines_fillCode_near (s : State) (c : Lines) {a b : Nat} (hab : a ≤ b) (hb : b < a + 16) :
    s.throughLines (s.fillCode c a) b = s.throughLines c b := by
  unfold State.throughLines State.fillCode
  rw [findLine_loadQuad]
  cases hhit : findLine c a with
  | some l => rfl
  | none =>
    rw [if_neg (by simp)]
    by_cases hq : b / 16 = a / 16
    · rw [if_pos hq, findLine_quad c hq, hhit]
      exact s.mainQuad_byte hq
    · have hi : lineIndex b ≠ lineIndex a := by
        unfold lineIndex
        omega
      rw [if_neg hq, if_neg hi]

/-- A fetch of a halfword leaves the code after it as it was. -/
theorem State.readByte_loadLine_fetch_near (s : State) {a b : Nat} (hab : a ≤ b) (hb : b < a + 16) :
    (s.loadLine .fetch a).readByte .fetch b = s.readByte .fetch b := by
  have hlines : (s.loadLine .fetch a).throughLines (s.loadLine .fetch a).codeLines b =
      s.throughLines s.codeLines b := by
    by_cases h : (sparseGet s.prefetch (a / 4)).isSome
    · rw [State.loadLine]
      dsimp only
      rw [if_pos h]
    · rw [State.loadLine]
      dsimp only
      rw [if_neg h]
      exact s.throughLines_fillCode_near s.codeLines hab hb
  unfold State.readByte
  dsimp only
  rw [hlines]
  rfl

/-! ### Fetch in kernel mode (20_memory.md rules R84, R113) -/

/-- The bytes that a fetch delivers from an address on. -/
def State.codeBytes (s : State) (a n : Nat) : List Byte := (List.range' a n).map (s.readByte .fetch)

theorem fetchHalf_kernel {s : State} {p : Word} (hk : s.mode = .kernel) (hm : p.toNat + 2 ≤ s.cfg.memSize.toNat) :
    fetchHalf p s = .ok (s.codeBytes p.toNat 2) (s.loadLine .fetch p.toNat) := by
  rw [fetchHalf, State.locate_kernel hk, if_pos (State.inMem_iff.2 hm)]
  rfl

/-- In kernel mode a fetch of at most eight halfwords of installed memory delivers the bytes that were there and fills
code lines. -/
theorem fetchHalves_kernel {n : Nat} {s : State} {p : Word} (hk : s.mode = .kernel) (hn : n ≤ 8)
    (hm : p.toNat + 2 * n ≤ s.cfg.memSize.toNat) :
    ∃ c, fetchHalves n p s = .ok (s.codeBytes p.toNat (2 * n)) { s with codeLines := c } := by
  induction n generalizing s p with
  | zero => exact ⟨s.codeLines, rfl⟩
  | succ n ih =>
    have hp : (p + 2).toNat = p.toNat + 2 := by
      have := s.cfg.memSize.isLt
      bv_omega
    obtain ⟨c, hc⟩ := ih (s := s.loadLine .fetch p.toNat) (p := p + 2) hk (by omega)
      (by rw [State.loadLine_cfg, hp]; omega)
    have hnear : (s.loadLine .fetch p.toNat).codeBytes (p.toNat + 2) (2 * n) = s.codeBytes (p.toNat + 2) (2 * n) := by
      refine List.map_congr_left fun b hb => ?_
      rw [List.mem_range'_1] at hb
      exact s.readByte_loadLine_fetch_near (by omega) (by omega)
    refine ⟨c, ?_⟩
    rw [fetchHalves, fetchHalf_kernel hk (by omega), Res.bind_ok, hc, Res.bind_ok, hp, hnear]
    rfl

/-- The bytes of all halfwords of an instruction, fetched one after another, are those of the instruction fetch. -/
theorem fetchBytes_of_halves {n : Nat} {s t : State} {bs : List Byte} (heven : mbit s.pc 31 = false)
    (h : fetchHalves (n + 1) s.pc s = .ok bs t) (hlen : lengthOfFirstByte (bs.headD 0) = 2 * (n + 1))
    (hend : s.pc.toNat + 2 * (n + 1) ≤ 2 ^ 32) : fetchBytes s = .ok bs t.readAhead := by
  rw [fetchHalves] at h
  obtain ⟨b1, s1, h1, h⟩ := Res.bind_eq_ok.1 h
  obtain ⟨b2, s2, h2, h⟩ := Res.bind_eq_ok.1 h
  cases h
  obtain ⟨⟨c0, c1, rfl⟩, hpc⟩ := fetchHalf_ok h1
  rw [List.cons_append, List.headD_cons] at hlen
  rw [fetchBytes, heven, if_neg Bool.false_ne_true, h1, Res.bind_ok]
  dsimp only [List.headD_cons]
  rw [hlen, hpc, if_neg (by omega), show 2 * (n + 1) / 2 - 1 = n by omega, h2, Res.bind_ok]

/-- In kernel mode the fetch at an encoded instruction delivers its bytes and changes code lines and prefetch buffers
only. -/
theorem fetchBytes_encode {s : State} {i : Instr} (hm : s.cfg.opc.legal = true) (hk : s.mode = .kernel)
    (heven : mbit s.pc 31 = false) (hend : s.pc.toNat + (encode s.cfg.opc i).length ≤ s.cfg.memSize.toNat)
    (hbytes : s.codeBytes s.pc.toNat (encode s.cfg.opc i).length = encode s.cfg.opc i) :
    ∃ c p, fetchBytes s = .ok (encode s.cfg.opc i) { s with codeLines := c, prefetch := p } := by
  have hfirst : lengthOfFirstByte ((encode s.cfg.opc i).headD 0) = (encode s.cfg.opc i).length :=
    (lengthOfFirstByte_code hm i.opcode).trans (encode_length s.cfg.opc i).symm
  obtain ⟨n, hn, hn8⟩ : ∃ n, (encode s.cfg.opc i).length = 2 * (n + 1) ∧ n + 1 ≤ 8 := by
    rw [encode_length, Instr.length]
    cases i.opcode.format
    · exact ⟨0, rfl, by decide⟩
    · exact ⟨1, rfl, by decide⟩
    · exact ⟨2, rfl, by decide⟩
  obtain ⟨c, hc⟩ := fetchHalves_kernel hk hn8 (p := s.pc) (by omega)
  rw [← hn, hbytes] at hc
  have := s.cfg.memSize.isLt
  have hf := fetchBytes_of_halves heven hc (hfirst.trans hn) (by omega)
  exact ⟨_, _, hf⟩

/-- With no event of the environment and no interrupt due in kernel mode the boundary lets an instruction run. -/
theorem State.boundary_quiet {s : State} (hk : s.mode = .kernel) (hp : s.paused = false) (hst : s.stuck = none)
    (he : s.events = []) (hpar : s.parityDue = []) (hpow : s.powerFailDue = 0) (hsw : s.switch0Due = 0) :
    s.boundary = .run s.nextBoundary := by
  have hpend : s.nextBoundary.pending = .none s.nextBoundary := by
    unfold State.pending
    simp [hk, hp, hpar, hpow, hsw]
  rw [State.boundary, he]
  show s.nextBoundary.settle none = _
  simp [State.settle, hpend, hst, hp]

/-- Settles O6: the boundary lets the instruction run, the fetch delivers its encoding, which the decoder gives back. -/
theorem stepRunsTheInstructionInMemory : Obligations.StepRunsTheInstructionInMemory := by
  intro s i hm hi hk hp hst he hpar hpow hsw heven hend hbytes
  have hcode : s.nextBoundary.codeBytes s.pc.toNat (encode s.cfg.opc i).length = encode s.cfg.opc i := by
    refine List.ext_getElem (by simp [State.codeBytes]) fun k _ hk => ?_
    have := hbytes k hk
    rw [List.getD_eq_getElem _ _ hk] at this
    simpa [State.codeBytes] using this
  obtain ⟨c, p, hf⟩ := fetchBytes_encode (s := s.nextBoundary) (i := i) hm hk heven hend hcode
  have hd := decode_encode hm hi []
  rw [List.append_nil] at hd
  exact ⟨c, p, step_run (State.boundary_quiet hk hp hst he hpar hpow hsw) hf hd⟩

end Sys2Proof.Machine
end

