-- ==== Sys2Proof/Proofs/MemoryFrame.lean ====
section
/-! SUPPORT. Which instructions leave main memory and the TMT as they were: each way in which an instruction ends and
each shared operation keeps them, and so does every instruction that neither stores nor searches the VRT. -/

namespace Sys2Proof.Machine

/-! ### Main memory and the TMT -/

/-- Main memory and the TMT of `u` are those of `s`. -/
structure SameStorage (s u : State) : Prop where
  mem : u.mem = s.mem
  memEpoch : u.memEpoch = s.memEpoch
  tmt : u.tmt = s.tmt

/-- With the same list of written bytes and the same epoch every byte is the same (log 8). -/
theorem sameMemory_of_mem_eq {s u : State} (hm : u.mem = s.mem) (he : u.memEpoch = s.memEpoch) : SameMemory s u := by
  intro a
  unfold State.mainByte
  rw [hm, he]

namespace SameStorage

variable {s u v : State}

theorem refl (s : State) : SameStorage s s := ⟨rfl, rfl, rfl⟩

theorem trans (h : SameStorage s u) (h2 : SameStorage u v) : SameStorage s v :=
  ⟨h2.mem.trans h.mem, h2.memEpoch.trans h.memEpoch, h2.tmt.trans h.tmt⟩

theorem sameMemory (h : SameStorage s u) : SameMemory s u := sameMemory_of_mem_eq h.mem h.memEpoch

theorem setReg (h : SameStorage s u) (x : RegNo) (w : Word) : SameStorage s (u.setReg x w) := h.trans ⟨rfl, rfl, rfl⟩

theorem setPair (h : SameStorage s u) (x : RegNo) (w : DWord) : SameStorage s (u.setPair x w) :=
  h.trans ⟨rfl, rfl, rfl⟩

theorem setSreg (h : SameStorage s u) (x : RegNo) (w : Word) : SameStorage s (u.setSreg x w) := h.trans ⟨rfl, rfl, rfl⟩

theorem loadLine (h : SameStorage s u) (v : View) (a : Nat) : SameStorage s (u.loadLine v a) := h.trans ⟨rfl, rfl, rfl⟩

theorem raise {e : Event} (h : Machine.raise e s = .next u) : SameStorage s u := by
  rcases raise_next.1 h with ⟨v, _, rfl⟩ | ⟨_, rfl⟩
  · exact ⟨State.enterAt_mem .., State.enterAt_memEpoch .., State.enterAt_tmt ..⟩
  · exact ⟨rfl, rfl, rfl⟩

theorem loadRegs {is : List RegNo} (h : s.loadRegs is = .ok u) : SameStorage s u := by
  rw [(State.loadRegs_frame h).1]
  exact ⟨rfl, rfl, rfl⟩

theorem ioCycle {dev : Byte} {r : Option Answer} (h : s.ioCycle dev = (r, u)) : SameStorage s u := by
  rw [State.ioCycle_frame h]
  exact ⟨rfl, rfl, rfl⟩

theorem ioRead (s : State) (x : RegNo) (a : Word) : SameStorage s (s.ioRead x a) := by
  rw [(s.ioRead_frame x a).2]
  exact ⟨rfl, rfl, rfl⟩

theorem ioWrite (s : State) (x : RegNo) (a d : Word) : SameStorage s (s.ioWrite x a d) := by
  unfold State.ioWrite
  split
  all_goals
    rename_i hc
    exact (ioCycle hc).trans ⟨rfl, rfl, rfl⟩

theorem moveToSreg (s : State) (n : RegNo) (w : Word) : SameStorage s (s.moveToSreg n w) :=
  ⟨State.moveToSreg_mem .., State.moveToSreg_memEpoch .., State.moveToSreg_tmt ..⟩

theorem writeMasks (s : State) (w : Word) : SameStorage s (s.writeMasks w) :=
  ⟨State.writeMasks_mem .., State.writeMasks_memEpoch .., State.writeMasks_tmt ..⟩

theorem testInterrupt (s : State) (x : RegNo) : SameStorage s (s.testInterrupt x) :=
  ⟨State.testInterrupt_mem .., State.testInterrupt_memEpoch .., State.testInterrupt_tmt ..⟩

end SameStorage

/-! ### Outcomes -/

/-- A next state, if there is one, has the main memory and the TMT of `s`. -/
def KeepsStorage (s : State) (o : Outcome) : Prop := ∀ t, o = .next t → SameStorage s t

namespace KeepsStorage

variable {s u : State}

theorem raise (e : Event) (s : State) : KeepsStorage s (Machine.raise e s) := fun _ => SameStorage.raise

theorem advance (s : State) (h : SameStorage s u) (il : Nat) : KeepsStorage s (Machine.advance il u) := by
  intro t ht
  obtain ⟨_, rfl⟩ := advance_next.1 ht
  exact h.trans ⟨rfl, rfl, rfl⟩

theorem jump (s : State) (h : SameStorage s u) (a : Word) : KeepsStorage s (Machine.jump a u) := by
  intro t ht
  obtain ⟨_, rfl⟩ := jump_next.1 ht
  exact h.trans ⟨rfl, rfl, rfl⟩

theorem setAndGo (s : State) (x : RegNo) (v : Word) : KeepsStorage s (Machine.setAndGo x v s) :=
  advance s (.setReg (.refl s) x v) 2

theorem setPairAndGo (s : State) (x : RegNo) (v : DWord) : KeepsStorage s (Machine.setPairAndGo x v s) :=
  advance s (.setPair (.refl s) x v) 2

theorem deliver {α : Type} {put : State → α → State} (hput : ∀ v, SameStorage s (put s v)) (o : Opcode) (x y : RegNo)
    (d : Delivery α) : KeepsStorage s (Machine.deliver o x y put d s) := by
  intro t ht
  rcases deliver_next.1 ht with ⟨c, _, h⟩ | ⟨_, h⟩ | ⟨v, _, h⟩ | ⟨v, c, _, h⟩
  · exact SameStorage.raise h
  · exact advance s (.refl s) 2 t h
  · exact advance s (hput v) 2 t h
  · exact (hput v).trans (SameStorage.raise h)

theorem deliverReg (s : State) (o : Opcode) (x y : RegNo) (d : Delivery Word) :
    KeepsStorage s (Machine.deliver o x y (State.put x) d s) := deliver (fun _ => ⟨rfl, rfl, rfl⟩) o x y d

theorem deliverPair (s : State) (o : Opcode) (x y : RegNo) (d : Delivery DWord) :
    KeepsStorage s (Machine.deliver o x y (State.putPair x) d s) := deliver (fun _ => ⟨rfl, rfl, rfl⟩) o x y d

theorem deliverSingle (s : State) (o : Opcode) (x y : RegNo) (d : Delivery RealFields) :
    KeepsStorage s (Machine.deliver o x y (State.putSingle x) d s) := deliver (fun _ => ⟨rfl, rfl, rfl⟩) o x y d

theorem deliverDouble (s : State) (o : Opcode) (x y : RegNo) (d : Delivery RealFields) :
    KeepsStorage s (Machine.deliver o x y (State.putDouble x) d s) := deliver (fun _ => ⟨rfl, rfl, rfl⟩) o x y d

theorem extendedSum (s : State) (x : RegNo) (a b : Word) : KeepsStorage s (Machine.extendedSum x a b s) := by
  unfold Machine.extendedSum
  split
  · intro t ht
    cases ht
  · exact advance s (.setReg (.setReg (.refl s) _ _) _ _) 2

theorem branchIf (s : State) (h : SameStorage s u) (c : Bool) (a : Word) (il : Nat) :
    KeepsStorage s (Machine.branchIf c a il u) := by
  unfold Machine.branchIf
  split
  · exact jump s h a
  · exact advance s h il

theorem loopBy (s : State) (x y : RegNo) (d : Word) (il : Nat) : KeepsStorage s (Machine.loopBy x y d il s) :=
  branchIf s (.setReg (.refl s) _ _) _ _ il

theorem callTo (s : State) (x : RegNo) (a : Word) (il : Nat) : KeepsStorage s (Machine.callTo x a il s) :=
  jump s (.setReg (.refl s) _ _) a

theorem checkRange (s : State) (o : Opcode) (x y : RegNo) (bad : Bool) :
    KeepsStorage s (Machine.checkRange o x y bad s) := by
  intro t ht
  rcases checkRange_next.1 ht with ⟨_, h⟩ | ⟨_, _, rfl⟩
  · exact SameStorage.raise h
  · exact ⟨rfl, rfl, rfl⟩

theorem trapInstruction (s : State) (x y : RegNo) : KeepsStorage s (Machine.trapInstruction x y s) := by
  unfold Machine.trapInstruction
  split
  · exact raise _ s
  · split
    · exact advance s (.setSreg (.refl s) _ _) 2
    · exact advance s (.refl s) 2

theorem execKcall (s : State) (n : Byte) : KeepsStorage s (Machine.execKcall n s) := by
  unfold Machine.execKcall
  split
  all_goals exact raise _ s

theorem kernelOnly {o : Opcode} {x y : RegNo} {k : State → Outcome} (h : KeepsStorage s (k s)) :
    KeepsStorage s (Machine.kernelOnly o x y s k) := by
  intro t ht
  rcases kernelOnly_next.1 ht with ⟨_, ht⟩ | ⟨_, ht⟩
  · exact h t ht
  · exact SameStorage.raise ht

theorem privileged {o : Opcode} {x y : RegNo} {f : State → State} (h : SameStorage s (f s)) :
    KeepsStorage s (Machine.privileged o x y s fun s => Machine.advance 2 (f s)) := by
  intro t ht
  rcases privileged_next.1 ht with ⟨_, ht⟩ | ⟨_, _, ht⟩
  · exact advance s h 2 t ht
  · exact SameStorage.raise ht

theorem resumeUser (s : State) : KeepsStorage s (Machine.resumeUser s) := by
  unfold Machine.resumeUser
  split
  · intro t ht
    cases ht
    exact ⟨rfl, rfl, rfl⟩
  · exact jump s (u := { s with mode := .user }) ⟨rfl, rfl, rfl⟩ _

theorem execLdregs (s : State) (x y : RegNo) : KeepsStorage s (Machine.execLdregs x y s) := by
  refine kernelOnly fun t ht => ?_
  split at ht
  · exact advance s (.refl s) 2 t ht
  · obtain ⟨u, hu, _, rfl⟩ := finishFault_next.1 ht
    exact (SameStorage.loadRegs hu).trans ⟨rfl, rfl, rfl⟩

/-! ### Loads in kernel mode -/

theorem reference {w : Width} {sp : Space} {acc : Access} {ea : Word} {k : Word → State → Outcome}
    (hk : s.mode = .kernel) (h : ∀ r, KeepsStorage s (k r s)) : KeepsStorage s (Machine.reference w sp acc ea s k) := by
  unfold Machine.reference
  rw [State.locate_kernel hk]
  split
  · split
    · exact h ea
    · intro t ht
      cases ht
  · exact raise _ s

theorem loadInto (hk : s.mode = .kernel) (w : Width) (sp : Space) (x : RegNo) (ea : Word) (il : Nat) :
    KeepsStorage s (Machine.loadInto w sp x ea il s) :=
  reference hk fun _ => advance s (.setReg (.loadLine (.refl s) _ _) _ _) il

theorem loadPair (hk : s.mode = .kernel) (hb : s.between = []) (sp : Space) (x : RegNo) (ea : Word) (il : Nat) :
    KeepsStorage s (Machine.loadPair sp x ea il s) := by
  refine reference hk fun r t ht => ?_
  split at ht
  · cases ht
  · rename_i v u hr
    obtain ⟨m, hm, _, rfl⟩ := State.readTwo_ok.1 hr
    rw [hb] at hm
    cases hm
    exact advance s (.setPair (.loadLine (.loadLine (.refl s) _ _) _ _) x v) il t ht

end KeepsStorage

/-- A load opcode is a load of a byte, halfword or word, or of a double word. -/
theorem loadForms_loads (x y : RegNo) (d : BitVec 16) (e : BitVec 32) (s : State) :
    ∀ f ∈ loadForms x y d e s,
      (∃ w sp ea il, exec f.i s = loadInto w sp x ea il s) ∨ ∃ sp ea il, exec f.i s = loadPair sp x ea il s := by
  simp only [loadForms, List.forall_mem_cons, List.not_mem_nil, IsEmpty.forall_iff, implies_true, and_true]
  and_intros
  iterate 24 exact .inl ⟨_, _, _, _, rfl⟩
  all_goals exact .inr ⟨_, _, _, rfl⟩

theorem exec_load_keeps {x y : RegNo} {d : BitVec 16} {e : BitVec 32} {s : State} {f : RefForm}
    (hf : f ∈ loadForms x y d e s) (hk : s.mode = .kernel) (hb : s.between = []) : KeepsStorage s (exec f.i s) := by
  rcases loadForms_loads x y d e s f hf with ⟨w, sp, ea, il, h⟩ | ⟨sp, ea, il, h⟩
  · exact h ▸ .loadInto hk w sp x ea il
  · exact h ▸ .loadPair hk hb sp x ea il

theorem exec_laddr_keeps (x y : RegNo) (d : BitVec 16) (e : BitVec 32) (s : State) :
    ∀ f ∈ laddrForms x y d e s, KeepsStorage s (exec f.i s) := by
  simp only [laddrForms, List.forall_mem_cons, List.not_mem_nil, IsEmpty.forall_iff, implies_true, and_true]
  and_intros
  all_goals exact .advance s (.setReg (.refl s) _ _) _

/-! ### Every instruction -/

/-- An instruction that refers to no operand in memory, is none of the three that write into control structures, and
empties no TMT keeps main memory and the TMT. -/
theorem exec_keepsStorage {i : Instr} (s : State) (href : i.opcode.reference = none)
    (hw : i.opcode ∉ [Opcode.sus, .trans, .dirt]) (hlus : ∀ x y, i ≠ .lus x y) (hexit : ∀ x, i ≠ .trapexit x) :
    KeepsStorage s (exec i s) := by
  cases i with
  | moverr | not | and | or | xor | rneg | tbit | lcomp | dcomp | csl | lsl | lsr | asr | seb | seh | testGt | testEq
  | testLt | testLe | testGe | testNe | moveri | noti | andi | csli | lsli | lsri | asri | testiGt | testiEq | testiLt
  | testiLe | testiGe | testiNe => exact .setAndGo s _ _
  | empy | drneg | cbit | sbit | dlsl | dlsr | dlsli | dlsri => exact .setPairAndGo s _ _
  | neg | add | sub | mpy | div | rem | addi | subi | mpyi | fixt | fixr | dfixt | dfixr | rcomp | drcomp | asl
  | asli =>
    exact .deliverReg s _ _ _ _
  | ediv => exact .deliverPair s _ _ _ _
  | float | makedr | radd | rsub | rmpy | rdiv => exact .deliverSingle s _ _ _ _
  | makerd | dfloat | dradd | drsub | drmpy | drdiv => exact .deliverDouble s _ _ _ _
  | nop => exact .advance s (.refl s) 2
  | eadd | esub => exact .extendedSum s _ _ _
  | br | brl => exact .jump s (.refl s) _
  | brGt | brGtL | brEq | brEqL | brLe | brLeL | brNe | brNeL | briGt | briGtL | briLt | briLtL | briEq | briEqL | briLe
  | briLeL | briGe | briGeL | briNe | briNeL => exact .branchIf s (.refl s) _ _ _
  | loop | loopl => exact .loopBy s _ _ _ _
  | callr | ret | call | calll => exact .callTo s _ _ _
  | chk | chki => exact .checkRange s _ _ _ _
  | trap => exact .trapInstruction s _ _
  | kcall => exact .execKcall s _
  | load | loadl | loadx | loadlx | loadp | loadpl | loadpx | loadplx | loadh | loadhl | loadhx | loadhlx | loadhp
  | loadhpl | loadhpx | loadhplx | loadb | loadbl | loadbx | loadblx | loadbp | loadbpl | loadbpx | loadbplx | loadd
  | loaddl | loaddx | loaddlx | loaddp | loaddpl | loaddpx | loaddplx | store | storel | storex | storelx | storeh
  | storehl | storehx | storehlx | storeb | storebl | storebx | storeblx | stored | storedl | storedx | storedlx
  | laddr | laddrx | laddrl | laddrlx | laddrp | laddrpx | laddrpl | laddrplx => cases href
  | sus | trans | dirt => exact absurd (by simp [Instr.opcode, Instr.parts]) hw
  | lus x y => exact absurd rfl (hlus x y)
  | trapexit x => exact absurd rfl (hexit x)
  | ldregs x y => exact .execLdregs s x y
  | rum => exact .kernelOnly (.resumeUser s)
  | movesr x y =>
    exact .kernelOnly (k := fun s => advance 2 (s.moveToSreg x (s.reg y))) (.advance s (.moveToSreg s x _) 2)
  | movers x y =>
    exact .kernelOnly (k := fun s => advance 2 (s.setReg x (s.sreg y))) (.advance s (.setReg (.refl s) _ _) 2)
  | maint => exact .raise _ s
  | read x y => exact .privileged (f := fun s => s.ioRead x (s.reg y)) (.ioRead s _ _)
  | write x y => exact .privileged (f := fun s => s.ioWrite x (s.reg y) (s.reg x)) (.ioWrite s _ _ _)
  | elogr x => exact .privileged (f := fun s => s.setReg x s.statusWord) (.setReg (.refl s) _ _)
  | machineid x => exact .privileged (f := fun s => s.setReg x s.cfg.machineId) (.setReg (.refl s) _ _)
  | version x => exact .privileged (f := fun s => s.setReg x s.cfg.ucodeVersion) (.setReg (.refl s) _ _)
  | rdlog x => exact .privileged (f := fun s => s.setReg x (s.logWord (s.reg x))) (.setReg (.refl s) _ _)
  | elogw x => exact .privileged (f := fun s => s.writeLog (s.reg x)) ⟨rfl, rfl, rfl⟩
  | twrited x => exact .privileged (f := fun s => s.writeMasks (s.reg x)) (.writeMasks s _)
  | flush x => exact .privileged (f := State.flushCache) ⟨rfl, rfl, rfl⟩
  | itest x => exact .privileged (f := fun s => s.testInterrupt x) (.testInterrupt s x)
  | creg x => exact .privileged (f := fun s => s.clockTransfer x) ⟨rfl, rfl, rfl⟩

/-- LUS empties the TMT and leaves main memory as it was. -/
theorem execLus_sameMemory {x y : RegNo} {s t : State} (h : execLus x y s = .next t) : SameMemory s t := by
  rcases kernelOnly_next.1 h with ⟨_, h⟩ | ⟨_, h⟩
  · split at h
    · exact (KeepsStorage.advance s (.refl s) 2 t h).sameMemory
    · obtain ⟨u, hu, _, rfl⟩ := finishFault_next.1 h
      obtain ⟨p, w, m, v, hv, rfl⟩ := State.loadUser_ok hu
      have hr := SameStorage.loadRegs hv
      refine sameMemory_of_mem_eq (Eq.trans ?_ hr.mem) (Eq.trans ?_ hr.memEpoch)
      · simp
      · simp
  · exact (SameStorage.raise h).sameMemory

/-- TRAPEXIT empties the TMT and leaves main memory as it was. -/
theorem execTrapexit_sameMemory {x : RegNo} {s t : State} (h : execTrapexit x s = .next t) : SameMemory s t := by
  rcases kernelOnly_next.1 h with ⟨_, h⟩ | ⟨_, h⟩
  · obtain ⟨_, rfl⟩ := jump_next.1 h
    exact sameMemory_of_mem_eq rfl rfl
  · exact (SameStorage.raise h).sameMemory

/-- Settles O60: only the instructions of the frame's exceptions write memory, and only LUS and TRAPEXIT of the others
write the TMT. -/
theorem instructionMemoryFrame : Obligations.InstructionMemoryFrame := by
  refine fun i s t h => ⟨fun href hw => ?_, fun x y d e f hf hi => ?_, fun x y d e f hf hi hk hb => ?_⟩
  · by_cases hlus : ∃ x y, i = .lus x y
    · obtain ⟨x, y, rfl⟩ := hlus
      exact ⟨execLus_sameMemory h, fun hn => absurd (by simp [Instr.opcode, Instr.parts]) hn⟩
    by_cases hexit : ∃ x, i = .trapexit x
    · obtain ⟨x, rfl⟩ := hexit
      exact ⟨execTrapexit_sameMemory h, fun hn => absurd (by simp [Instr.opcode, Instr.parts]) hn⟩
    have hs := exec_keepsStorage s href hw (fun x y hi => hlus ⟨x, y, hi⟩) (fun x hi => hexit ⟨x, hi⟩) t h
    exact ⟨hs.sameMemory, fun _ => hs.tmt⟩
  · have hs := exec_laddr_keeps x y d e s f hf t (hi ▸ h)
    exact ⟨hs.sameMemory, hs.tmt⟩
  · have hs := exec_load_keeps hf hk hb t (hi ▸ h)
    exact ⟨hs.sameMemory, hs.tmt⟩

end Sys2Proof.Machine
end

