-- ==== Sys2Proof/Proofs/Encoding.lean ====
section
/-! SUPPORT. The decoder and the encoder answer each other: the bytes of a value put together are the bytes it was put
together from, the parts of what an opcode builds are those it was built from, and what the decoder reads is such an
instruction (30_encoding.md rules R141 to R144, R150, R151, R159). -/

namespace Sys2Proof

open Sys2Proof.Config

/-! ### Bytes taken apart again (20_memory.md rule R80) -/

/-- Above its last byte a value has the bytes of what stands before that byte. -/
theorem extractLsb'_append_byte {n : Nat} (v : BitVec n) (b : Byte) (k : Nat) :
    (v ++ b).extractLsb' (k + 8) 8 = v.extractLsb' k 8 := by
  rw [BitVec.extractLsb'_append_eq_of_le (Nat.le_add_left 8 k), Nat.add_sub_cancel]

theorem bytesOfHalf_halfOfBytes (b0 b1 : Byte) : bytesOfHalf (halfOfBytes b0 b1) = [b0, b1] := by
  have h0 : (halfOfBytes b0 b1).extractLsb' 8 8 = b0 := BitVec.extractLsb'_append_eq_left
  have h1 : (halfOfBytes b0 b1).extractLsb' 0 8 = b1 := BitVec.extractLsb'_append_eq_right
  rw [bytesOfHalf, h0, h1]

theorem bytesOfWord_wordOfBytes (b0 b1 b2 b3 : Byte) : bytesOfWord (wordOfBytes b0 b1 b2 b3) = [b0, b1, b2, b3] := by
  have high (k : Nat) : (wordOfBytes b0 b1 b2 b3).extractLsb' (k + 8) 8 = (b0 ++ b1 ++ b2).extractLsb' k 8 :=
    extractLsb'_append_byte (b0 ++ b1 ++ b2) b3 k
  have h0 : (wordOfBytes b0 b1 b2 b3).extractLsb' 24 8 = b0 :=
    (high 16).trans ((extractLsb'_append_byte (b0 ++ b1) b2 8).trans BitVec.extractLsb'_append_eq_left)
  have h1 : (wordOfBytes b0 b1 b2 b3).extractLsb' 16 8 = b1 :=
    (high 8).trans ((extractLsb'_append_byte (b0 ++ b1) b2 0).trans BitVec.extractLsb'_append_eq_right)
  have h2 : (wordOfBytes b0 b1 b2 b3).extractLsb' 8 8 = b2 := (high 0).trans BitVec.extractLsb'_append_eq_right
  have h3 : (wordOfBytes b0 b1 b2 b3).extractLsb' 0 8 = b3 := BitVec.extractLsb'_append_eq_right
  rw [bytesOfWord, h0, h1, h2, h3]

/-- A byte is the concatenation of the two fields that the decoder reads in it. -/
theorem append_fields (b : Byte) : (b.extractLsb' 4 4 ++ b.extractLsb' 0 4 : Byte) = b :=
  (BitVec.extractLsb'_append_extractLsb'_eq_extractLsb' rfl).trans BitVec.extractLsb'_eq_self

/-! ### What an opcode builds -/

/-- The subop of a maintenance instruction stands in its Ry field, named by R159 or not. -/
theorem buildMaint_parts (x k : BitVec 4) : (buildMaint x k).parts = ⟨.maint, x, k, []⟩ := by
  revert x k
  decide

/-- A subop that R159 names gives an instruction of its own, never a `maint`. -/
theorem buildMaint_wellFormed (x k : BitVec 4) : (buildMaint x k).wellFormed = true := by
  revert x k
  decide

theorem Opcode.build_wellFormed (o : Opcode) (x y : RegNo) (d16 : BitVec 16) (d32 : BitVec 32) :
    (o.build x y d16 d32).wellFormed = true := by
  cases o with
  | maint => exact buildMaint_wellFormed x y
  | _ => rfl

/-- Building keeps every part; of the two displacements, the one of the opcode's format. -/
theorem Opcode.build_parts (o : Opcode) (x y : RegNo) (d16 : BitVec 16) (d32 : BitVec 32) :
    (o.build x y d16 d32).parts = ⟨o, x, y, Laws.dispBytes o.format d16 d32⟩ := by
  cases o with
  | maint => exact buildMaint_parts x y
  | kcall =>
    obtain ⟨hx, hy⟩ := fields_append x y
    simp only [Opcode.build, Instr.parts, hx, hy, Opcode.format, Laws.dispBytes]
  | _ => rfl

theorem encode_build (m : OpcodeMap) (o : Opcode) (b : Byte) (d16 : BitVec 16) (d32 : BitVec 32) :
    encode m (o.build (b.extractLsb' 4 4) (b.extractLsb' 0 4) d16 d32) =
      m.code o :: b :: Laws.dispBytes o.format d16 d32 := by
  rw [encode, Opcode.build_parts, append_fields]

/-! ### What the decoder reads -/

/-- All that the decoder can read: a first byte with a name, a byte of fields and the displacement of the format, and
from them what the opcode builds. -/
theorem decode_eq_ok {m : OpcodeMap} {bs : List Byte} {i : Instr} {rest : List Byte}
    (h : decode m bs = .ok (i, rest)) :
    ∃ b0 b1 o d16 d32, m.lookup b0 = some o ∧ bs = b0 :: b1 :: (Laws.dispBytes o.format d16 d32 ++ rest) ∧
      i = o.build (b1.extractLsb' 4 4) (b1.extractLsb' 0 4) d16 d32 := by
  unfold decode at h
  split at h
  next b0 b1 tail =>
    split at h
    next => cases h
    next o ho =>
      dsimp only at h
      split at h
      next hfmt =>
        cases h
        exact ⟨b0, b1, o, 0, 0, ho, by rw [hfmt]; rfl, rfl⟩
      next d0 d1 tail hfmt =>
        cases h
        exact ⟨b0, b1, o, halfOfBytes d0 d1, 0, ho, by rw [hfmt, Laws.dispBytes, bytesOfHalf_halfOfBytes]; rfl, rfl⟩
      next d0 d1 d2 d3 tail hfmt =>
        cases h
        exact ⟨b0, b1, o, 0, wordOfBytes d0 d1 d2 d3, ho,
          by rw [hfmt, Laws.dispBytes, bytesOfWord_wordOfBytes]; rfl, rfl⟩
      next => cases h
  next => cases h

/-- Bytes that are the encoding of a well-formed instruction decode to it with nothing left. -/
theorem decode_of_encode_eq {m : OpcodeMap} {bs : List Byte} {i : Instr} (hm : m.legal = true)
    (hi : i.wellFormed = true) (hbs : encode m i = bs) : decode m bs = .ok (i, []) := by
  rw [← hbs, ← List.append_nil (encode m i)]
  exact decode_encode hm hi []

/-! ### The statements -/

/-- Settles O1: the decoder finds the opcode by its number and builds the instruction from its own parts. -/
theorem decodeInvertsEncode : Obligations.DecodeInvertsEncode :=
  fun _ _ rest hm hi => decode_encode hm hi rest

/-- Settles O2: what the decoder reads was built by an opcode, and the parts of that are the bytes read. -/
theorem encodeInvertsDecode : Obligations.EncodeInvertsDecode := by
  intro m bs i rest _ h
  obtain ⟨b0, b1, o, d16, d32, ho, rfl, rfl⟩ := decode_eq_ok h
  refine ⟨o.build_wellFormed _ _ _ _, ?_⟩
  rw [encode_build, OpcodeMap.code_of_lookup ho]
  rfl

/-- Settles O3: each word written out is the encoding of its instruction. -/
theorem decodesWrittenWords : Obligations.DecodesWrittenWords := by
  intro m hm
  and_intros
  all_goals exact decode_of_encode_eq hm rfl rfl

end Sys2Proof
end

