-- ==== Sys2Proof/Proofs/LoadsStores.lean ====
section
/-! SUPPORT. Loads, stores and load addresses that complete: what each opcode of a family does, what a reference does
at its real address, and the bytes that a store leaves in main memory and for data reads (40_memory_reference.md rules
R181 to R195). -/

namespace Sys2Proof.Machine

/-! ### Effective addresses (40_memory_reference.md rule R181) -/

@[simp] theorem State.eaDirect_data (s : State) (d : Word) : s.eaDirect .data d = d := BitVec.zero_add d

@[simp] theorem State.eaDirect_code (s : State) (d : Word) : s.eaDirect .code d = s.pc + d := rfl

@[simp] theorem State.eaIndexed_data (s : State) (y : RegNo) (d : Word) : s.eaIndexed .data y d = s.reg y + d :=
  congrArg (· + d) (BitVec.zero_add (s.reg y))

@[simp] theorem State.eaIndexed_code (s : State) (y : RegNo) (d : Word) :
    s.eaIndexed .code y d = s.pc + s.reg y + d := rfl

/-! ### Opcodes as operations -/

/-- The load of a width (40_memory_reference.md rules R184 to R187). -/
def loadOf (w : Width) (sp : Space) (x : RegNo) (ea : Word) (il : Nat) (s : State) : Outcome :=
  match w with
  | .double => loadPair sp x ea il s
  | _ => loadInto w sp x ea il s

/-- The store of a width (40_memory_reference.md rules R190 to R193). -/
def storeOf (w : Width) (x : RegNo) (ea : Word) (il : Nat) (s : State) : Outcome :=
  match w with
  | .double => storePair x ea il s
  | _ => storeFrom w x ea il s

theorem loadOf_of_ne {w : Width} (h : w ≠ .double) : loadOf w = loadInto w := by
  cases w with
  | double => exact absurd rfl h
  | _ => rfl

theorem storeOf_of_ne {w : Width} (h : w ≠ .double) : storeOf w = storeFrom w := by
  cases w with
  | double => exact absurd rfl h
  | _ => rfl

/-- An operation on an address written in another way. -/
theorem outcome_at {o : Outcome} {op : Word → Outcome} {a b : Word} (h : o = op a) (hab : a = b) :
    o = op b := hab ▸ h

theorem loadForms_exec (x y : RegNo) (d : BitVec 16) (e : BitVec 32) (s : State) :
    ∀ f ∈ loadForms x y d e s, exec f.i s = loadOf f.width f.space x f.ea f.il s := by
  simp only [loadForms, List.forall_mem_cons, List.not_mem_nil, IsEmpty.forall_iff, implies_true, and_true]
  and_intros
  all_goals exact outcome_at (op := fun a => loadOf _ _ x a _ s) rfl (by simp [shortDisp])

theorem storeForms_exec (x y : RegNo) (d : BitVec 16) (e : BitVec 32) (s : State) :
    ∀ f ∈ storeForms x y d e s, exec f.i s = storeOf f.width x f.ea f.il s := by
  simp only [storeForms, List.forall_mem_cons, List.not_mem_nil, IsEmpty.forall_iff, implies_true, and_true]
  and_intros
  all_goals exact outcome_at (op := fun a => storeOf _ x a _ s) rfl (by simp [shortDisp])

theorem laddrForms_exec (x y : RegNo) (d : BitVec 16) (e : BitVec 32) (s : State) :
    ∀ f ∈ laddrForms x y d e s, exec f.i s = loadAddress x f.ea f.il s := by
  simp only [laddrForms, List.forall_mem_cons, List.not_mem_nil, IsEmpty.forall_iff, implies_true, and_true]
  and_intros
  all_goals exact outcome_at (op := fun a => loadAddress x a _ s) rfl (by simp [shortDisp])

/-- Settles O9: the address is written to the register, and nothing else comes before the next instruction. -/
theorem loadAddressCompletes : Obligations.LoadAddressCompletes := by
  intro s x y d e f hf hroom
  rw [laddrForms_exec x y d e s f hf]
  exact advance_room (s := s.setReg x f.ea) hroom

/-! ### References at their real address -/

section Located

variable {s s1 u : State} {w : Width} {sp : Space} {x : RegNo} {ea r : Word} {il : Nat}

/-- An aligned reference whose address has a real address goes on there. -/
theorem reference_located {acc : Access} (ha : ea.toNat % w.bytes = 0) (hl : s.locate sp ea acc w.bytes = .ok r s1)
    (k : Word → State → Outcome) : reference w sp acc ea s k = k r s1 := by
  rw [reference_aligned (Width.aligned_iff.2 ha), hl, Res.finish_ok]

theorem State.locate_sameButMemory {acc : Access} {n : Nat} (hl : s.locate sp ea acc n = .ok r s1) :
    SameButMemory s s1 := State.locate_frame (by rw [hl]; rfl)

theorem SameButMemory.room (h : SameButMemory s s1) (hroom : s.Room il) : s1.Room il := by
  rwa [State.Room, h.pc]

theorem loadInto_located (ha : ea.toNat % w.bytes = 0) (hl : s.locate sp ea .read w.bytes = .ok r s1)
    (hroom : s.Room il) :
    loadInto w sp x ea il s = .next (((s1.loadLine (Space.view sp) r.toNat).setReg x
      (s1.readOperand w (Space.view sp) r.toNat)).after il) := by
  rw [loadInto, reference_located ha hl]
  exact advance_room (s := (s1.loadLine _ _).setReg x _) ((State.locate_sameButMemory hl).room hroom)

/-- The two words of a pair are written to its two registers. -/
theorem State.setPair_append (s : State) (n : RegNo) (a b : Word) :
    s.setPair n (a ++ b) = (s.setReg n a).setReg (n + 1) b := by
  have ha : (a ++ b).extractLsb' 32 32 = a := BitVec.extractLsb'_append_eq_left
  have hb : (a ++ b).extractLsb' 0 32 = b := BitVec.extractLsb'_append_eq_right
  rw [State.setPair, ha, hb]

theorem State.dmaAll_pc {ds : List DmaEvent} (h : s.dmaAll ds = .ok u) : u.pc = s.pc := by
  rw [State.dmaAll_frame h]

theorem loadPair_located (ha : ea.toNat % 8 = 0) (hl : s.locate sp ea .read 8 = .ok r s1) (hroom : s.Room il)
    (hd : (s1.loadLine (Space.view sp) r.toNat).dmaAll s1.between = .ok u) :
    loadPair sp x ea il s = .next ((((u.loadLine (Space.view sp) (r.toNat + 4)).setReg x
      (s1.readWord (Space.view sp) r.toNat)).setReg (x + 1) (u.readWord (Space.view sp) (r.toNat + 4))).after il) := by
  have hread := State.readTwo_ok.2 ⟨u, hd, rfl, rfl⟩
  have hroom1 := (State.locate_sameButMemory hl).room hroom
  have hpc : u.pc = s1.pc := (State.dmaAll_pc hd).trans (State.loadLine_pc ..)
  rw [loadPair, reference_located (w := .double) ha hl, hread]
  dsimp only
  rw [State.setPair_append]
  exact advance_room (s := ((u.loadLine _ _).setReg x _).setReg (x + 1) _) (by rwa [State.Room, ← hpc] at hroom1)

theorem storeFrom_located (ha : ea.toNat % w.bytes = 0) (hl : s.locate .data ea .write w.bytes = .ok r s1)
    (hroom : s.Room il) :
    storeFrom w x ea il s = .next ((s1.storeBytes r.toNat (w.operandBytes (s.reg x))).after il) := by
  have hs := State.locate_sameButMemory hl
  rw [storeFrom, reference_located ha hl, hs.reg]
  exact advance_room ((SameButMemory.storeBytes s1 _ _).room (hs.room hroom))

theorem storePair_located (ha : ea.toNat % 8 = 0) (hl : s.locate .data ea .write 8 = .ok r s1) (hroom : s.Room il)
    (hd : (s1.storeBytes r.toNat (bytesOfWord (s.reg x))).dmaAll s1.between = .ok u) :
    storePair x ea il s = .next ((u.storeBytes (r.toNat + 4) (bytesOfWord (s.reg (x + 1)))).after il) := by
  have hs := State.locate_sameButMemory hl
  have hhigh : (s.reg x ++ s.reg (x + 1)).extractLsb' 32 32 = s.reg x := BitVec.extractLsb'_append_eq_left
  have hlow : (s.reg x ++ s.reg (x + 1)).extractLsb' 0 32 = s.reg (x + 1) := BitVec.extractLsb'_append_eq_right
  have hpair : s1.pair x = s.reg x ++ s.reg (x + 1) := by rw [State.pair, hs.reg, hs.reg]
  have hstore : s1.storeTwo r.toNat (s1.pair x) =
      .ok (u.storeBytes (r.toNat + 4) (bytesOfWord (s.reg (x + 1)))) :=
    State.storeTwo_ok.2 ⟨u, by rw [hpair, hhigh, State.storeBytes_between, hd], by rw [hpair, hlow]⟩
  have hpc : u.pc = s1.pc := (State.dmaAll_pc hd).trans (State.storeBytes_pc ..)
  have hroom1 := hs.room hroom
  rw [storePair, reference_located (w := .double) ha hl, hstore]
  exact advance_room ((SameButMemory.storeBytes u _ _).room (by rwa [State.Room, ← hpc] at hroom1))

end Located

/-! ### Loads -/

/-- Settles O7: each width reads its operand at the real address; the second word of a double word is read after the
DMA events. -/
theorem loadsComplete : Obligations.LoadsComplete := by
  intro s s1 x y d e f r hf ha hl hroom
  rw [loadForms_exec x y d e s f hf]
  have single : f.width ≠ .double → loadOf f.width f.space x f.ea f.il s =
      .next (((s1.loadLine (Space.view f.space) r.toNat).setReg x
        (s1.readOperand f.width (Space.view f.space) r.toNat)).after f.il) := fun hw => by
    rw [loadOf_of_ne hw]
    exact loadInto_located ha hl hroom
  refine ⟨fun hw => ?_, fun hw => ?_, fun hw => ?_, fun s2 hw hd => ?_⟩
  iterate 3 exact (single (by simp [hw])).trans (by rw [hw]; rfl)
  · rw [hw] at ha hl ⊢
    exact loadPair_located ha hl hroom hd

/-! ### Stores -/

/-- The state `t` is `s` at the next instruction with the `n` bytes from `a` stored, the byte at an address `c` being
`b c`: main memory and data reads have them, and every other byte is as it was, as is everything else but the data
lines (20_memory.md rule R125). -/
def Stored (s t : State) (a n : Nat) (b : Nat → Byte) (il : Nat) : Prop :=
  (∀ c, t.mainByte c = if a ≤ c ∧ c < a + n then b c else s.mainByte c) ∧
  (∀ c, t.readByte .data c = if a ≤ c ∧ c < a + n then b c else s.readByte .data c) ∧
  t = { s.after il with mem := t.mem, dataLines := t.dataLines }

theorem storeBytes_stored (s : State) (a : Nat) {bs : List Byte} {b : Nat → Byte}
    (h : ∀ k, k < bs.length → bs.getD k 0 = b (a + k)) (il : Nat) :
    Stored s ((s.storeBytes a bs).after il) a bs.length b il := by
  have hbyte : ∀ c, a ≤ c ∧ c < a + bs.length → bs.getD (c - a) 0 = b c := fun c ⟨hc, hn⟩ => by
    rw [h _ (by omega), Nat.add_sub_cancel' hc]
  refine ⟨fun c => ?_, fun c => ?_, ?_⟩
  · rw [State.mainByte_after, State.mainByte_storeBytes]
    exact if_ctx_congr Iff.rfl (hbyte c) fun _ => rfl
  · rw [State.readByte_after, State.readByte_storeBytes]
    exact if_ctx_congr Iff.rfl (hbyte c) fun _ => rfl
  · have hframe := SameButMemory.storeBytes s a bs
    rw [SameButMemory, State.storeBytes_tmt] at hframe
    rw [State.after, State.storeBytes_pc]
    conv_lhs => rw [hframe]
    rfl

/-- Bytes stored one after another are stored at once. -/
theorem State.storeBytes_append (s : State) (a : Nat) (bs cs : List Byte) :
    s.storeBytes a (bs ++ cs) = (s.storeBytes a bs).storeBytes (a + bs.length) cs := by
  induction bs generalizing s a with
  | nil => rfl
  | cons b bs ih =>
    rw [List.cons_append, State.storeBytes, State.storeBytes, ih, List.length_cons, Nat.add_right_comm, Nat.add_assoc]

theorem bytesOfWord_getD (v : Word) {k : Nat} (h : k < 4) :
    (bytesOfWord v).getD k 0 = v.extractLsb' (8 * (3 - k)) 8 := by
  match k, h with
  | 0, _ | 1, _ | 2, _ | 3, _ => rfl

theorem bytesOfWord_append_getD (v w : Word) {k : Nat} (h : k < 8) :
    (bytesOfWord v ++ bytesOfWord w).getD k 0 = (v ++ w).extractLsb' (8 * (7 - k)) 8 := by
  by_cases hk : k < 4
  · rw [List.getD_append _ _ _ _ (by rwa [bytesOfWord_length]), bytesOfWord_getD v hk,
      BitVec.extractLsb'_append_eq_of_le (by omega)]
    congr 1
    omega
  · rw [List.getD_append_right _ _ _ _ (by rw [bytesOfWord_length]; omega), bytesOfWord_length,
      bytesOfWord_getD w (by omega), BitVec.extractLsb'_append_eq_of_add_le (by omega)]
    congr 1
    omega

theorem Width.operandBytes_length {w : Width} (hw : w ≠ .double) (v : Word) :
    (w.operandBytes v).length = w.bytes := by
  cases w with
  | double => exact absurd rfl hw
  | _ => rfl

/-- The bytes of an operand are the low bytes of the register, the most significant first. -/
theorem Width.operandBytes_getD {w : Width} (hw : w ≠ .double) (v : Word) {k : Nat} (hk : k < w.bytes) :
    (w.operandBytes v).getD k 0 = v.extractLsb' (8 * (w.bytes - 1 - k)) 8 := by
  cases w with
  | double => exact absurd rfl hw
  | byte =>
    match k, hk with
    | 0, _ => rfl
  | half =>
    match k, hk with
    | 0, _ | 1, _ => exact BitVec.extractLsb'_extractLsb'_of_le (by decide)
  | word => exact bytesOfWord_getD v hk

/-- What a store of a byte, halfword or word leaves. -/
theorem storeOperand_stored (s : State) (a : Nat) {w : Width} (hw : w ≠ .double) (v : Word) (il : Nat) :
    Stored s ((s.storeBytes a (w.operandBytes v)).after il) a w.bytes
      (fun c => v.extractLsb' (8 * (w.bytes - 1 - (c - a))) 8) il := by
  have hlen := Width.operandBytes_length hw v
  have h := storeBytes_stored s a (bs := w.operandBytes v)
    (b := fun c => v.extractLsb' (8 * (w.bytes - 1 - (c - a))) 8)
    (fun k hk => by rw [Nat.add_sub_cancel_left, Width.operandBytes_getD hw _ (hlen ▸ hk)]) il
  rwa [hlen] at h

/-- What stores of two words leave, one behind the other. -/
theorem storeWords_stored (s : State) (a : Nat) (v w : Word) (il : Nat) :
    Stored s (((s.storeBytes a (bytesOfWord v)).storeBytes (a + 4) (bytesOfWord w)).after il) a 8
      (fun c => (v ++ w).extractLsb' (8 * (7 - (c - a))) 8) il := by
  have happ : s.storeBytes a (bytesOfWord v ++ bytesOfWord w) =
      (s.storeBytes a (bytesOfWord v)).storeBytes (a + 4) (bytesOfWord w) := s.storeBytes_append a _ _
  rw [← happ]
  exact storeBytes_stored s a (fun k hk => by rw [Nat.add_sub_cancel_left, bytesOfWord_append_getD v w hk]) il

/-- What a store of the second word of a double word at `a` leaves. -/
theorem storeLowWord_stored (s : State) (a : Nat) (w : Word) (il : Nat) :
    Stored s ((s.storeBytes (a + 4) (bytesOfWord w)).after il) (a + 4) 4
      (fun c => w.extractLsb' (8 * (7 - (c - a))) 8) il :=
  storeBytes_stored s (a + 4)
    (fun k hk => by rw [bytesOfWord_getD w hk, Nat.add_assoc, Nat.add_sub_cancel_left, Nat.sub_add_eq 7 4 k]) il

/-- Settles O8: a store completes with the bytes of its register at the real address, a double word with those of the
first register before the DMA events and those of the second after them. -/
theorem storesComplete : Obligations.StoresComplete := by
  intro s s1 x y d e f r hf ha hl hroom
  rw [storeForms_exec x y d e s f hf]
  refine ⟨fun hw => ?_, fun hw hb => ?_, fun u hw hd => ?_⟩
  · rw [storeOf_of_ne hw]
    exact ⟨_, storeFrom_located ha hl hroom, storeOperand_stored s1 r.toNat hw (s.reg x) f.il⟩
  · rw [hw] at ha hl ⊢
    have hd := State.dmaAll_nil (s1.storeBytes r.toNat (bytesOfWord (s.reg x)))
    rw [← hb] at hd
    exact ⟨_, storePair_located ha hl hroom hd, storeWords_stored s1 r.toNat (s.reg x) (s.reg (x + 1)) f.il⟩
  · rw [hw] at ha hl ⊢
    exact ⟨_, storePair_located ha hl hroom hd, storeLowWord_stored u r.toNat (s.reg (x + 1)) f.il⟩

end Sys2Proof.Machine
end

