-- ==== Sys2Proof/Proofs/IntegerLogical.lean ====
section
/-! SUPPORT. The integer, logical, immediate and extended-precision integer instructions: what each delivers, the
quotients and remainders of both roundings, and the sum of two pairs as two sums of words with a carry between them
(41_integer_logical.md rules R220 to R254). -/

namespace Sys2Proof.Machine

/-! ### Logical instructions and moves (rules R229 to R234, R240, R241, R244) -/

theorem logicalForms_exec (x y : RegNo) (s : State) : ∀ f ∈ logicalForms x y s, exec f.1 s = setAndGo x f.2 s := by
  simp only [logicalForms, List.forall_mem_cons, List.not_mem_nil, IsEmpty.forall_iff, implies_true, and_true]
  and_intros
  all_goals rfl

/-- Settles O22: each of the instructions writes its result to Rx and goes on. -/
theorem logicalAndMove : Obligations.LogicalAndMove := by
  intro s x y hroom
  refine ⟨fun i w hf => ?_, advance_room hroom⟩
  rw [logicalForms_exec x y s (i, w) hf]
  exact setAndGo_room hroom x w

/-! ### Exact results (rules R220, R222, R223, R225 to R227, R242, R243, R245) -/

theorem integerForms_exec (x y : RegNo) (s : State) :
    ∀ f ∈ integerForms x y s, exec f.1 s = exactInto f.2.1 x y f.2.2 s := by
  simp only [integerForms, List.forall_mem_cons, List.not_mem_nil, IsEmpty.forall_iff, implies_true, and_true]
  and_intros
  all_goals rfl

/-- Settles O16: each of the instructions delivers its exact result into Rx; the event is taken in the state with Rx
written, whose vectors are those of the state before. -/
theorem integerArithmetic : Obligations.IntegerArithmetic := by
  intro s x y i o r hf
  rw [integerForms_exec x y s (i, o, r) hf]
  refine ⟨fun hq hroom => exactInto_quiet hq hroom o x y, fun v ho hv => ?_⟩
  rw [exactInto_overflow ho]
  exact raise_vector ((State.hasVector_setReg x _).2 hv)

/-! ### Instructions that deliver or add (rules R221, R224, R250, R251, R253) -/

theorem exec_div (x y : RegNo) (s : State) :
    exec (.div x y) s = deliver .div x y (State.put x) (s.divResult (s.reg x) (s.reg y)) s := rfl

theorem exec_rem (x y : RegNo) (s : State) :
    exec (.rem x y) s = deliver .rem x y (State.put x) (s.remResult (s.reg x) (s.reg y)) s := rfl

theorem exec_ediv (x y : RegNo) (s : State) :
    exec (.ediv x y) s = deliver .ediv x y (State.putPair x) (s.edivResult (s.pair x) (s.reg y)) s := rfl

theorem exec_eadd (x y : RegNo) (s : State) :
    exec (.eadd x y) s = extendedSum x (s.reg x) (s.reg y) s := rfl

theorem exec_esub (x y : RegNo) (s : State) :
    exec (.esub x y) s = extendedSum x (s.reg x) (~~~ s.reg y) s := rfl

/-! ### Deliveries (rules R227, R228) -/

section Deliveries

variable {α : Type} {s : State} {o : Opcode} {x y : RegNo} {put : State → α → State}

/-- `IntDivZero()` and the overflows that deliver nothing, with their trap off. -/
theorem deliver_nothing {c : Nat} (ht : s.trapBit c = false) (hroom : s.Room 2) :
    deliver o x y put (if s.trapBit c then .abort c else .keep) s = .next (s.after 2) := by
  rw [ht]
  exact advance_room hroom

/-- `IntDivZero()` and the overflows that deliver nothing, with their trap on. -/
theorem deliver_trap {c : Nat} {v : Word} (ht : s.trapBit c = true)
    (hv : s.HasVector (.arithmetic (s.op o) x y c) v) :
    deliver o x y put (if s.trapBit c then .abort c else .keep) s =
      .next (s.enterAt (.arithmetic (s.op o) x y c) s.pc v) := by
  rw [ht]
  exact raise_vector hv

end Deliveries

/-! ### Division by zero (rule R228) -/

/-- DIV, REM and EDIV by zero deliver what `IntDivZero()` says. -/
theorem exec_of_divisor_zero {s : State} {x y : RegNo} {i : Instr} {o : Opcode}
    (hf : (i, o) ∈ [(Instr.div x y, Opcode.div), (.rem x y, .rem), (.ediv x y, .ediv)]) (hy : s.reg y = 0) :
    ∃ (α : Type) (put : State → α → State), exec i s = deliver o x y put s.divZero s := by
  simp only [List.mem_cons, Prod.mk.injEq, List.not_mem_nil, or_false] at hf
  obtain ⟨rfl, rfl⟩ | ⟨rfl, rfl⟩ | ⟨rfl, rfl⟩ := hf
  · exact ⟨Word, State.put x, by rw [exec_div, State.divResult, if_pos hy]⟩
  · exact ⟨Word, State.put x, by rw [exec_rem, State.remResult, if_pos hy]⟩
  · exact ⟨DWord, State.putPair x, by rw [exec_ediv, State.edivResult, if_pos hy]⟩

/-- Settles O18: the three instructions end as `IntDivZero()` says, whatever they would write. -/
theorem divideByZero : Obligations.DivideByZero := by
  intro s x y i o hf hy
  obtain ⟨α, put, he⟩ := exec_of_divisor_zero hf hy
  rw [he]
  exact ⟨deliver_nothing, fun v => deliver_trap⟩

/-! ### Quotient and remainder (rules R221, R224; 92_eei_decisions.md D10) -/

/-- Rounded toward minus infinity, the remainder has the sign of the divisor. -/
theorem fmod_range {a b : Int} (hb : b ≠ 0) :
    |a.fmod b| < |b| ∧ (a.fmod b = 0 ∨ (a.fmod b < 0 ↔ b < 0)) := by
  have hlow := Int.emod_nonneg a hb
  have hhigh := Int.emod_lt_abs a hb
  rw [Int.fmod_eq_emod]
  by_cases hd : b ∣ a
  · simp [hd, Int.emod_eq_zero_of_dvd hd, hb]
  · have hne : a % b ≠ 0 := fun h => hd (Int.dvd_of_emod_eq_zero h)
    rcases lt_or_gt_of_ne hb with hneg | hpos
    · rw [abs_of_neg hneg] at hhigh ⊢
      rw [if_neg (by simp [hd, hneg]), abs_of_neg (by omega)]
      omega
    · rw [abs_of_pos hpos] at hhigh ⊢
      rw [if_pos (.inl hpos.le), add_zero, abs_of_nonneg hlow]
      omega

/-- Rounded toward zero, the remainder has the sign of the dividend. -/
theorem tmod_range {a b : Int} (hb : b ≠ 0) :
    |a.tmod b| < |b| ∧ (a.tmod b = 0 ∨ (a.tmod b < 0 ↔ a < 0)) := by
  constructor
  · rw [Int.abs_eq_natAbs, Int.abs_eq_natAbs, Int.natAbs_tmod]
    exact_mod_cast Nat.mod_lt _ (Int.natAbs_pos.2 hb)
  · rcases lt_or_ge a 0 with ha | ha
    · have hle : a.tmod b ≤ 0 := by
        have := Int.tmod_nonneg (a := -a) b (by omega)
        rw [Int.neg_tmod] at this
        omega
      omega
    · have hge := Int.tmod_nonneg b ha
      omega

theorem sub_divQuot_floor (a b : Int) : a - divQuot .floor a b * b = a.fmod b := by
  rw [divQuot, mul_comm, Int.fmod_def]

theorem sub_divQuot_trunc (a b : Int) : a - divQuot .trunc a b * b = a.tmod b := by
  rw [divQuot, mul_comm, Int.tmod_def]

theorem abs_sub_divQuot_lt (d : Config.DivRound) (a : Int) {b : Int} (hb : b ≠ 0) :
    |a - divQuot d a b * b| < |b| := by
  cases d with
  | floor => exact sub_divQuot_floor a b ▸ (fmod_range hb).1
  | trunc => exact sub_divQuot_trunc a b ▸ (tmod_range hb).1

/-- A quotient of two words fits a word, unless it is that of -2^31 by -1: a divisor of 1 or -1 leaves the magnitude of
the dividend, and any other at most half of it and one more. -/
theorem quotient_fits {a b q r : Int} (h : a = q * b + r) (hr : |r| < |b|) (hlow : -2 ^ 31 ≤ a)
    (hhigh : a ≤ 2 ^ 31 - 1) (hne : ¬(a = -2 ^ 31 ∧ b = -1)) : -2 ^ 31 ≤ q ∧ q ≤ 2 ^ 31 - 1 := by
  by_cases hone : |b| ≤ 1
  · have hr0 : r = 0 := abs_eq_zero.1 (by have := abs_nonneg r; omega)
    have hb : b = 1 ∨ b = -1 := by
      rw [abs_le] at hone
      have : b ≠ 0 := fun hb => by simp [hb, hr0] at hr
      omega
    rcases hb with rfl | rfl <;> omega
  · have hqb : |q| * |b| < 2 ^ 31 + |b| := by
      have habs : |q * b| ≤ |a| + |r| := by
        rw [show q * b = a - r by omega]
        exact abs_sub a r
      have ha : |a| ≤ 2 ^ 31 := abs_le.2 ⟨hlow, by omega⟩
      rw [abs_mul] at habs
      omega
    have hq : |q| < 2 ^ 31 := by
      by_contra hq
      linarith [mul_le_mul_of_nonneg_right (not_lt.1 hq) (abs_nonneg b)]
    have := abs_lt.1 hq
    omega

section Divide

variable {s : State} {x y : RegNo}

theorem exec_div_quotient (hy : s.reg y ≠ 0) (hne : ¬(s.reg x = 0x80000000 ∧ s.reg y = 0xFFFFFFFF))
    (hroom : s.Room 2) :
    exec (.div x y) s = .next ((s.setReg x (BitVec.ofInt 32
      (divQuot s.cfg.divRound (s.reg x).toInt (s.reg y).toInt))).after 2) := by
  rw [exec_div, State.divResult, if_neg hy, if_neg hne]
  exact advance_room (s := s.setReg x _) hroom

theorem exec_rem_remainder (hy : s.reg y ≠ 0) (hne : ¬(s.reg x = 0x80000000 ∧ s.reg y = 0xFFFFFFFF))
    (hroom : s.Room 2) :
    exec (.rem x y) s = .next ((s.setReg x (BitVec.ofInt 32
      ((s.reg x).toInt - divQuot s.cfg.divRound (s.reg x).toInt (s.reg y).toInt * (s.reg y).toInt))).after 2) := by
  rw [exec_rem, State.remResult, if_neg hy, if_neg hne]
  exact advance_room (s := s.setReg x _) hroom

theorem exec_div_overflow (hx : s.reg x = 0x80000000) (hy : s.reg y = 0xFFFFFFFF) :
    exec (.div x y) s = deliver .div x y (State.put x) s.overflowKeep s := by
  rw [exec_div, State.divResult, hx, hy, if_neg (by decide), if_pos ⟨rfl, rfl⟩]

theorem exec_rem_overflow (hx : s.reg x = 0x80000000) (hy : s.reg y = 0xFFFFFFFF) :
    exec (.rem x y) s = deliver .rem x y (State.put x) (.write 0 (s.trapIf true 16)) s := by
  rw [exec_rem, State.remResult, hx, hy, if_neg (by decide), if_pos ⟨rfl, rfl⟩]

end Divide

/-- Settles O17: the quotient is that of the model's rounding and the remainder what it leaves; -2^31 by -1 is delivered
as an overflow. -/
theorem divideAndRemainder : Obligations.DivideAndRemainder := by
  intro s x y hy
  have hb : (s.reg y).toInt ≠ 0 := fun h => hy (BitVec.eq_of_toInt_eq h)
  refine ⟨fun hne hroom => ?_, fun hx hy => ⟨fun ht hroom => ⟨?_, ?_⟩, fun ht => ⟨fun v hv => ?_, fun v hv => ?_⟩⟩⟩
  · have hid := (add_sub_cancel (divQuot s.cfg.divRound (s.reg x).toInt (s.reg y).toInt * (s.reg y).toInt)
      (s.reg x).toInt).symm
    have hlt := abs_sub_divQuot_lt s.cfg.divRound (s.reg x).toInt hb
    have hmin : ¬((s.reg x).toInt = -2 ^ 31 ∧ (s.reg y).toInt = -1) := fun ⟨h1, h2⟩ =>
      hne ⟨BitVec.eq_of_toInt_eq h1, BitVec.eq_of_toInt_eq h2⟩
    obtain ⟨hlow, hhigh⟩ := quotient_fits hid hlt (BitVec.le_toInt _) (Int.le_sub_one_of_lt BitVec.toInt_lt) hmin
    refine ⟨_, _, hid, hlt, hlow, hhigh, ?_, exec_div_quotient hy hne hroom, exec_rem_remainder hy hne hroom⟩
    cases s.cfg.divRound with
    | floor => exact sub_divQuot_floor .. ▸ (fmod_range hb).2
    | trunc => exact sub_divQuot_trunc .. ▸ (tmod_range hb).2
  · exact (exec_div_overflow hx hy).trans (deliver_nothing ht hroom)
  · rw [exec_rem_overflow hx hy, State.trapIf, ht]
    exact advance_room (s := s.setReg x 0) hroom
  · exact (exec_div_overflow hx hy).trans (deliver_trap ht hv)
  · rw [exec_rem_overflow hx hy, State.trapIf, ht]
    exact raise_vector ((State.hasVector_setReg x 0).2 hv)

/-! ### Extended multiply and divide (rules R251, R252) -/

theorem exec_empy {s : State} {x y : RegNo} (hroom : s.Room 2) :
    exec (.empy x y) s =
      .next ((s.setPair x (BitVec.ofNat 64 ((s.reg x).toNat * (s.reg y).toNat))).after 2) :=
  setPairAndGo_room hroom x _

/-- The product of two words fits a double word. -/
theorem toNat_product (a b : Word) : (BitVec.ofNat 64 (a.toNat * b.toNat)).toNat = a.toNat * b.toNat := by
  rw [BitVec.toNat_ofNat]
  refine Nat.mod_eq_of_lt ?_
  calc a.toNat * b.toNat < 2 ^ 32 * 2 ^ 32 := Nat.mul_lt_mul'' a.isLt b.isLt
    _ = 2 ^ 64 := by norm_num

theorem exec_ediv_quotient {s : State} {x y : RegNo} {q r : Nat}
    (h : (s.pair x).toNat = q * (s.reg y).toNat + r) (hr : r < (s.reg y).toNat) (hq : q < s.cfg.edivOverflow.limit)
    (hroom : s.Room 2) :
    exec (.ediv x y) s =
      .next (((s.setReg x (BitVec.ofNat 32 q)).setReg (x + 1) (BitVec.ofNat 32 r)).after 2) := by
  have hy : s.reg y ≠ 0 := fun hy => by simp [hy] at hr
  obtain ⟨hdiv, hmod⟩ : (s.pair x).toNat / (s.reg y).toNat = q ∧ (s.pair x).toNat % (s.reg y).toNat = r :=
    (Nat.div_mod_unique (Nat.zero_lt_of_lt hr)).2 ⟨by rw [h]; ring, hr⟩
  rw [exec_ediv, State.edivResult, if_neg hy, hdiv, hmod, if_neg (Nat.not_le.2 hq), ← State.setPair_append]
  exact advance_room (s := s.setPair x _) hroom

theorem exec_ediv_overflow {s : State} {x y : RegNo} (hy : s.reg y ≠ 0)
    (h : s.cfg.edivOverflow.limit * (s.reg y).toNat ≤ (s.pair x).toNat) :
    exec (.ediv x y) s = deliver .ediv x y (State.putPair x) s.overflowKeep s := by
  have hpos : 0 < (s.reg y).toNat := Nat.pos_of_ne_zero fun h0 => hy (BitVec.eq_of_toNat_eq h0)
  rw [exec_ediv, State.edivResult, if_neg hy, if_pos ((Nat.le_div_iff_mul_le hpos).2 h)]

/-- Settles O19: the product fits the pair, and the quotient and remainder of natural numbers are the only ones. -/
theorem extendedMultiplyAndDivide : Obligations.ExtendedMultiplyAndDivide := by
  intro s x y
  refine ⟨fun hroom => ⟨_, exec_empy hroom, ?_, fun n hn => ?_, rfl⟩, fun q r => exec_ediv_quotient,
    fun hy hle => ?_⟩
  · rw [State.pair_after, State.pair_setPair_same, toNat_product]
  · obtain ⟨hx, hx1⟩ : n ≠ x ∧ n ≠ x + 1 := by simpa using hn
    rw [State.reg_after, State.reg_setPair, if_neg hx1, if_neg hx]
  · rw [exec_ediv_overflow hy hle]
    exact ⟨deliver_nothing, fun v => deliver_trap⟩

/-! ### Sums with a carry (rules R250, R253) -/

/-- The carry that EADD and ESUB take from R0 bit 31. -/
def State.carry (s : State) : Nat := (s.reg 0).toNat % 2

theorem State.carry_lt (s : State) : s.carry < 2 := Nat.mod_lt _ (by decide)

theorem mbit_31 (w : Word) : mbit w 31 = decide (w.toNat % 2 = 1) := by
  simp [mbit, BitVec.getMsbD, BitVec.getLsbD, Nat.testBit_zero]

theorem State.carry_eq_ite (s : State) : (if mbit (s.reg 0) 31 then 1 else 0) = s.carry := by
  simp only [mbit_31, decide_eq_true_eq, State.carry]
  split <;> omega

/-- The state after the sum of `a`, `b` and the carry: its low word is in Rx, the flags are in R0, and the pc is at the
next instruction. -/
def State.withSum (s : State) (x : RegNo) (a b : Word) : State :=
  ((s.setReg x (BitVec.ofNat 32 (a.toNat + b.toNat + s.carry))).setReg 0
    (extendedFlags (!fits32 (a.toInt + b.toInt + s.carry)) (decide (2 ^ 32 ≤ a.toNat + b.toNat + s.carry)))).after 2

theorem extendedSum_room {s : State} {x : RegNo} (hx : x ≠ 0) (hroom : s.Room 2) (a b : Word) :
    extendedSum x a b s = .next (s.withSum x a b) := by
  rw [extendedSum, if_neg hx]
  dsimp only
  rw [State.carry_eq_ite]
  exact advance_room (s := (s.setReg x _).setReg 0 _) hroom

/-- The flags word as the sum of its two bits. -/
theorem extendedFlags_eq_ofInt (o c : Bool) :
    extendedFlags o c = BitVec.ofInt 32 ((if o then 2 else 0) + (if c then 1 else 0)) := by
  revert o c
  decide

theorem mbit_extendedFlags_carry (o c : Bool) : mbit (extendedFlags o c) 31 = c := by
  revert o c
  decide

theorem mbit_extendedFlags_overflow (o c : Bool) : mbit (extendedFlags o c) 30 = o := by
  revert o c
  decide

/-- A result that does not fit 32 bits lies below or above the range. -/
theorem not_fits32 {r : Int} : (!fits32 r) = true ↔ r < -2 ^ 31 ∨ 2 ^ 31 - 1 < r := by
  rw [Bool.not_eq_true', ← Bool.not_eq_true, fits32_eq_true]
  omega

/-- The complement as a signed number, whose negative is one more (rule R253). -/
theorem toInt_complement {n : Nat} (v : BitVec (n + 1)) : (~~~v).toInt = -v.toInt - 1 := by
  rw [BitVec.toInt_eq_toNat_cond, BitVec.toInt_eq_toNat_cond, BitVec.toNat_not]
  have := v.isLt
  have := Nat.pow_succ 2 n
  split <;> split <;> omega

/-- The state after a sum, with the value and the flags as the exact unsigned sum `u` and the exact signed sum `v`
give them. -/
theorem State.withSum_eq {s : State} {x : RegNo} {a b : Word} {u v : Int}
    (hu : u = a.toNat + b.toNat + s.carry) (hv : v = a.toInt + b.toInt + s.carry) :
    s.withSum x a b = ((s.setReg x (BitVec.ofInt 32 u)).setReg 0 (BitVec.ofInt 32
      ((if v < -2 ^ 31 ∨ 2 ^ 31 - 1 < v then 2 else 0) + (if 2 ^ 32 ≤ u then 1 else 0)))).after 2 := by
  have hcarry : decide (2 ^ 32 ≤ a.toNat + b.toNat + s.carry) = true ↔ 2 ^ 32 ≤ u := by
    rw [decide_eq_true_iff, hu]
    omega
  have hvalue : BitVec.ofNat 32 (a.toNat + b.toNat + s.carry) = BitVec.ofInt 32 u := by
    rw [hu, ← BitVec.ofInt_natCast]
    push_cast
    rfl
  simp only [State.withSum, extendedFlags_eq_ofInt, not_fits32, hcarry, hvalue, ← hv]

/-- Settles O20: ESUB is the sum with the complement, which is 2^32 - 1 - Ry as an unsigned and -Ry - 1 as a signed
number. -/
theorem extendedAddAndSubtract : Obligations.ExtendedAddAndSubtract := by
  intro s x y hx hroom
  constructor
  · rw [exec_eadd, extendedSum_room hx hroom]
    exact congrArg _ (State.withSum_eq rfl rfl)
  · have hy := (s.reg y).isLt
    rw [exec_esub, extendedSum_room hx hroom]
    refine congrArg _ (State.withSum_eq ?_ ?_)
    · rw [BitVec.toNat_not, State.carry]
      omega
    · rw [toInt_complement, State.carry]
      omega

/-! ### Sums of pairs (rule R254) -/

/-- A double word as the number of its two words. -/
theorem toNat_append_word (a b : Word) : (a ++ b : DWord).toNat = 2 ^ 32 * a.toNat + b.toNat := by
  rw [BitVec.toNat_append, ← Nat.shiftLeft_add_eq_or_of_lt b.isLt, Nat.shiftLeft_eq, Nat.mul_comm]

theorem toInt_append_word (a b : Word) : (a ++ b : DWord).toInt = 2 ^ 32 * a.toInt + b.toNat := BitVec.toInt_append

theorem State.reg_withSum_same (s : State) {x : RegNo} (hx : x ≠ 0) (a b : Word) :
    (s.withSum x a b).reg x = BitVec.ofNat 32 (a.toNat + b.toNat + s.carry) := by
  rw [State.withSum, State.reg_after, State.reg_setReg_other _ _ hx, State.reg_setReg_same]

theorem State.reg_withSum_other (s : State) {x k : RegNo} (hx : k ≠ x) (h0 : k ≠ 0) (a b : Word) :
    (s.withSum x a b).reg k = s.reg k := by
  rw [State.withSum, State.reg_after, State.reg_setReg_other _ _ h0, State.reg_setReg_other _ _ hx]

theorem State.reg_withSum_zero (s : State) (x : RegNo) (a b : Word) :
    (s.withSum x a b).reg 0 =
      extendedFlags (!fits32 (a.toInt + b.toInt + s.carry)) (decide (2 ^ 32 ≤ a.toNat + b.toNat + s.carry)) := by
  rw [State.withSum, State.reg_after, State.reg_setReg_same]

theorem State.pair_two (s : State) : s.pair 2 = s.reg 2 ++ s.reg 3 := rfl

/-- A sum leaves its carry out as the carry into the next one. -/
theorem State.carry_withSum (s : State) (x : RegNo) (a b : Word) :
    (s.withSum x a b).carry = (a.toNat + b.toNat + s.carry) / 2 ^ 32 := by
  have := s.carry_lt
  simp only [← State.carry_eq_ite (s.withSum x a b), State.reg_withSum_zero, mbit_extendedFlags_carry,
    decide_eq_true_eq]
  split <;> omega

/-- The state after the sums of R2:R3 and the pair `bh`:`bl`: that of the low words into R3, then that of the high words
into R2. -/
def State.withPairSum (s : State) (bh bl : Word) : State := (s.withSum 3 (s.reg 3) bl).withSum 2 (s.reg 2) bh

section PairSum

variable (s : State) (bh bl : Word)

theorem State.pair_withPairSum :
    (s.withPairSum bh bl).pair 2 = s.pair 2 + (bh ++ bl) + BitVec.ofNat 64 s.carry := by
  have hhigh : (s.withPairSum bh bl).reg 2 = BitVec.ofNat 32 ((s.reg 2).toNat + bh.toNat +
      ((s.reg 3).toNat + bl.toNat + s.carry) / 2 ^ 32) := by
    rw [State.withPairSum, State.reg_withSum_same _ (by decide), State.carry_withSum]
  have hlow : (s.withPairSum bh bl).reg 3 = BitVec.ofNat 32 ((s.reg 3).toNat + bl.toNat + s.carry) := by
    rw [State.withPairSum, State.reg_withSum_other _ (by decide) (by decide), State.reg_withSum_same _ (by decide)]
  apply BitVec.eq_of_toNat_eq
  rw [State.pair_two, State.pair_two, hhigh, hlow]
  simp only [BitVec.toNat_add, toNat_append_word, BitVec.toNat_ofNat]
  omega

/-- R0 bit 31 is the carry out of the sum of the pairs. -/
theorem State.carry_withPairSum : mbit ((s.withPairSum bh bl).reg 0) 31 = true ↔
    2 ^ 64 ≤ (s.pair 2).toNat + (bh ++ bl : DWord).toNat + s.carry := by
  rw [State.withPairSum, State.reg_withSum_zero, mbit_extendedFlags_carry, decide_eq_true_iff, State.carry_withSum,
    State.pair_two, toNat_append_word, toNat_append_word]
  omega

/-- R0 bit 30 is the signed overflow of the sum of the pairs: the low words add to it no more than their carry. -/
theorem State.overflow_withPairSum : mbit ((s.withPairSum bh bl).reg 0) 30 = true ↔
    (s.pair 2).toInt + (bh ++ bl : DWord).toInt + s.carry < -2 ^ 63 ∨
      2 ^ 63 ≤ (s.pair 2).toInt + (bh ++ bl : DWord).toInt + s.carry := by
  have hh := (s.reg 3).isLt
  have hl := bl.isLt
  have hc := s.carry_lt
  rw [State.withPairSum, State.reg_withSum_zero, mbit_extendedFlags_overflow, not_fits32, State.carry_withSum,
    State.pair_two, toInt_append_word, toInt_append_word]
  omega

end PairSum

theorem State.room_after {s : State} {m n : Nat} (h : s.Room (m + n)) : (s.after m).Room n := by
  show (s.pc + BitVec.ofNat 32 m).toNat + n < 2 ^ 32
  rw [State.Room] at h
  rw [BitVec.toNat_add, BitVec.toNat_ofNat]
  omega

theorem SameRegsBut.pair {s t : State} (h : SameRegsBut [0] s t) {n : RegNo} (h0 : n ≠ 0) (h1 : n + 1 ≠ 0) :
    t.pair n = s.pair n := by
  rw [State.pair, State.pair, h n (by simpa using h0), h (n + 1) (by simpa using h1)]

theorem SameRegsBut.withPairSum {s t : State} (h : SameRegsBut [0] s t) (bh bl : Word) :
    SameRegsBut [0, 2, 3] s (t.withPairSum bh bl) := by
  intro n hn
  obtain ⟨h0, h2, h3⟩ : n ≠ 0 ∧ n ≠ 2 ∧ n ≠ 3 := by simpa using hn
  rw [State.withPairSum, State.reg_withSum_other _ h2 h0, State.reg_withSum_other _ h3 h0, h n (by simpa using h0)]

section Sequences

variable {s : State}

/-- MOVE R0, c makes c the carry into what follows. -/
theorem exec_moveri_carry (hroom : s.Room 6) {c : RegNo} (hc : c.toNat < 2) :
    ∃ s1, exec (.moveri 0 c) s = .next s1 ∧ s1.carry = c.toNat ∧ SameRegsBut [0] s s1 ∧ s1.Room 4 := by
  refine ⟨_, setAndGo_room (show s.pc.toNat + 2 < 2 ^ 32 by omega) 0 _, ?_, fun n hn => ?_,
    State.room_after (s := s.setReg 0 _) hroom⟩
  · rw [State.carry, State.reg_after, State.reg_setReg_same, imm4, zext, BitVec.toNat_setWidth]
    omega
  · rw [State.reg_after, State.reg_setReg_other _ _ (by simpa using hn)]

theorem extendedSum_low_words (hroom : s.Room 4) (b : Word) :
    extendedSum 3 (s.reg 3) b s = .next (s.withSum 3 (s.reg 3) b) :=
  extendedSum_room (by decide) (show s.pc.toNat + 2 < 2 ^ 32 by omega) _ _

/-- The sum of the high words leaves that of the pairs: R2 is still as it was before the sum of the low words. -/
theorem extendedSum_high_words (hroom : s.Room 4) (bh bl : Word) :
    extendedSum 2 ((s.withSum 3 (s.reg 3) bl).reg 2) bh (s.withSum 3 (s.reg 3) bl) =
      .next (s.withPairSum bh bl) := by
  rw [State.withPairSum, State.reg_withSum_other _ (by decide) (by decide)]
  exact extendedSum_room (by decide) (State.room_after (s := (s.setReg _ _).setReg _ _) hroom) _ _

theorem exec_eadd_pair (hroom : s.Room 4) :
    ∃ s2, exec (.eadd 3 5) s = .next s2 ∧
      exec (.eadd 2 4) s2 = .next (s.withPairSum (s.reg 4) (s.reg 5)) := by
  refine ⟨_, extendedSum_low_words hroom (s.reg 5), ?_⟩
  rw [exec_eadd, State.reg_withSum_other (k := 4) s (by decide) (by decide)]
  exact extendedSum_high_words hroom _ _

theorem exec_esub_pair (hroom : s.Room 4) :
    ∃ s2, exec (.esub 3 5) s = .next s2 ∧
      exec (.esub 2 4) s2 = .next (s.withPairSum (~~~ s.reg 4) (~~~ s.reg 5)) := by
  refine ⟨_, extendedSum_low_words hroom (~~~ s.reg 5), ?_⟩
  rw [exec_esub, State.reg_withSum_other (k := 4) s (by decide) (by decide)]
  exact extendedSum_high_words hroom _ _

end Sequences

/-- Settles O21: both sequences are a sum of pairs with the carry that the MOVE leaves; the difference is the sum with
the complement and a carry of 1. -/
theorem multipleWordArithmetic : Obligations.MultipleWordArithmetic := by
  intro s hroom
  constructor
  · obtain ⟨s1, hmove, (hc : s1.carry = 0), hregs, hroom1⟩ := exec_moveri_carry hroom (c := 0) (by decide)
    obtain ⟨s2, hlow, hhigh⟩ := exec_eadd_pair hroom1
    have h2 : s1.pair 2 = s.pair 2 := hregs.pair (by decide) (by decide)
    have h4 : s1.reg 4 ++ s1.reg 5 = s.pair 4 := hregs.pair (by decide) (by decide)
    refine ⟨s1, s2, _, hmove, hlow, hhigh, ?_, hregs.withPairSum _ _, ?_, ?_⟩
    · rw [State.pair_withPairSum, h2, h4, hc]
      exact BitVec.add_zero _
    · rw [State.carry_withPairSum, h2, h4, hc, Nat.add_zero]
    · rw [State.overflow_withPairSum, h2, h4, hc]
      omega
  · obtain ⟨s1, hmove, (hc : s1.carry = 1), hregs, hroom1⟩ := exec_moveri_carry hroom (c := 1) (by decide)
    obtain ⟨s2, hlow, hhigh⟩ := exec_esub_pair hroom1
    have h2 : s1.pair 2 = s.pair 2 := hregs.pair (by decide) (by decide)
    have h4 : ~~~ s1.reg 4 ++ ~~~ s1.reg 5 = ~~~ s.pair 4 :=
      BitVec.not_append.symm.trans (congrArg _ (hregs.pair (n := 4) (by decide) (by decide)))
    refine ⟨s1, s2, _, hmove, hlow, hhigh, ?_, hregs.withPairSum _ _, ?_, ?_⟩
    · rw [State.pair_withPairSum, h2, h4, hc, BitVec.sub_eq_add_neg, BitVec.neg_eq_not_add, BitVec.add_assoc]
    · have := (s.pair 4).isLt
      rw [State.carry_withPairSum, h2, h4, hc, BitVec.toNat_not]
      omega
    · rw [State.overflow_withPairSum, h2, h4, hc, toInt_complement]
      omega

end Sys2Proof.Machine
end

