-- ==== Sys2Proof/Proofs/RealValues.lean ====
section
/-! SUPPORT. The values of real patterns and of exact results as rational numbers, and the gaps between the ordinary
numbers of a format (42_real.md rules R270, R271, R276). -/

namespace Sys2Proof.Machine

/-! ### Signs -/

/-- The factor that a sign bit stands for. -/
def signFactor (neg : Bool) : ℚ := if neg then -1 else 1

@[simp] theorem signFactor_true : signFactor true = -1 := rfl
@[simp] theorem signFactor_false : signFactor false = 1 := rfl

theorem signFactor_not (n : Bool) : signFactor (!n) = -signFactor n := by cases n <;> simp

theorem signFactor_bne (m n : Bool) : signFactor (m != n) = signFactor m * signFactor n := by
  cases m <;> simp [signFactor_not]

@[simp] theorem signFactor_mul_self (n : Bool) : signFactor n * signFactor n = 1 := by cases n <;> simp

@[simp] theorem abs_signFactor (n : Bool) : |signFactor n| = 1 := by cases n <;> simp

theorem signFactor_ne_zero (n : Bool) : signFactor n ≠ 0 := by cases n <;> simp

theorem signFactor_mul_neg_iff {n : Bool} {y : ℚ} (hy : 0 < y) : signFactor n * y < 0 ↔ n = true := by
  cases n <;> simp [hy, hy.le]

/-! ### Exact results (rule R276) -/

/-- The rational number that an exact result stands for. -/
def Exact.value (x : Exact) : ℚ := signFactor x.neg * (x.num / x.den) * 2 ^ x.exp

theorem Exact.abs_value (x : Exact) : |x.value| = x.num / x.den * 2 ^ x.exp := by
  have h : (0 : ℚ) ≤ x.num / x.den * 2 ^ x.exp := by positivity
  rw [Exact.value, mul_assoc, abs_mul, abs_signFactor, one_mul, abs_of_nonneg h]

theorem Exact.value_eq_zero {x : Exact} (hd : 0 < x.den) : x.value = 0 ↔ x.num = 0 := by
  have : (x.den : ℚ) ≠ 0 := by exact_mod_cast hd.ne'
  simp [Exact.value, signFactor_ne_zero, this, zpow_ne_zero]

/-- The value by the signed numerator. -/
theorem Exact.value_signed {x : Exact} (hd : x.den = 1) : x.value = x.signed * 2 ^ x.exp := by
  cases h : x.neg <;> simp [Exact.value, Exact.signed, h, hd]

/-- The integer `n` times `2^e`, as sums and integers are built. -/
theorem Exact.value_mk_int (n : ℤ) (e : ℤ) : (Exact.mk (decide (n < 0)) n.natAbs 1 e).value = n * 2 ^ e := by
  rw [Exact.value_signed rfl, Exact.signed]
  by_cases h : n < 0
  · simp [h, abs_of_neg h]
  · simp [h, abs_of_nonneg (not_lt.1 h)]

theorem Exact.value_ofInt (n : ℤ) : (Exact.ofInt n).value = n := by
  rw [Exact.ofInt, Exact.value_mk_int, zpow_zero, mul_one]

/-- A power of two brought to a smaller exponent. -/
theorem two_zpow_split {d e : ℤ} (h : e ≤ d) : (2 : ℚ) ^ d = 2 ^ (d - e).toNat * 2 ^ e := by
  rw [← zpow_natCast, Int.toNat_of_nonneg (by omega), ← zpow_add₀ two_ne_zero, sub_add_cancel]

theorem Exact.value_add {a b : Exact} (ha : a.den = 1) (hb : b.den = 1) : (a.add b).value = a.value + b.value := by
  rw [Exact.add, Exact.value_mk_int, Exact.value_signed ha, Exact.value_signed hb,
    two_zpow_split (min_le_left a.exp b.exp), two_zpow_split (min_le_right a.exp b.exp)]
  push_cast
  ring

theorem Exact.value_negate (a : Exact) : a.negate.value = -a.value := by
  rw [Exact.negate, Exact.value, Exact.value, signFactor_not]
  ring

theorem Exact.value_mul (a b : Exact) : (a.mul b).value = a.value * b.value := by
  simp only [Exact.mul, Exact.value, signFactor_bne, Nat.cast_mul, zpow_add₀ (two_ne_zero (α := ℚ))]
  ring

theorem Exact.value_div (a b : Exact) : (a.div b).value = a.value / b.value := by
  have hs : (signFactor b.neg)⁻¹ = signFactor b.neg := by cases b.neg <;> norm_num
  simp only [Exact.div, Exact.value, signFactor_bne, Nat.cast_mul, zpow_sub₀ (two_ne_zero (α := ℚ)), div_eq_mul_inv,
    mul_inv, inv_inv, hs]
  ring

/-! ### Values of real patterns (rules R270, R271) -/

/-- A value by its significand with the leading one. -/
theorem RealFields.value_eq (f : Fmt) (r : RealFields) :
    r.value f = signFactor r.neg * (2 ^ f.manBits + r.man) * 2 ^ ((r.exp : ℤ) - f.bias - f.manBits) := by
  rw [RealFields.value, signFactor, zpow_sub₀ two_ne_zero ((r.exp : ℤ) - f.bias) f.manBits, zpow_natCast]
  field_simp

theorem RealFields.value_exact (f : Fmt) (r : RealFields) : (r.exact f).value = r.value f := by
  rw [RealFields.value_eq, RealFields.exact, Exact.value]
  push_cast
  rw [div_one]

theorem RealFields.abs_value (f : Fmt) (r : RealFields) :
    |r.value f| = ((2 ^ f.manBits + r.man : ℕ) : ℚ) * 2 ^ ((r.exp : ℤ) - f.bias - f.manBits) := by
  rw [← RealFields.value_exact, Exact.abs_value, RealFields.exact, Nat.cast_one, div_one]

theorem exactOp_value (f : Fmt) (op : RealOp) (a b : RealFields) :
    (exactOp op (a.exact f) (b.exact f)).value = op.onValues (a.value f) (b.value f) := by
  simp only [← RealFields.value_exact f]
  cases op with
  | add => exact Exact.value_add rfl rfl
  | sub => rw [exactOp, Exact.value_add rfl rfl, Exact.value_negate, RealOp.onValues, sub_eq_add_neg]
  | mpy => exact Exact.value_mul _ _
  | div => exact Exact.value_div _ _

theorem exactOp_den_pos (f : Fmt) (op : RealOp) (a b : RealFields) :
    0 < (exactOp op (a.exact f) (b.exact f)).den := by
  cases op with
  | add => exact Nat.one_pos
  | sub => exact Nat.one_pos
  | mpy => exact Nat.one_pos
  | div =>
    show 0 < 1 * (2 ^ f.manBits + b.man)
    positivity

/-- No ordinary number lies between two neighbouring multiples of a power of two that have the significands of the
format. -/
theorem RealFields.Ordinary.gap {f : Fmt} {w : RealFields} (hw : w.Ordinary f) {n : ℕ} (hn : 2 ^ f.manBits ≤ n)
    (e : ℤ) :
    |w.value f| ≤ n * 2 ^ e ∨ ((n : ℚ) + 1) * 2 ^ e ≤ |w.value f| := by
  obtain ⟨_, _, hman⟩ := hw
  have hpos : (0 : ℚ) < 2 ^ e := by positivity
  rw [RealFields.abs_value]
  generalize hE : (w.exp : ℤ) - f.bias - f.manBits = E
  by_cases h : e ≤ E
  · rw [two_zpow_split h, ← mul_assoc, mul_le_mul_iff_left₀ hpos, mul_le_mul_iff_left₀ hpos]
    exact_mod_cast (Nat.lt_or_ge n ((2 ^ f.manBits + w.man) * 2 ^ (E - e).toNat)).symm
  · left
    have hsig : 2 ^ f.manBits + w.man ≤ n * 2 := by omega
    calc ((2 ^ f.manBits + w.man : ℕ) : ℚ) * 2 ^ E ≤ ((n * 2 : ℕ) : ℚ) * 2 ^ (e - 1) := by
          gcongr
          · norm_num
          · omega
      _ = n * 2 ^ e := by
          rw [zpow_sub_one₀ two_ne_zero]
          push_cast
          ring

/-! ### Formats -/

/-- What the proofs use of a format: there is a mantissa, and both exponents next to the bias are those of numbers. -/
structure Fmt.Wide (f : Fmt) : Prop where
  manBits_pos : 1 ≤ f.manBits
  bias_pos : 1 ≤ f.bias
  bias_lt : f.bias + 1 < f.maxExp

theorem single_wide : single.Wide := ⟨by decide, by decide, by decide⟩
theorem double_wide : double.Wide := ⟨by decide, by decide, by decide⟩

theorem Fmt.maxExp_succ (f : Fmt) : f.maxExp + 1 = 2 ^ f.expBits := Nat.sub_add_cancel Nat.one_le_two_pow

theorem Fmt.minValue_eq (f : Fmt) : f.minValue = 2 ^ (1 - f.bias : ℤ) := by
  simp [Fmt.minValue, RealFields.value]

/-- The largest value is one unit of its last place below a power of two. -/
theorem Fmt.maxValue_eq (f : Fmt) (h : 1 ≤ f.maxExp) :
    f.maxValue = (2 ^ (f.manBits + 1) - 1) * 2 ^ ((f.maxExp : ℤ) - 1 - f.bias - f.manBits) := by
  rw [Fmt.maxValue, RealFields.value_eq, signFactor_false]
  push_cast [Nat.one_le_two_pow, h]
  ring

end Sys2Proof.Machine
end

