-- ==== Sys2Proof/Proofs/RealRounding.lean ====
section
/-! SUPPORT. Rounding (42_real.md rules R274 to R276, R290): the integer that a mode chooses for a magnitude, the
rounded result of an exact value with the exponent unbounded, and that both are the correctly rounded values. -/

namespace Sys2Proof.Machine

open Sys2Proof.Config (RoundMode FpRound)

/-! ### The integer chosen for a magnitude (rules R274, R275) -/

/-- A mode chooses `k` for the magnitude `y` between the neighbours `n` and `n + 1`, the sign being `neg`. -/
structure Chooses (m : RoundMode) (neg : Bool) (y : ℚ) (n k : ℕ) : Prop where
  low : n ≤ y
  high : y < n + 1
  choice : match m with
    | .nearest => (k = n ∧ 2 * y ≤ 2 * n + 1 ∨ k = n + 1 ∧ 2 * n + 1 ≤ 2 * y) ∧ (2 * y = 2 * n + 1 → k % 2 = 0)
    | .plusInfinity => k = n ∧ (neg = true ∨ y = n) ∨ k = n + 1 ∧ neg = false ∧ n < y
    | .minusInfinity => k = n ∧ (neg = false ∨ y = n) ∨ k = n + 1 ∧ neg = true ∧ n < y
    | .zero => k = n

/-- A fraction by its integer part and its remainder. -/
theorem natCast_div_eq_add (num : ℕ) {den : ℕ} (hd : 0 < den) :
    (num : ℚ) / den = (num / den : ℕ) + (num % den : ℕ) / den := by
  have hdiv : (num : ℚ) = den * (num / den : ℕ) + (num % den : ℕ) := by exact_mod_cast (Nat.div_add_mod num den).symm
  have hd' : (den : ℚ) ≠ 0 := by exact_mod_cast hd.ne'
  rw [div_eq_iff hd', add_mul, div_mul_cancel₀ _ hd', mul_comm]
  exact hdiv

/-- A fraction is an integer when nothing remains. -/
theorem mod_ne_zero_eq_false_iff (num : ℕ) {den : ℕ} (hd : 0 < den) :
    decide (num % den ≠ 0) = false ↔ (num : ℚ) / den = (num / den : ℕ) := by
  have hd' : (den : ℚ) ≠ 0 := by exact_mod_cast hd.ne'
  rw [natCast_div_eq_add num hd, add_eq_left, div_eq_zero_iff, or_iff_left hd', Nat.cast_eq_zero,
    decide_eq_false_iff_not, not_not]

/-- The integer part, or one more as the mode says, of a fraction. -/
theorem chooses_roundsUp (m : RoundMode) (neg : Bool) {num den : ℕ} (hd : 0 < den) :
    Chooses m neg (num / den) (num / den)
      (if roundsUp m neg (num / den) (num % den) den then num / den + 1 else num / den) := by
  have hr : num % den < den := Nat.mod_lt _ hd
  rw [natCast_div_eq_add num hd]
  generalize num / den = n
  generalize num % den = r at *
  have hd' : (0 : ℚ) < den := by exact_mod_cast hd
  have hone : (r : ℚ) / den < 1 := by
    rw [div_lt_one hd']
    exact_mod_cast hr
  refine ⟨le_add_of_nonneg_right (by positivity), by linarith, ?_⟩
  have hpos : r ≠ 0 → (n : ℚ) < n + r / den := fun h => by
    have : (0 : ℚ) < r := by exact_mod_cast Nat.pos_of_ne_zero h
    exact lt_add_of_pos_right _ (by positivity)
  cases m with
  | nearest =>
    have hle : 2 * ((n : ℚ) + r / den) ≤ 2 * n + 1 ↔ 2 * r ≤ den := by
      rw [mul_add, add_le_add_iff_left, mul_div, div_le_one hd']
      exact_mod_cast Iff.rfl
    have hge : 2 * (n : ℚ) + 1 ≤ 2 * (n + r / den) ↔ den ≤ 2 * r := by
      rw [mul_add, add_le_add_iff_left, mul_div, one_le_div hd']
      exact_mod_cast Iff.rfl
    have heq : 2 * ((n : ℚ) + r / den) = 2 * n + 1 ↔ 2 * r = den := by
      rw [le_antisymm_iff, hle, hge, ← le_antisymm_iff]
    have hup : roundsUp .nearest neg n r den = true ↔ den < 2 * r ∨ 2 * r = den ∧ n % 2 = 1 := by simp [roundsUp]
    simp only [hle, hge, heq, hup]
    split <;> omega
  | plusInfinity =>
    by_cases h : neg = false ∧ r ≠ 0
    · rw [if_pos (by simp [roundsUp, h])]
      exact .inr ⟨rfl, h.1, hpos h.2⟩
    · rw [if_neg (by simpa [roundsUp] using h)]
      refine .inl ⟨rfl, ?_⟩
      rcases Decidable.not_and_iff_or_not.1 h with h | h
      · exact .inl (by simpa using h)
      · exact .inr (by simp [not_not.1 h])
  | minusInfinity =>
    by_cases h : neg = true ∧ r ≠ 0
    · rw [if_pos (by simp [roundsUp, h])]
      exact .inr ⟨rfl, h.1, hpos h.2⟩
    · rw [if_neg (by simpa [roundsUp] using h)]
      refine .inl ⟨rfl, ?_⟩
      rcases Decidable.not_and_iff_or_not.1 h with h | h
      · exact .inl (by simpa using h)
      · exact .inr (by simp [not_not.1 h])
  | zero => exact if_neg (by simp [roundsUp])

/-- The mode rounds a value of this sign away from zero. -/
def RoundMode.Up (m : RoundMode) (neg : Bool) : Prop :=
  m = .plusInfinity ∧ neg = false ∨ m = .minusInfinity ∧ neg = true

/-- The directed mode rounds a value of this sign toward zero. -/
def RoundMode.Down (m : RoundMode) (neg : Bool) : Prop :=
  m = .plusInfinity ∧ neg = true ∨ m = .minusInfinity ∧ neg = false

/-- A magnitude outside a gap is outside it with either sign. -/
theorem gap_of_abs {n : ℕ} {z : ℚ} (h : |z| ≤ n ∨ (n : ℚ) + 1 ≤ |z|) : z ≤ n ∨ (n : ℚ) + 1 ≤ z := by
  rcases h with h | h
  · exact .inl ((le_abs_self z).trans h)
  · rcases le_abs.1 h with h | h
    · exact .inr h
    · exact .inl (by linarith [(Nat.cast_nonneg n : (0 : ℚ) ≤ n)])

namespace Chooses

variable {m : RoundMode} {neg : Bool} {y z : ℚ} {n k : ℕ}

/-- The lower neighbour, or the upper one of a magnitude above the lower one. -/
theorem eq_or (h : Chooses m neg y n k) : k = n ∨ k = n + 1 ∧ n < y := by
  obtain ⟨_, _, h⟩ := h
  cases m with
  | nearest =>
    obtain ⟨⟨hk, _⟩ | ⟨hk, hy⟩, _⟩ := h
    · exact .inl hk
    · exact .inr ⟨hk, by linarith⟩
  | plusInfinity => exact h.imp And.left fun ⟨hk, _, hy⟩ => ⟨hk, hy⟩
  | minusInfinity => exact h.imp And.left fun ⟨hk, _, hy⟩ => ⟨hk, hy⟩
  | zero => exact .inl h

theorem eq_iff (h : Chooses m neg y n k) : (k : ℚ) = y ↔ y = n := by
  have hhigh := h.high
  rcases h.eq_or with rfl | ⟨rfl, hlt⟩
  · exact eq_comm
  · rw [Nat.cast_succ]
    exact iff_of_false hhigh.ne' hlt.ne'

/-- The distance of the nearest neighbour is no more than a half, and at a half that neighbour is even. -/
theorem nearest_half (h : Chooses .nearest neg y n k) : 2 * |y - k| ≤ 1 ∧ (2 * |y - k| = 1 → k % 2 = 0) := by
  obtain ⟨hlow, hhigh, ⟨rfl, hle⟩ | ⟨rfl, hge⟩, htie⟩ := h
  · rw [abs_of_nonneg (by linarith)]
    exact ⟨by linarith, fun ht => htie (by linarith)⟩
  · rw [Nat.cast_succ, abs_of_nonpos (by linarith)]
    exact ⟨by linarith, fun ht => htie (by linarith)⟩

/-- Nothing outside the gap is nearer than the nearest neighbour. -/
theorem nearest_le (h : Chooses .nearest neg y n k) (hz : z ≤ n ∨ (n : ℚ) + 1 ≤ z) : |y - k| ≤ |y - z| := by
  obtain ⟨hlow, hhigh, ⟨rfl, hle⟩ | ⟨rfl, hge⟩, -⟩ := h
  · rw [abs_of_nonneg (by linarith), le_abs]
    exact hz.imp (fun hz => by linarith) fun hz => by linarith
  · rw [Nat.cast_succ, abs_of_nonpos (by linarith), le_abs]
    exact hz.imp (fun hz => by linarith) fun hz => by linarith

/-- Another one as near is the other neighbour, of a magnitude half way between them. -/
theorem nearest_tie (h : Chooses .nearest neg y n k) (hz : z ≤ n ∨ (n : ℚ) + 1 ≤ z) (heq : |y - z| = |y - k|)
    (hne : z ≠ k) : k % 2 = 0 := by
  obtain ⟨hlow, hhigh, ⟨rfl, hle⟩ | ⟨rfl, hge⟩, htie⟩ := h
  · refine htie (le_antisymm hle ?_)
    rcases hz with hz | hz
    · rw [abs_of_nonneg (by linarith), abs_of_nonneg (by linarith)] at heq
      exact absurd (by linarith) hne
    · rw [abs_of_nonpos (by linarith), abs_of_nonneg (by linarith)] at heq
      linarith
  · refine htie (le_antisymm ?_ hge)
    rw [Nat.cast_succ] at heq hne
    rcases hz with hz | hz
    · rw [abs_of_nonneg (by linarith), abs_of_nonpos (by linarith)] at heq
      linarith
    · rw [abs_of_nonpos (by linarith), abs_of_nonpos (by linarith)] at heq
      exact absurd (by linarith) hne

/-- Away from zero the choice is the least magnitude outside the gap that is not below `y`. -/
theorem up_bound (h : Chooses m neg y n k) (hup : RoundMode.Up m neg) :
    y ≤ k ∧ k < y + 1 ∧ ∀ z : ℚ, (z ≤ n ∨ (n : ℚ) + 1 ≤ z) → y ≤ z → k ≤ z := by
  obtain ⟨hlow, hhigh, hchoice⟩ := h
  have hc : k = n ∧ y = n ∨ k = n + 1 ∧ (n : ℚ) < y := by
    obtain ⟨rfl, rfl⟩ | ⟨rfl, rfl⟩ := hup
    all_goals simpa using hchoice
  obtain ⟨rfl, rfl⟩ | ⟨rfl, hlt⟩ := hc
  · exact ⟨le_rfl, lt_add_one _, fun z _ h => h⟩
  · rw [Nat.cast_succ]
    exact ⟨hhigh.le, by linarith, fun z hz hle => hz.resolve_left (by linarith)⟩

/-- Toward zero the choice is the greatest magnitude outside the gap that is not above `y`. -/
theorem down_bound (h : Chooses m neg y n k) (hdown : RoundMode.Down m neg) :
    (k : ℚ) ≤ y ∧ y < k + 1 ∧ ∀ z : ℚ, (z ≤ n ∨ (n : ℚ) + 1 ≤ z) → z ≤ y → z ≤ k := by
  obtain ⟨hlow, hhigh, hchoice⟩ := h
  have hc : k = n := by
    obtain ⟨rfl, rfl⟩ | ⟨rfl, rfl⟩ := hdown
    all_goals simpa using hchoice
  rw [hc]
  exact ⟨hlow, hhigh, fun z hz hle => hz.resolve_right (by linarith)⟩

end Chooses

/-! ### Rounding to an integer (rule R290) -/

theorem signFactor_mul_natCast (neg : Bool) (k : ℕ) :
    (((if neg then -(k : ℤ) else k) : ℤ) : ℚ) = signFactor neg * k := by
  cases neg <;> simp

/-- The chosen integer with its sign is the correctly rounded one. -/
theorem Chooses.intRoundsTo {m : RoundMode} {neg : Bool} {y : ℚ} {n k : ℕ} (h : Chooses m neg y n k) :
    IntRoundsTo m (signFactor neg * y) (if neg then -(k : ℤ) else k) := by
  unfold IntRoundsTo
  rw [signFactor_mul_natCast]
  cases m with
  | nearest =>
    obtain ⟨hhalf, htie⟩ := h.nearest_half
    dsimp only
    rw [← mul_sub, abs_mul, abs_signFactor, one_mul]
    refine ⟨hhalf, fun ht => ?_⟩
    have := htie ht
    split <;> omega
  | plusInfinity =>
    cases neg with
    | false =>
      obtain ⟨hle, hlt, -⟩ := h.up_bound (.inl ⟨rfl, rfl⟩)
      simpa using ⟨hle, hlt⟩
    | true =>
      obtain ⟨hle, hlt, -⟩ := h.down_bound (.inl ⟨rfl, rfl⟩)
      simp only [signFactor_true, neg_mul, one_mul]
      constructor <;> linarith
  | minusInfinity =>
    cases neg with
    | false =>
      obtain ⟨hle, hlt, -⟩ := h.down_bound (.inr ⟨rfl, rfl⟩)
      simpa using ⟨hle, hlt⟩
    | true =>
      obtain ⟨hle, hlt, -⟩ := h.up_bound (.inr ⟨rfl, rfl⟩)
      simp only [signFactor_true, neg_mul, one_mul]
      constructor <;> linarith
  | zero =>
    obtain rfl : k = n := h.choice
    have hy : (0 : ℚ) ≤ y := le_trans (by positivity) h.low
    dsimp only
    rw [abs_mul, abs_mul, abs_signFactor, one_mul, one_mul, abs_of_nonneg hy, Nat.abs_cast]
    refine ⟨h.low, h.high, ?_⟩
    rw [mul_mul_mul_comm, signFactor_mul_self, one_mul]
    positivity

/-- Two integers each less than the other and one are equal. -/
theorem int_eq_of_lt_add_one {a b : ℤ} (hab : (a : ℚ) < b + 1) (hba : (b : ℚ) < a + 1) : a = b := by
  norm_cast at hab hba
  omega

/-- Two integers half a unit from one value are the same or neighbours. -/
theorem IntRoundsTo.unique_nearest {q : ℚ} {a b : ℤ} (ha : IntRoundsTo .nearest q a) (hb : IntRoundsTo .nearest q b) :
    a = b := by
  obtain ⟨ha, hae⟩ := ha
  obtain ⟨hb, hbe⟩ := hb
  have htri := abs_sub_le (a : ℚ) q b
  rw [abs_sub_comm (a : ℚ) q] at htri
  have hab : |a - b| ≤ 1 := by exact_mod_cast (by linarith : |(a : ℚ) - b| ≤ 1)
  by_contra hne
  have hone : |a - b| = 1 := by
    have : 0 < |a - b| := abs_pos.2 (sub_ne_zero.2 hne)
    omega
  have hone' : |(a : ℚ) - b| = 1 := by exact_mod_cast hone
  have := hae (by linarith)
  have := hbe (by linarith)
  rw [abs_le] at hab
  omega

/-- The correctly rounded integer is the only one. -/
theorem IntRoundsTo.unique {m : RoundMode} {q : ℚ} {a b : ℤ} (ha : IntRoundsTo m q a) (hb : IntRoundsTo m q b) :
    a = b := by
  cases m with
  | nearest => exact ha.unique_nearest hb
  | plusInfinity => exact int_eq_of_lt_add_one (ha.2.trans_le (by linarith [hb.1])) (hb.2.trans_le (by linarith [ha.1]))
  | minusInfinity => exact int_eq_of_lt_add_one (ha.1.trans_lt hb.2) (hb.1.trans_lt ha.2)
  | zero =>
    obtain ⟨ha, ha', has⟩ := ha
    obtain ⟨hb, hb', hbs⟩ := hb
    have habs : |a| = |b| := int_eq_of_lt_add_one (by push_cast; linarith) (by push_cast; linarith)
    rcases abs_eq_abs.1 habs with h | rfl
    · exact h
    · push_cast at has
      rcases mul_eq_zero.1 (le_antisymm (by linarith) hbs) with rfl | h
      · have : b = 0 := by simpa using hb
        omega
      · have : b = 0 := by exact_mod_cast h
        omega

/-! ### Scaling a fraction to a significand -/

theorem scaleFrac_den_pos {num den : ℕ} (hd : 0 < den) (t : ℤ) : 0 < (scaleFrac num den t).2 := by
  unfold scaleFrac
  split
  · exact hd
  · exact Nat.mul_pos hd (Nat.two_pow_pos _)

theorem scaleFrac_value (num den : ℕ) (t : ℤ) :
    ((scaleFrac num den t).1 : ℚ) / (scaleFrac num den t).2 = num / den * 2 ^ t := by
  unfold scaleFrac
  split
  · rename_i h
    lift t to ℕ using h
    simp [mul_div_right_comm]
  · rename_i h
    obtain ⟨k, rfl⟩ : ∃ k : ℕ, t = -k := ⟨(-t).toNat, by omega⟩
    simp [zpow_neg, div_eq_mul_inv, mul_assoc, mul_comm]

/-- The exponents of numerator and denominator leave a fraction in doubt by a factor of two. -/
theorem log2_scaled_range {num den : ℕ} (b : ℕ) (hn : 0 < num) (hd : 0 < den) :
    (2 : ℚ) ^ b ≤ num / den * 2 ^ ((b : ℤ) - (num.log2 - den.log2)) * 2 ∧
      (num : ℚ) / den * 2 ^ ((b : ℤ) - (num.log2 - den.log2)) < 2 ^ (b + 1) := by
  have hd' : (0 : ℚ) < den := by exact_mod_cast hd
  have hnpos : (0 : ℚ) < 2 ^ num.log2 := by positivity
  have hnlow : 1 ≤ (num : ℚ) / 2 ^ num.log2 := by
    rw [one_le_div hnpos]
    exact_mod_cast Nat.log2_self_le hn.ne'
  have hnhigh : (num : ℚ) / 2 ^ num.log2 < 2 := by
    rw [div_lt_iff₀ hnpos, ← pow_succ']
    exact_mod_cast Nat.lt_log2_self
  have hdlow : 1 < 2 * (2 ^ den.log2 / (den : ℚ)) := by
    rw [mul_div, one_lt_div hd', ← pow_succ']
    exact_mod_cast Nat.lt_log2_self
  have hdhigh : 2 ^ den.log2 / (den : ℚ) ≤ 1 := by
    rw [div_le_one hd']
    exact_mod_cast Nat.log2_self_le hd.ne'
  have hsplit : (num : ℚ) / den * 2 ^ ((b : ℤ) - (num.log2 - den.log2)) =
      2 ^ b * (num / 2 ^ num.log2 * (2 ^ den.log2 / den)) := by
    rw [zpow_sub₀ two_ne_zero, zpow_sub₀ two_ne_zero]
    simp only [zpow_natCast]
    field_simp
  rw [hsplit]
  constructor
  · rw [mul_assoc]
    exact le_mul_of_one_le_right (by positivity) (by nlinarith)
  · rw [pow_succ]
    gcongr
    exact (mul_le_of_le_one_right (by positivity) hdhigh).trans_lt hnhigh

/-- The integer part of a fraction is below a number where the fraction is. -/
theorem natCast_div_lt_iff {num den : ℕ} (hd : 0 < den) (n : ℕ) : (num : ℚ) / den < n ↔ num / den < n := by
  rw [div_lt_iff₀ (by exact_mod_cast hd), Nat.div_lt_iff_lt_mul hd]
  exact_mod_cast Iff.rfl

theorem scaleFrac_div_lt_iff (num : ℕ) {den : ℕ} (hd : 0 < den) (t : ℤ) (n : ℕ) :
    (scaleFrac num den t).1 / (scaleFrac num den t).2 < n ↔ (num : ℚ) / den * 2 ^ t < n := by
  rw [← natCast_div_lt_iff (scaleFrac_den_pos hd t), scaleFrac_value]

/-- The scaled fraction lies between the least significand and twice that. -/
theorem scaleFor_range {num den : ℕ} (b : ℕ) (hn : 0 < num) (hd : 0 < den) :
    (2 : ℚ) ^ b ≤ num / den * 2 ^ scaleFor (b + 1) num den ∧
      (num : ℚ) / den * 2 ^ scaleFor (b + 1) num den < 2 ^ (b + 1) := by
  obtain ⟨hlow, hhigh⟩ := log2_scaled_range b hn hd
  unfold scaleFor
  rw [show ((b + 1 : ℕ) : ℤ) - 1 - ((num.log2 : ℤ) - den.log2) = b - (num.log2 - den.log2) by push_cast; ring,
    Nat.add_sub_cancel]
  dsimp only
  have hfloor := scaleFrac_div_lt_iff num hd (b - (num.log2 - den.log2)) (2 ^ b)
  rw [Nat.cast_pow, Nat.cast_ofNat] at hfloor
  split
  · rename_i h
    rw [hfloor] at h
    rw [zpow_add_one₀ two_ne_zero, ← mul_assoc, pow_succ]
    exact ⟨hlow, mul_lt_mul_of_pos_right h two_pos⟩
  · rename_i h
    rw [hfloor, not_lt] at h
    exact ⟨h, hhigh⟩

/-! ### The rounded result with the exponent unbounded (rule R276) -/

/-- The signed value of a rounded result. -/
def Rounded.value (r : Rounded) : ℚ := signFactor r.neg * r.sig * 2 ^ r.exp

/-- `r` is the value `q`, which is not zero, rounded to a significand of `b + 1` bits in the mode `m`: the magnitude of
`q` is `y` units `2^e`, and `r` is the chosen number `k` of units, a carry out of the significand made good. -/
def Rounded.Of (r : Rounded) (b : ℕ) (m : RoundMode) (q : ℚ) : Prop :=
  ∃ (n k : ℕ) (e : ℤ) (y : ℚ), 2 ^ b ≤ n ∧ n < 2 ^ (b + 1) ∧ Chooses m r.neg y n k ∧
    q = signFactor r.neg * y * 2 ^ e ∧ (r.inexact = false ↔ y = n) ∧
    (k < 2 ^ (b + 1) ∧ r.sig = k ∧ r.exp = e ∨ k = 2 ^ (b + 1) ∧ r.sig = 2 ^ b ∧ r.exp = e + 1)

/-- The default rounding of an exact result. -/
theorem roundExact_of {x : Exact} (b : ℕ) (m : RoundMode) (hn : 0 < x.num) (hd : 0 < x.den) :
    (roundExact (b + 1) m x).Of b m x.value := by
  obtain ⟨hlow, hhigh⟩ := scaleFor_range b hn hd
  have hden := scaleFrac_den_pos (num := x.num) hd (scaleFor (b + 1) x.num x.den)
  have hvalue : x.value = signFactor x.neg * (x.num / x.den * 2 ^ scaleFor (b + 1) x.num x.den) *
      2 ^ (x.exp - scaleFor (b + 1) x.num x.den) := by
    rw [Exact.value, zpow_sub₀ two_ne_zero]
    field_simp
  unfold roundExact
  dsimp only
  rw [← scaleFrac_value] at hlow hhigh hvalue
  generalize scaleFrac x.num x.den (scaleFor (b + 1) x.num x.den) = N at *
  generalize scaleFor (b + 1) x.num x.den = t at *
  obtain ⟨num, den⟩ := N
  dsimp only at *
  have hchoice := chooses_roundsUp m x.neg (num := num) hden
  have hexact := mod_ne_zero_eq_false_iff num hden
  have hnlow : 2 ^ b ≤ num / den := by
    rw [← not_lt, ← natCast_div_lt_iff hden, not_lt]
    exact_mod_cast hlow
  have hnhigh : num / den < 2 ^ (b + 1) := by
    rw [← natCast_div_lt_iff hden]
    exact_mod_cast hhigh
  generalize (if roundsUp m x.neg (num / den) (num % den) den then num / den + 1 else num / den) = k at *
  have hk : k ≤ 2 ^ (b + 1) := by
    rcases hchoice.eq_or with h | ⟨h, _⟩ <;> omega
  split
  · rename_i h
    exact ⟨_, k, _, _, hnlow, hnhigh, hchoice, hvalue, hexact, .inr ⟨h, rfl, rfl⟩⟩
  · rename_i h
    exact ⟨_, k, _, _, hnlow, hnhigh, hchoice, hvalue, hexact, .inl ⟨by omega, rfl, rfl⟩⟩

namespace Rounded.Of

variable {r : Rounded} {b : ℕ} {m : RoundMode} {q : ℚ}

theorem sig_range (h : r.Of b m q) : 2 ^ b ≤ r.sig ∧ r.sig < 2 ^ (b + 1) := by
  obtain ⟨n, k, e, y, hn, -, hc, -, -, ⟨hk, hsig, -⟩ | ⟨-, hsig, -⟩⟩ := h
  · rw [hsig]
    rcases hc.eq_or with h | ⟨h, -⟩ <;> omega
  · rw [hsig, pow_succ]
    have := Nat.two_pow_pos b
    omega

/-- The chosen units are the rounded value. -/
theorem value_of_units {k : ℕ} {e : ℤ}
    (h : k < 2 ^ (b + 1) ∧ r.sig = k ∧ r.exp = e ∨ k = 2 ^ (b + 1) ∧ r.sig = 2 ^ b ∧ r.exp = e + 1) :
    r.value = signFactor r.neg * k * 2 ^ e := by
  rw [Rounded.value]
  obtain ⟨-, hsig, hexp⟩ | ⟨hk, hsig, hexp⟩ := h
  · rw [hsig, hexp]
  · rw [hsig, hexp, hk, zpow_add_one₀ two_ne_zero]
    push_cast
    ring

theorem inexact_iff (h : r.Of b m q) : r.inexact = false ↔ r.value = q := by
  obtain ⟨n, k, e, y, -, -, hc, rfl, hix, hr⟩ := h
  rw [hix, ← hc.eq_iff, value_of_units hr, mul_left_inj' (by positivity), mul_right_inj' (signFactor_ne_zero _)]

theorem abs_range (h : r.Of b m q) :
    ∃ e : ℤ, (2 : ℚ) ^ (e + b) ≤ |q| ∧ |q| < 2 ^ (e + b + 1) ∧ e ≤ r.exp ∧ r.exp ≤ e + 1 := by
  obtain ⟨n, k, e, y, hn, hn', hc, rfl, -, hr⟩ := h
  have hlow : (2 : ℚ) ^ b ≤ y := le_trans (by exact_mod_cast hn) hc.low
  have hhigh : y < (2 : ℚ) ^ (b + 1) := hc.high.trans_le (by exact_mod_cast hn')
  have hy : (0 : ℚ) < y := lt_of_lt_of_le (by positivity) hlow
  refine ⟨e, ?_, ?_, by omega, by omega⟩
  all_goals rw [abs_mul, abs_mul, abs_signFactor, one_mul, abs_of_pos hy, abs_of_pos (by positivity)]
  · rw [zpow_add₀ two_ne_zero, mul_comm, zpow_natCast]
    gcongr
  · rw [add_assoc, zpow_add₀ two_ne_zero, mul_comm]
    gcongr
    exact_mod_cast hhigh

theorem neg_iff (h : r.Of b m q) : q < 0 ↔ r.neg = true := by
  obtain ⟨n, k, e, y, hn, -, hc, rfl, -, -⟩ := h
  have : (0 : ℚ) < n := by exact_mod_cast lt_of_lt_of_le (Nat.two_pow_pos b) hn
  have hy : 0 < y := this.trans_le hc.low
  rw [mul_assoc]
  exact signFactor_mul_neg_iff (by positivity)

/-! #### The biased exponent -/

variable {f : Fmt}

theorem biased_ge (h : r.Of f.manBits m q) {a : ℤ} (ha : 2 ^ a ≤ |q|) : a + f.bias ≤ r.biased f := by
  obtain ⟨e, -, hq, he, -⟩ := h.abs_range
  have := (zpow_lt_zpow_iff_right₀ (one_lt_two (α := ℚ))).1 (ha.trans_lt hq)
  rw [Rounded.biased]
  omega

theorem biased_le (h : r.Of f.manBits m q) {a : ℤ} (ha : |q| < 2 ^ a) : r.biased f ≤ a + f.bias := by
  obtain ⟨e, hq, -, -, he⟩ := h.abs_range
  have := (zpow_lt_zpow_iff_right₀ (one_lt_two (α := ℚ))).1 (hq.trans_lt ha)
  rw [Rounded.biased]
  omega

/-- A value no greater than the largest number does not round beyond it. -/
theorem biased_lt_maxExp (h : r.Of f.manBits m q) (hf : 1 ≤ f.maxExp) (hq : |q| ≤ f.maxValue) :
    r.biased f < f.maxExp := by
  obtain ⟨n, k, e, y, hn, hn', hc, rfl, -, hr⟩ := h
  have hy : (0 : ℚ) ≤ y := le_trans (by positivity) hc.low
  rw [abs_mul, abs_mul, abs_signFactor, one_mul, abs_of_nonneg hy, abs_of_pos (by positivity), f.maxValue_eq hf] at hq
  rw [Rounded.biased]
  obtain ⟨-, -, hexp⟩ | ⟨hk, -, hexp⟩ := hr
  · have hlt : (2 : ℚ) ^ (f.manBits + e) < 2 ^ ((f.manBits + 1 : ℕ) + ((f.maxExp : ℤ) - 1 - f.bias - f.manBits)) := by
      rw [zpow_add₀ two_ne_zero, zpow_add₀ two_ne_zero, zpow_natCast, zpow_natCast]
      have : (2 : ℚ) ^ f.manBits ≤ y := le_trans (by exact_mod_cast hn) hc.low
      calc (2 : ℚ) ^ f.manBits * 2 ^ e ≤ y * 2 ^ e := by gcongr
        _ ≤ _ := hq
        _ < _ := by
          gcongr
          exact sub_one_lt _
    have := (zpow_lt_zpow_iff_right₀ (one_lt_two (α := ℚ))).1 hlt
    omega
  · rcases hc.eq_or with h | ⟨h, hlt⟩
    · omega
    · have hn2 : (n : ℚ) = 2 ^ (f.manBits + 1) - 1 := by
        rw [eq_sub_iff_add_eq]
        exact_mod_cast (h.symm.trans hk)
      have hnpos : (0 : ℚ) < n := by exact_mod_cast lt_of_lt_of_le (Nat.two_pow_pos _) hn
      have hlt2 : (2 : ℚ) ^ e < 2 ^ ((f.maxExp : ℤ) - 1 - f.bias - f.manBits) := by
        rw [← hn2] at hq
        exact lt_of_mul_lt_mul_left (lt_of_lt_of_le (by gcongr) hq) hnpos.le
      have := (zpow_lt_zpow_iff_right₀ (one_lt_two (α := ℚ))).1 hlt2
      omega

end Rounded.Of

/-! ### The rounded result among the ordinary numbers (rules R274, R275) -/

/-- The fields of a rounded result divided by `2^j`. -/
def Rounded.scaled (r : Rounded) (f : Fmt) (j : ℤ) : RealFields :=
  ⟨r.neg, (r.biased f - j).toNat, r.sig - 2 ^ f.manBits⟩

theorem Rounded.scaled_ordinary {r : Rounded} {f : Fmt} (hsig : 2 ^ f.manBits ≤ r.sig ∧ r.sig < 2 ^ (f.manBits + 1))
    {j : ℤ} (hlow : 1 ≤ r.biased f - j) (hhigh : r.biased f - j < f.maxExp) : (r.scaled f j).Ordinary f := by
  rw [pow_succ] at hsig
  refine ⟨?_, ?_, ?_⟩ <;> dsimp only [Rounded.scaled] <;> omega

theorem Rounded.Of.scaled_value {r : Rounded} {f : Fmt} {m : RoundMode} {q : ℚ} (h : r.Of f.manBits m q) {j : ℤ}
    (hlow : 1 ≤ r.biased f - j) : (r.scaled f j).value f = r.value / 2 ^ j := by
  obtain ⟨hsig, -⟩ := h.sig_range
  rw [RealFields.value_eq, Rounded.scaled, Rounded.value, mul_div_assoc, ← zpow_sub₀ two_ne_zero]
  dsimp only
  rw [Nat.cast_sub hsig, Int.toNat_of_nonneg (by omega), Rounded.biased]
  push_cast
  congr 2
  · ring
  · ring

/-! #### Values in units of the last place -/

theorem abs_units_sub (neg : Bool) {u : ℚ} (hu : 0 < u) (a c : ℚ) :
    |signFactor neg * a * u - signFactor neg * c * u| = |a - c| * u := by
  rw [← sub_mul, ← mul_sub, abs_mul, abs_mul, abs_signFactor, one_mul, abs_of_pos hu]

theorem abs_units_le (neg : Bool) {u : ℚ} (hu : 0 < u) (a c : ℚ) :
    |signFactor neg * a * u| ≤ |signFactor neg * c * u| ↔ |a| ≤ |c| := by
  rw [abs_mul, abs_mul, abs_mul, abs_mul, abs_signFactor, one_mul, one_mul, abs_of_pos hu, mul_le_mul_iff_left₀ hu]

theorem units_le_plus {u : ℚ} (hu : 0 < u) (a c : ℚ) :
    signFactor false * a * u ≤ signFactor false * c * u ↔ a ≤ c := by simp [hu]

theorem units_le_minus {u : ℚ} (hu : 0 < u) (a c : ℚ) :
    signFactor true * a * u ≤ signFactor true * c * u ↔ c ≤ a := by simp [hu]

/-- What holds of every signed number of units outside a gap holds of the values of the ordinary numbers. -/
theorem forall_ordinary_of_units {f : Fmt} (neg : Bool) {u : ℚ} {n : ℕ} (hu : 0 < u)
    (hgap : ∀ w : RealFields, w.Ordinary f → |w.value f| ≤ n * u ∨ ((n : ℚ) + 1) * u ≤ |w.value f|)
    (P : ℚ → Prop) (hP : ∀ z : ℚ, |z| ≤ n ∨ (n : ℚ) + 1 ≤ |z| → P (signFactor neg * z * u)) :
    ∀ w : RealFields, w.Ordinary f → P (w.value f) := by
  intro w hw
  have hz : signFactor neg * (signFactor neg * w.value f / u) * u = w.value f := by
    rw [mul_div_assoc, ← mul_assoc, signFactor_mul_self, one_mul, div_mul_cancel₀ _ hu.ne']
  rw [← hz]
  refine hP _ ?_
  rw [abs_div, abs_mul, abs_signFactor, one_mul, abs_of_pos hu, div_le_iff₀ hu, le_div_iff₀ hu]
  exact hgap w hw

/-- A number whose magnitude is the chosen number of units is the correctly rounded value. -/
theorem roundsTo_of_chooses {f : Fmt} {m : RoundMode} {neg : Bool} {y u : ℚ} {n k : ℕ} {v : RealFields}
    (hv : v.Ordinary f) (hu : 0 < u) (hc : Chooses m neg y n k)
    (hgap : ∀ w : RealFields, w.Ordinary f → |w.value f| ≤ n * u ∨ ((n : ℚ) + 1) * u ≤ |w.value f|)
    (hval : v.value f = signFactor neg * k * u) (heven : k % 2 = 0 → v.man % 2 = 0) :
    RoundsTo f m (signFactor neg * y * u) v := by
  have hunits := forall_ordinary_of_units neg hu hgap
  refine ⟨hv, ?_⟩
  rw [hval]
  cases m with
  | nearest =>
    constructor
    · refine hunits (fun c => _ ≤ |_ - c|) fun z hz => ?_
      rw [abs_units_sub neg hu, abs_units_sub neg hu]
      exact mul_le_mul_of_nonneg_right (hc.nearest_le (gap_of_abs hz)) hu.le
    · refine hunits (fun c => |_ - c| = _ → c ≠ _ → _) fun z hz heq hne => ?_
      rw [abs_units_sub neg hu, abs_units_sub neg hu, mul_left_inj' hu.ne'] at heq
      exact heven (hc.nearest_tie (gap_of_abs hz) heq fun h => hne (by rw [h]))
  | plusInfinity =>
    cases neg with
    | false =>
      obtain ⟨hle, -, hnext⟩ := hc.up_bound (.inl ⟨rfl, rfl⟩)
      exact ⟨(units_le_plus hu ..).2 hle, hunits (fun c => _ ≤ c → _ ≤ c) fun z hz h =>
        (units_le_plus hu ..).2 (hnext z (gap_of_abs hz) ((units_le_plus hu ..).1 h))⟩
    | true =>
      obtain ⟨hle, -, hnext⟩ := hc.down_bound (.inl ⟨rfl, rfl⟩)
      exact ⟨(units_le_minus hu ..).2 hle, hunits (fun c => _ ≤ c → _ ≤ c) fun z hz h =>
        (units_le_minus hu ..).2 (hnext z (gap_of_abs hz) ((units_le_minus hu ..).1 h))⟩
  | minusInfinity =>
    cases neg with
    | false =>
      obtain ⟨hle, -, hnext⟩ := hc.down_bound (.inr ⟨rfl, rfl⟩)
      exact ⟨(units_le_plus hu ..).2 hle, hunits (fun c => c ≤ _ → c ≤ _) fun z hz h =>
        (units_le_plus hu ..).2 (hnext z (gap_of_abs hz) ((units_le_plus hu ..).1 h))⟩
    | true =>
      obtain ⟨hle, -, hnext⟩ := hc.up_bound (.inr ⟨rfl, rfl⟩)
      exact ⟨(units_le_minus hu ..).2 hle, hunits (fun c => c ≤ _ → c ≤ _) fun z hz h =>
        (units_le_minus hu ..).2 (hnext z (gap_of_abs hz) ((units_le_minus hu ..).1 h))⟩
  | zero =>
    obtain rfl : k = n := hc.choice
    have hy : (0 : ℚ) ≤ y := le_trans (by positivity) hc.low
    refine ⟨?_, ?_, hunits (fun c => |c| ≤ _ → |c| ≤ _) fun z hz hle => ?_⟩
    · rw [abs_units_le neg hu, Nat.abs_cast, abs_of_nonneg hy]
      exact hc.low
    · calc (0 : ℚ) ≤ signFactor neg * signFactor neg * (y * k * (u * u)) := by
            rw [signFactor_mul_self]
            positivity
        _ = _ := by ring
    · rw [abs_units_le neg hu, abs_of_nonneg hy] at hle
      rw [abs_units_le neg hu, Nat.abs_cast]
      exact hz.resolve_right fun h => by linarith [hc.high]

/-- The rounded result divided by `2^j` is the correctly rounded value of the quotient. -/
theorem Rounded.Of.scaled_roundsTo {r : Rounded} {f : Fmt} {m : RoundMode} {q : ℚ} (h : r.Of f.manBits m q)
    (hf : 1 ≤ f.manBits) {j : ℤ} (hlow : 1 ≤ r.biased f - j) (hhigh : r.biased f - j < f.maxExp) :
    RoundsTo f m (q / 2 ^ j) (r.scaled f j) := by
  have hord := Rounded.scaled_ordinary h.sig_range hlow hhigh
  have hval := h.scaled_value hlow
  obtain ⟨n, k, e, y, hn, -, hc, rfl, -, hr⟩ := h
  rw [Rounded.Of.value_of_units hr, mul_div_assoc, ← zpow_sub₀ two_ne_zero] at hval
  rw [mul_div_assoc, ← zpow_sub₀ two_ne_zero]
  refine roundsTo_of_chooses hord (by positivity) (hc := hc) (fun w hw => hw.gap hn _) hval fun heven => ?_
  have hpow : 2 ^ f.manBits % 2 = 0 := Nat.mod_eq_zero_of_dvd (dvd_pow_self 2 (by omega))
  dsimp only [Rounded.scaled]
  obtain ⟨-, hsig, -⟩ | ⟨-, hsig, -⟩ := hr
  · rcases hc.eq_or with hk | ⟨hk, -⟩ <;> omega
  · omega

/-! ### Exactness -/

/-- An integer with no more bits than the significand is rounded to itself. -/
theorem Rounded.Of.inexact_of_int {r : Rounded} {b : ℕ} {m : RoundMode} {z : ℤ} (h : r.Of b m z)
    (hz : |(z : ℚ)| < 2 ^ (b + 1)) : r.inexact = false := by
  obtain ⟨n, k, e, y, hn, -, hc, hq, hix, -⟩ := h
  have hylow : (2 : ℚ) ^ b ≤ y := le_trans (by exact_mod_cast hn) hc.low
  have hy : (0 : ℚ) < y := lt_of_lt_of_le (by positivity) hylow
  have habs : (|z| : ℤ) = y * 2 ^ e := by
    rw [Int.cast_abs, hq, abs_mul, abs_mul, abs_signFactor, one_mul, abs_of_pos hy, abs_of_pos (by positivity)]
  have he : e < 1 := by
    rw [← Int.cast_abs, habs] at hz
    have : (2 : ℚ) ^ ((b : ℤ) + e) < 2 ^ ((b : ℤ) + 1) := by
      rw [zpow_add₀ two_ne_zero, zpow_natCast]
      refine lt_of_le_of_lt ?_ (hz.trans_eq (by norm_cast))
      gcongr
    have := (zpow_lt_zpow_iff_right₀ (one_lt_two (α := ℚ))).1 this
    omega
  have hyz : y = ((|z| * 2 ^ (-e).toNat : ℤ) : ℚ) := by
    push_cast
    rw [← Int.cast_abs, habs, ← zpow_natCast, Int.toNat_of_nonneg (by omega), mul_assoc, ← zpow_add₀ two_ne_zero,
      add_neg_cancel, zpow_zero, mul_one]
  refine hix.2 ?_
  have hlow := hc.low
  have hhigh := hc.high
  rw [hyz] at hlow hhigh ⊢
  norm_cast at hlow hhigh ⊢
  omega

/-- An exponent in range is unchanged by the reduction of the exponent (rule R285). -/
theorem Rounded.wrap_eq_scaled {r : Rounded} {f : Fmt} (hlow : 1 ≤ r.biased f) (hhigh : r.biased f < f.maxExp) :
    r.wrap f = r.scaled f 0 := by
  have hpow : (2 : ℤ) ^ f.expBits = f.maxExp + 1 := by exact_mod_cast f.maxExp_succ.symm
  rw [Rounded.wrap, Rounded.scaled, hpow, Int.emod_eq_of_lt (by omega) (by omega), sub_zero]

/-! ### Every rounding that the parameter may be (rule R276; log 15) -/

/-- Whatever the rounding, the significand has the bits of the format and the exponent is at most one from that of the
default rounding. -/
theorem roundReal_range (c : FpRound) (b : ℕ) (m : RoundMode) {x : Exact} (hn : 0 < x.num) (hd : 0 < x.den) :
    2 ^ b ≤ (roundReal c (b + 1) m x).sig ∧ (roundReal c (b + 1) m x).sig < 2 ^ (b + 1) ∧
      (roundExact (b + 1) m x).exp - 1 ≤ (roundReal c (b + 1) m x).exp ∧
      (roundReal c (b + 1) m x).exp ≤ (roundExact (b + 1) m x).exp + 1 := by
  cases c with
  | exact =>
    obtain ⟨hlow, hhigh⟩ := (roundExact_of b m hn hd).sig_range
    exact ⟨hlow, hhigh, by rw [roundReal]; omega, by rw [roundReal]; omega⟩
  | other c =>
    rw [roundReal, otherRounded]
    dsimp only
    generalize Config.otherRound c (b + 1) m x.neg x.num x.den x.exp = d
    have hmod : d.1 % 2 ^ b < 2 ^ b := Nat.mod_lt _ (Nat.two_pow_pos b)
    rw [Nat.add_sub_cancel, pow_succ]
    omega

/-! ### Reals to integers (rules R290, R291) -/

theorem IntRoundsTo.self (m : RoundMode) (n : ℤ) : IntRoundsTo m n n := by
  cases m with
  | nearest => simp [IntRoundsTo]
  | plusInfinity => simp [IntRoundsTo]
  | minusInfinity => simp [IntRoundsTo]
  | zero =>
    refine ⟨le_rfl, lt_add_one _, ?_⟩
    exact mul_self_nonneg _

/-- The rounded integer is the correctly rounded one, and the flag tells whether it is the exact value. -/
theorem roundToInt_spec (m : RoundMode) {x : Exact} (hd : x.den = 1) :
    IntRoundsTo m x.value (roundToInt m x).1 ∧
      ((roundToInt m x).2 = false ↔ ((roundToInt m x).1 : ℚ) = x.value) := by
  unfold roundToInt
  split
  · rename_i h
    have hint : x.value = ((x.signed * 2 ^ x.exp.toNat : ℤ) : ℚ) := by
      rw [Exact.value_signed hd]
      push_cast
      rw [← zpow_natCast, Int.toNat_of_nonneg h]
    rw [hint]
    exact ⟨IntRoundsTo.self m _, by simp⟩
  · rename_i h
    dsimp only
    have hpos : 0 < 2 ^ (-x.exp).toNat := Nat.two_pow_pos _
    have hint : x.value = signFactor x.neg * ((x.num : ℚ) / (2 ^ (-x.exp).toNat : ℕ)) := by
      rw [Exact.value, hd]
      push_cast
      rw [← zpow_natCast, Int.toNat_of_nonneg (by omega), zpow_neg, div_inv_eq_mul, div_one, mul_assoc]
    have hc := chooses_roundsUp m x.neg (num := x.num) hpos
    generalize 2 ^ (-x.exp).toNat = d at *
    refine ⟨hint ▸ hc.intRoundsTo, ?_⟩
    rw [signFactor_mul_natCast, hint, mul_right_inj' (signFactor_ne_zero _), hc.eq_iff]
    exact mod_ne_zero_eq_false_iff x.num hpos

/-- The rounded integer has the sign of the value, or is zero. -/
theorem roundToInt_sign (m : RoundMode) (x : Exact) :
    if x.neg then (roundToInt m x).1 ≤ 0 else 0 ≤ (roundToInt m x).1 := by
  unfold roundToInt
  have hpow : (0 : ℤ) ≤ 2 ^ x.exp.toNat := by positivity
  cases h : x.neg
  · simp only [Exact.signed, h, Bool.false_eq_true, if_false]
    split
    · positivity
    · exact Int.natCast_nonneg _
  · simp only [Exact.signed, h, if_true]
    split
    · exact mul_nonpos_of_nonpos_of_nonneg (by omega) hpow
    · dsimp only
      omega

/-! ### Rounded results and the range of exponents (rules R282, R283) -/

namespace Rounded.Of

variable {r : Rounded} {f : Fmt} {m : RoundMode} {q : ℚ}

/-- A rounded result in range is the correctly rounded value. -/
theorem wrap_in_range (h : r.Of f.manBits m q) (hf : f.Wide) (hlow : 1 ≤ r.biased f) (hhigh : r.biased f < f.maxExp) :
    RoundsTo f m q (r.wrap f) ∧ (r.inexact = false ↔ (r.wrap f).value f = q) := by
  have hrounds := h.scaled_roundsTo (j := 0) hf.manBits_pos (by omega) (by omega)
  have hval := h.scaled_value (j := 0) (by omega)
  rw [zpow_zero, div_one] at hrounds hval
  rw [Rounded.wrap_eq_scaled hlow hhigh, hval]
  exact ⟨hrounds, h.inexact_iff⟩

/-- At the power of two of its value, a rounded result has the exponent of 1 or of 2. -/
theorem biased_at_power (h : r.Of f.manBits m q) (hf : f.Wide) {k : ℤ} (hlow : 2 ^ k ≤ |q|)
    (hhigh : |q| < 2 ^ (k + 1)) : 1 ≤ r.biased f - k ∧ r.biased f - k < f.maxExp := by
  have h1 := h.biased_ge hlow
  have h2 := h.biased_le hhigh
  have := hf.bias_pos
  have := hf.bias_lt
  omega

end Rounded.Of

theorem Fmt.minValue_pos (f : Fmt) : 0 < f.minValue := by
  rw [f.minValue_eq]
  positivity

/-- A value between the smallest and the largest number rounds to a number. -/
theorem Rounded.Of.biased_in_range {r : Rounded} {f : Fmt} {m : RoundMode} {q : ℚ} (h : r.Of f.manBits m q)
    (hf : f.Wide) (hmin : f.minValue ≤ |q|) (hmax : |q| ≤ f.maxValue) : 1 ≤ r.biased f ∧ r.biased f < f.maxExp := by
  have hbias := hf.bias_lt
  rw [f.minValue_eq] at hmin
  have := h.biased_ge hmin
  exact ⟨by omega, h.biased_lt_maxExp (by omega) hmax⟩

/-- The exponent of an integer of 32 bits is that of a number. -/
theorem Rounded.Of.biased_of_word {r : Rounded} {f : Fmt} {m : RoundMode} {w : Word}
    (hr : r.Of f.manBits m w.toInt) (hw : w ≠ 0) : f.bias ≤ r.biased f ∧ r.biased f ≤ 32 + f.bias := by
  have hne : w.toInt ≠ 0 := fun h => hw (BitVec.eq_of_toInt_eq h)
  have hlow := BitVec.le_toInt w
  have hhigh := BitVec.toInt_lt (x := w)
  have habs : 1 ≤ |w.toInt| ∧ |w.toInt| < 2 ^ 32 := ⟨Int.one_le_abs hne, by rw [abs_lt]; omega⟩
  have h1 := hr.biased_ge (a := 0) (by rw [zpow_zero]; exact_mod_cast habs.1)
  have h2 := hr.biased_le (a := 32) (by exact_mod_cast habs.2)
  omega

/-- At the power of two of its value a rounded result is the scaled number, its exponent that much less. -/
theorem Rounded.Of.at_power {r : Rounded} {f : Fmt} {m : RoundMode} {q : ℚ} (h : r.Of f.manBits m q)
    (hf : f.Wide) {k : ℤ} (hlow : 2 ^ k ≤ |q|) (hhigh : |q| < 2 ^ (k + 1)) :
    RoundsTo f m (q / 2 ^ k) (r.scaled f k) ∧ ((r.scaled f k).exp : ℤ) + k = r.biased f ∧
      (r.inexact = false ↔ (r.scaled f k).value f = q / 2 ^ k) := by
  obtain ⟨hl, hh⟩ := h.biased_at_power hf hlow hhigh
  refine ⟨h.scaled_roundsTo hf.manBits_pos hl hh, ?_, ?_⟩
  · rw [Rounded.scaled]
    dsimp only
    omega
  · rw [h.scaled_value hl, div_left_inj' (by positivity)]
    exact h.inexact_iff

end Sys2Proof.Machine
end

