-- ==== Sys2Proof/Proofs/RealDelivery.lean ====
section
/-! SUPPORT. What the real operations deliver (42_real.md rules R278 to R287, R290 to R293, R308): one lemma per case of
each operation, by the classes of the operands and the range of the rounded result. -/

namespace Sys2Proof.Machine

open Sys2Proof.Config (RoundMode ZeroSign)

/-! ### Patterns of single and double reals (rules R270 to R272) -/

theorem RealFields.ordinary_of_number {f : Fmt} {r : RealFields} (hexp : r.exp ≤ f.maxExp)
    (hman : r.man < 2 ^ f.manBits) (h : r.cls f = .number) : r.Ordinary f := by
  unfold RealFields.cls at h
  split at h
  · split at h <;> cases h
  · split at h
    · split at h <;> cases h
    · exact ⟨by omega, by omega, hman⟩

theorem unpackSingle_ordinary {w : Word} (h : (unpackSingle w).cls single = .number) :
    (unpackSingle w).Ordinary single :=
  RealFields.ordinary_of_number (Nat.le_of_lt_succ (w.extractLsb' 23 8).isLt) (w.extractLsb' 0 23).isLt h

theorem unpackDouble_ordinary {d : DWord} (h : (unpackDouble d).cls double = .number) :
    (unpackDouble d).Ordinary double :=
  RealFields.ordinary_of_number (Nat.le_of_lt_succ (d.extractLsb' 52 11).isLt) (d.extractLsb' 0 52).isLt h

/-- The three fields of a sign, an exponent and a mantissa put side by side. -/
theorem fields_append (n : Bool) {i j : ℕ} (a : BitVec i) (b : BitVec j) :
    (BitVec.ofBool n ++ a ++ b).getMsbD 0 = n ∧ (BitVec.ofBool n ++ a ++ b).extractLsb' j i = a ∧
      (BitVec.ofBool n ++ a ++ b).extractLsb' 0 j = b := by
  refine ⟨?_, ?_, BitVec.extractLsb'_append_eq_right⟩
  · rw [BitVec.getMsbD_append, if_neg (by omega), BitVec.getMsbD_append, if_neg (by omega)]
    simp [BitVec.getMsbD]
  · rw [BitVec.extractLsb'_append_eq_of_le le_rfl, Nat.sub_self, BitVec.extractLsb'_append_eq_right]

theorem unpackSingle_packSingle {v : RealFields} (hexp : v.exp ≤ single.maxExp) (hman : v.man < 2 ^ single.manBits) :
    unpackSingle (packSingle v) = v := by
  obtain ⟨n, e, m⟩ := v
  have he : e < 2 ^ 8 := Nat.lt_of_le_pred (by decide) hexp
  obtain ⟨hneg, hexp, hman'⟩ := fields_append n (BitVec.ofNat 8 e) (BitVec.ofNat 23 m)
  refine congr (congr (congrArg _ hneg) ?_) ?_
  · exact (congrArg BitVec.toNat hexp).trans (Nat.mod_eq_of_lt he)
  · exact (congrArg BitVec.toNat hman').trans (Nat.mod_eq_of_lt hman)

theorem unpackDouble_packDouble {v : RealFields} (hexp : v.exp ≤ double.maxExp) (hman : v.man < 2 ^ double.manBits) :
    unpackDouble (packDouble v) = v := by
  obtain ⟨n, e, m⟩ := v
  have he : e < 2 ^ 11 := Nat.lt_of_le_pred (by decide) hexp
  obtain ⟨hneg, hexp, hman'⟩ := fields_append n (BitVec.ofNat 11 e) (BitVec.ofNat 52 m)
  refine congr (congr (congrArg _ hneg) ?_) ?_
  · exact (congrArg BitVec.toNat hexp).trans (Nat.mod_eq_of_lt he)
  · exact (congrArg BitVec.toNat hman').trans (Nat.mod_eq_of_lt hman)

/-! ### Rounded results with their exponent checked (rules R282 to R285) -/

namespace RealControl

variable {t : RealControl} {f : Fmt} {r : Rounded}

theorem settle_overflow_on (h : f.maxExp ≤ r.biased f) (ht : t.overflow = true) :
    t.settle f r = .write (r.wrap f) (some 18) := by
  rw [settle, if_pos (by omega), if_pos ht]

theorem settle_overflow_off (h : f.maxExp ≤ r.biased f) (ht : t.overflow = false) :
    t.settle f r = .write (infReal f r.neg) (t.inexactTrap r.inexact) := by
  rw [settle, if_pos (by omega), if_neg (by simp [ht])]

theorem settle_underflow_on (hf : f.Wide) (h : r.biased f < 1) (ht : t.underflow = true) :
    t.settle f r = .write (r.wrap f) (some 19) := by
  have := hf.bias_lt
  rw [settle, if_neg (by omega), if_pos h, if_pos ht]

theorem settle_underflow_off (hf : f.Wide) (h : r.biased f < 1) (ht : t.underflow = false) :
    t.settle f r = .write (zeroReal false) (t.inexactTrap r.inexact) := by
  have := hf.bias_lt
  rw [settle, if_neg (by omega), if_pos h, if_neg (by simp [ht])]

theorem settle_in_range (hlow : 1 ≤ r.biased f) (hhigh : r.biased f < f.maxExp) :
    t.settle f r = .write (r.wrap f) (t.inexactTrap r.inexact) := by
  rw [settle, if_neg (by omega), if_neg (by omega)]

theorem inexactTrap_off (ht : t.inexact = false) (ix : Bool) : t.inexactTrap ix = none := by simp [inexactTrap, ht]

theorem inexactTrap_on (ht : t.inexact = true) {ix : Bool} (h : ix = true) : t.inexactTrap ix = some 24 := by
  simp [inexactTrap, ht, h]

/-! ### The four operations (rule R287) -/

variable {op : RealOp} {a b : RealFields}

/-- An operation on numbers whose exact result is not zero. -/
theorem arith_number (ha : a.cls f = .number) (hb : b.cls f = .number)
    (hn : (exactOp op (a.exact f) (b.exact f)).num ≠ 0) :
    t.arith f op a b =
      t.settle f (roundReal t.round (f.manBits + 1) t.mode (exactOp op (a.exact f) (b.exact f))) := by
  rw [arith, if_pos ⟨ha, hb⟩]
  exact if_neg hn

theorem num_ne_zero (hq : op.onValues (a.value f) (b.value f) ≠ 0) :
    (exactOp op (a.exact f) (b.exact f)).num ≠ 0 := by
  rwa [← exactOp_value, Ne, Exact.value_eq_zero (exactOp_den_pos ..)] at hq

/-- An operation on numbers whose exact result is zero (rule R286). -/
theorem arith_zero (ha : a.cls f = .number) (hb : b.cls f = .number) (hq : op.onValues (a.value f) (b.value f) = 0) :
    t.arith f op a b = .write (zeroReal (zeroSumSign t.zeroSign t.mode none)) none := by
  rw [← exactOp_value, Exact.value_eq_zero (exactOp_den_pos ..)] at hq
  rw [arith, if_pos ⟨ha, hb⟩]
  exact if_pos hq

/-- With the default rounding the operation settles the rounded exact result. -/
theorem arith_rounded (ha : a.cls f = .number) (hb : b.cls f = .number) (hround : t.round = .exact)
    (hq : op.onValues (a.value f) (b.value f) ≠ 0) :
    ∃ r : Rounded, r.Of f.manBits t.mode (op.onValues (a.value f) (b.value f)) ∧ t.arith f op a b = t.settle f r := by
  have hn := num_ne_zero hq
  refine ⟨_, ?_, arith_number ha hb hn⟩
  rw [hround, ← exactOp_value]
  exact roundExact_of f.manBits t.mode (Nat.pos_of_ne_zero hn) (exactOp_den_pos ..)

theorem arith_before (ht : t.before = true) (h : a.cls f ≠ .number ∨ b.cls f ≠ .number) :
    t.arith f op a b = .abort 25 := by
  rw [arith, if_neg (by tauto), if_pos ht]

end RealControl

/-! ### Table 4-1 (rules R279, R281, R286) -/

/-- The pattern that a result of Table 4-1 stands for, a division by zero with its trap off. -/
def TableResult.fields (f : Fmt) (a b : RealFields) : TableResult → RealFields
  | .first n => { a with neg := n }
  | .second n => { b with neg := n }
  | .zero n => zeroReal n
  | .infinity n => infReal f n
  | .divByZero => infReal f (a.neg != b.neg)

/-- Whether a result of Table 4-1 is a division by zero. -/
def TableResult.isDivByZero : TableResult → Bool
  | .divByZero => true
  | .first _ => false
  | .second _ => false
  | .zero _ => false
  | .infinity _ => false

/-- With the before trap off, special operands give the result of the table, or the trap of a division by zero. -/
theorem RealControl.arith_special {t : RealControl} {f : Fmt} {op : RealOp} {a b : RealFields} (ht : t.before = false)
    (h : ¬(a.cls f = .number ∧ b.cls f = .number)) {c : TableResult}
    (hc : table41 t.zeroSign t.mode op (a.cls f) (b.cls f) a.neg b.neg = c) :
    t.arith f op a b = if c.isDivByZero && t.divZero then .abort 20 else .write (c.fields f a b) none := by
  rw [arith, if_neg h, if_neg (by simp [ht]), hc]
  cases c with
  | divByZero => rw [TableResult.isDivByZero, Bool.true_and]; rfl
  | _ => rfl

/-- The result of an operation in a row of the table. -/
def TableLine.result (l : TableLine) : RealOp → RealFields → RealFields → RealFields
  | .add => l.radd
  | .sub => l.rsub
  | .mpy => l.rmpy
  | .div => l.rdiv

/-- Whether an operation in a row of the table divides by zero. -/
def TableLine.divides (l : TableLine) : RealOp → Bool
  | .div => l.divByZero
  | .add => false
  | .sub => false
  | .mpy => false

theorem table41Lines_special (f : Fmt) (note4 : Bool → Bool → Bool) :
    ∀ l ∈ table41Lines f note4, ¬(l.op1 = .number ∧ l.op2 = .number) := by
  simp only [table41Lines, List.forall_mem_cons, List.not_mem_nil, IsEmpty.forall_iff, implies_true, and_true]
  and_intros
  all_goals decide

/-- The rows are what the model's table says, cell by cell. -/
theorem table41Lines_cell (f : Fmt) (z : ZeroSign) (m : RoundMode) (op : RealOp) (a b : RealFields) :
    ∀ l ∈ table41Lines f (fun n1 n2 => zeroSumSign z m (some (n1, n2))),
      (table41 z m op l.op1 l.op2 a.neg b.neg).fields f a b = l.result op a b ∧
      (table41 z m op l.op1 l.op2 a.neg b.neg).isDivByZero = l.divides op := by
  simp only [table41Lines, List.forall_mem_cons, List.not_mem_nil, IsEmpty.forall_iff, implies_true, and_true]
  cases op
  all_goals
    and_intros
    all_goals rfl

/-- With the before trap off, a row of the table gives its result, or the trap of a division by zero. -/
theorem RealControl.arith_row {t : RealControl} {f : Fmt} {op : RealOp} {a b : RealFields} {l : TableLine}
    (hl : l ∈ table41Lines f (fun n1 n2 => zeroSumSign t.zeroSign t.mode (some (n1, n2)))) (ht : t.before = false)
    (ha : a.cls f = l.op1) (hb : b.cls f = l.op2) :
    t.arith f op a b = if l.divides op && t.divZero then .abort 20 else .write (l.result op a b) none := by
  obtain ⟨hfields, hdiv⟩ := table41Lines_cell f t.zeroSign t.mode op a b l hl
  rw [arith_special ht (ha ▸ hb ▸ table41Lines_special f _ l hl) rfl, ha, hb, hfields, hdiv]

/-! ### Conversions (rules R280, R290 to R293, R308) -/

theorem RealClass.row_zeroLike {c : RealClass} (h : c = .zero ∨ c = .denormalized) :
    c ≠ .number ∧ c.row = .zeroLike := by
  obtain rfl | rfl := h
  all_goals decide

theorem RealClass.row_infLike {c : RealClass} (h : c = .infinity ∨ c = .notANumber) :
    c ≠ .number ∧ c.row ≠ .zeroLike := by
  obtain rfl | rfl := h
  all_goals decide

namespace RealControl

variable {t : RealControl} {f : Fmt} {m : RoundMode} {b : RealFields} {n : ℤ} {too : Bool}

/-- A special operand of a conversion to an integer: the before trap, or the fixed result of rule R280. -/
theorem toInt_special (hb : b.cls f ≠ .number) :
    t.toInt f m too b =
      if t.before then .abort 25 else .write (if (b.cls f).row = .zeroLike then 0 else largestInt b.neg) none := by
  unfold toInt
  cases h : b.cls f
  case number => exact absurd h hb
  all_goals rfl

theorem toDouble_special (hb : b.cls single ≠ .number) :
    t.toDouble b = if t.before then .abort 25 else
      .write (if (b.cls single).row = .zeroLike then zeroReal b.neg else infReal double b.neg) none := by
  unfold toDouble
  cases h : b.cls single
  case number => exact absurd h hb
  all_goals rfl

theorem toSingle_special (hb : b.cls double ≠ .number) :
    t.toSingle b = if t.before then .abort 25 else
      .write (if (b.cls double).row = .zeroLike then zeroReal b.neg else infReal single b.neg) none := by
  unfold toSingle
  cases h : b.cls double
  case number => exact absurd h hb
  all_goals rfl

theorem compare_before {a : RealFields} (h : a.cls f ≠ .number ∨ b.cls f ≠ .number) (ht : t.before = true) :
    t.compare f a b = .abort 25 := if_pos ⟨h, ht⟩

theorem compare_quiet {a : RealFields} (ht : t.before = false) :
    t.compare f a b = .write (compareWord (a.orderKey f) (b.orderKey f)) none := if_neg (by simp [ht])

/-- The inexact trap of the instructions that can take it. -/
theorem ite_inexactTrap_none {ix : Bool} (h : too = false ∨ t.inexact = false ∨ ix = false) :
    (if too then t.inexactTrap ix else none) = none := by
  obtain h | h | h := h
  · simp [h]
  · simp [inexactTrap, h]
  · simp [inexactTrap, h]

/-- A rounded integer that fits. -/
theorem toInt_in_range (hb : b.cls f = .number) (hn : IntRoundsTo m (b.value f) n) (hlow : -2 ^ 31 ≤ n)
    (hhigh : n ≤ 2 ^ 31 - 1) :
    ∃ ix : Bool, (ix = false ↔ (n : ℚ) = b.value f) ∧
      t.toInt f m too b = .write (BitVec.ofInt 32 n) (if too then t.inexactTrap ix else none) := by
  obtain ⟨hrounds, hix⟩ := roundToInt_spec m (x := b.exact f) rfl
  rw [RealFields.value_exact] at hrounds hix
  obtain rfl := hrounds.unique hn
  refine ⟨_, hix, ?_⟩
  rw [toInt, hb]
  dsimp only
  rw [if_neg (by omega), if_neg (by omega)]

/-- A rounded integer that does not fit gives the largest one of its sign, which is that of the operand. -/
theorem toInt_out_of_range (hb : b.cls f = .number) (hn : IntRoundsTo m (b.value f) n)
    (hout : n < -2 ^ 31 ∨ 2 ^ 31 - 1 < n) :
    ∃ ix : Bool, (ix = false ↔ (n : ℚ) = b.value f) ∧
      t.toInt f m too b =
        .write (largestInt b.neg) (if t.overflow then some 18 else if too then t.inexactTrap ix else none) := by
  obtain ⟨hrounds, hix⟩ := roundToInt_spec m (x := b.exact f) rfl
  rw [RealFields.value_exact] at hrounds hix
  have hsign := roundToInt_sign m (b.exact f)
  obtain rfl := hrounds.unique hn
  refine ⟨_, hix, ?_⟩
  rw [toInt, hb]
  dsimp only
  change if b.neg then _ else _ at hsign
  cases hneg : b.neg
  · rw [if_neg (by simp [hneg])] at hsign
    rw [if_pos (by omega)]
  · rw [if_pos hneg] at hsign
    rw [if_neg (by omega), if_pos (by omega)]

/-- The double of a single number has its value: the mantissa is wider by 29 bits. -/
theorem toDouble_number (hb : b.cls single = .number) (hord : b.Ordinary single) :
    ∃ v : RealFields, v.Ordinary double ∧ v.value double = b.value single ∧ t.toDouble b = .write v none := by
  obtain ⟨hlow, hhigh, hman⟩ := hord
  have hbias : double.bias = 1023 ∧ single.bias = 127 ∧ single.maxExp = 255 ∧ double.maxExp = 2047 := by decide
  obtain ⟨hd, hs, hsm, hdm⟩ := hbias
  have hman' : b.man < 2 ^ 23 := hman
  refine ⟨⟨b.neg, b.exp + double.bias - single.bias, b.man * 2 ^ 29⟩, ⟨?_, ?_, ?_⟩, ?_, ?_⟩
  · dsimp only
    omega
  · dsimp only
    omega
  · show b.man * 2 ^ 29 < 2 ^ 52
    omega
  · have hexp : ((b.exp + double.bias - single.bias : ℕ) : ℤ) - double.bias = b.exp - single.bias := by omega
    have hfrac : ((b.man * 2 ^ 29 : ℕ) : ℚ) / 2 ^ double.manBits = b.man / 2 ^ single.manBits := by
      rw [show double.manBits = single.manBits + 29 from rfl, pow_add]
      push_cast
      exact mul_div_mul_right _ _ (by positivity)
    rw [RealFields.value, RealFields.value]
    dsimp only
    rw [hexp, hfrac]
  · rw [toDouble, hb]

/-- What MAKEDR delivers of a rounded number with sign `neg` (rule R308). -/
def settleSingle (t : RealControl) (neg : Bool) (r : Rounded) : Delivery RealFields :=
  if (single.maxExp : Int) - 1 < r.biased single then
    .write (infReal single neg) (if t.overflow then some 18 else t.inexactTrap r.inexact)
  else if r.biased single < 1 then
    .write (zeroReal neg) (if t.underflow then some 19 else t.inexactTrap r.inexact)
  else .write (r.wrap single) (t.inexactTrap r.inexact)

theorem toSingle_number (hb : b.cls double = .number) :
    t.toSingle b = t.settleSingle b.neg (roundReal t.round (single.manBits + 1) t.mode (b.exact double)) := by
  rw [toSingle, hb]
  rfl

theorem exact_num_pos (f : Fmt) (b : RealFields) : 0 < (b.exact f).num := Nat.add_pos_left (Nat.two_pow_pos _) _

/-- With the default rounding MAKEDR settles the rounded value of its operand. -/
theorem toSingle_rounded (hb : b.cls double = .number) (hround : t.round = .exact) :
    ∃ r : Rounded, r.Of single.manBits t.mode (b.value double) ∧ t.toSingle b = t.settleSingle b.neg r := by
  refine ⟨_, ?_, toSingle_number hb⟩
  rw [hround, ← RealFields.value_exact]
  exact roundExact_of single.manBits t.mode (exact_num_pos double b) Nat.one_pos

section SettleSingle

variable {neg : Bool} {r : Rounded}

theorem settleSingle_overflow_on (h : single.maxExp ≤ r.biased single) (ht : t.overflow = true) :
    t.settleSingle neg r = .write (infReal single neg) (some 18) := by
  rw [settleSingle, if_pos (by omega), if_pos ht]

theorem settleSingle_overflow_off (h : single.maxExp ≤ r.biased single) (ht : t.overflow = false) :
    t.settleSingle neg r = .write (infReal single neg) (t.inexactTrap r.inexact) := by
  rw [settleSingle, if_pos (by omega), if_neg (by simp [ht])]

theorem settleSingle_underflow_on (h : r.biased single < 1) (ht : t.underflow = true) :
    t.settleSingle neg r = .write (zeroReal neg) (some 19) := by
  have := single_wide.bias_lt
  rw [settleSingle, if_neg (by omega), if_pos h, if_pos ht]

theorem settleSingle_underflow_off (h : r.biased single < 1) (ht : t.underflow = false) :
    t.settleSingle neg r = .write (zeroReal neg) (t.inexactTrap r.inexact) := by
  have := single_wide.bias_lt
  rw [settleSingle, if_neg (by omega), if_pos h, if_neg (by simp [ht])]

theorem settleSingle_in_range (hlow : 1 ≤ r.biased single) (hhigh : r.biased single < single.maxExp) :
    t.settleSingle neg r = .write (r.wrap single) (t.inexactTrap r.inexact) := by
  rw [settleSingle, if_neg (by omega), if_neg (by omega)]

end SettleSingle

theorem ofInt_zero : t.ofInt f 0 = .write (zeroReal false) none := rfl

/-- An integer that is not zero, rounded to a real. -/
theorem ofInt_nonzero (hn : n ≠ 0) :
    t.ofInt f n = .write ((roundReal t.round (f.manBits + 1) t.mode (.ofInt n)).wrap f)
      (t.inexactTrap (roundReal t.round (f.manBits + 1) t.mode (.ofInt n)).inexact) := if_neg hn

theorem roundExact_ofInt (hn : n ≠ 0) : (roundExact (f.manBits + 1) t.mode (.ofInt n)).Of f.manBits t.mode n := by
  rw [← Exact.value_ofInt n]
  exact roundExact_of f.manBits t.mode (Int.natAbs_pos.2 hn) Nat.one_pos

end RealControl

/-! ### All traps off (rules R278 to R287) -/

/-- No real trap is on. -/
structure RealControl.Quiet (t : RealControl) : Prop where
  before : t.before = false
  divZero : t.divZero = false
  overflow : t.overflow = false
  underflow : t.underflow = false
  inexact : t.inexact = false

namespace RealControl.Quiet

variable {t : RealControl} {f : Fmt} {a b : RealFields}

theorem settle (h : t.Quiet) (r : Rounded) : ∃ v, t.settle f r = .write v none := by
  unfold RealControl.settle
  rw [h.overflow, h.underflow, inexactTrap_off h.inexact]
  split
  · exact ⟨_, rfl⟩
  · split
    · exact ⟨_, rfl⟩
    · exact ⟨_, rfl⟩

theorem arith (h : t.Quiet) (op : RealOp) (a b : RealFields) : ∃ v, t.arith f op a b = .write v none := by
  by_cases hn : a.cls f = .number ∧ b.cls f = .number
  · by_cases hz : (exactOp op (a.exact f) (b.exact f)).num = 0
    · exact ⟨_, by rw [RealControl.arith, if_pos hn]; exact if_pos hz⟩
    · rw [arith_number hn.1 hn.2 hz]
      exact h.settle _
  · rw [arith_special h.before hn rfl, h.divZero, Bool.and_false]
    exact ⟨_, rfl⟩

theorem toInt (h : t.Quiet) (m : RoundMode) (too : Bool) (b : RealFields) :
    ∃ v, t.toInt f m too b = .write v none := by
  by_cases hb : b.cls f = .number
  · obtain ⟨hrounds, -⟩ := roundToInt_spec m (x := b.exact f) rfl
    rw [RealFields.value_exact] at hrounds
    by_cases hfit : -2 ^ 31 ≤ (roundToInt m (b.exact f)).1 ∧ (roundToInt m (b.exact f)).1 ≤ 2 ^ 31 - 1
    · obtain ⟨ix, -, he⟩ := toInt_in_range (t := t) (too := too) hb hrounds hfit.1 hfit.2
      rw [he, ite_inexactTrap_none (.inr (.inl h.inexact))]
      exact ⟨_, rfl⟩
    · obtain ⟨ix, -, he⟩ := toInt_out_of_range (t := t) (too := too) hb hrounds (by omega)
      rw [he, h.overflow, ite_inexactTrap_none (.inr (.inl h.inexact))]
      exact ⟨_, rfl⟩
  · rw [toInt_special hb, h.before]
    exact ⟨_, rfl⟩

theorem ofInt (h : t.Quiet) (n : ℤ) : ∃ v, t.ofInt f n = .write v none := by
  by_cases hn : n = 0
  · subst hn
    exact ⟨_, ofInt_zero⟩
  · rw [ofInt_nonzero hn, inexactTrap_off h.inexact]
    exact ⟨_, rfl⟩

theorem toDouble (h : t.Quiet) (b : RealFields) : ∃ v, t.toDouble b = .write v none := by
  by_cases hb : b.cls single = .number
  · exact ⟨_, by rw [RealControl.toDouble, hb]⟩
  · rw [toDouble_special hb, h.before]
    exact ⟨_, rfl⟩

theorem toSingle (h : t.Quiet) (b : RealFields) : ∃ v, t.toSingle b = .write v none := by
  by_cases hb : b.cls double = .number
  · rw [toSingle_number hb, settleSingle, h.overflow, h.underflow, inexactTrap_off h.inexact]
    split
    · exact ⟨_, rfl⟩
    · split
      · exact ⟨_, rfl⟩
      · exact ⟨_, rfl⟩
  · rw [toSingle_special hb, h.before]
    exact ⟨_, rfl⟩

end RealControl.Quiet

/-! ### Numbers, zeros and infinities (rule R277) -/

/-- A pattern of the format that is a number, a zero or an infinity. -/
structure RealFields.Plain (f : Fmt) (v : RealFields) : Prop where
  exp_le : v.exp ≤ f.maxExp
  man_lt : v.man < 2 ^ f.manBits
  cls_mem : v.cls f ∈ [RealClass.number, .zero, .infinity]

theorem RealFields.Ordinary.plain {f : Fmt} {v : RealFields} (h : v.Ordinary f) : v.Plain f := by
  obtain ⟨hlow, hhigh, hman⟩ := h
  refine ⟨hhigh.le, hman, ?_⟩
  rw [RealFields.cls, if_neg hhigh.ne, if_neg (by omega)]
  exact List.mem_cons_self

theorem zeroReal_plain {f : Fmt} (hf : f.Wide) (neg : Bool) : (zeroReal neg).Plain f := by
  have hmax : 0 ≠ f.maxExp := by
    have := hf.bias_lt
    omega
  refine ⟨Nat.zero_le _, Nat.two_pow_pos _, ?_⟩
  rw [zeroReal, RealFields.cls, if_neg hmax, if_pos rfl, if_pos rfl]
  simp

theorem infReal_plain (f : Fmt) (neg : Bool) : (infReal f neg).Plain f := by
  refine ⟨le_rfl, Nat.two_pow_pos _, ?_⟩
  rw [infReal, RealFields.cls, if_pos rfl, if_pos rfl]
  simp

/-- A delivery of a number, a zero or an infinity, with a trap after it or without one. -/
def Delivery.WritesPlain (f : Fmt) (d : Delivery RealFields) : Prop := ∃ v c, d = .write v c ∧ v.Plain f

theorem Rounded.wrap_plain {r : Rounded} {f : Fmt} (hsig : 2 ^ f.manBits ≤ r.sig ∧ r.sig < 2 ^ (f.manBits + 1))
    (hlow : 1 ≤ r.biased f) (hhigh : r.biased f < f.maxExp) : (r.wrap f).Plain f := by
  rw [Rounded.wrap_eq_scaled hlow hhigh]
  exact (Rounded.scaled_ordinary hsig (by omega) (by omega)).plain

/-- The table names an operand as the result only where that operand is a number. -/
theorem table41_operand (z : ZeroSign) (m : RoundMode) (op : RealOp) (c1 c2 : RealClass) (n1 n2 n : Bool) :
    (table41 z m op c1 c2 n1 n2 = .first n → c1 = .number) ∧
      (table41 z m op c1 c2 n1 n2 = .second n → c2 = .number) := by
  cases op with
  | add => cases c1 <;> cases c2 <;> simp [table41, tableAdd, RealClass.row]
  | sub => cases c1 <;> cases c2 <;> simp [table41, tableAdd, RealClass.row]
  | mpy => cases c1 <;> cases c2 <;> simp [table41, tableMpy, RealClass.row]
  | div => cases c1 <;> cases c2 <;> simp [table41, tableDiv]

namespace RealControl

variable {t : RealControl} {f : Fmt} {op : RealOp} {a b : RealFields} {r : Rounded}

theorem settle_plain (hf : f.Wide) (ho : t.overflow = false) (hu : t.underflow = false)
    (hsig : 2 ^ f.manBits ≤ r.sig ∧ r.sig < 2 ^ (f.manBits + 1)) : (t.settle f r).WritesPlain f := by
  by_cases hover : f.maxExp ≤ r.biased f
  · exact ⟨_, _, settle_overflow_off hover ho, infReal_plain f r.neg⟩
  by_cases hunder : r.biased f < 1
  · exact ⟨_, _, settle_underflow_off hf hunder hu, zeroReal_plain hf false⟩
  exact ⟨_, _, settle_in_range (by omega) (by omega), Rounded.wrap_plain hsig (by omega) (by omega)⟩

theorem settleSingle_plain (neg : Bool) (ho : t.overflow = false) (hu : t.underflow = false)
    (hsig : 2 ^ single.manBits ≤ r.sig ∧ r.sig < 2 ^ (single.manBits + 1)) :
    (t.settleSingle neg r).WritesPlain single := by
  by_cases hover : single.maxExp ≤ r.biased single
  · exact ⟨_, _, settleSingle_overflow_off hover ho, infReal_plain single neg⟩
  by_cases hunder : r.biased single < 1
  · exact ⟨_, _, settleSingle_underflow_off hunder hu, zeroReal_plain single_wide neg⟩
  exact ⟨_, _, settleSingle_in_range (by omega) (by omega), Rounded.wrap_plain hsig (by omega) (by omega)⟩

theorem arith_plain (hf : f.Wide) (hbefore : t.before = false) (hdiv : t.divZero = false) (ho : t.overflow = false)
    (hu : t.underflow = false) (ha : a.cls f = .number → a.Ordinary f) (hb : b.cls f = .number → b.Ordinary f) :
    (t.arith f op a b).WritesPlain f := by
  by_cases hn : a.cls f = .number ∧ b.cls f = .number
  · by_cases hz : op.onValues (a.value f) (b.value f) = 0
    · exact ⟨_, _, arith_zero hn.1 hn.2 hz, zeroReal_plain hf _⟩
    · have hnum := num_ne_zero hz
      rw [arith_number hn.1 hn.2 hnum]
      obtain ⟨hlow, hhigh, -⟩ := roundReal_range t.round f.manBits t.mode (Nat.pos_of_ne_zero hnum)
        (exactOp_den_pos f op a b)
      exact settle_plain hf ho hu ⟨hlow, hhigh⟩
  · obtain ⟨c, hc⟩ : ∃ c, table41 t.zeroSign t.mode op (a.cls f) (b.cls f) a.neg b.neg = c := ⟨_, rfl⟩
    have hoperand := table41_operand t.zeroSign t.mode op (a.cls f) (b.cls f) a.neg b.neg
    rw [hc] at hoperand
    refine ⟨_, _, by rw [arith_special hbefore hn hc, hdiv, Bool.and_false]; rfl, ?_⟩
    cases c with
    | first n => exact RealFields.Ordinary.plain (v := { a with neg := n }) (ha ((hoperand n).1 rfl))
    | second n => exact RealFields.Ordinary.plain (v := { b with neg := n }) (hb ((hoperand n).2 rfl))
    | zero n => exact zeroReal_plain hf n
    | infinity n => exact infReal_plain f n
    | divByZero => exact infReal_plain f _

/-- The real of an integer of 32 bits is a zero or a number, whatever the rounding. -/
theorem ofInt_plain (hf : f.Wide) (hlow : 2 ≤ f.bias) (hhigh : f.bias + 33 < f.maxExp) (w : Word) :
    (t.ofInt f w.toInt).WritesPlain f := by
  by_cases hw : w = 0
  · exact ⟨_, _, by rw [hw]; exact ofInt_zero, zeroReal_plain hf false⟩
  · have hne : w.toInt ≠ 0 := fun h => hw (BitVec.eq_of_toInt_eq h)
    obtain ⟨hmin, hmax⟩ := (roundExact_ofInt (f := f) (t := t) hne).biased_of_word hw
    obtain ⟨hsig, hsig', hexp, hexp'⟩ := roundReal_range t.round f.manBits t.mode (x := .ofInt w.toInt)
      (Int.natAbs_pos.2 hne) Nat.one_pos
    rw [Rounded.biased] at hmin hmax
    refine ⟨_, _, ofInt_nonzero hne, Rounded.wrap_plain ⟨hsig, hsig'⟩ ?_ ?_⟩
    all_goals
      rw [Rounded.biased]
      omega

theorem toDouble_plain (hbefore : t.before = false) (hb : b.cls single = .number → b.Ordinary single) :
    (t.toDouble b).WritesPlain double := by
  by_cases hn : b.cls single = .number
  · obtain ⟨v, hv, -, hd⟩ := toDouble_number (t := t) hn (hb hn)
    exact ⟨v, none, hd, hv.plain⟩
  · refine ⟨_, _, by rw [toDouble_special hn, hbefore]; rfl, ?_⟩
    split
    · exact zeroReal_plain double_wide _
    · exact infReal_plain double _

theorem toSingle_plain (hbefore : t.before = false) (ho : t.overflow = false) (hu : t.underflow = false) :
    (t.toSingle b).WritesPlain single := by
  by_cases hn : b.cls double = .number
  · obtain ⟨hlow, hhigh, -⟩ := roundReal_range t.round single.manBits t.mode (exact_num_pos double b) Nat.one_pos
    rw [toSingle_number hn]
    exact settleSingle_plain b.neg ho hu ⟨hlow, hhigh⟩
  · refine ⟨_, _, by rw [toSingle_special hn, hbefore]; rfl, ?_⟩
    split
    · exact zeroReal_plain single_wide _
    · exact infReal_plain single _

end RealControl

end Sys2Proof.Machine
end

