-- ==== Sys2Proof/Proofs/RealInstructions.lean ====
section
/-! SUPPORT. The real instructions (42_real.md): each delivers what its operation says, and the obligations
about them. -/

namespace Sys2Proof.Machine

open Sys2Proof.Config (RoundMode)

/-! ### Deliveries -/

section Deliveries

variable {α : Type} {s : State} {o : Opcode} {x y : RegNo} {put : State → α → State} {v : α}

theorem deliver_write (hput : SameButRegs s (put s v)) (hroom : s.Room 2) :
    deliver o x y put (.write v none) s = .next ((put s v).after 2) :=
  advance_room (s := put s v) (by rw [State.Room, hput]; exact hroom)

theorem deliver_write_trap {c : Nat} {w : Word} (hput : SameButRegs s (put s v))
    (hv : s.HasVector (.arithmetic (s.op o) x y c) w) :
    deliver o x y put (.write v (some c)) s = .next ((put s v).enterAt (.arithmetic (s.op o) x y c) s.pc w) := by
  have hvec : (put s v).HasVector (.arithmetic (s.op o) x y c) w := by
    rw [hput]
    exact hv
  have hpc : (put s v).pc = s.pc := by rw [hput]
  rw [← hpc]
  exact raise_vector hvec

theorem deliver_abort {c : Nat} {w : Word} (hv : s.HasVector (.arithmetic (s.op o) x y c) w) :
    deliver o x y put (.abort c) s = .next (s.enterAt (.arithmetic (s.op o) x y c) s.pc w) := raise_vector hv

/-- What an instruction that delivers a value leaves in the registers, whether it goes on or takes an event. -/
theorem reg_of_deliver_write {c : Option Nat} {t : State} (h : deliver o x y put (.write v c) s = .next t) (k : RegNo) :
    t.reg k = (put s v).reg k := by
  cases c with
  | none =>
    obtain ⟨-, rfl⟩ := advance_next.1 h
    exact State.reg_after ..
  | some c =>
    obtain ⟨w, -, rfl⟩ | ⟨-, rfl⟩ := raise_next.1 h
    · exact State.reg_enterAt ..
    · rfl

/-- The outcome of an instruction of opcode `o` is the event with a code, taken in the state `u`. -/
def State.TakesTrap (s : State) (o : Opcode) (x y : RegNo) (out : Outcome) (u : State) (code : Nat) : Prop :=
  ∀ w, s.HasVector (.arithmetic (s.op o) x y code) w →
    out = .next (u.enterAt (.arithmetic (s.op o) x y code) s.pc w)

/-- The outcome of an instruction that leaves `u`: the inexact event when its trap is on and the result is not exact,
else the next instruction (rule R284). -/
def State.EndsInexact (s : State) (o : Opcode) (x y : RegNo) (out : Outcome) (u : State) (isExact : Prop) : Prop :=
  (s.trapBit 24 = false ∨ isExact → s.Room 2 → out = .next (u.after 2)) ∧
    (s.trapBit 24 = true → ¬isExact → s.TakesTrap o x y out u 24)

theorem takesTrap_of_write {c : Nat} (hput : SameButRegs s (put s v)) :
    s.TakesTrap o x y (deliver o x y put (.write v (some c)) s) (put s v) c := fun _ hw => deliver_write_trap hput hw

theorem endsInexact_of_write {ix : Bool} {isExact : Prop} (hput : SameButRegs s (put s v))
    (hix : ix = false ↔ isExact) :
    s.EndsInexact o x y (deliver o x y put (.write v (s.realControl.inexactTrap ix)) s) (put s v) isExact := by
  constructor
  · intro h hroom
    have hnone : s.realControl.inexactTrap ix = none := by
      obtain ht | he := h
      · exact RealControl.inexactTrap_off ht ix
      · rw [hix.2 he]
        rfl
    rw [hnone]
    exact deliver_write hput hroom
  · intro ht he
    rw [RealControl.inexactTrap_on (t := s.realControl) ht (by rwa [← hix, Bool.not_eq_false] at he)]
    exact takesTrap_of_write hput

end Deliveries

/-! ### Instructions by form -/

theorem singleForms_exec (x y : RegNo) (s : State) : ∀ f ∈ singleForms x y, exec f.1 s =
    deliver f.1.opcode x y (State.putSingle x)
      (s.realControl.arith single f.2 (unpackSingle (s.reg x)) (unpackSingle (s.reg y))) s := by
  simp only [singleForms, List.forall_mem_cons, List.not_mem_nil, IsEmpty.forall_iff, implies_true, and_true]
  and_intros
  all_goals rfl

theorem doubleForms_exec (x y : RegNo) (s : State) : ∀ f ∈ doubleForms x y, exec f.1 s =
    deliver f.1.opcode x y (State.putDouble x)
      (s.realControl.arith double f.2 (unpackDouble (s.pair x)) (unpackDouble (s.pair y))) s := by
  simp only [doubleForms, List.forall_mem_cons, List.not_mem_nil, IsEmpty.forall_iff, implies_true, and_true]
  and_intros
  all_goals rfl

theorem exec_float (x y : RegNo) (s : State) : exec (.float x y) s =
    deliver .float x y (State.putSingle x) (s.realControl.ofInt single (s.reg y).toInt) s := rfl

theorem exec_dfloat (x y : RegNo) (s : State) : exec (.dfloat x y) s =
    deliver .dfloat x y (State.putDouble x)
      ({ s.realControl with round := .exact }.ofInt double (s.reg y).toInt) s := rfl

theorem exec_makerd (x y : RegNo) (s : State) : exec (.makerd x y) s =
    deliver .makerd x y (State.putDouble x) (s.realControl.toDouble (unpackSingle (s.reg y))) s := rfl

theorem exec_makedr (x y : RegNo) (s : State) : exec (.makedr x y) s =
    deliver .makedr x y (State.putSingle x) (s.realControl.toSingle (unpackDouble (s.pair y))) s := rfl

/-- The conversions to an integer: the instruction, the mode, the format, the operand, and whether the inexact trap can
follow. -/
def toIntForms (x y : RegNo) (s : State) : List (Instr × RoundMode × Fmt × RealFields × Bool) :=
  [(Instr.fixt x y, RoundMode.zero, single, unpackSingle (s.reg y), false),
    (.dfixt x y, .zero, double, unpackDouble (s.pair y), false),
    (.fixr x y, s.fixrMode, single, unpackSingle (s.reg y), true),
    (.dfixr x y, s.fixrMode, double, unpackDouble (s.pair y), true)]

theorem toIntForms_exec (x y : RegNo) (s : State) : ∀ c ∈ toIntForms x y s, exec c.1 s =
    deliver c.1.opcode x y (State.put x) (s.realControl.toInt c.2.2.1 c.2.1 c.2.2.2.2 c.2.2.2.1) s := by
  simp only [toIntForms, List.forall_mem_cons, List.not_mem_nil, IsEmpty.forall_iff, implies_true, and_true]
  and_intros
  all_goals rfl

/-! ### The before trap (rules R278, R280, R343) -/

/-- An instruction with a special operand and the before trap on delivers the trap alone. -/
theorem beforeForms_exec {x y : RegNo} {s : State} (ht : s.trapBit 25 = true) :
    ∀ c ∈ beforeForms x y s, c.2 → exec c.1 s = raise (.arithmetic (s.op c.1.opcode) x y 25) s := by
  have arith : ∀ {f : Fmt} {op : RealOp} {a b : RealFields}, a.cls f ≠ .number ∨ b.cls f ≠ .number →
      s.realControl.arith f op a b = .abort 25 := RealControl.arith_before ht
  have toInt : ∀ {f : Fmt} {m : RoundMode} {too : Bool} {b : RealFields}, b.cls f ≠ .number →
      s.realControl.toInt f m too b = .abort 25 := fun h => (RealControl.toInt_special h).trans (if_pos ht)
  have toDouble : ∀ {b : RealFields}, b.cls single ≠ .number → s.realControl.toDouble b = .abort 25 :=
    fun h => (RealControl.toDouble_special h).trans (if_pos ht)
  have toSingle : ∀ {b : RealFields}, b.cls double ≠ .number → s.realControl.toSingle b = .abort 25 :=
    fun h => (RealControl.toSingle_special h).trans (if_pos ht)
  have compare : ∀ {f : Fmt} {a b : RealFields}, a.cls f ≠ .number ∨ b.cls f ≠ .number →
      s.realControl.compare f a b = .abort 25 := fun h => RealControl.compare_before h ht
  have aborts : ∀ {α : Type} {put : State → α → State} {d : Delivery α} (o : Opcode), d = .abort 25 →
      deliver o x y put d s = raise (.arithmetic (s.op o) x y 25) s := fun _ h => by rw [h]; rfl
  simp only [beforeForms, List.forall_mem_cons, List.not_mem_nil, IsEmpty.forall_iff, implies_true, and_true]
  exact ⟨fun h => aborts .radd (arith h), fun h => aborts .rsub (arith h), fun h => aborts .rmpy (arith h),
    fun h => aborts .rdiv (arith h), fun h => aborts .rcomp (compare h), fun h => aborts .fixr (toInt h),
    fun h => aborts .fixt (toInt h), fun h => aborts .makerd (toDouble h), fun h => aborts .dradd (arith h),
    fun h => aborts .drsub (arith h), fun h => aborts .drmpy (arith h), fun h => aborts .drdiv (arith h),
    fun h => aborts .drcomp (compare h), fun h => aborts .dfixr (toInt h), fun h => aborts .dfixt (toInt h),
    fun h => aborts .makedr (toSingle h)⟩

/-- Settles O24: each of the operations delivers code 25 alone for a special operand. -/
theorem beforeTrap : Obligations.BeforeTrap := by
  intro s x y i special v hf hs ht hv
  rw [beforeForms_exec ht (i, special) hf hs]
  exact raise_vector hv

/-! ### Completion (rules R278 to R287) -/

theorem setReg_otherRegs (s : State) (x : RegNo) (w : Word) : SameRegsBut [x] s (s.setReg x w) :=
  fun _ hn => State.reg_setReg_other s w (by simpa using hn)

theorem setPair_otherRegs (s : State) (x : RegNo) (w : DWord) : SameRegsBut [x, x + 1] s (s.setPair x w) := by
  intro n hn
  obtain ⟨h, h'⟩ : n ≠ x ∧ n ≠ x + 1 := by simpa using hn
  rw [State.reg_setPair, if_neg h', if_neg h]

theorem State.RealQuiet.control {s : State} (h : s.RealQuiet) : s.realControl.Quiet := by
  obtain ⟨ho, hu, hd, hi, hb⟩ := h
  exact ⟨hb, hd, ho, hu, hi⟩

/-- With the traps off an instruction with a real or integer result in a register writes it and goes on. -/
theorem realForms_quiet {s : State} (hq : s.RealQuiet) (x y : RegNo) : ∀ i ∈ realForms x y,
    (Instr.destinations i = [x] ∧ ∃ w, exec i s = setAndGo x w s) ∨
      (Instr.destinations i = [x, x + 1] ∧ ∃ w, exec i s = setPairAndGo x w s) := by
  have h := hq.control
  have word : ∀ {o : Opcode} {d : Delivery Word}, (∃ v, d = .write v none) →
      ∃ w, deliver o x y (State.put x) d s = setAndGo x w s := by
    rintro o d ⟨v, rfl⟩
    exact ⟨v, rfl⟩
  have real : ∀ {o : Opcode} {d : Delivery RealFields}, (∃ v, d = .write v none) →
      ∃ w, deliver o x y (State.putSingle x) d s = setAndGo x w s := by
    rintro o d ⟨v, rfl⟩
    exact ⟨packSingle v, rfl⟩
  have pair : ∀ {o : Opcode} {d : Delivery RealFields}, (∃ v, d = .write v none) →
      ∃ w, deliver o x y (State.putDouble x) d s = setPairAndGo x w s := by
    rintro o d ⟨v, rfl⟩
    exact ⟨packDouble v, rfl⟩
  have quietExact : ({ s.realControl with round := .exact } : RealControl).Quiet := ⟨h.1, h.2, h.3, h.4, h.5⟩
  have compare : ∀ {f : Fmt} {a b : RealFields}, ∃ v, s.realControl.compare f a b = .write v none :=
    ⟨_, RealControl.compare_quiet h.before⟩
  simp only [realForms, List.forall_mem_cons, List.not_mem_nil, IsEmpty.forall_iff, implies_true, and_true]
  exact ⟨.inl ⟨rfl, word (h.toInt _ _ _)⟩, .inl ⟨rfl, word (h.toInt _ _ _)⟩, .inl ⟨rfl, real (h.ofInt _)⟩,
    .inr ⟨rfl, pair (h.toDouble _)⟩, .inl ⟨rfl, real (h.arith _ _ _)⟩, .inl ⟨rfl, real (h.arith _ _ _)⟩,
    .inl ⟨rfl, real (h.arith _ _ _)⟩, .inl ⟨rfl, real (h.arith _ _ _)⟩, .inl ⟨rfl, word (h.toInt _ _ _)⟩,
    .inl ⟨rfl, word (h.toInt _ _ _)⟩, .inr ⟨rfl, pair (quietExact.ofInt _)⟩, .inr ⟨rfl, pair (h.arith _ _ _)⟩,
    .inr ⟨rfl, pair (h.arith _ _ _)⟩, .inr ⟨rfl, pair (h.arith _ _ _)⟩, .inr ⟨rfl, pair (h.arith _ _ _)⟩,
    .inl ⟨rfl, real (h.toSingle _)⟩, .inl ⟨rfl, word compare⟩, .inl ⟨rfl, word compare⟩⟩

/-- Settles O23: with the traps off every operation delivers a value and no trap. -/
theorem realInstructionsComplete : Obligations.RealInstructionsComplete := by
  intro s x y i hi hq hroom
  obtain ⟨hd, w, he⟩ | ⟨hd, w, he⟩ := realForms_quiet hq x y i hi
  · rw [he, hd]
    exact ⟨_, setAndGo_room hroom x w, rfl, setReg_otherRegs s x w⟩
  · rw [he, hd]
    exact ⟨_, setPairAndGo_room hroom x w, rfl, setPair_otherRegs s x w⟩

/-! ### Special operands (rules R279, R281, R286) -/

theorem State.note4_eq (s : State) :
    s.note4 = fun n1 n2 => zeroSumSign s.realControl.zeroSign s.realControl.mode (some (n1, n2)) := by
  funext n1 n2
  show s.note4 n1 n2 = zeroSumSign s.cfg.zeroSign s.roundMode (some (n1, n2))
  unfold State.note4 zeroSumSign
  cases s.cfg.zeroSign with
  | positive => rfl
  | ieee =>
    cases n1
    all_goals
      cases n2
      all_goals rfl

/-- A zero sum of numbers has the sign of a sum of zeros of different signs. -/
theorem State.note4_numbers (s : State) :
    s.note4 false true = zeroSumSign s.realControl.zeroSign s.realControl.mode none := by
  rw [State.note4_eq]
  cases s.realControl.zeroSign
  all_goals rfl

section Rows

variable {s : State} {o : Opcode} {x y : RegNo} {put : State → RealFields → State} {f : Fmt} {op : RealOp}
  {a b : RealFields} {l : TableLine}

theorem deliver_row (hput : ∀ v, SameButRegs s (put s v)) (hroom : s.Room 2) (hl : l ∈ table41Lines f s.note4)
    (ht : s.trapBit 25 = false) (ha : a.cls f = l.op1) (hb : b.cls f = l.op2)
    (h : l.divides op = false ∨ s.trapBit 20 = false) :
    deliver o x y put (s.realControl.arith f op a b) s = .next ((put s (l.result op a b)).after 2) := by
  have hoff : ¬(l.divides op && s.realControl.divZero) = true := by
    rw [Bool.and_eq_true, not_and_or, Bool.not_eq_true, Bool.not_eq_true]
    exact h
  rw [RealControl.arith_row (s.note4_eq ▸ hl) ht ha hb, if_neg hoff]
  exact deliver_write (hput _) hroom

theorem deliver_row_trap (hl : l ∈ table41Lines f s.note4) (ht : s.trapBit 25 = false) (ha : a.cls f = l.op1)
    (hb : b.cls f = l.op2) {v : Word} (hd : l.divides op = true) (ht20 : s.trapBit 20 = true)
    (hv : s.HasVector (.arithmetic (s.op o) x y 20) v) :
    deliver o x y put (s.realControl.arith f op a b) s =
      .next (s.enterAt (.arithmetic (s.op o) x y 20) s.pc v) := by
  rw [RealControl.arith_row (s.note4_eq ▸ hl) ht ha hb, if_pos (by rw [hd]; exact ht20)]
  exact deliver_abort hv

/-- A sum or difference of numbers that is exactly zero. -/
theorem deliver_zero_sum (hput : ∀ v, SameButRegs s (put s v)) (hroom : s.Room 2) (ha : a.cls f = .number)
    (hb : b.cls f = .number) (hq : op.onValues (a.value f) (b.value f) = 0) :
    deliver o x y put (s.realControl.arith f op a b) s =
      .next ((put s (zeroReal (s.note4 false true))).after 2) := by
  rw [RealControl.arith_zero ha hb hq, s.note4_numbers]
  exact deliver_write (hput _) hroom

end Rows

/-- Settles O26: the model's table is Table 4-1 row by row, for both formats. -/
theorem realSpecialOperands : Obligations.RealSpecialOperands := by
  intro s x y hroom
  have hsingle : ∀ v, SameButRegs s (s.putSingle x v) := fun _ => rfl
  have hdouble : ∀ v, SameButRegs s (s.putDouble x v) := fun _ => rfl
  refine ⟨fun l hl ht ha hb => ?_, fun l hl ht ha hb => ?_, fun i op hf ha hb hq => ?_,
    fun i op hf ha hb hq => ?_⟩
  · exact ⟨deliver_row (op := .add) hsingle hroom hl ht ha hb (.inl rfl),
      deliver_row (op := .sub) hsingle hroom hl ht ha hb (.inl rfl),
      deliver_row (op := .mpy) hsingle hroom hl ht ha hb (.inl rfl),
      deliver_row (op := .div) hsingle hroom hl ht ha hb,
      fun v => deliver_row_trap (op := .div) hl ht ha hb⟩
  · exact ⟨deliver_row (op := .add) hdouble hroom hl ht ha hb (.inl rfl),
      deliver_row (op := .sub) hdouble hroom hl ht ha hb (.inl rfl),
      deliver_row (op := .mpy) hdouble hroom hl ht ha hb (.inl rfl),
      deliver_row (op := .div) hdouble hroom hl ht ha hb,
      fun v => deliver_row_trap (op := .div) hl ht ha hb⟩
  · rw [singleForms_exec x y s (i, op) hf]
    exact deliver_zero_sum hsingle hroom ha hb hq
  · rw [doubleForms_exec x y s (i, op) hf]
    exact deliver_zero_sum hdouble hroom ha hb hq

/-! ### Results in range (rules R274 to R276, R284) -/

/-- An inexact end in a state with room. -/
theorem State.EndsInexact.of_room {s u : State} {o : Opcode} {x y : RegNo} {out : Outcome} {isExact : Prop}
    (h : s.EndsInexact o x y out u isExact) (hroom : s.Room 2) :
    (s.trapBit 24 = false ∨ isExact → out = .next (u.after 2)) ∧
      ∀ w, s.trapBit 24 = true → ¬isExact → s.HasVector (.arithmetic (s.op o) x y 24) w →
        out = .next (u.enterAt (.arithmetic (s.op o) x y 24) s.pc w) :=
  ⟨fun he => h.1 he hroom, fun w ht he => h.2 ht he w⟩

section InRange

variable {s : State} {o : Opcode} {x y : RegNo} {put : State → RealFields → State} {f : Fmt} {op : RealOp}
  {a b : RealFields}

/-- A rounded result in range is written, whatever real instruction delivers it. -/
theorem deliver_rounded {m : RoundMode} {q : ℚ} {r : Rounded} {d : Delivery RealFields}
    (hput : ∀ v, SameButRegs s (put s v)) (hf : f.Wide) (hr : r.Of f.manBits m q) (hlow : 1 ≤ r.biased f)
    (hhigh : r.biased f < f.maxExp) (hd : d = .write (r.wrap f) (s.realControl.inexactTrap r.inexact)) :
    ∃ v, RoundsTo f m q v ∧ s.EndsInexact o x y (deliver o x y put d s) (put s v) (v.value f = q) := by
  obtain ⟨hrounds, hix⟩ := hr.wrap_in_range hf hlow hhigh
  refine ⟨_, hrounds, ?_⟩
  rw [hd]
  exact endsInexact_of_write (hput _) hix

theorem deliver_arith_in_range (hput : ∀ v, SameButRegs s (put s v)) (hf : f.Wide) (hround : s.cfg.fpRound = .exact)
    (ha : a.cls f = .number) (hb : b.cls f = .number) (hmin : f.minValue ≤ |op.onValues (a.value f) (b.value f)|)
    (hmax : |op.onValues (a.value f) (b.value f)| ≤ f.maxValue) :
    ∃ v, RoundsTo f s.roundMode (op.onValues (a.value f) (b.value f)) v ∧
      s.EndsInexact o x y (deliver o x y put (s.realControl.arith f op a b) s) (put s v)
        (v.value f = op.onValues (a.value f) (b.value f)) := by
  have hq : op.onValues (a.value f) (b.value f) ≠ 0 := abs_pos.1 (f.minValue_pos.trans_le hmin)
  obtain ⟨r, hr, hd⟩ := RealControl.arith_rounded (t := s.realControl) ha hb hround hq
  obtain ⟨hlow, hhigh⟩ := hr.biased_in_range hf hmin hmax
  exact deliver_rounded hput hf hr hlow hhigh (hd.trans (RealControl.settle_in_range hlow hhigh))

end InRange

/-- Settles O25: rounding with the exponent unbounded gives the correctly rounded number when the exact result lies
between the smallest and the largest number. -/
theorem realResultsAreCorrectlyRounded : Obligations.RealResultsAreCorrectlyRounded := by
  intro s x y hroom hround ends
  refine ⟨fun i op hf ha hb hmin hmax => ?_, fun i op hf ha hb hmin hmax => ?_, fun hy => ?_,
    fun b hb hnum hmin hmax => ?_⟩
  · obtain ⟨v, hv, he⟩ := deliver_arith_in_range (s := s) (o := i.opcode) (x := x) (y := y) (put := State.putSingle x)
      (fun _ => rfl) single_wide hround ha hb hmin hmax
    rw [← singleForms_exec x y s (i, op) hf] at he
    exact ⟨v, hv, he.of_room hroom⟩
  · obtain ⟨v, hv, he⟩ := deliver_arith_in_range (s := s) (o := i.opcode) (x := x) (y := y) (put := State.putDouble x)
      (fun _ => rfl) double_wide hround ha hb hmin hmax
    rw [← doubleForms_exec x y s (i, op) hf] at he
    exact ⟨v, hv, he.of_room hroom⟩
  · have hne : (s.reg y).toInt ≠ 0 := fun h => hy (BitVec.eq_of_toInt_eq h)
    have hr := RealControl.roundExact_ofInt (f := single) (t := s.realControl) hne
    obtain ⟨hlow, hhigh⟩ := hr.biased_of_word hy
    have hbias : single.bias = 127 ∧ single.maxExp = 255 := by decide
    have hd := RealControl.ofInt_nonzero (f := single) (t := s.realControl) hne
    rw [show s.realControl.round = .exact from hround] at hd
    obtain ⟨v, hv, he⟩ := deliver_rounded (s := s) (o := .float) (x := x) (y := y) (put := State.putSingle x)
      (fun _ => rfl) single_wide hr (by omega) (by omega) hd
    exact ⟨v, hv, he.of_room hroom⟩
  · subst hb
    obtain ⟨r, hr, hd⟩ := RealControl.toSingle_rounded (t := s.realControl) hnum hround
    obtain ⟨hlow, hhigh⟩ := hr.biased_in_range single_wide hmin hmax
    obtain ⟨v, hv, he⟩ := deliver_rounded (s := s) (o := .makedr) (x := x) (y := y) (put := State.putSingle x)
      (fun _ => rfl) single_wide hr hlow hhigh (hd.trans (RealControl.settleSingle_in_range hlow hhigh))
    exact ⟨v, hv, he.of_room hroom⟩

/-! ### Results out of range (rules R282 to R285, R308) -/

section OutOfRange

variable {s : State} {o : Opcode} {x y : RegNo} {put : State → RealFields → State} {f : Fmt} {op : RealOp}
  {a b : RealFields}

theorem abs_pos_of_power_le {q : ℚ} {k : ℤ} (h : 2 ^ k ≤ |q|) : q ≠ 0 :=
  abs_pos.1 (lt_of_lt_of_le (by positivity) h)

/-- An operation on numbers whose result is out of range: `M` is the largest biased exponent of a number, and the
exponent field wraps modulo `W`. -/
theorem deliver_arith_out_of_range {M W : ℤ} (hput : ∀ v, SameButRegs s (put s v)) (hf : f.Wide)
    (hM : (f.maxExp : ℤ) = M + 1) (hW : (2 : ℤ) ^ f.expBits = W) (hround : s.cfg.fpRound = .exact)
    (ha : a.cls f = .number) (hb : b.cls f = .number) {q : ℚ} (hq : op.onValues (a.value f) (b.value f) = q) {k : ℤ}
    (hlow : 2 ^ k ≤ |q|) (hhigh : |q| < 2 ^ (k + 1)) {out : Outcome}
    (hout : out = deliver o x y put (s.realControl.arith f op a b) s) :
    ∃ v, RoundsTo f s.roundMode (q / 2 ^ k) v ∧
      (M < v.exp + k →
        (s.trapBit 18 = true →
          s.TakesTrap o x y out (put s { v with exp := ((v.exp + k) % W).toNat }) 18) ∧
        (s.trapBit 18 = false →
          s.EndsInexact o x y out (put s (infReal f (decide (q < 0)))) (v.value f = q / 2 ^ k))) ∧
      (v.exp + k < 1 →
        (s.trapBit 19 = true →
          s.TakesTrap o x y out (put s { v with exp := ((v.exp + k) % W).toNat }) 19) ∧
        (s.trapBit 19 = false →
          s.EndsInexact o x y out (put s (zeroReal false)) (v.value f = q / 2 ^ k))) := by
  subst hq hW hout
  obtain ⟨r, hr, hd⟩ := RealControl.arith_rounded (t := s.realControl) ha hb hround (abs_pos_of_power_le hlow)
  obtain ⟨hv, he, hix⟩ := hr.at_power hf hlow hhigh
  have hneg : decide (op.onValues (a.value f) (b.value f) < 0) = r.neg := by
    rw [Bool.eq_iff_iff, decide_eq_true_iff, hr.neg_iff]
  refine ⟨_, hv, ?_⟩
  rw [he, hd, hneg]
  refine ⟨fun hover => ⟨fun ht => ?_, fun ht => ?_⟩, fun hunder => ⟨fun ht => ?_, fun ht => ?_⟩⟩
  · rw [RealControl.settle_overflow_on (t := s.realControl) (by omega) ht]
    exact takesTrap_of_write (hput _)
  · rw [RealControl.settle_overflow_off (t := s.realControl) (by omega) ht]
    exact endsInexact_of_write (hput _) hix
  · rw [RealControl.settle_underflow_on (t := s.realControl) hf hunder ht]
    exact takesTrap_of_write (hput _)
  · rw [RealControl.settle_underflow_off (t := s.realControl) hf hunder ht]
    exact endsInexact_of_write (hput _) hix

/-- A number that MAKEDR cannot deliver gives an infinity or a zero of its sign. -/
theorem exec_makedr_out_of_range (hround : s.cfg.fpRound = .exact) {b : RealFields} (hb : b = unpackDouble (s.pair y))
    (hnum : b.cls double = .number) {k : ℤ} (hlow : 2 ^ k ≤ |b.value double|) (hhigh : |b.value double| < 2 ^ (k + 1)) :
    ∃ v, RoundsTo single s.roundMode (b.value double / 2 ^ k) v ∧
      (254 < v.exp + k →
        (s.trapBit 18 = true →
          s.TakesTrap .makedr x y (exec (.makedr x y) s) (s.putSingle x (infReal single b.neg)) 18) ∧
        (s.trapBit 18 = false → s.EndsInexact .makedr x y (exec (.makedr x y) s) (s.putSingle x (infReal single b.neg))
          (v.value single = b.value double / 2 ^ k))) ∧
      (v.exp + k < 1 →
        (s.trapBit 19 = true → s.TakesTrap .makedr x y (exec (.makedr x y) s) (s.putSingle x (zeroReal b.neg)) 19) ∧
        (s.trapBit 19 = false → s.EndsInexact .makedr x y (exec (.makedr x y) s) (s.putSingle x (zeroReal b.neg))
          (v.value single = b.value double / 2 ^ k))) := by
  obtain ⟨r, hr, hd⟩ := RealControl.toSingle_rounded (t := s.realControl) hnum hround
  obtain ⟨hv, he, hix⟩ := hr.at_power single_wide hlow hhigh
  have hmax : single.maxExp = 255 := by decide
  refine ⟨_, hv, ?_⟩
  rw [he, exec_makedr, ← hb, hd]
  refine ⟨fun hover => ⟨fun ht => ?_, fun ht => ?_⟩, fun hunder => ⟨fun ht => ?_, fun ht => ?_⟩⟩
  · rw [RealControl.settleSingle_overflow_on (t := s.realControl) (by omega) ht]
    exact takesTrap_of_write rfl
  · rw [RealControl.settleSingle_overflow_off (t := s.realControl) (by omega) ht]
    exact endsInexact_of_write rfl hix
  · rw [RealControl.settleSingle_underflow_on (t := s.realControl) hunder ht]
    exact takesTrap_of_write rfl
  · rw [RealControl.settleSingle_underflow_off (t := s.realControl) hunder ht]
    exact endsInexact_of_write rfl hix

/-- The manual's example of an overflow, 2^127 times 4 (rule R285). -/
theorem arith_overflow_example {t : RealControl} (hround : t.round = .exact) (ht : t.overflow = true) :
    t.arith single .mpy (unpackSingle 0x7F000000) (unpackSingle 0x40800000) = .write (zeroReal false) (some 18) := by
  have hr : ∀ m, roundExact 24 m (exactOp .mpy ((unpackSingle 0x7F000000).exact single)
      ((unpackSingle 0x40800000).exact single)) = ⟨false, 2 ^ 23, 106, false⟩ := by
    intro m
    cases m
    all_goals decide
  rw [RealControl.arith_number (by decide) (by decide) (by decide), hround]
  exact (congrArg _ (hr t.mode)).trans (RealControl.settle_overflow_on (by decide) ht)

/-- The manual's example of an underflow, 2^-126 divided by 8 (rule R285). -/
theorem arith_underflow_example {t : RealControl} (hround : t.round = .exact) (ht : t.underflow = true) :
    t.arith single .div (unpackSingle 0x00800000) (unpackSingle 0x41000000) = .write ⟨false, 254, 0⟩ (some 19) := by
  have hr : ∀ m, roundExact 24 m (exactOp .div ((unpackSingle 0x00800000).exact single)
      ((unpackSingle 0x41000000).exact single)) = ⟨false, 2 ^ 23, -152, false⟩ := by
    intro m
    cases m
    all_goals decide
  rw [RealControl.arith_number (by decide) (by decide) (by decide), hround]
  exact (congrArg _ (hr t.mode)).trans (RealControl.settle_underflow_on single_wide (by decide) ht)

end OutOfRange

/-- Settles O29: the rounded exact result settles by its own biased exponent, which is that of the scaled result and
the power of two. -/
theorem realOutOfRange : Obligations.RealOutOfRange := by
  intro s x y hround traps ends
  refine ⟨fun i op hf ha hb k hlow hhigh => ?_, fun i op hf ha hb k hlow hhigh => ?_,
    fun b hb hnum k hlow hhigh => exec_makedr_out_of_range hround hb hnum hlow hhigh,
    fun hx hy ht => ?_, fun hx hy ht => ?_⟩
  · exact deliver_arith_out_of_range (fun _ => rfl) single_wide rfl rfl hround ha hb rfl hlow hhigh
      (singleForms_exec x y s (i, op) hf)
  · exact deliver_arith_out_of_range (fun _ => rfl) double_wide rfl rfl hround ha hb rfl hlow hhigh
      (doubleForms_exec x y s (i, op) hf)
  · show s.TakesTrap .rmpy x y (exec (.rmpy x y) s) (s.putSingle x (zeroReal false)) 18
    rw [singleForms_exec x y s (.rmpy x y, .mpy) (by simp [singleForms])]
    dsimp only
    rw [hx, hy, arith_overflow_example (t := s.realControl) hround ht]
    exact takesTrap_of_write rfl
  · show s.TakesTrap .rdiv x y (exec (.rdiv x y) s) (s.putSingle x ⟨false, 254, 0⟩) 19
    rw [singleForms_exec x y s (.rdiv x y, .div) (by simp [singleForms])]
    dsimp only
    rw [hx, hy, arith_underflow_example (t := s.realControl) hround ht]
    exact takesTrap_of_write rfl

/-! ### Conversions (rules R280, R290 to R293, R300 to R302) -/

section Conversions

variable {s : State} {o : Opcode} {x y : RegNo} {m : RoundMode} {f : Fmt} {b : RealFields} {too : Bool} {n : ℤ}

/-- The end of a conversion whose result may be inexact, for the conversions that can take that trap. -/
theorem deliver_toInt_ends {v : Word} {ix : Bool} {isExact : Prop} (hix : ix = false ↔ isExact) (hroom : s.Room 2) :
    (too = false ∨ s.trapBit 24 = false ∨ isExact →
      deliver o x y (State.put x) (.write v (if too then s.realControl.inexactTrap ix else none)) s =
        .next ((s.setReg x v).after 2)) ∧
    ∀ w, too = true → s.trapBit 24 = true → ¬isExact → s.HasVector (.arithmetic (s.op o) x y 24) w →
      deliver o x y (State.put x) (.write v (if too then s.realControl.inexactTrap ix else none)) s =
        .next ((s.setReg x v).enterAt (.arithmetic (s.op o) x y 24) s.pc w) := by
  constructor
  · intro h
    rw [RealControl.ite_inexactTrap_none (t := s.realControl) (by rwa [hix])]
    exact deliver_write (put := State.put x) rfl hroom
  · intro w htoo ht he hw
    rw [if_pos htoo]
    exact (endsInexact_of_write (put := State.put x) rfl hix).2 ht he w hw

theorem deliver_toInt_in_range (hb : b.cls f = .number) (hn : IntRoundsTo m (b.value f) n) (hroom : s.Room 2)
    (hlow : -2 ^ 31 ≤ n) (hhigh : n ≤ 2 ^ 31 - 1) :
    (too = false ∨ s.trapBit 24 = false ∨ (n : ℚ) = b.value f →
      deliver o x y (State.put x) (s.realControl.toInt f m too b) s =
        .next ((s.setReg x (BitVec.ofInt 32 n)).after 2)) ∧
    ∀ w, too = true → s.trapBit 24 = true → (n : ℚ) ≠ b.value f → s.HasVector (.arithmetic (s.op o) x y 24) w →
      deliver o x y (State.put x) (s.realControl.toInt f m too b) s =
        .next ((s.setReg x (BitVec.ofInt 32 n)).enterAt (.arithmetic (s.op o) x y 24) s.pc w) := by
  obtain ⟨ix, hix, hd⟩ := RealControl.toInt_in_range (t := s.realControl) (too := too) hb hn hlow hhigh
  rw [hd]
  exact deliver_toInt_ends hix hroom

theorem deliver_toInt_out_of_range (hb : b.cls f = .number) (hn : IntRoundsTo m (b.value f) n) (hroom : s.Room 2)
    (hout : n < -2 ^ 31 ∨ 2 ^ 31 - 1 < n) :
    (s.trapBit 18 = false → too = false ∨ s.trapBit 24 = false ∨ (n : ℚ) = b.value f →
      deliver o x y (State.put x) (s.realControl.toInt f m too b) s =
        .next ((s.setReg x (largestInt b.neg)).after 2)) ∧
    (∀ w, s.trapBit 18 = false → too = true → s.trapBit 24 = true → (n : ℚ) ≠ b.value f →
      s.HasVector (.arithmetic (s.op o) x y 24) w →
      deliver o x y (State.put x) (s.realControl.toInt f m too b) s =
        .next ((s.setReg x (largestInt b.neg)).enterAt (.arithmetic (s.op o) x y 24) s.pc w)) ∧
    ∀ w, s.trapBit 18 = true → s.HasVector (.arithmetic (s.op o) x y 18) w →
      deliver o x y (State.put x) (s.realControl.toInt f m too b) s =
        .next ((s.setReg x (largestInt b.neg)).enterAt (.arithmetic (s.op o) x y 18) s.pc w) := by
  obtain ⟨ix, hix, hd⟩ := RealControl.toInt_out_of_range (t := s.realControl) (too := too) hb hn hout
  rw [hd]
  cases ht : s.trapBit 18
  · rw [show s.realControl.overflow = false from ht]
    obtain ⟨hgo, htrap⟩ := deliver_toInt_ends (s := s) (o := o) (x := x) (y := y) (too := too)
      (v := largestInt b.neg) hix hroom
    exact ⟨fun _ => hgo, fun w _ => htrap w, fun w h => Bool.noConfusion h⟩
  · rw [show s.realControl.overflow = true from ht]
    exact ⟨fun h => Bool.noConfusion h, fun w h => Bool.noConfusion h,
      fun w _ hw => deliver_write_trap (put := State.put x) rfl hw⟩

/-- A special operand of a conversion to an integer, with the before trap off. -/
theorem deliver_toInt_special (ht : s.trapBit 25 = false) (hroom : s.Room 2) :
    (b.cls f = .zero ∨ b.cls f = .denormalized →
      deliver o x y (State.put x) (s.realControl.toInt f m too b) s = .next ((s.setReg x 0).after 2)) ∧
    (b.cls f = .infinity ∨ b.cls f = .notANumber →
      deliver o x y (State.put x) (s.realControl.toInt f m too b) s =
        .next ((s.setReg x (largestInt b.neg)).after 2)) := by
  have hoff : ¬s.realControl.before = true := Bool.eq_false_iff.1 ht
  constructor
  · intro h
    obtain ⟨hnum, hrow⟩ := RealClass.row_zeroLike h
    rw [RealControl.toInt_special hnum, if_neg hoff, if_pos hrow]
    exact deliver_write (put := State.put x) rfl hroom
  · intro h
    obtain ⟨hnum, hrow⟩ := RealClass.row_infLike h
    rw [RealControl.toInt_special hnum, if_neg hoff, if_neg hrow]
    exact deliver_write (put := State.put x) rfl hroom

/-- A special operand of MAKERD and MAKEDR, with the before trap off. -/
theorem exec_makerd_special (ht : s.trapBit 25 = false) (hroom : s.Room 2) (hb : b = unpackSingle (s.reg y)) :
    (b.cls single = .zero ∨ b.cls single = .denormalized →
      exec (.makerd x y) s = .next ((s.setPair x (packDouble (zeroReal b.neg))).after 2)) ∧
    (b.cls single = .infinity ∨ b.cls single = .notANumber →
      exec (.makerd x y) s = .next ((s.setPair x (packDouble (infReal double b.neg))).after 2)) := by
  have hoff : ¬s.realControl.before = true := Bool.eq_false_iff.1 ht
  rw [exec_makerd, ← hb]
  constructor
  · intro h
    obtain ⟨hnum, hrow⟩ := RealClass.row_zeroLike h
    rw [RealControl.toDouble_special hnum, if_neg hoff, if_pos hrow]
    exact deliver_write (put := State.putDouble x) rfl hroom
  · intro h
    obtain ⟨hnum, hrow⟩ := RealClass.row_infLike h
    rw [RealControl.toDouble_special hnum, if_neg hoff, if_neg hrow]
    exact deliver_write (put := State.putDouble x) rfl hroom

theorem exec_makedr_special (ht : s.trapBit 25 = false) (hroom : s.Room 2) (hb : b = unpackDouble (s.pair y)) :
    (b.cls double = .zero ∨ b.cls double = .denormalized →
      exec (.makedr x y) s = .next ((s.setReg x (packSingle (zeroReal b.neg))).after 2)) ∧
    (b.cls double = .infinity ∨ b.cls double = .notANumber →
      exec (.makedr x y) s = .next ((s.setReg x (packSingle (infReal single b.neg))).after 2)) := by
  have hoff : ¬s.realControl.before = true := Bool.eq_false_iff.1 ht
  rw [exec_makedr, ← hb]
  constructor
  · intro h
    obtain ⟨hnum, hrow⟩ := RealClass.row_zeroLike h
    rw [RealControl.toSingle_special hnum, if_neg hoff, if_pos hrow]
    exact deliver_write (put := State.putSingle x) rfl hroom
  · intro h
    obtain ⟨hnum, hrow⟩ := RealClass.row_infLike h
    rw [RealControl.toSingle_special hnum, if_neg hoff, if_neg hrow]
    exact deliver_write (put := State.putSingle x) rfl hroom

/-- An integer of 32 bits is a double real exactly (rule R302). -/
theorem ofInt_double {t : RealControl} {w : Word} (hround : t.round = .exact) (hw : w ≠ 0) :
    ∃ v : RealFields, v.Ordinary double ∧ v.value double = (w.toInt : ℚ) ∧ t.ofInt double w.toInt = .write v none := by
  have hne : w.toInt ≠ 0 := fun h => hw (BitVec.eq_of_toInt_eq h)
  have hr := RealControl.roundExact_ofInt (f := double) (t := t) hne
  obtain ⟨hlow, hhigh⟩ := hr.biased_of_word hw
  have hbias : double.bias = 1023 ∧ double.maxExp = 2047 := by decide
  obtain ⟨hrounds, hix⟩ := hr.wrap_in_range double_wide (by omega) (by omega)
  have hexact := hr.inexact_of_int (by
    have habs : |w.toInt| < 2 ^ (double.manBits + 1) := by
      have := BitVec.le_toInt w
      have := BitVec.toInt_lt (x := w)
      rw [abs_lt, show double.manBits = 52 from rfl]
      omega
    exact_mod_cast habs)
  refine ⟨_, hrounds.1, hix.1 hexact, ?_⟩
  rw [RealControl.ofInt_nonzero hne, hround, roundReal, hexact]
  rfl

end Conversions

/-- Settles O28: the conversions to an integer deliver the only correctly rounded one, and the widening ones are
exact. -/
theorem realConversions : Obligations.RealConversions := by
  intro s x y hroom
  refine ⟨fun hy => ?_, fun hy => ?_, fun hnum => ?_, fun i m f b too hf => ?_,
    fun ht => ⟨(exec_makerd_special ht hroom rfl).1, (exec_makerd_special ht hroom rfl).2,
      exec_makedr_special ht hroom rfl⟩⟩
  · rw [exec_float, exec_dfloat, hy]
    exact ⟨deliver_write (put := State.putSingle x) (v := zeroReal false) rfl hroom,
      deliver_write (put := State.putDouble x) (v := zeroReal false) rfl hroom⟩
  · obtain ⟨v, hv, hval, hd⟩ := ofInt_double (t := { s.realControl with round := .exact }) rfl hy
    refine ⟨v, hv, hval, ?_⟩
    rw [exec_dfloat, hd]
    exact deliver_write (put := State.putDouble x) rfl hroom
  · obtain ⟨v, hv, hval, hd⟩ := RealControl.toDouble_number (t := s.realControl) hnum (unpackSingle_ordinary hnum)
    refine ⟨v, hv, hval, ?_⟩
    rw [exec_makerd, hd]
    exact deliver_write (put := State.putDouble x) rfl hroom
  · rw [toIntForms_exec x y s (i, m, f, b, too) hf]
    exact ⟨fun hnum n hn => ⟨deliver_toInt_in_range hnum hn hroom, deliver_toInt_out_of_range hnum hn hroom⟩,
      fun ht => deliver_toInt_special ht hroom⟩

/-! ### The classes of results (rules R277, R297, R306) -/

section Classes

variable {s t : State} {o : Opcode} {x y : RegNo} {d : Delivery RealFields}

theorem cls_of_deliver_single (hd : d.WritesPlain single) (h : deliver o x y (State.putSingle x) d s = .next t) :
    (unpackSingle (t.reg x)).cls single ∈ [RealClass.number, .zero, .infinity] := by
  obtain ⟨v, c, rfl, hexp, hman, hcls⟩ := hd
  rw [reg_of_deliver_write h, State.putSingle, State.reg_setReg_same, unpackSingle_packSingle hexp hman]
  exact hcls

theorem cls_of_deliver_double (hd : d.WritesPlain double) (h : deliver o x y (State.putDouble x) d s = .next t) :
    (unpackDouble (t.pair x)).cls double ∈ [RealClass.number, .zero, .infinity] := by
  obtain ⟨v, c, rfl, hexp, hman, hcls⟩ := hd
  have hpair : t.pair x = (s.putDouble x v).pair x := by
    rw [State.pair, State.pair, reg_of_deliver_write h, reg_of_deliver_write h]
  rw [hpair, State.putDouble, State.pair_setPair_same, unpackDouble_packDouble hexp hman]
  exact hcls

end Classes

theorem mbit_neg_single (w : Word) {k : Nat} (hk : k < 32) :
    mbit (w ^^^ 0x80000000) k = (mbit w k != decide (k = 0)) := by
  have hmask : ∀ k < 32, mbit (0x80000000 : Word) k = decide (k = 0) := by decide
  rw [← hmask k hk]
  exact BitVec.getMsbD_xor

theorem mbit_neg_double (d : DWord) {k : Nat} (hk : k < 64) :
    mbit (d ^^^ 0x8000000000000000) k = (mbit d k != decide (k = 0)) := by
  have hmask : ∀ k < 64, mbit (0x8000000000000000 : DWord) k = decide (k = 0) := by decide
  rw [← hmask k hk]
  exact BitVec.getMsbD_xor

/-- Settles O27: whatever the rounding, a result in range has a full significand, and a result out of range or of
special operands is a zero, an infinity or an operand that is a number. -/
theorem realResultsAreNumbersZerosOrInfinities : Obligations.RealResultsAreNumbersZerosOrInfinities := by
  intro s t x y
  refine ⟨fun hbefore hdiv hover hunder => ⟨fun i hi h => ?_, fun i hi h => ?_⟩, fun hroom => ?_⟩
  · have arith : ∀ op, (s.realControl.arith single op (unpackSingle (s.reg x)) (unpackSingle (s.reg y))).WritesPlain
        single := fun op =>
      RealControl.arith_plain single_wide hbefore hdiv hover hunder unpackSingle_ordinary unpackSingle_ordinary
    simp only [List.mem_cons, List.not_mem_nil, or_false] at hi
    obtain rfl | rfl | rfl | rfl | rfl | rfl := hi
    · exact cls_of_deliver_single (arith .add) h
    · exact cls_of_deliver_single (arith .sub) h
    · exact cls_of_deliver_single (arith .mpy) h
    · exact cls_of_deliver_single (arith .div) h
    · exact cls_of_deliver_single (RealControl.ofInt_plain single_wide (by decide) (by decide) (s.reg y)) h
    · exact cls_of_deliver_single (RealControl.toSingle_plain hbefore hover hunder) h
  · have arith : ∀ op, (s.realControl.arith double op (unpackDouble (s.pair x)) (unpackDouble (s.pair y))).WritesPlain
        double := fun op =>
      RealControl.arith_plain double_wide hbefore hdiv hover hunder unpackDouble_ordinary unpackDouble_ordinary
    simp only [List.mem_cons, List.not_mem_nil, or_false] at hi
    obtain rfl | rfl | rfl | rfl | rfl | rfl := hi
    · exact cls_of_deliver_double (arith .add) h
    · exact cls_of_deliver_double (arith .sub) h
    · exact cls_of_deliver_double (arith .mpy) h
    · exact cls_of_deliver_double (arith .div) h
    · exact cls_of_deliver_double (RealControl.ofInt_plain double_wide (by decide) (by decide) (s.reg y)) h
    · exact cls_of_deliver_double (RealControl.toDouble_plain hbefore unpackSingle_ordinary) h
  · exact ⟨_, _, setAndGo_room hroom x _, setPairAndGo_room hroom x _, fun k => mbit_neg_single _,
      fun k => mbit_neg_double _⟩

end Sys2Proof.Machine
end

