-- ==== Sys2Proof/Proofs/BitTestShift.lean ====
section
/-! SUPPORT. The bit, test, integer compare, shift and sign extend instructions: which bit of the old value each bit of
the result is, and the arithmetic left shift as a product (43_bit_test_compare_shift.md rules R330 to R341, R349 to
R361). -/

namespace Sys2Proof.Machine

/-! ### Bits of a pair (rules R330 to R332) -/

theorem getMsbD_pairBit {n : Nat} (hn : n < 64) (k : Nat) : (pairBit n).getMsbD k = decide (k = n) := by
  rw [pairBit, ← BitVec.twoPow_eq, BitVec.getMsbD_twoPow, decide_eq_true (by omega : 63 - n < 64), Bool.true_and,
    show 64 - (63 - n) - 1 = n by omega]

theorem mbit_clear_pairBit (d : DWord) {n k : Nat} (hn : n < 64) (hk : k < 64) :
    mbit (d &&& ~~~ pairBit n) k = if k = n then false else mbit d k := by
  rw [mbit, BitVec.getMsbD_and, BitVec.getMsbD_not, getMsbD_pairBit hn]
  by_cases h : k = n <;> simp [h, hk]

theorem mbit_set_pairBit (d : DWord) {n : Nat} (hn : n < 64) (k : Nat) :
    mbit (d ||| pairBit n) k = if k = n then true else mbit d k := by
  rw [mbit, BitVec.getMsbD_or, getMsbD_pairBit hn]
  by_cases h : k = n <;> simp [h]

theorem exec_cbit (x y : RegNo) (s : State) :
    exec (.cbit x y) s = setPairAndGo x (s.pair x &&& ~~~ pairBit (s.count64 y)) s := rfl

theorem exec_sbit (x y : RegNo) (s : State) :
    exec (.sbit x y) s = setPairAndGo x (s.pair x ||| pairBit (s.count64 y)) s := rfl

theorem exec_tbit (x y : RegNo) (s : State) :
    exec (.tbit x y) s = setAndGo x (boolWord (mbit (s.pair x) (s.count64 y))) s := rfl

theorem State.count64_lt (s : State) (y : RegNo) : s.count64 y < 64 := Nat.mod_lt _ (by decide)

/-- Settles O31: the bit number is below 64, and the word with that bit alone clears or sets no other. -/
theorem bitInstructions : Obligations.BitInstructions := by
  intro s x y hroom n
  have hn : n < 64 := s.count64_lt y
  exact ⟨⟨_, (exec_cbit x y s).trans (setPairAndGo_room hroom x _), fun k hk => mbit_clear_pairBit (s.pair x) hn hk⟩,
    ⟨_, (exec_sbit x y s).trans (setPairAndGo_room hroom x _), fun k _ => mbit_set_pairBit (s.pair x) hn k⟩,
    (exec_tbit x y s).trans (setAndGo_room hroom x _)⟩

/-! ### Tests (rule R335) -/

theorem testForms_exec (x y : RegNo) (s : State) :
    ∀ f ∈ testForms x y s, exec f.1 s = setAndGo x (boolWord f.2) s := by
  simp only [testForms, List.forall_mem_cons, List.not_mem_nil, IsEmpty.forall_iff, implies_true, and_true]
  and_intros
  all_goals rfl

/-- Settles O32: each opcode writes the truth of its relation and goes on. -/
theorem testInstructions : Obligations.TestInstructions := by
  intro s x y i holds hf hroom
  rw [testForms_exec x y s (i, holds) hf]
  exact setAndGo_room hroom x _

/-! ### Integer compares and sign extension (rules R340, R341, R360, R361) -/

theorem exec_lcomp (x y : RegNo) (s : State) :
    exec (.lcomp x y) s = setAndGo x (compareWord (s.reg x).toNat (s.reg y).toNat) s := rfl

theorem exec_dcomp (x y : RegNo) (s : State) :
    exec (.dcomp x y) s = setAndGo x (compareWord (s.pair x).toInt (s.pair y).toInt) s := rfl

theorem exec_seb (x y : RegNo) (s : State) :
    exec (.seb x y) s = setAndGo x (((s.reg y).extractLsb' 0 8).signExtend 32) s := rfl

theorem exec_seh (x y : RegNo) (s : State) :
    exec (.seh x y) s = setAndGo x (((s.reg y).extractLsb' 0 16).signExtend 32) s := rfl

theorem compareWord_natCast (a b : Nat) :
    compareWord a b = if a < b then 0xFFFFFFFF else if a = b then 0 else 1 := by
  simp only [compareWord, Nat.cast_lt, Nat.cast_inj]

/-- The low j bits of a word, sign extended: the bits above them are copies of their first. -/
theorem mbit_signExtend_low (w : Word) {j k : Nat} (hj : 0 < j) (hj32 : j ≤ 32) (hk : k < 32) :
    mbit ((w.extractLsb' 0 j).signExtend 32) k = mbit w (if k < 32 - j then 32 - j else k) := by
  have hlow : ∀ i < j, (w.extractLsb' 0 j).getMsbD i = w.getMsbD (32 - j + i) := fun i hi => by
    rw [BitVec.getMsbD_extractLsb', decide_eq_true hi, decide_eq_true (by omega), Bool.true_and, Bool.true_and,
      show 32 - (0 + j - i) = 32 - j + i by omega]
  rw [mbit, BitVec.getMsbD_signExtend, decide_eq_true hk, Bool.true_and]
  split_ifs with hcopy hhigh hhigh
  · omega
  · rw [hlow _ (by omega), show 32 - j + (k + j - 32) = k by omega]
  · rw [BitVec.msb_eq_getMsbD_zero, hlow 0 hj, add_zero]
  · omega

/-- Settles O33: the compares are of the exact values, and both extensions are copies of the sign bit. -/
theorem compareAndSignExtend : Obligations.CompareAndSignExtend := by
  intro s x y hroom
  rw [exec_lcomp, exec_dcomp, exec_seb, exec_seh, ← compareWord_natCast]
  exact ⟨setAndGo_room hroom x _, setAndGo_room hroom x _, _, _, setAndGo_room hroom x _, setAndGo_room hroom x _,
    fun k hk => ⟨mbit_signExtend_low (s.reg y) (by decide) (by decide) hk,
      mbit_signExtend_low (s.reg y) (by decide) (by decide) hk⟩⟩

/-! ### Shifts (rules R349 to R352, R354 to R356) -/

theorem mbit_rotateLeft (w : Word) (n : Nat) {k : Nat} (hk : k < 32) : mbit (w.rotateLeft n) k = cslBit w n k := by
  rw [mbit, BitVec.getMsbD_rotateLeft, decide_eq_true hk, Bool.true_and, cslBit, add_comm]

/-- A bit of a value shifted left, 0 beyond the end. -/
theorem mbit_shiftLeft {w : Nat} (v : BitVec w) (n k : Nat) :
    mbit (v <<< n) k = if k + n < w then mbit v (k + n) else false := by
  rw [mbit, BitVec.getMsbD_shiftLeft]
  split_ifs with h
  · rfl
  · exact BitVec.getMsbD_of_ge v _ (not_lt.1 h)

/-- A bit of a value shifted right, 0 beyond the end. -/
theorem mbit_ushiftRight {w : Nat} (v : BitVec w) (n : Nat) {k : Nat} (hk : k < w) :
    mbit (v >>> n) k = if n ≤ k then mbit v (k - n) else false := by
  rw [mbit, BitVec.getMsbD_ushiftRight, decide_eq_true hk, Bool.true_and]
  by_cases h : n ≤ k <;> simp [h]

theorem mbit_sshiftRight (w : Word) (n : Nat) {k : Nat} (hk : k < 32) : mbit (w.sshiftRight n) k = asrBit w n k := by
  rw [mbit, BitVec.getMsbD_sshiftRight, decide_eq_true hk, Bool.true_and, asrBit, BitVec.msb_eq_getMsbD_zero]
  simp only [← not_le, ite_not]

/-- Each single shift writes a word whose bits its form gives. -/
theorem shiftForms_exec (x y : RegNo) (s : State) : ∀ f ∈ shiftForms x y s,
    ∃ v, exec f.1 s = setAndGo x v s ∧ ∀ k, k < 32 → mbit v k = f.2.2 (s.reg x) f.2.1 k := by
  have csl : ∀ n k, k < 32 → mbit ((s.reg x).rotateLeft n) k = cslBit (s.reg x) n k := fun n _ => mbit_rotateLeft _ n
  have lsl : ∀ n k, k < 32 → mbit (s.reg x <<< n) k = lslBit (s.reg x) n k := fun n k _ => mbit_shiftLeft _ n k
  have lsr : ∀ n k, k < 32 → mbit (s.reg x >>> n) k = lsrBit (s.reg x) n k := fun n _ => mbit_ushiftRight _ n
  have asr : ∀ n k, k < 32 → mbit ((s.reg x).sshiftRight n) k = asrBit (s.reg x) n k := fun n _ => mbit_sshiftRight _ n
  simp only [shiftForms, List.forall_mem_cons, List.not_mem_nil, IsEmpty.forall_iff, implies_true, and_true]
  exact ⟨⟨_, rfl, csl _⟩, ⟨_, rfl, csl _⟩, ⟨_, rfl, lsl _⟩, ⟨_, rfl, lsl _⟩, ⟨_, rfl, lsr _⟩, ⟨_, rfl, lsr _⟩,
    ⟨_, rfl, asr _⟩, ⟨_, rfl, asr _⟩⟩

/-- Each double shift writes the pair shifted by its count. -/
theorem doubleShiftForms_exec (x y : RegNo) (s : State) : ∀ f ∈ doubleShiftForms x y s,
    exec f.1 s = setPairAndGo x (if f.2.2 then s.pair x <<< f.2.1 else s.pair x >>> f.2.1) s := by
  simp only [doubleShiftForms, List.forall_mem_cons, List.not_mem_nil, IsEmpty.forall_iff, implies_true, and_true]
  and_intros
  all_goals rfl

/-- Settles O34: each shift writes its result and goes on, and its bits are those of the bit-vector shift. -/
theorem shiftsMoveBits : Obligations.ShiftsMoveBits := by
  intro s x y hroom
  refine ⟨fun i n bit hf => ?_, fun i n left hf => ?_⟩
  · obtain ⟨v, he, hbits⟩ := shiftForms_exec x y s (i, n, bit) hf
    exact ⟨v, he ▸ setAndGo_room hroom x v, hbits⟩
  · refine ⟨_, (doubleShiftForms_exec x y s (i, n, left) hf).trans (setPairAndGo_room hroom x _), fun k hk => ?_⟩
    cases left with
    | true => exact mbit_shiftLeft (s.pair x) n k
    | false => exact mbit_ushiftRight (s.pair x) n hk

/-! ### Arithmetic shift left (rule R353; 92_eei_decisions.md D11) -/

theorem shiftLeft_eq_ofInt_mul (w : Word) (n : Nat) : w <<< n = BitVec.ofInt 32 (w.toInt * 2 ^ n) := by
  have hpow : BitVec.ofInt 32 (2 ^ n : Int) = BitVec.twoPow 32 n := by
    apply BitVec.eq_of_toNat_eq
    rw [BitVec.toNat_ofInt, BitVec.toNat_twoPow]
    norm_cast
  rw [BitVec.ofInt_mul, BitVec.ofInt_toInt, hpow, BitVec.shiftLeft_eq_mul_twoPow]

/-- Bits 0..n of a word are equal exactly when the arithmetic right shift that keeps them leaves 0 or -1. -/
theorem sshiftRight_eq_sign_iff (w : Word) {n : Nat} (hn : n < 32) :
    (w.sshiftRight (31 - n) = if mbit w 0 then BitVec.allOnes 32 else 0) ↔ ∀ k < n, mbit w (k + 1) = mbit w 0 := by
  have hsign : ∀ i < 32, mbit (if mbit w 0 then BitVec.allOnes 32 else 0 : Word) i = mbit w 0 := fun i hi => by
    cases mbit w 0 with
    | true => exact BitVec.getMsbD_allOnes.trans (decide_eq_true hi)
    | false => exact BitVec.getMsbD_zero
  constructor
  · intro h k hk
    have hbit := mbit_sshiftRight w (31 - n) (k := 32 - n + k) (by omega)
    rw [h, hsign _ (by omega), asrBit, if_pos (by omega), show 32 - n + k - (31 - n) = k + 1 by omega] at hbit
    exact hbit.symm
  · intro h
    refine BitVec.eq_of_getMsbD_eq fun i hi => ?_
    rw [← mbit, ← mbit, mbit_sshiftRight w _ hi, hsign i hi, asrBit]
    split_ifs with hle
    · obtain hz | ⟨k, hk⟩ : i - (31 - n) = 0 ∨ ∃ k, i - (31 - n) = k + 1 := by
        cases i - (31 - n) with
        | zero => exact .inl rfl
        | succ k => exact .inr ⟨k, rfl⟩
      · rw [hz]
      · rw [hk]
        exact h k (by omega)
    · rfl

/-- A quotient rounded down is 0 or -1, by the sign of the dividend, exactly when the dividend is smaller than the
divisor. -/
theorem ediv_eq_sign_iff (a : Int) {b : Int} (hb : 0 < b) : (a / b = if a < 0 then -1 else 0) ↔ -b ≤ a ∧ a < b := by
  rw [Int.ediv_eq_iff_of_pos hb]
  split_ifs <;> omega

theorem mul_pow_fits_iff (a : Int) {n : Nat} (hn : n < 32) :
    (-2 ^ 31 ≤ a * 2 ^ n ∧ a * 2 ^ n ≤ 2 ^ 31 - 1) ↔ -2 ^ (31 - n) ≤ a ∧ a < 2 ^ (31 - n) := by
  have hpow : (2 : Int) ^ 31 = 2 ^ (31 - n) * 2 ^ n := by rw [← pow_add, Nat.sub_add_cancel (by omega)]
  have hpos : (0 : Int) < 2 ^ n := by positivity
  rw [Int.le_sub_one_iff, hpow, ← neg_mul, mul_le_mul_iff_left₀ hpos, mul_lt_mul_iff_left₀ hpos]

theorem sshiftRight_eq_sign_iff_toInt (w : Word) (m : Nat) :
    (w.sshiftRight m = if mbit w 0 then BitVec.allOnes 32 else 0) ↔
      w.toInt / 2 ^ m = if w.toInt < 0 then -1 else 0 := by
  rw [← BitVec.toInt_inj, BitVec.toInt_sshiftRight, Int.shiftRight_eq_div_pow, mbit, ← BitVec.msb_eq_getMsbD_zero,
    BitVec.msb_eq_toInt]
  by_cases hneg : w.toInt < 0 <;> simp [hneg]

/-- The overflow condition of ASL as D11 reads it: the product needs more than 32 bits. -/
theorem aslOverflow_eq_not_fits32 (w : Word) {n : Nat} (hn : n < 32) : aslOverflow w n = !fits32 (w.toInt * 2 ^ n) := by
  have hfits : aslOverflow w n = false ↔ fits32 (w.toInt * 2 ^ n) = true := by
    calc aslOverflow w n = false
        ↔ ∀ k < n, mbit w (k + 1) = mbit w 0 := by simp [aslOverflow]
      _ ↔ w.toInt / 2 ^ (31 - n) = if w.toInt < 0 then -1 else 0 := by
        rw [← sshiftRight_eq_sign_iff w hn, sshiftRight_eq_sign_iff_toInt]
      _ ↔ fits32 (w.toInt * 2 ^ n) = true := by
        rw [ediv_eq_sign_iff _ (by positivity), fits32_eq_true, mul_pow_fits_iff _ hn]
  rw [Bool.eq_iff_iff, ← not_iff_not]
  simpa using hfits

/-- An arithmetic left shift delivers an exact product, as MPY does. -/
theorem shiftArithLeft_eq_exactInto (o : Opcode) (x y : RegNo) {n : Nat} (hn : n < 32) (s : State) :
    shiftArithLeft o x y n s = exactInto o x y ((s.reg x).toInt * 2 ^ n) s := by
  rw [shiftArithLeft, exactInto, State.exactResult, shiftLeft_eq_ofInt_mul, aslOverflow_eq_not_fits32 _ hn]

theorem exec_asl (x y : RegNo) (s : State) : exec (.asl x y) s = shiftArithLeft .asl x y (s.count32 y) s := rfl

theorem exec_asli (x y : RegNo) (s : State) : exec (.asli x y) s = shiftArithLeft .asli x y y.toNat s := rfl

/-- Settles O35: both forms deliver the exact product, so they end as the other exact results do. -/
theorem arithmeticShiftMultiplies : Obligations.ArithmeticShiftMultiplies := by
  intro s x y i o n hf r
  have he : exec i s = exactInto o x y r s := by
    simp only [List.mem_cons, Prod.mk.injEq, List.not_mem_nil, or_false] at hf
    obtain ⟨rfl, rfl, rfl⟩ | ⟨rfl, rfl, rfl⟩ := hf
    · exact (exec_asl x y s).trans (shiftArithLeft_eq_exactInto .asl x y (Nat.mod_lt _ (by decide)) s)
    · exact (exec_asli x y s).trans (shiftArithLeft_eq_exactInto .asli x y (by omega) s)
  rw [he]
  refine ⟨fun hq hroom => exactInto_quiet hq hroom o x y, fun v ho hv => ?_⟩
  rw [exactInto_overflow ho]
  exact raise_vector ((State.hasVector_setReg x _).2 hv)

end Sys2Proof.Machine
end

