-- ==== Sys2Proof/Proofs/RealCompare.lean ====
section
/-! SUPPORT. The real compares: the number that orders the patterns of a format determines the value of a finite one,
and grows with it (43_bit_test_compare_shift.md rules R342, R343; 92_eei_decisions.md D44). -/

namespace Sys2Proof.Machine

/-! ### The value that an order key stands for (rule R342) -/

/-- The value at the key `k` of a pattern without its sign: each key below adds one unit of the last place of its
exponent. The keys below `2 ^ f.manBits` but 0, where a denormalized number would be, are no pattern's. -/
def Fmt.keyMagnitude (f : Fmt) : ℕ → ℚ
  | 0 => 0
  | k + 1 => f.keyMagnitude k + 2 ^ ((max 1 (k / 2 ^ f.manBits) : ℕ) - f.bias - f.manBits : ℤ)

theorem Fmt.keyMagnitude_strictMono (f : Fmt) : StrictMono f.keyMagnitude :=
  strictMono_nat_of_lt_succ fun _ => lt_add_of_pos_right _ (by positivity)

/-- Within one exponent the units are the same. -/
theorem Fmt.keyMagnitude_add (f : Fmt) (e : ℕ) {m : ℕ} (hm : m ≤ 2 ^ f.manBits) :
    f.keyMagnitude (e * 2 ^ f.manBits + m) =
      f.keyMagnitude (e * 2 ^ f.manBits) + m * 2 ^ ((max 1 e : ℕ) - f.bias - f.manBits : ℤ) := by
  induction m with
  | zero => simp
  | succ m ih =>
    have hexp : (e * 2 ^ f.manBits + m) / 2 ^ f.manBits = e := by
      rw [Nat.mul_comm, Nat.mul_add_div (Nat.two_pow_pos _), Nat.div_eq_of_lt (by omega), add_zero]
    rw [← add_assoc, keyMagnitude, ih (by omega), hexp]
    push_cast
    ring

theorem Fmt.keyMagnitude_power (f : Fmt) {e : ℕ} (he : 1 ≤ e) :
    f.keyMagnitude (e * 2 ^ f.manBits) = 2 ^ (e - f.bias : ℤ) := by
  induction e, he using Nat.le_induction with
  | base =>
    have h := f.keyMagnitude_add 0 le_rfl
    rw [zero_mul, zero_add, keyMagnitude] at h
    rw [one_mul, h, zpow_sub₀ two_ne_zero ((max 1 0 : ℕ) - f.bias : ℤ) f.manBits, zpow_natCast]
    push_cast
    field_simp
    simp
  | succ e he ih =>
    rw [Nat.succ_mul, f.keyMagnitude_add e le_rfl, ih, max_eq_right he,
      zpow_sub₀ two_ne_zero (e - f.bias : ℤ) f.manBits, zpow_natCast, Nat.cast_succ,
      show (e + 1 - f.bias : ℤ) = e - f.bias + 1 by ring, zpow_add_one₀ two_ne_zero]
    push_cast
    field_simp
    norm_num

/-- The value at an order key, with its sign. -/
def Fmt.keyValue (f : Fmt) (k : ℤ) : ℚ := k.sign * f.keyMagnitude k.natAbs

theorem Fmt.keyValue_neg (f : Fmt) (k : ℤ) : f.keyValue (-k) = -f.keyValue k := by
  simp [Fmt.keyValue]

theorem Fmt.keyValue_natCast (f : Fmt) (k : ℕ) : f.keyValue k = f.keyMagnitude k := by
  rw [keyValue, Int.natAbs_natCast]
  cases k <;> simp [keyMagnitude]

theorem Fmt.keyValue_strictMono (f : Fmt) : StrictMono f.keyValue := by
  refine strictMono_of_odd_strictMonoOn_nonneg f.keyValue_neg fun a ha b hb hab => ?_
  lift a to ℕ using ha
  lift b to ℕ using hb
  rw [keyValue_natCast, keyValue_natCast]
  exact f.keyMagnitude_strictMono (Int.ofNat_lt.1 hab)

/-- Two keys compare as the values they stand for. -/
theorem compareWord_eq_threeWay (f : Fmt) (k l : ℤ) : compareWord k l = threeWay (f.keyValue k) (f.keyValue l) := by
  simp only [compareWord, threeWay, f.keyValue_strictMono.lt_iff_lt, f.keyValue_strictMono.injective.eq_iff]

/-! ### The order keys of patterns -/

/-- The order key of the positive infinity. -/
def Fmt.infinityKey (f : Fmt) : ℤ := (f.maxExp * 2 ^ f.manBits : ℕ)

theorem Fmt.infinityKey_pos {f : Fmt} (hf : f.Wide) : 0 < f.infinityKey := by
  have := hf.bias_lt
  exact Int.natCast_pos.2 (Nat.mul_pos (by omega) (Nat.two_pow_pos _))

/-- An infinity or a NaN. -/
abbrev RealFields.Infinite (f : Fmt) (r : RealFields) : Prop := r.cls f = .infinity ∨ r.cls f = .notANumber

namespace RealFields

variable {f : Fmt} {r : RealFields}

theorem orderKey_of_infinite (h : r.Infinite f) :
    r.orderKey f = if r.neg then -f.infinityKey else f.infinityKey := by
  obtain h | h := h <;> rw [orderKey, h, Fmt.infinityKey]

theorem orderKey_of_number (h : r.cls f = .number) :
    r.orderKey f =
      if r.neg then -((r.exp * 2 ^ f.manBits + r.man : ℕ) : ℤ) else (r.exp * 2 ^ f.manBits + r.man : ℕ) := by
  rw [orderKey, h]

theorem orderKey_of_zeroLike (hinf : ¬r.Infinite f) (h : r.cls f ≠ .number) : r.orderKey f = 0 := by
  cases hc : r.cls f with
  | number => exact absurd hc h
  | zero => simp [orderKey, hc]
  | denormalized => simp [orderKey, hc]
  | infinity => exact absurd (.inl hc) hinf
  | notANumber => exact absurd (.inr hc) hinf

/-- The value of an ordinary number is that of its key. -/
theorem Ordinary.keyMagnitude_eq (h : r.Ordinary f) :
    f.keyMagnitude (r.exp * 2 ^ f.manBits + r.man) =
      (2 ^ f.manBits + r.man) * 2 ^ (r.exp - f.bias - f.manBits : ℤ) := by
  obtain ⟨hexp, -, hman⟩ := h
  rw [f.keyMagnitude_add r.exp hman.le, f.keyMagnitude_power hexp, max_eq_right hexp,
    zpow_sub₀ two_ne_zero (r.exp - f.bias : ℤ) f.manBits, zpow_natCast]
  field_simp

/-- The value of a finite real for a compare is that of its order key. -/
theorem finiteValue_eq_keyValue (hinf : ¬r.Infinite f) (hord : r.cls f = .number → r.Ordinary f) :
    r.finiteValue f = f.keyValue (r.orderKey f) := by
  by_cases h : r.cls f = .number
  · rw [finiteValue, if_pos h, value_eq, mul_assoc, ← (hord h).keyMagnitude_eq, ← f.keyValue_natCast, orderKey_of_number h]
    cases r.neg with
    | true => rw [if_pos rfl, f.keyValue_neg, signFactor_true, neg_one_mul]
    | false => rw [if_neg Bool.false_ne_true, signFactor_false, one_mul]
  · rw [finiteValue, if_neg h, orderKey_of_zeroLike hinf h]
    simp [Fmt.keyValue]

/-- The key of a finite pattern lies between those of the infinities. -/
theorem abs_orderKey_lt (hf : f.Wide) (hinf : ¬r.Infinite f) (hord : r.cls f = .number → r.Ordinary f) :
    |r.orderKey f| < f.infinityKey := by
  by_cases h : r.cls f = .number
  · obtain ⟨-, hexp, hman⟩ := hord h
    have hkey : r.exp * 2 ^ f.manBits + r.man < f.maxExp * 2 ^ f.manBits :=
      calc r.exp * 2 ^ f.manBits + r.man < (r.exp + 1) * 2 ^ f.manBits := by rw [Nat.succ_mul]; omega
        _ ≤ f.maxExp * 2 ^ f.manBits := by gcongr; omega
    have habs : |r.orderKey f| = (r.exp * 2 ^ f.manBits + r.man : ℕ) := by
      rw [orderKey_of_number h]
      split_ifs
      · rw [abs_neg, Nat.abs_cast]
      · rw [Nat.abs_cast]
    rw [habs, Fmt.infinityKey]
    exact Int.ofNat_lt.2 hkey
  · rw [orderKey_of_zeroLike hinf h, abs_zero]
    exact Fmt.infinityKey_pos hf

/-- The key of an infinity lies beyond that of every pattern but the infinities and NaNs of its sign. -/
theorem orderKey_below_infinity (hf : f.Wide) (hord : r.cls f = .number → r.Ordinary f) {n : Bool}
    (hne : ¬(r.Infinite f ∧ n = r.neg)) :
    if n then -f.infinityKey < r.orderKey f else r.orderKey f < f.infinityKey := by
  have hpos := Fmt.infinityKey_pos hf
  by_cases hinf : r.Infinite f
  · have hneg : n = !r.neg := Bool.eq_not_iff.2 fun h => hne ⟨hinf, h⟩
    rw [orderKey_of_infinite hinf, hneg]
    cases r.neg <;> exact neg_lt_self hpos
  · obtain ⟨hlow, hhigh⟩ := abs_lt.1 (abs_orderKey_lt hf hinf hord)
    split_ifs
    · exact hlow
    · exact hhigh

end RealFields

/-! ### The result of a compare (rules R342, R343) -/

theorem compareWord_of_lt {k l : ℤ} (h : k < l) : compareWord k l = 0xFFFFFFFF := if_pos h

theorem compareWord_of_gt {k l : ℤ} (h : l < k) : compareWord k l = 1 := by
  rw [compareWord, if_neg h.not_gt, if_neg h.ne']

theorem compareWord_self (k : ℤ) : compareWord k k = 0 := by
  rw [compareWord, if_neg (lt_irrefl k), if_pos rfl]

section Compare

variable {f : Fmt} {a b : RealFields}

theorem compareWord_finite (ha : ¬a.Infinite f) (hb : ¬b.Infinite f) (hoa : a.cls f = .number → a.Ordinary f)
    (hob : b.cls f = .number → b.Ordinary f) :
    compareWord (a.orderKey f) (b.orderKey f) = threeWay (a.finiteValue f) (b.finiteValue f) := by
  rw [compareWord_eq_threeWay f, RealFields.finiteValue_eq_keyValue ha hoa, RealFields.finiteValue_eq_keyValue hb hob]

theorem compareWord_infinite_left (hf : f.Wide) (ha : a.Infinite f) (hob : b.cls f = .number → b.Ordinary f)
    (hne : ¬(b.Infinite f ∧ a.neg = b.neg)) :
    compareWord (a.orderKey f) (b.orderKey f) = if a.neg then 0xFFFFFFFF else 1 := by
  have h := RealFields.orderKey_below_infinity hf hob hne
  rw [RealFields.orderKey_of_infinite ha]
  cases hn : a.neg with
  | true => exact compareWord_of_lt (by simpa [hn] using h)
  | false => exact compareWord_of_gt (by simpa [hn] using h)

theorem compareWord_infinite_right (hf : f.Wide) (hb : b.Infinite f) (hoa : a.cls f = .number → a.Ordinary f)
    (hne : ¬(a.Infinite f ∧ b.neg = a.neg)) :
    compareWord (a.orderKey f) (b.orderKey f) = if b.neg then 1 else 0xFFFFFFFF := by
  have h := RealFields.orderKey_below_infinity hf hoa hne
  rw [RealFields.orderKey_of_infinite hb]
  cases hn : b.neg with
  | true => exact compareWord_of_gt (by simpa [hn] using h)
  | false => exact compareWord_of_lt (by simpa [hn] using h)

theorem compareWord_infinite_same (ha : a.Infinite f) (hb : b.Infinite f) (hneg : a.neg = b.neg) :
    compareWord (a.orderKey f) (b.orderKey f) = 0 := by
  rw [RealFields.orderKey_of_infinite ha, RealFields.orderKey_of_infinite hb, hneg, compareWord_self]

/-- A compare with no before trap writes the order of the keys. -/
theorem RealControl.compare_write {t : RealControl}
    (h : (a.cls f = .number ∧ b.cls f = .number) ∨ t.before = false) :
    t.compare f a b = .write (compareWord (a.orderKey f) (b.orderKey f)) none := by
  obtain ⟨ha, hb⟩ | h := h
  · exact if_neg (by simp [ha, hb])
  · exact compare_quiet h

end Compare

/-- The two compares: the instruction, the format and the operands. -/
def compareForms (x y : RegNo) (s : State) : List (Instr × Fmt × RealFields × RealFields) :=
  [(Instr.rcomp x y, single, unpackSingle (s.reg x), unpackSingle (s.reg y)),
    (.drcomp x y, double, unpackDouble (s.pair x), unpackDouble (s.pair y))]

theorem compareForms_exec (x y : RegNo) (s : State) : ∀ c ∈ compareForms x y s, exec c.1 s =
    deliver c.1.opcode x y (State.put x) (s.realControl.compare c.2.1 c.2.2.1 c.2.2.2) s := by
  simp only [compareForms, List.forall_mem_cons, List.not_mem_nil, IsEmpty.forall_iff, implies_true, and_true]
  exact ⟨rfl, rfl⟩

/-- The operands of a compare are fields of patterns of a wide format, whose numbers are ordinary. -/
theorem compareForms_operands (x y : RegNo) (s : State) : ∀ c ∈ compareForms x y s, c.2.1.Wide ∧
    (c.2.2.1.cls c.2.1 = .number → c.2.2.1.Ordinary c.2.1) ∧
    (c.2.2.2.cls c.2.1 = .number → c.2.2.2.Ordinary c.2.1) := by
  simp only [compareForms, List.forall_mem_cons, List.not_mem_nil, IsEmpty.forall_iff, implies_true, and_true]
  exact ⟨⟨single_wide, unpackSingle_ordinary, unpackSingle_ordinary⟩,
    double_wide, unpackDouble_ordinary, unpackDouble_ordinary⟩

/-- Settles O30: the compare writes the order of the keys, which is that of the values of two finite operands and puts
an infinity beyond all else. -/
theorem realCompare : Obligations.RealCompare := by
  intro s x y i f a b hc h hroom infinite
  have he : exec i s = .next ((s.setReg x (compareWord (a.orderKey f) (b.orderKey f))).after 2) := by
    rw [compareForms_exec x y s (i, f, a, b) hc, RealControl.compare_write (t := s.realControl) h]
    exact deliver_write rfl hroom
  obtain ⟨hf, hoa, hob⟩ := compareForms_operands x y s (i, f, a, b) hc
  rw [he]
  refine ⟨fun ha hb => ?_, fun ha hne => ?_, fun ha hb hneg => ?_, fun ha hb => ?_⟩
  · rw [compareWord_finite ha hb hoa hob]
  · rw [compareWord_infinite_left hf ha hob hne]
  · rw [compareWord_infinite_same ha hb hneg]
  · rw [compareWord_infinite_right hf hb hoa fun hi => ha hi.1]

end Sys2Proof.Machine
end

