-- ==== Sys2Proof/Proofs/ProgramControl.lean ====
section
/-! SUPPORT. The branch, loop, call, return, check, trap and kernel call instructions: how each family of opcodes runs
through one shared operation, and what that operation answers in each case (44_program_control.md rules R390 to
R403). -/

namespace Sys2Proof.Machine

/-! ### Branches (rules R390 to R394) -/

theorem branchForms_exec (x y : RegNo) (d : BitVec 16) (e : BitVec 32) (s : State) :
    ∀ f ∈ branchForms x y d e s, exec f.i s = branchIf f.taken (s.target f.disp) f.il s := by
  simp only [branchForms, List.forall_mem_cons, List.not_mem_nil, IsEmpty.forall_iff, implies_true, and_true]
  and_intros
  all_goals rfl

/-- Settles O36: every opcode is one conditional transfer, whose target is even when the pc is. -/
theorem branchesGoToTheirTarget : Obligations.BranchesGoToTheirTarget := by
  intro s x y d e f hf
  rw [branchForms_exec x y d e s f hf]
  refine ⟨fun htaken heven => ?_, fun htaken hroom => ?_⟩
  · rw [htaken]
    exact branchIf_taken (State.target_even heven f.disp) f.il
  · rw [htaken]
    exact branchIf_notTaken hroom (s.target f.disp)

/-! ### Loops, calls and returns (rules R395 to R398) -/

section Transfers

variable {s : State} {x y : RegNo} {disp : Word} {il : Nat} {i : Instr} {d : BitVec 16} {e : BitVec 32}

theorem exec_loop_form (h : (i, disp, il) ∈ [(Instr.loop x y d, d.signExtend 32, 4), (.loopl x y e, e, 6)]) :
    exec i s = loopBy x y disp il s := by
  simp only [List.mem_cons, Prod.mk.injEq, List.not_mem_nil, or_false] at h
  obtain ⟨rfl, rfl, rfl⟩ | ⟨rfl, rfl, rfl⟩ := h
  · rfl
  · rfl

theorem exec_call_form (h : (i, disp, il) ∈ [(Instr.call x y d, d.signExtend 32, 4), (.calll x y e, e, 6)]) :
    exec i s = callTo x (s.target disp) il s := by
  simp only [List.mem_cons, Prod.mk.injEq, List.not_mem_nil, or_false] at h
  obtain ⟨rfl, rfl, rfl⟩ | ⟨rfl, rfl, rfl⟩ := h
  · rfl
  · rfl

theorem exec_callr (x y : RegNo) (s : State) : exec (.callr x y) s = callTo x (s.pc + s.reg y) 2 s := rfl

theorem exec_ret (x y : RegNo) (s : State) : exec (.ret x y) s = callTo x (s.reg y) 2 s := rfl

theorem loopBy_negative (hneg : (s.reg x).toInt + y.toNat < 0) (heven : mbit s.pc 31 = false) :
    loopBy x y disp il s =
      .next ((s.setReg x (BitVec.ofInt 32 ((s.reg x).toInt + y.toNat))).goto (s.target disp)) := by
  rw [loopBy, decide_eq_true hneg]
  exact branchIf_taken (State.target_even heven disp) il

theorem loopBy_nonnegative (hnonneg : 0 ≤ (s.reg x).toInt + y.toNat) (hroom : s.Room il) :
    loopBy x y disp il s = .next ((s.setReg x (BitVec.ofInt 32 ((s.reg x).toInt + y.toNat))).after il) := by
  rw [loopBy, decide_eq_false (Int.not_lt.2 hnonneg)]
  exact branchIf_notTaken (s := s.setReg x _) hroom (s.target disp)

theorem callTo_even {t : Word} (h : mbit t 31 = false) :
    callTo x t il s = .next ((s.setReg x (s.pc + BitVec.ofNat 32 il)).goto t) := jump_even h

end Transfers

/-- Settles O37: LOOP is a conditional transfer on the sign of its exact sum, and the others are transfers that leave
the return address behind. -/
theorem loopsCallsAndReturns : Obligations.LoopsCallsAndReturns := by
  intro s x y i disp il d e t
  refine ⟨fun hf => ?_, fun hf heven => ?_, fun heven => ?_, fun heven => ?_⟩
  · rw [exec_loop_form hf]
    exact ⟨loopBy_negative, loopBy_nonnegative⟩
  · rw [exec_call_form hf]
    exact callTo_even (State.target_even heven disp)
  · exact (exec_callr x y s).trans (callTo_even heven)
  · exact (exec_ret x y s).trans (callTo_even heven)

/-! ### Checks and traps (rules R400 to R402) -/

theorem exec_chk (x y : RegNo) (s : State) :
    exec (.chk x y) s = checkRange .chk x y (decide ((s.reg y).toInt < (s.reg x).toInt)) s := rfl

theorem exec_chki (x y : RegNo) (s : State) : exec (.chki x y) s =
    checkRange .chki x y (decide ((s.reg x).toInt < 0) || decide ((y.toNat : Int) < (s.reg x).toInt)) s := rfl

theorem exec_trap (x y : RegNo) (s : State) : exec (.trap x y) s = trapInstruction x y s := rfl

section Checks

variable {s : State} {o : Opcode} {x y : RegNo} {bad : Bool} {v : Word}

theorem checkRange_inside (hbad : bad = false) (hroom : s.Room 2) : checkRange o x y bad s = .next (s.after 2) :=
  checkRange_next.2 (.inr ⟨hbad, hroom, rfl⟩)

theorem checkRange_outside (hbad : bad = true) (hv : s.HasVector (.checkTrap (s.op o) x y) v) :
    checkRange o x y bad s = .next (s.enterAt (.checkTrap (s.op o) x y) s.pc v) :=
  checkRange_next.2 (.inl ⟨hbad, raise_vector hv⟩)

theorem trapInstruction_traps (h : s.mode = .kernel ∨ s.trapBit y.toNat = true)
    (hv : s.HasVector (.arithmetic (s.op .trap) x y y.toNat) v) :
    trapInstruction x y s = .next (s.enterAt (.arithmetic (s.op .trap) x y y.toNat) s.pc v) :=
  (if_pos h).trans (raise_vector hv)

/-- Without a trap the instruction goes on, and whether SR3 receives the number is free (rule R402, log 37). -/
theorem trapInstruction_goes_on (hmode : s.mode = .user) (hbit : s.trapBit y.toNat = false) (hroom : s.Room 2) :
    trapInstruction x y s = .next (s.after 2) ∨
      trapInstruction x y s = .next ((s.setSreg 3 (y.setWidth 32)).after 2) := by
  have hno : ¬(s.mode = .kernel ∨ s.trapBit y.toNat = true) := by simp [hmode, hbit]
  rw [trapInstruction, if_neg hno]
  split
  · exact .inr (advance_room (s := s.setSreg 3 (imm4 y)) hroom)
  · exact .inl (advance_room hroom)

end Checks

/-- Settles O38: CHK and CHKI differ in the range they check, and TRAP n in whether n is enabled. -/
theorem checksAndTraps : Obligations.ChecksAndTraps := by
  intro s x y
  rw [exec_chk, exec_chki, exec_trap]
  refine ⟨fun hle hroom => ?_, fun v hlt hv => ?_, fun h0 hle hroom => ?_, fun v hout hv => ?_, fun v h hv => ?_,
    fun hmode hbit hroom => ?_⟩
  · exact checkRange_inside (decide_eq_false (Int.not_lt.2 hle)) hroom
  · exact checkRange_outside (decide_eq_true hlt) hv
  · exact checkRange_inside (Bool.or_eq_false_iff.2
      ⟨decide_eq_false (Int.not_lt.2 h0), decide_eq_false (Int.not_lt.2 hle)⟩) hroom
  · exact checkRange_outside (by simpa using hout) hv
  · exact trapInstruction_traps h hv
  · rcases trapInstruction_goes_on (x := x) hmode hbit hroom with h | h
    · exact ⟨_, h, .inl rfl⟩
    · exact ⟨_, h, .inr rfl⟩

/-! ### Kernel calls (rules R403, R515) -/

theorem exec_kcall_user {s : State} (h : s.mode = .user) (n : BitVec 8) :
    exec (.kcall n) s = raise (.kernelCall n) s := by
  show execKcall n s = _
  rw [execKcall, h]

theorem exec_kcall_kernel {s : State} (h : s.mode = .kernel) (n : BitVec 8) :
    exec (.kcall n) s = raise (.kernelViolation (s.op .kcall) (n.extractLsb' 4 4) (n.extractLsb' 0 4)) s := by
  show execKcall n s = _
  rw [execKcall, h]

/-- The vector of KCALL n is the word n of the CCB (rule R504). -/
theorem kernelCall_offset (n : BitVec 8) : (Event.kernelCall n).offset = BitVec.ofNat 32 (4 * n.toNat) := by
  refine BitVec.eq_of_toNat_eq ?_
  have h4 : (4 : Word).toNat = 4 := rfl
  simp only [Event.offset, BitVec.toNat_mul, BitVec.toNat_setWidth, BitVec.toNat_ofNat, h4]
  omega

theorem zext_highField (n : BitVec 8) : zext (n.extractLsb' 4 4) = BitVec.ofNat 32 (n.toNat / 16) := by
  refine BitVec.eq_of_toNat_eq ?_
  simp only [zext, BitVec.toNat_setWidth, BitVec.extractLsb'_toNat, BitVec.toNat_ofNat, Nat.shiftRight_eq_div_pow]
  omega

theorem zext_lowField (n : BitVec 8) : zext (n.extractLsb' 0 4) = BitVec.ofNat 32 (n.toNat % 16) := by
  refine BitVec.eq_of_toNat_eq ?_
  simp only [zext, BitVec.toNat_setWidth, BitVec.extractLsb'_toNat, BitVec.toNat_ofNat, Nat.shiftRight_zero]

/-- A kernel violation in kernel mode saves its address in SR0 and changes neither mode nor pause (rules R508, R515). -/
theorem State.enterAt_kernelViolation {s : State} (hmode : s.mode = .kernel) (hpaused : s.paused = false) (op : Byte)
    (x y : RegNo) (ret v : Word) :
    s.enterAt (.kernelViolation op x y) ret v =
      { ((((s.loadLine .data (s.sreg 11 + 0x414).toNat).setSreg 0 ret).setSreg 1 (zext op)).setSreg 2 (zext x)).setSreg 3
          (zext y) with pc := v, prefetch := [] } := by
  obtain ⟨⟩ := s
  cases hmode
  cases hpaused
  rfl

/-- Settles O39: in either mode KCALL takes one event, whose vector the premises give. -/
theorem kernelCalls : Obligations.KernelCalls := by
  intro s n v hccb
  refine ⟨fun hmode hread heven => ?_, fun hmode hpaused hread heven => ?_⟩
  · rw [← kernelCall_offset] at hread ⊢
    rw [exec_kcall_user hmode, raise_vector ⟨hccb, hread, heven⟩]
    rfl
  · have hv : s.HasVector (.kernelViolation (s.op .kcall) (n.extractLsb' 4 4) (n.extractLsb' 0 4)) v :=
      ⟨hccb, hread, heven⟩
    rw [exec_kcall_kernel hmode, raise_vector hv, State.enterAt_kernelViolation hmode hpaused, zext_highField,
      zext_lowField]

end Sys2Proof.Machine
end

