-- ==== Sys2Proof/Proofs/UserIsolation.lean ====
section
/-! SUPPORT. What a step in user mode cannot change: the registers of the kernel always, and without the privileged
process bit the devices too, for every instruction that could change them takes an event or is refused. -/

namespace Sys2Proof.Machine

/-! ### What belongs to the kernel -/

/-- The special registers but SR3, the traps word in effect and the parameters of `u` are those of `s`. -/
structure SameProtected (s u : State) : Prop where
  sregs : SameSregsBut [3] s u
  trapsEff : u.trapsEff = s.trapsEff
  trapsOpen : u.trapsOpen = s.trapsOpen
  cfg : u.cfg = s.cfg

/-- The masks, the clock board's output and the error log of `u` are those of `s`, and so are the boards and the I/O bus
when no DMA events fall within the instruction. -/
structure SameDevices (s u : State) : Prop where
  mask1 : u.mask1 = s.mask1
  mask2 : u.mask2 = s.mask2
  clockOut : u.clockOut = s.clockOut
  logData : u.logData = s.logData
  logCount : u.logCount = s.logCount
  between : u.between = s.between
  boards : s.between = [] → u.boards = s.boards
  transfer : s.between = [] → u.transfer = s.transfer
  busLog : s.between = [] → u.busLog = s.busLog

/-- The privileged process bit of the traps word in effect is off and not open (45_kernel.md rule R430). -/
def State.Unprivileged (s : State) : Prop := mbit s.trapsEff 31 = false ∧ mbit s.trapsOpen 31 = false

/-- What a user program leaves as it was. -/
structure UserFrame (s u : State) : Prop where
  kernel : SameProtected s u
  devices : s.Unprivileged → SameDevices s u

theorem State.Unprivileged.trapBit {s : State} (h : s.Unprivileged) : s.trapBit 31 = false := by
  unfold State.trapBit
  rw [h.2]
  exact h.1

namespace SameProtected

variable {s t u : State}

theorem refl (s : State) : SameProtected s s := ⟨fun _ _ => rfl, rfl, rfl, rfl⟩

theorem trans (h : SameProtected s t) (h2 : SameProtected t u) : SameProtected s u :=
  ⟨fun n hn => (h2.sregs n hn).trans (h.sregs n hn), h2.trapsEff.trans h.trapsEff, h2.trapsOpen.trans h.trapsOpen,
    h2.cfg.trans h.cfg⟩

theorem of_sr (hsr : u.sr = s.sr) (he : u.trapsEff = s.trapsEff) (ho : u.trapsOpen = s.trapsOpen) (hc : u.cfg = s.cfg) :
    SameProtected s u := by
  refine ⟨fun n _ => ?_, he, ho, hc⟩
  unfold State.sreg
  rw [hsr]

theorem storeBytes (s : State) (a : Nat) (bs : List Byte) : SameProtected s (s.storeBytes a bs) :=
  of_sr (State.storeBytes_sr ..) (State.storeBytes_trapsEff ..) (State.storeBytes_trapsOpen ..)
    (State.storeBytes_cfg ..)

theorem dmaAll {ds : List DmaEvent} (h : s.dmaAll ds = .ok t) : SameProtected s t := by
  rw [State.dmaAll_frame h]
  exact of_sr rfl rfl rfl rfl

/-- The work of an instruction changes no register of the kernel. -/
theorem kept (s : State) : Kept (SameProtected s) where
  regs := fun _ _ h => h.trans (of_sr rfl rfl rfl rfl)
  line := fun _ _ _ h => h.trans (of_sr rfl rfl rfl rfl)
  search := fun _ _ _ h => h.trans (of_sr rfl rfl rfl rfl)
  store := fun u a bs _ h => h.trans (storeBytes u a bs)
  tmtEntry := fun _ _ _ _ h => h.trans (of_sr rfl rfl rfl rfl)
  dma := fun _ _ _ hd h => h.trans (dmaAll hd)
  flushCache := fun _ h => h.trans (of_sr rfl rfl rfl rfl)
  flushTmt := fun _ h => h.trans (of_sr rfl rfl rfl rfl)
  boards := fun _ _ _ _ h => h.trans (of_sr rfl rfl rfl rfl)
  devices := fun _ _ _ _ _ h => h.trans (of_sr rfl rfl rfl rfl)
  log := fun _ _ _ _ h => h.trans (of_sr rfl rfl rfl rfl)

theorem tick (h : s.tick = .ok t) : SameProtected s t :=
  State.tick_induct h (refl s) (fun u a => (kept s).line u .data a) fun _ _ v hm => (kept s).storeWord hm v

/-- In user mode the events of the environment change no register of the kernel. -/
theorem input {i : Input} (hm : s.mode = .user) (h : s.input i = .ok t) : SameProtected s t := by
  rcases State.input_cases h with ⟨_, h⟩ | ⟨d, _, h⟩ | ⟨rfl, _⟩ | ⟨l, h⟩ | h | ⟨_, _, _, rfl⟩
  · exact tick h
  · exact dmaAll (State.dmaAll_one h)
  · exact refl _
  · rw [h, State.spoilRegs_low l (.inl hm)]
    exact of_sr rfl rfl rfl rfl
  · rw [h]
    exact of_sr rfl rfl rfl rfl
  · exact of_sr rfl rfl rfl rfl

theorem inputAll {is : List Input} (hm : s.mode = .user) (h : s.inputAll is = .ok t) : SameProtected s t :=
  (State.inputAll_induct (P := fun u => u.mode = .user ∧ SameProtected s u) h ⟨hm, refl s⟩ fun _ _ _ _ hi hu =>
    ⟨(State.input_mode hi).trans hu.1, hu.2.trans (input hu.1 hi)⟩).2

end SameProtected

namespace SameDevices

variable {s t u : State}

theorem trans (h : SameDevices s t) (h2 : SameDevices t u) : SameDevices s u where
  mask1 := h2.mask1.trans h.mask1
  mask2 := h2.mask2.trans h.mask2
  clockOut := h2.clockOut.trans h.clockOut
  logData := h2.logData.trans h.logData
  logCount := h2.logCount.trans h.logCount
  between := h2.between.trans h.between
  boards := fun hb => (h2.boards (h.between.trans hb)).trans (h.boards hb)
  transfer := fun hb => (h2.transfer (h.between.trans hb)).trans (h.transfer hb)
  busLog := fun hb => (h2.busLog (h.between.trans hb)).trans (h.busLog hb)

end SameDevices

namespace UserFrame

variable {s t u : State}

theorem trans (h : UserFrame s t) (h2 : UserFrame t u) : UserFrame s u where
  kernel := h.kernel.trans h2.kernel
  devices := fun hp => (h.devices hp).trans
    (h2.devices ⟨by rw [h.kernel.trapsEff, hp.1], by rw [h.kernel.trapsOpen, hp.2]⟩)

/-- General registers, the pc, memory, the TMT, the cache and the prefetch buffers are a user program's to change, and
an endless search leaves the processor stuck. -/
theorem of_work (s : State) (r : Vector Word 16) (pc : Word) (k : Option Stuck) (m : Memory) (e : List (Nat × Word))
    (c d : Lines) (b : Buffers) :
    UserFrame s { s with regs := r, pc := pc, stuck := k, mem := m, tmt := e, codeLines := c, dataLines := d,
                         prefetch := b } where
  kernel := .of_sr rfl rfl rfl rfl
  devices := fun _ => ⟨rfl, rfl, rfl, rfl, rfl, rfl, fun _ => rfl, fun _ => rfl, fun _ => rfl⟩

theorem refl (s : State) : UserFrame s s := of_work s _ _ _ _ _ _ _ _

theorem setReg (h : UserFrame s u) (x : RegNo) (v : Word) : UserFrame s (u.setReg x v) :=
  h.trans (of_work u _ _ _ _ _ _ _ _)

theorem setPair (h : UserFrame s u) (x : RegNo) (v : DWord) : UserFrame s (u.setPair x v) :=
  h.trans (of_work u _ _ _ _ _ _ _ _)

theorem setSreg3 (h : UserFrame s u) (v : Word) : UserFrame s (u.setSreg 3 v) :=
  h.trans ⟨⟨fun _ hn => State.sreg_setSreg_other u v fun h3 => hn (h3 ▸ List.mem_singleton_self _), rfl, rfl, rfl⟩,
    fun _ => ⟨rfl, rfl, rfl, rfl, rfl, rfl, fun _ => rfl, fun _ => rfl, fun _ => rfl⟩⟩

theorem loadLine (h : UserFrame s u) (v : View) (a : Nat) : UserFrame s (u.loadLine v a) :=
  h.trans (of_work u _ _ _ _ _ _ _ _)

theorem halt (h : UserFrame s u) (k : Stuck) : UserFrame s (u.halt k) := h.trans (of_work u _ _ _ _ _ _ _ _)

theorem of_sameButMemory (h : SameButMemory s u) : UserFrame s u := by
  rw [h]
  exact of_work s _ _ _ _ _ _ _ _

theorem storeBytes (h : UserFrame s u) (a : Nat) (bs : List Byte) : UserFrame s (u.storeBytes a bs) :=
  h.trans (of_sameButMemory (.storeBytes u a bs))

theorem fetchBytes (h : (fetchBytes s).state? = some t) : UserFrame s t := by
  rw [fetchBytes_frame h]
  exact of_work s _ _ _ _ _ _ _ _

theorem pending_none (h : s.pending = .none t) : UserFrame s t := by
  rcases State.pending_none h with rfl | rfl
  · exact refl t
  · exact ((refl s).loadLine _ _).loadLine _ _

/-- The DMA events within the instruction change no register of the kernel and no mask; without any the bus is as it
was. -/
theorem dmaAll_between (h : s.dmaAll s.between = .ok t) : UserFrame s t where
  kernel := .dmaAll h
  devices := fun _ => by
    have none : s.between = [] → t = s := fun hb => by
      rw [hb] at h
      cases h
      rfl
    have hf := State.dmaAll_frame h
    refine ⟨?_, ?_, ?_, ?_, ?_, ?_, fun hb => by rw [none hb], fun hb => by rw [none hb], fun hb => by rw [none hb]⟩
    all_goals rw [hf]

end UserFrame

/-! ### Outcomes in user mode -/

/-- A next state in user mode, if there is one, has the user frame of `s`. -/
def KeepsUserFrame (s : State) (o : Outcome) : Prop := ∀ t, o = .next t → t.mode = .user → UserFrame s t

namespace KeepsUserFrame

variable {s u : State}

theorem raise (s : State) (e : Event) (u : State) : KeepsUserFrame s (Machine.raise e u) := by
  intro t ht hm
  exact absurd ((enter_mode ht).symm.trans hm) (by decide)

theorem advance (h : UserFrame s u) (il : Nat) : KeepsUserFrame s (Machine.advance il u) := by
  intro t ht _
  obtain ⟨_, rfl⟩ := advance_next.1 ht
  exact h.trans (.of_work u _ _ _ _ _ _ _ _)

theorem jump (h : UserFrame s u) (a : Word) : KeepsUserFrame s (Machine.jump a u) := by
  intro t ht _
  obtain ⟨_, rfl⟩ := jump_next.1 ht
  exact h.trans (.of_work u _ _ _ _ _ _ _ _)

theorem setAndGo (s : State) (x : RegNo) (v : Word) : KeepsUserFrame s (Machine.setAndGo x v s) :=
  advance (.setReg (.refl s) x v) 2

theorem setPairAndGo (s : State) (x : RegNo) (v : DWord) : KeepsUserFrame s (Machine.setPairAndGo x v s) :=
  advance (.setPair (.refl s) x v) 2

theorem deliver {α : Type} {put : State → α → State} (hput : ∀ v, UserFrame s (put s v)) (o : Opcode) (x y : RegNo)
    (d : Delivery α) : KeepsUserFrame s (Machine.deliver o x y put d s) := by
  intro t ht
  rcases deliver_next.1 ht with ⟨c, _, h⟩ | ⟨_, h⟩ | ⟨v, _, h⟩ | ⟨v, c, _, h⟩
  · exact raise s _ s t h
  · exact advance (.refl s) 2 t h
  · exact advance (hput v) 2 t h
  · exact raise s _ _ t h

theorem deliverReg (s : State) (o : Opcode) (x y : RegNo) (d : Delivery Word) :
    KeepsUserFrame s (Machine.deliver o x y (State.put x) d s) := deliver (fun v => .setReg (.refl s) x v) o x y d

theorem deliverPair (s : State) (o : Opcode) (x y : RegNo) (d : Delivery DWord) :
    KeepsUserFrame s (Machine.deliver o x y (State.putPair x) d s) := deliver (fun v => .setPair (.refl s) x v) o x y d

theorem deliverSingle (s : State) (o : Opcode) (x y : RegNo) (d : Delivery RealFields) :
    KeepsUserFrame s (Machine.deliver o x y (State.putSingle x) d s) :=
  deliver (fun _ => .setReg (.refl s) x _) o x y d

theorem deliverDouble (s : State) (o : Opcode) (x y : RegNo) (d : Delivery RealFields) :
    KeepsUserFrame s (Machine.deliver o x y (State.putDouble x) d s) :=
  deliver (fun _ => .setPair (.refl s) x _) o x y d

theorem extendedSum (s : State) (x : RegNo) (a b : Word) : KeepsUserFrame s (Machine.extendedSum x a b s) := by
  unfold Machine.extendedSum
  split
  · intro t ht
    cases ht
  · exact advance (.setReg (.setReg (.refl s) _ _) _ _) 2

theorem branchIf (h : UserFrame s u) (c : Bool) (a : Word) (il : Nat) :
    KeepsUserFrame s (Machine.branchIf c a il u) := by
  unfold Machine.branchIf
  split
  · exact jump h a
  · exact advance h il

theorem loopBy (s : State) (x y : RegNo) (d : Word) (il : Nat) : KeepsUserFrame s (Machine.loopBy x y d il s) :=
  branchIf (.setReg (.refl s) _ _) _ _ il

theorem callTo (s : State) (x : RegNo) (a : Word) (il : Nat) : KeepsUserFrame s (Machine.callTo x a il s) :=
  jump (.setReg (.refl s) _ _) a

theorem checkRange (s : State) (o : Opcode) (x y : RegNo) (bad : Bool) :
    KeepsUserFrame s (Machine.checkRange o x y bad s) := by
  unfold Machine.checkRange
  split
  · exact raise s _ s
  · exact advance (.refl s) 2

/-- A TRAP that does not trap writes SR3 at most (rule R402). -/
theorem trapInstruction (s : State) (x y : RegNo) : KeepsUserFrame s (Machine.trapInstruction x y s) := by
  unfold Machine.trapInstruction
  split
  · exact raise s _ s
  · split
    · exact advance (.setSreg3 (.refl s) _) 2
    · exact advance (.refl s) 2

theorem execKcall (s : State) (n : Byte) : KeepsUserFrame s (Machine.execKcall n s) := by
  unfold Machine.execKcall
  split
  all_goals exact raise s _ s

/-- A kernel only instruction takes an event in user mode (45_kernel.md rule R430). -/
theorem kernelOnly (hm : s.mode = .user) (o : Opcode) (x y : RegNo) (k : State → Outcome) :
    KeepsUserFrame s (Machine.kernelOnly o x y s k) := by
  rw [kernelOnly_user hm]
  exact raise s _ s

/-- A privileged instruction that runs in user mode has the privileged process bit on (45_kernel.md rule R430), and then
nothing is said of the devices. -/
theorem privileged (hm : s.mode = .user) {f : State → State} (hf : SameProtected s (f s)) (o : Opcode) (x y : RegNo) :
    KeepsUserFrame s (Machine.privileged o x y s fun s => Machine.advance 2 (f s)) := by
  intro t ht
  rcases privileged_next.1 ht with ⟨hp, ht⟩ | ⟨_, _, ht⟩
  · have hbit : s.trapBit 31 = true := hp.resolve_left (by rw [hm]; decide)
    obtain ⟨_, rfl⟩ := advance_next.1 ht
    exact fun _ => ⟨hf.trans (.of_sr rfl rfl rfl rfl), fun h => absurd (h.trapBit.symm.trans hbit) (by decide)⟩
  · exact raise s _ s t ht

/-! ### Loads and stores in user mode -/

theorem reference {w : Width} {sp : Space} {acc : Access} {ea : Word} {k : Word → State → Outcome}
    (hk : ∀ r u, UserFrame s u → KeepsUserFrame s (k r u)) : KeepsUserFrame s (Machine.reference w sp acc ea s k) := by
  intro t ht
  rcases reference_next.1 ht with ⟨_, h⟩ | ⟨_, e, u, _, h⟩ | ⟨_, c, u, hl, rfl⟩ | ⟨_, r, u, hl, h⟩
  · exact raise s _ s t h
  · exact raise s e u t h
  · exact fun _ => .halt (.of_sameButMemory (State.locate_frame (by rw [hl]; rfl))) c
  · exact hk r u (.of_sameButMemory (State.locate_frame (by rw [hl]; rfl))) t h

theorem loadInto (s : State) (w : Width) (sp : Space) (x : RegNo) (ea : Word) (il : Nat) :
    KeepsUserFrame s (Machine.loadInto w sp x ea il s) :=
  reference fun _ _ hu => advance (.setReg (.loadLine hu _ _) _ _) il

theorem loadPair (s : State) (sp : Space) (x : RegNo) (ea : Word) (il : Nat) :
    KeepsUserFrame s (Machine.loadPair sp x ea il s) := by
  refine reference fun r u hu t ht => ?_
  split at ht
  · cases ht
  · rename_i v u2 hr
    obtain ⟨m, hm, _, rfl⟩ := State.readTwo_ok.1 hr
    have hd : UserFrame s m := (hu.loadLine _ _).trans (.dmaAll_between hm)
    exact advance (.setPair (.loadLine hd _ _) x v) il t ht

theorem storeFrom (s : State) (w : Width) (x : RegNo) (ea : Word) (il : Nat) :
    KeepsUserFrame s (Machine.storeFrom w x ea il s) :=
  reference fun _ _ hu => advance (.storeBytes hu _ _) il

theorem storePair (s : State) (x : RegNo) (ea : Word) (il : Nat) :
    KeepsUserFrame s (Machine.storePair x ea il s) := by
  refine reference fun r u hu t ht => ?_
  split at ht
  · cases ht
  · rename_i u2 hr
    obtain ⟨m, hm, rfl⟩ := State.storeTwo_ok.1 hr
    have hd : UserFrame s m := (hu.storeBytes _ _).trans (.dmaAll_between hm)
    exact advance (.storeBytes hd _ _) il t ht

end KeepsUserFrame

/-! ### Every instruction -/

/-- No instruction in user mode changes what belongs to the kernel, unless it takes an event: a kernel only one takes
it always, a privileged one when the privileged process bit is off. -/
theorem exec_keepsUserFrame (i : Instr) {s : State} (hm : s.mode = .user) : KeepsUserFrame s (exec i s) := by
  have hK := SameProtected.kept s
  have h0 := SameProtected.refl s
  cases i with
  | moverr | not | and | or | xor | rneg | tbit | lcomp | dcomp | csl | lsl | lsr | asr | seb | seh | testGt | testEq
  | testLt | testLe | testGe | testNe | moveri | noti | andi | csli | lsli | lsri | asri | testiGt | testiEq | testiLt
  | testiLe | testiGe | testiNe => exact .setAndGo s _ _
  | empy | drneg | cbit | sbit | dlsl | dlsr | dlsli | dlsri => exact .setPairAndGo s _ _
  | neg | add | sub | mpy | div | rem | addi | subi | mpyi | fixt | fixr | dfixt | dfixr | rcomp | drcomp | asl
  | asli => exact .deliverReg s _ _ _ _
  | ediv => exact .deliverPair s _ _ _ _
  | float | makedr | radd | rsub | rmpy | rdiv => exact .deliverSingle s _ _ _ _
  | makerd | dfloat | dradd | drsub | drmpy | drdiv => exact .deliverDouble s _ _ _ _
  | nop => exact .advance (.refl s) 2
  | eadd | esub => exact .extendedSum s _ _ _
  | br | brl => exact .jump (.refl s) _
  | brGt | brGtL | brEq | brEqL | brLe | brLeL | brNe | brNeL | briGt | briGtL | briLt | briLtL | briEq | briEqL | briLe
  | briLeL | briGe | briGeL | briNe | briNeL => exact .branchIf (.refl s) _ _ _
  | loop | loopl => exact .loopBy s _ _ _ _
  | callr | ret | call | calll => exact .callTo s _ _ _
  | chk | chki => exact .checkRange s _ _ _ _
  | trap => exact .trapInstruction s _ _
  | kcall => exact .execKcall s _
  | load | loadl | loadx | loadlx | loadp | loadpl | loadpx | loadplx | loadh | loadhl | loadhx | loadhlx | loadhp
  | loadhpl | loadhpx | loadhplx | loadb | loadbl | loadbx | loadblx | loadbp | loadbpl | loadbpx | loadbplx =>
    exact .loadInto s _ _ _ _ _
  | loadd | loaddl | loaddx | loaddlx | loaddp | loaddpl | loaddpx | loaddplx => exact .loadPair s _ _ _ _
  | store | storel | storex | storelx | storeh | storehl | storehx | storehlx | storeb | storebl | storebx | storeblx =>
    exact .storeFrom s _ _ _ _
  | stored | storedl | storedx | storedlx => exact .storePair s _ _ _
  | laddr | laddrx | laddrl | laddrlx | laddrp | laddrpx | laddrpl | laddrplx =>
    exact .advance (.setReg (.refl s) _ _) _
  | sus | lus | ldregs | rum | movesr | movers | trans | dirt | trapexit => exact .kernelOnly hm _ _ _ fun _ => _
  | maint => exact .raise s _ s
  | read x y => exact .privileged hm (f := fun s => s.ioRead x (s.reg y)) (hK.ioRead h0 _ _) _ _ _
  | write x y => exact .privileged hm (f := fun s => s.ioWrite x (s.reg y) (s.reg x)) (hK.ioWrite h0 _ _ _) _ _ _
  | elogr x => exact .privileged hm (f := fun s => s.setReg x s.statusWord) (hK.setReg h0 _ _) _ _ _
  | machineid x => exact .privileged hm (f := fun s => s.setReg x s.cfg.machineId) (hK.setReg h0 _ _) _ _ _
  | version x => exact .privileged hm (f := fun s => s.setReg x s.cfg.ucodeVersion) (hK.setReg h0 _ _) _ _ _
  | rdlog x => exact .privileged hm (f := fun s => s.setReg x (s.logWord (s.reg x))) (hK.setReg h0 _ _) _ _ _
  | elogw x => exact .privileged hm (f := fun s => s.writeLog (s.reg x)) (hK.writeLog h0 _) _ _ _
  | twrited x => exact .privileged hm (f := fun s => s.writeMasks (s.reg x)) (hK.writeMasks h0 _) _ _ _
  | flush x => exact .privileged hm (f := State.flushCache) (hK.flushCache _ h0) _ _ _
  | itest x => exact .privileged hm (f := fun s => s.testInterrupt x) (hK.testInterrupt h0 _) _ _ _
  | creg x => exact .privileged hm (f := fun s => s.clockTransfer x) (hK.clockTransfer h0 _) _ _ _

/-! ### The step -/

/-- A step from user mode to user mode: the events of the environment, then what an instruction leaves as it was. -/
theorem step_userFrame {s t : State} (h : step s = .next t) (hs : s.mode = .user) (ht : t.mode = .user) :
    ∃ u, s.nextBoundary.inputAll s.events = .ok u ∧ UserFrame u t := by
  have hne : t.mode ≠ .kernel := by
    rw [ht]
    decide
  rcases step_next h with hb | ⟨u, hb, hc⟩
  · obtain ⟨u, hu, hc⟩ := State.boundary_ends hb
    refine ⟨u, hu, ?_⟩
    rcases hc with ⟨p, _, rfl⟩ | ⟨_, _, rfl⟩ | ⟨_, _, e, u1, _, he⟩ | ⟨_, _, _, hp⟩
    · exact absurd rfl hne
    · exact .refl t
    · exact absurd (enter_mode he) hne
    · exact .pending_none hp
  · obtain ⟨u0, hu0, _, _, hp, _⟩ := State.boundary_run hb
    refine ⟨u0, hu0, (UserFrame.pending_none hp).trans ?_⟩
    have hm : u.mode = .user := (SameControl.pending_none hp).mode.trans ((State.inputAll_mode hu0).trans hs)
    rcases hc with ⟨bs, s2, i, rest, hf, _, hx⟩ | ⟨bs, s2, e, hf, _, hx⟩ | ⟨e, s2, hf, hx⟩ | ⟨k, s2, hf, rfl⟩
    · have hf' : (fetchBytes u).state? = some s2 := by rw [hf]; rfl
      exact (UserFrame.fetchBytes hf').trans
        (exec_keepsUserFrame i ((SameControl.fetchBytes hf').mode.trans hm) t hx ht)
    · exact absurd (enter_mode hx) hne
    · exact absurd (enter_mode hx) hne
    · exact (UserFrame.fetchBytes (by rw [hf]; rfl)).halt k

/-- Settles O58: the events of a boundary reach no register of the kernel in user mode, and no instruction that stays in
user mode does; without events and privilege nothing reaches the devices. -/
theorem userIsolation : Obligations.UserIsolation := by
  intro s t h hs ht
  obtain ⟨u, hu, hf⟩ := step_userFrame h hs ht
  have hn : SameProtected s s.nextBoundary := .of_sr rfl rfl rfl rfl
  have hk : SameProtected s t := (hn.trans (.inputAll hs hu)).trans hf.kernel
  refine ⟨hk.sregs, hk.trapsEff, hk.trapsOpen, hk.cfg, fun hev heff hopen => ?_⟩
  rw [hev] at hu
  cases hu
  have hd := hf.devices ⟨heff, hopen⟩
  exact ⟨hd.mask1, hd.mask2, hd.clockOut, hd.logData, hd.logCount,
    fun hb => ⟨hd.boards hb, hd.transfer hb, hd.busLog hb⟩⟩

end Sys2Proof.Machine
end

