-- ==== Sys2Proof/Proofs/KernelInstructions.lean ====
section
/-! SUPPORT. The kernel only and the privileged instructions: the violation they take, the returns from an event, the
moves of special registers, the maintenance instructions, and TRANS and DIRT (45_kernel.md). -/

namespace Sys2Proof.Machine

/-! ### Privilege (rules R430, R440, R515) -/

/-- Each kernel only instruction asks for kernel mode first, with its opcode and its two fields. -/
theorem kernelOnlyForms_exec (x y : RegNo) (s : State) :
    ∀ i ∈ kernelOnlyForms x y, ∃ k, exec i s = kernelOnly i.opcode x (Instr.secondField i) s k := by
  simp only [kernelOnlyForms, List.forall_mem_cons, List.not_mem_nil, IsEmpty.forall_iff, implies_true, and_true]
  and_intros
  all_goals exact ⟨fun _ => _, rfl⟩

/-- Each privileged instruction asks for the privilege first, with its opcode and its two fields. -/
theorem privilegedForms_exec (x y : RegNo) (s : State) :
    ∀ i ∈ privilegedForms x y, ∃ k, exec i s = privileged i.opcode x (Instr.secondField i) s k := by
  simp only [privilegedForms, List.forall_mem_cons, List.not_mem_nil, IsEmpty.forall_iff, implies_true, and_true]
  and_intros
  all_goals exact ⟨fun _ => _, rfl⟩

/-- Settles O42: an instruction of either list that lacks its privilege raises the kernel violation. -/
theorem kernelViolations : Obligations.KernelViolations := by
  intro s x y i v hm hi hv
  rw [← raise_vector hv]
  rcases hi with hi | ⟨hi, hbit⟩
  · obtain ⟨k, hk⟩ := kernelOnlyForms_exec x y s i hi
    rw [hk, kernelOnly_user hm]
  · obtain ⟨k, hk⟩ := privilegedForms_exec x y s i hi
    rw [hk, privileged_refused hm hbit]

/-- A privileged instruction that is allowed does its work and goes on. -/
theorem privileged_room {s : State} {f : State → State} (h : s.mode = .kernel ∨ s.trapBit 31 = true)
    (hroom : (f s).Room 2) (o : Opcode) (x y : RegNo) :
    privileged o x y s (fun s => advance 2 (f s)) = .next ((f s).after 2) :=
  (privileged_allowed h o x y _).trans (advance_room hroom)

/-! ### Returns from an event (rules R434, R453, R535) -/

section Returns

variable {s : State}

theorem exec_rum_kernel (hm : s.mode = .kernel) (x y : RegNo) : exec (.rum x y) s = resumeUser s :=
  kernelOnly_kernel hm .rum x y resumeUser

theorem exec_trapexit_kernel (hm : s.mode = .kernel) (x : RegNo) : exec (.trapexit x) s = resumeKernel s :=
  kernelOnly_kernel hm .maint x 7 resumeKernel

theorem resumeUser_process (h14 : s.sreg 14 ≠ 1) (heven : mbit (s.sreg 15) 31 = false) :
    resumeUser s = .next { s with mode := .user, pc := s.sreg 15, prefetch := [] } :=
  (if_neg h14).trans (jump_even heven)

theorem resumeUser_idle (h14 : s.sreg 14 = 1) : resumeUser s = .next { s with paused := true } := if_pos h14

theorem resumeKernel_even (heven : mbit (s.sreg 0) 31 = false) :
    resumeKernel s =
      .next { s with pc := s.sreg 0, tmt := [], codeLines := [], dataLines := [], prefetch := [] } := jump_even heven

/-- What an event records of itself goes to SR1, SR2 and SR3. -/
theorem State.sreg_recordEvent (s : State) (e : Event) {k : RegNo} (h1 : k ≠ 1) (h2 : k ≠ 2) (h3 : k ≠ 3) :
    (s.recordEvent e).sreg k = s.sreg k := by
  cases e with
  | pageFault kind _ _ => cases kind <;> simp only [State.recordEvent, State.sreg_setSreg, h1, h2, h3, if_false]
  | _ => simp only [State.recordEvent, State.sreg_setSreg, h1, h2, h3, if_false]

/-- SR0 and SR15 of the entered kernel function are those that hold the saved address. -/
theorem State.sreg_enterAt_savePc (s : State) (e : Event) (ret v : Word) {k : RegNo} (h1 : k ≠ 1) (h2 : k ≠ 2)
    (h3 : k ≠ 3) : (s.enterAt e ret v).sreg k = (s.savePc e ret).sreg k := by
  have hsr : (s.enterAt e ret v).sreg k = ((s.savePc e ret).recordEvent e).sreg k := by
    rw [State.sreg, State.sreg, State.enterAt_sr]
  rw [hsr, State.sreg_recordEvent _ e h1 h2 h3]

/-- An event but a kernel call leaves the saved address of a user program in SR15 (60_exceptions.md rule R505). -/
theorem State.sreg15_enterAt_user {e : Event} (hm : s.mode = .user) (hp : s.paused = false)
    (he : ∀ n, e ≠ .kernelCall n) (ret v : Word) : (s.enterAt e ret v).sreg 15 = ret := by
  rw [State.sreg_enterAt_savePc s e ret v (by decide) (by decide) (by decide)]
  cases e with
  | kernelCall n => exact absurd rfl (he n)
  | _ => simp [State.savePc, hm, hp, State.sreg_setSreg]

/-- An event but a kernel call and an external interrupt leaves the saved address of the kernel in SR0
(60_exceptions.md rules R508, R531). -/
theorem State.sreg0_enterAt_kernel {e : Event} (hm : s.mode = .kernel) (he : ∀ n, e ≠ .kernelCall n)
    (hx : ∀ w, e ≠ .external w) (ret v : Word) : (s.enterAt e ret v).sreg 0 = ret := by
  rw [State.sreg_enterAt_savePc s e ret v (by decide) (by decide) (by decide)]
  cases e with
  | kernelCall n => exact absurd rfl (he n)
  | external w => exact absurd rfl (hx w)
  | _ => simp [State.savePc, hm]

end Returns

/-- Settles O45: RUM goes where SR15 says and TRAPEXIT where SR0 says, and the entry of an event has put the saved
address there. -/
theorem resumeUserAndTrapexit : Obligations.ResumeUserAndTrapexit := by
  intro s x y
  refine ⟨fun hm => ?_, fun e ret v hret he => ⟨fun hm hp h14 => ?_, fun hm hx => ?_⟩⟩
  · rw [exec_rum_kernel hm, exec_trapexit_kernel hm]
    exact ⟨resumeUser_process, resumeUser_idle, resumeKernel_even⟩
  · have h15 := State.sreg15_enterAt_user hm hp he ret v
    have h14' : (s.enterAt e ret v).sreg 14 ≠ 1 := by
      rwa [State.sreg_enterAt (by decide) (by decide) (by decide) (by decide) (by decide)]
    rw [exec_rum_kernel (State.enterAt_mode ..), resumeUser_process h14' (h15.symm ▸ hret)]
    exact ⟨_, rfl, h15, rfl⟩
  · have h0 := State.sreg0_enterAt_kernel hm he hx ret v
    rw [exec_trapexit_kernel (State.enterAt_mode ..), resumeKernel_even (h0.symm ▸ hret)]
    exact ⟨_, rfl, h0, rfl⟩

/-! ### Moves of special registers (rules R435, R436) -/

section Moves

variable {s : State}

theorem exec_movers_kernel (hm : s.mode = .kernel) (hroom : s.Room 2) (x y : RegNo) :
    exec (.movers x y) s = .next ((s.setReg x (s.sreg y)).after 2) :=
  (kernelOnly_kernel hm .movers x y fun s => advance 2 (s.setReg x (s.sreg y))).trans
    (advance_room (s := s.setReg x (s.sreg y)) hroom)

theorem exec_movesr_kernel (hm : s.mode = .kernel) (hroom : s.Room 2) (x y : RegNo) :
    exec (.movesr x y) s = .next ((s.moveToSreg x (s.reg y)).after 2) := by
  refine (kernelOnly_kernel hm .movesr x y fun s => advance 2 (s.moveToSreg x (s.reg y))).trans (advance_room ?_)
  rwa [State.Room, State.moveToSreg_pc]

theorem State.moveToSreg_other {n : RegNo} (hn : n ≠ 10) (v : Word) : s.moveToSreg n v = s.setSreg n v := if_neg hn

/-- A bit of the traps word is open after a MOVE to SR10 if it was or if the MOVE changes it (10_state.md rule R52). -/
theorem mbit_or_xor (a b c : Word) (k : Nat) :
    mbit (a ||| (b ^^^ c)) k = (mbit a k || (mbit b k != mbit c k)) := by
  simp [mbit]

end Moves

/-- Settles O46: each MOVE writes its one register, and SR10 besides opens the bits that it changes. -/
theorem moveSpecialRegisters : Obligations.MoveSpecialRegisters := by
  intro s x y hm hroom
  refine ⟨exec_movers_kernel hm hroom x y, fun hx => ?_, ?_⟩
  · rw [exec_movesr_kernel hm hroom, State.moveToSreg_other hx]
  · rw [exec_movesr_kernel hm hroom]
    exact ⟨_, rfl, rfl, fun k _ => mbit_or_xor s.trapsOpen s.trapsEff (s.reg y) k⟩

/-! ### TRANS and DIRT (rules R460, R461) -/

section Translate

variable {s : State} {x y : RegNo} {bits : Word}

theorem exec_trans_kernel (hm : s.mode = .kernel) : exec (.trans x y) s = translateInto x y bitR s :=
  kernelOnly_kernel hm .trans x y _

theorem exec_dirt_kernel (hm : s.mode = .kernel) : exec (.dirt x y) s = translateInto x y (bitR ||| bitD) s :=
  kernelOnly_kernel hm .dirt x y _

/-- With no entry at the end of the chain the result is -1, and the search has filled data lines alone. -/
theorem translateInto_absent (hroom : s.Room 2)
    (h : s.vrtSearch ((s.reg y).extractLsb' 0 16) (s.reg (y + 1)) = .absent) :
    translateInto x y bits s = .next { (s.setReg x 0xFFFFFFFF).after 2 with
      dataLines := (s.searched ((s.reg y).extractLsb' 0 16) (s.reg (y + 1))).dataLines } :=
  translateInto_next.2 (.inl ⟨h, advance_room (s := (s.searched _ _).setReg x _) hroom⟩)

/-- A matching entry at `q` gives the real address, and its TMT Word in memory the bits. -/
theorem translateInto_found {q w : Word} (hroom : s.Room 2)
    (h : s.vrtSearch ((s.reg y).extractLsb' 0 16) (s.reg (y + 1)) = .found q w) :
    translateInto x y bits s = .next ((((s.searched ((s.reg y).extractLsb' 0 16) (s.reg (y + 1))).markEntry q w
      bits).setReg x (physAddr w (s.reg (y + 1)))).after 2) := by
  refine translateInto_next.2 (.inr (.inr ⟨q, w, h, advance_room ?_⟩))
  rwa [State.Room, State.setReg_pc, State.markEntry_pc, State.searched_pc]

/-- Bits set in the VRT entry at `q` after a search: the TMT Word, every other byte, and the rest of the state. -/
theorem State.markEntry_stored (s : State) (seg : Half) (a q w bits : Word) :
    ((s.searched seg a).markEntry q w bits).mainWord (q + 8).toNat = w ||| bits ∧
    (∀ b, b < (q + 8).toNat ∨ (q + 8).toNat + 4 ≤ b →
      ((s.searched seg a).markEntry q w bits).mainByte b = s.mainByte b) ∧
    (s.searched seg a).markEntry q w bits = { s with
      mem := ((s.searched seg a).markEntry q w bits).mem
      dataLines := ((s.searched seg a).markEntry q w bits).dataLines } := by
  refine ⟨State.mainWord_storeBytes_same _ _ _, fun b hb => ?_, ?_⟩
  · refine (State.mainByte_storeBytes_other _ _ _ ?_).trans (State.mainByte_searched ..)
    rwa [bytesOfWord_length]
  · have hf : SameButMemory s ((s.searched seg a).markEntry q w bits) :=
      (SameButMemory.searched s seg a).trans (.storeBytes _ _ _)
    rw [SameButMemory, State.markEntry_tmt] at hf
    exact hf

end Translate

/-- Settles O49: the search finds the entry to which the chain leads, or its end, and the found entry is marked with
the bits of the instruction. -/
theorem transAndDirt : Obligations.TransAndDirt := by
  intro s x y p hm hroom seg a hp
  refine ⟨fun hend => ?_, fun q w i bits hlead hw hi => ?_⟩
  · have habs := (State.vrtSearch_eq_absent hp).2 hend
    rw [exec_trans_kernel hm, exec_dirt_kernel hm]
    exact ⟨_, translateInto_absent hroom habs, translateInto_absent hroom habs⟩
  · have hfound := (State.vrtSearch_eq_found hp).2 ⟨hlead, hw⟩
    have hx : exec i s = translateInto x y bits s := by
      simp only [List.mem_cons, Prod.mk.injEq, List.not_mem_nil, or_false] at hi
      obtain ⟨rfl, rfl⟩ | ⟨rfl, rfl⟩ := hi
      · exact exec_trans_kernel hm
      · exact exec_dirt_kernel hm
    obtain ⟨hword, hbytes, hframe⟩ := s.markEntry_stored seg a q w bits
    rw [hx, translateInto_found hroom hfound]
    refine ⟨_, rfl, ?_, fun n hn => ?_, hword, hbytes, ?_⟩
    · rw [State.reg_after, State.reg_setReg_same]
      exact physAddr_toNat w a
    · rw [State.reg_after, State.reg_setReg_other _ _ (fun e => hn (List.mem_singleton.2 e)), State.reg_markEntry]
      rfl
    · rw [hframe]
      rfl

end Sys2Proof.Machine
end

