-- ==== Sys2Proof/Proofs/Maintenance.lean ====
section
/-! SUPPORT. The maintenance instructions (45_kernel.md rules R449 to R458): the words they read, the log, the masks and
the cache they write, and the board that ITEST acknowledges. -/

namespace Sys2Proof.Machine

/-! ### Maintenance reads (rules R449, R455 to R458) -/

theorem mbit_or (v w : Word) (k : Nat) : mbit (v ||| w) k = (mbit v k || mbit w k) := BitVec.getMsbD_or

theorem mbit_masked (v : Word) {m : Word} {k : Nat} (h : mbit m k = false) : mbit (v &&& m) k = false := by
  rw [mbit] at h
  rw [mbit, BitVec.getMsbD_and, h, Bool.and_false]

theorem mbit_wordBit {i : Nat} (hi : i < 32) (k : Nat) (b : Bool) :
    mbit (wordBit i b) k = (decide (k = i) && b) := by
  cases b with
  | false => simp [wordBit, mbit]
  | true =>
    rw [Bool.and_true, wordBit, if_pos rfl, mbit, BitVec.getMsbD_shiftLeft, BitVec.getMsbD_one]
    rw [show decide (0 < 32) = true from rfl, Bool.and_true, decide_eq_decide]
    omega

/-- Bits 16 to 30 of the status word are stated, and bit 23 alone is not 0 (rule R449). -/
theorem mbit_statusWord (s : State) {k : Nat} (h16 : 16 ≤ k) (h30 : k ≤ 30) :
    mbit s.statusWord k = (decide (k = 23) && s.powerFail) := by
  have hmask : ∀ k ≤ 30, 16 ≤ k → mbit (0xFFFF0001 : Word) k = false := by decide
  have hopen := mbit_masked (Config.freeWord s.draws .status) (hmask k h30 h16)
  rw [State.statusWord, mbit_or, hopen, Bool.false_or, mbit_wordBit (by decide)]

/-- Bits 30 and 31 of what CREG reads are the clock board's input (rule R457). -/
theorem mbit_clockWord (s : State) :
    mbit s.clockWord 31 = s.clockIn.acknowledge ∧ mbit s.clockWord 30 = s.clockIn.dataIn := by
  constructor
  all_goals
    rw [State.clockWord, mbit_or, mbit_or, mbit_masked _ (by decide), mbit_wordBit (by decide),
      mbit_wordBit (by decide)]
    simp

theorem State.logWord_count {s : State} {v : Word} (h : mbit v 0 = true) :
    s.logWord v = BitVec.ofNat 32 s.logCount := if_pos h

theorem State.logWord_entry {s : State} {v : Word} {k : Fin 16} (h : mbit v 0 = false) (hk : v.toNat % 16 = k.val) :
    s.logWord v = s.logData[k] := by
  have hi : (v.extractLsb' 0 4).toNat = k.val := by
    rw [BitVec.extractLsb'_toNat, Nat.shiftRight_zero]
    exact hk
  rw [State.logWord, h]
  simp [hi]

/-- Settles O47: each of the instructions writes its word to its register, and the bits of the two words with open bits
are those of their parts. -/
theorem maintenanceReads : Obligations.MaintenanceReads := by
  intro s x hp hroom
  have reads : ∀ (f : State → Word) (o : Opcode) (y k : RegNo),
      privileged o x y s (fun s => advance 2 (s.setReg k (f s))) = .next ((s.setReg k (f s)).after 2) :=
    fun f o y k => privileged_room (f := fun s => s.setReg k (f s)) hp hroom o x y
  refine ⟨⟨_, reads State.statusWord .maint 0 x, fun k => mbit_statusWord s⟩,
    reads (fun s => s.cfg.machineId) .maint 10 x, reads (fun s => s.cfg.ucodeVersion) .maint 11 x, fun h0 => ?_,
    fun k h0 hk => ?_, _, privileged_room (f := fun s => s.clockTransfer x) hp hroom .maint x 12, mbit_clockWord s⟩
  · rw [← State.logWord_count h0]
    exact reads (fun s => s.logWord (s.reg x)) .maint 13 x
  · rw [← State.logWord_entry h0 hk]
    exact reads (fun s => s.logWord (s.reg x)) .maint 13 x

/-! ### Maintenance controls (rules R450 to R452) -/

section Controls

variable {s : State} {v : Word}

/-- Whatever ELOGW leaves open, there are at most 16 valid entries (10_state.md rule R65). -/
theorem State.writeLog_logCount_le (s : State) (v : Word) : (s.writeLog v).logCount ≤ 16 := by
  have hfree : s.freeCount < 17 := Nat.mod_lt _ (by decide)
  unfold State.writeLog
  dsimp only
  split
  · exact Nat.zero_le 16
  · omega

theorem State.writeLog_empty (h : mbit v 31 = true) : (s.writeLog v).logCount = 0 := if_pos h

/-- Bit k of a field of a word is the bit of the word that many places from the field's first. -/
theorem mbit_field (v : Word) {lo n k : Nat} (hn : lo + n ≤ 32) (hk : k < n) :
    mbit (v.extractLsb' lo n) k = mbit v (32 - (lo + n) + k) := by
  rw [mbit, BitVec.getMsbD_extractLsb', decide_eq_true hk, decide_eq_true (by omega : lo + n - k ≤ 32), Bool.true_and,
    Bool.true_and]
  congr 1
  omega

/-- TWRITED is on when bits 28 and 29 are set (rule R451). -/
theorem maskEnable_iff : v.extractLsb' 2 2 = 3 ↔ mbit v 28 = true ∧ mbit v 29 = true := by
  have h28 : mbit (v.extractLsb' 2 2) 0 = mbit v 28 := mbit_field v (by decide) (by decide)
  have h29 : mbit (v.extractLsb' 2 2) 1 = mbit v 29 := mbit_field v (by decide) (by decide)
  rw [← h28, ← h29]
  generalize v.extractLsb' 2 2 = f
  revert f
  decide

theorem State.writeMasks_on (h : mbit v 28 = true ∧ mbit v 29 = true) :
    s.writeMasks v = { s with
      mask1 := maskField (v.extractLsb' 6 2) (mbit (Config.freeWord s.draws .mask1) 31)
      mask2 := maskField (v.extractLsb' 4 2) (mbit (Config.freeWord s.draws .mask2) 31) } := if_pos (maskEnable_iff.2 h)

theorem State.writeMasks_off (h : ¬(mbit v 28 = true ∧ mbit v 29 = true)) : s.writeMasks v = s :=
  if_neg (mt maskEnable_iff.1 h)

/-- TWRITED changes the masks at most. -/
theorem State.writeMasks_frame (s : State) (v : Word) :
    s.writeMasks v = { s with mask1 := (s.writeMasks v).mask1, mask2 := (s.writeMasks v).mask2 } := by
  by_cases h : mbit v 28 = true ∧ mbit v 29 = true
  · rw [State.writeMasks_on h]
  · rw [State.writeMasks_off h]

/-- A field of 01 or 00 sets or resets the mask (rule R451). -/
theorem maskField_stated {f : BitVec 2} (h : mbit f 0 = false) (free : Bool) : maskField f free = mbit f 1 := by
  have h0 : f.getMsbD 0 = false := h
  rw [maskField, h0]

theorem State.writeMasks_mask1_stated (hon : mbit v 28 = true ∧ mbit v 29 = true) (h : mbit v 24 = false) :
    (s.writeMasks v).mask1 = mbit v 25 := by
  have h24 : mbit (v.extractLsb' 6 2) 0 = mbit v 24 := mbit_field v (by decide) (by decide)
  rw [State.writeMasks_on hon]
  exact (maskField_stated (h24.trans h) _).trans (mbit_field v (by decide) (by decide))

theorem State.writeMasks_mask2_stated (hon : mbit v 28 = true ∧ mbit v 29 = true) (h : mbit v 26 = false) :
    (s.writeMasks v).mask2 = mbit v 27 := by
  have h26 : mbit (v.extractLsb' 4 2) 0 = mbit v 26 := mbit_field v (by decide) (by decide)
  rw [State.writeMasks_on hon]
  exact (maskField_stated (h26.trans h) _).trans (mbit_field v (by decide) (by decide))

end Controls

/-! ### Boards -/

/-- The first element that satisfies the predicate is the one that changes. -/
theorem updateFirst_append {α : Type} {p : α → Bool} {f : α → α} {l1 : List α} {a : α} (l2 : List α)
    (h1 : ∀ c ∈ l1, p c = false) (ha : p a = true) : updateFirst p f (l1 ++ a :: l2) = l1 ++ f a :: l2 := by
  induction l1 with
  | nil => exact if_pos ha
  | cons c l1 ih =>
    have hc : p c = false := h1 c (List.mem_cons_self ..)
    rw [List.cons_append, updateFirst, hc, if_neg Bool.false_ne_true, ih fun d hd => h1 d (List.mem_cons_of_mem c hd)]
    rfl

/-- A board changed by its contents is the first that is equal to it. -/
theorem updateFirst_board {b : Board} (f : Board → Board) {l1 : List Board} (l2 : List Board) (h : b ∉ l1) :
    updateFirst (fun c => c == b) f (l1 ++ b :: l2) = l1 ++ f b :: l2 :=
  updateFirst_append l2 (fun _ hc => beq_false_of_ne fun e => h (e ▸ hc)) (beq_self_eq_true b)

section Interrupts

variable {s : State} {b : Board} {x : RegNo}

/-- A deliverable request is a board's (60_exceptions.md rule R525). -/
theorem State.deliverable_mem (h : s.deliverable = some b) : b ∈ s.boards := by
  unfold State.deliverable at h
  split at h
  · cases h
  · split at h
    · rename_i hb
      cases h
      exact List.mem_of_find?_eq_some hb
    · split at h
      · cases h
      · exact List.mem_of_find?_eq_some h

theorem State.testInterrupt_none (h : s.deliverable = none) : s.testInterrupt x = s.setReg x 1 := by
  rw [State.testInterrupt, h]

theorem State.testInterrupt_some (h : s.deliverable = some b) :
    s.testInterrupt x = ((s.ackIoi b).setReg (x + 1) b.ioir).setReg x 0 := by
  rw [State.testInterrupt, h]

end Interrupts

/-! ### The four instructions -/

section Completion

variable {s : State}

theorem exec_elogw (hp : s.mode = .kernel ∨ s.trapBit 31 = true) (hroom : s.Room 2) (x : RegNo) :
    exec (.elogw x) s = .next ((s.writeLog (s.reg x)).after 2) :=
  privileged_room (f := fun s => s.writeLog (s.reg x)) hp hroom .maint x 1

theorem exec_twrited (hp : s.mode = .kernel ∨ s.trapBit 31 = true) (hroom : s.Room 2) (x : RegNo) :
    exec (.twrited x) s = .next ((s.writeMasks (s.reg x)).after 2) :=
  privileged_room (f := fun s => s.writeMasks (s.reg x)) hp (by rwa [State.Room, State.writeMasks_pc]) .maint x 5

theorem exec_flush (hp : s.mode = .kernel ∨ s.trapBit 31 = true) (hroom : s.Room 2) (x : RegNo) :
    exec (.flush x) s = .next (s.flushCache.after 2) := privileged_room (f := State.flushCache) hp hroom .maint x 6

theorem exec_itest (hp : s.mode = .kernel ∨ s.trapBit 31 = true) (hroom : s.Room 2) (x : RegNo) :
    exec (.itest x) s = .next ((s.testInterrupt x).after 2) :=
  privileged_room (f := fun s => s.testInterrupt x) hp (by rwa [State.Room, State.testInterrupt_pc]) .maint x 8

end Completion

/-- Settles O48: each of the instructions writes what it controls and goes on, and the board of the deliverable request
is the first that is equal to it. -/
theorem maintenanceControls : Obligations.MaintenanceControls := by
  intro s x hp hroom
  rw [exec_elogw hp hroom, exec_twrited hp hroom, exec_flush hp hroom, exec_itest hp hroom]
  refine ⟨⟨_, rfl, rfl, s.writeLog_logCount_le (s.reg x), State.writeLog_empty⟩,
    ⟨_, rfl, ?_, fun hoff => ?_, State.writeMasks_mask1_stated, State.writeMasks_mask2_stated⟩,
    ⟨_, rfl, rfl, fun _ => rfl⟩, fun hnone => ?_, fun b hb => ?_⟩
  · rw [State.writeMasks_frame]
    rfl
  · rw [State.writeMasks_off hoff]
    exact ⟨rfl, rfl⟩
  · rw [State.testInterrupt_none hnone]
  · obtain ⟨l1, l2, hl, hnot⟩ := List.eq_append_cons_of_mem (State.deliverable_mem hb)
    have hboards : (s.ackIoi b).boards = l1 ++ { b with requesting := false } :: l2 := by
      rw [State.ackIoi, hl, updateFirst_board Board.dropRequest l2 hnot]
      rfl
    rw [State.testInterrupt_some hb]
    refine ⟨_, rfl, State.reg_setReg_same .., ?_, fun n hn => ?_, ⟨l1, l2, hl, hnot, hboards⟩, rfl⟩
    · rw [State.reg_after, State.reg_setReg_other _ _ (regNo_succ_ne x), State.reg_setReg_same]
      rfl
    · obtain ⟨hx, hx1⟩ : n ≠ x ∧ n ≠ x + 1 := by simpa using hn
      rw [State.reg_after, State.reg_setReg_other _ _ hx, State.reg_setReg_other _ _ hx1]
      rfl

end Sys2Proof.Machine
end

