-- ==== Sys2Proof/Proofs/InputOutput.lean ====
section
/-! SUPPORT. READ and WRITE on the I/O bus and DMA transfers on the same bus: what a board answers, which board gets the
bus, and what one word of a transfer does (45_kernel.md rules R469 to R471; 60_exceptions.md rules R540 to R544). -/

namespace Sys2Proof.Machine

/-- The first element that satisfies a predicate, by its place. -/
theorem find?_of_append {α : Type} {p : α → Bool} {l l1 l2 : List α} {a : α} (hl : l = l1 ++ a :: l2)
    (ha : p a = true) (h1 : ∀ c ∈ l1, p c = false) : l.find? p = some a :=
  List.find?_eq_some_iff_append.2 ⟨ha, l1, l2, hl, fun c hc => by rw [h1 c hc]; rfl⟩

/-! ### I/O transactions (rules R469 to R471, R541, R542) -/

section Transactions

variable {s : State} {x y : RegNo} {a d : Word} {b : Board} {l1 l2 : List Board} {r : Answer} {rs : List Answer}

/-- The status of a transaction that no board takes is T, bit 30 (rule R469). -/
theorem State.ioStatus_timeout (s : State) : s.ioStatus true false = 2 := by
  show wordBit 30 true ||| 0 = 2
  decide

/-- The status of a board's answer is N or 0 (rule R469; 92_eei_decisions.md D29). -/
theorem State.ioStatus_answered (s : State) (n : Bool) :
    s.ioStatus false n = if n then BitVec.ofNat 32 (2 ^ (31 - s.cfg.ioNBit.toNat)) else 0 := by
  have h30 : wordBit 30 false = 0#32 := rfl
  rw [State.ioStatus, h30, BitVec.zero_or]
  cases n with
  | false => rfl
  | true =>
    refine BitVec.eq_of_toNat_eq ?_
    simp [wordBit, Nat.shiftLeft_eq]

/-- A device number that no board has times out. -/
theorem State.ioCycle_none {dev : Byte} (h : ∀ b ∈ s.boards, b.device ≠ dev) : s.ioCycle dev = (none, s) := by
  have hfind : (s.boards.find? fun b => b.device == dev) = none :=
    List.find?_eq_none.2 fun b hb => by simpa using h b hb
  rw [State.ioCycle, hfind]

/-- The first board of the device number answers, and its answer is used up. -/
theorem State.ioCycle_board {dev : Byte} (hl : s.boards = l1 ++ b :: l2) (h1 : ∀ c ∈ l1, c.device ≠ dev)
    (hb : b.device = dev) :
    s.ioCycle dev = (some (s.boardAnswer b), { s with boards := l1 ++ b.answered :: l2 }) := by
  have hfirst : ∀ c ∈ l1, (c.device == dev) = false := fun c hc => beq_false_of_ne (h1 c hc)
  have hfind : (s.boards.find? fun b => b.device == dev) = some b := find?_of_append hl (beq_iff_eq.2 hb) hfirst
  rw [State.ioCycle, hfind]
  dsimp only
  rw [hl, updateFirst_append l2 hfirst (beq_iff_eq.2 hb)]

theorem State.boardAnswer_notReady (s : State) (h : b.answers = r :: rs) :
    (s.boardAnswer b).notReady = r.notReady := by
  rw [State.boardAnswer, h]
  dsimp only
  split
  · rename_i hr
    exact hr.symm
  · rfl

/-- A ready board delivers the data word of its answer (rule R470). -/
theorem State.boardAnswer_data (s : State) (h : b.answers = r :: rs) (hr : r.notReady = false) :
    (s.boardAnswer b).data = r.data := by
  rw [State.boardAnswer, h]
  dsimp only
  rw [hr, if_neg Bool.false_ne_true]

theorem Board.answered_cons (h : b.answers = r :: rs) : b.answered = { b with answers := rs } := by
  rw [Board.answered, h]
  rfl

/-- READ when no board takes it. -/
theorem State.ioRead_none (h : ∀ b ∈ s.boards, b.device ≠ a.extractLsb' 24 8) :
    s.ioRead x a = ((s.logBus (.ioRead a)).setReg x 2).setReg (x + 1) (Config.freeWord s.draws .ioData) := by
  rw [State.ioRead, State.ioCycle_none h]
  dsimp only
  rw [State.ioStatus_timeout]

/-- WRITE when no board takes it. -/
theorem State.ioWrite_none (h : ∀ b ∈ s.boards, b.device ≠ a.extractLsb' 24 8) :
    s.ioWrite x a d = (s.logBus (.ioWriteRefused a)).setReg x 2 := by
  rw [State.ioWrite, State.ioCycle_none h]
  dsimp only
  rw [State.ioStatus_timeout]

/-- READ answered by a board. -/
theorem State.ioRead_board (hl : s.boards = l1 ++ b :: l2) (h1 : ∀ c ∈ l1, c.device ≠ a.extractLsb' 24 8)
    (hb : b.device = a.extractLsb' 24 8) :
    s.ioRead x a = ((({ s with boards := l1 ++ b.answered :: l2 } : State).logBus (.ioRead a)).setReg x
      (s.ioStatus false (s.boardAnswer b).notReady)).setReg (x + 1) (s.boardAnswer b).data := by
  rw [State.ioRead, State.ioCycle_board hl h1 hb]

/-- WRITE answered by a board. -/
theorem State.ioWrite_board (hl : s.boards = l1 ++ b :: l2) (h1 : ∀ c ∈ l1, c.device ≠ a.extractLsb' 24 8)
    (hb : b.device = a.extractLsb' 24 8) :
    s.ioWrite x a d = (({ s with boards := l1 ++ b.answered :: l2 } : State).logBus
      (if (s.boardAnswer b).notReady then .ioWriteRefused a else .ioWrite a d)).setReg x
        (s.ioStatus false (s.boardAnswer b).notReady) := by
  rw [State.ioWrite, State.ioCycle_board hl h1 hb]

/-- Whatever the boards are, WRITE changes Rx, the answers of the boards and the bus log. -/
theorem State.ioWrite_frame (s : State) (x : RegNo) (a d : Word) :
    ∃ v bs o, s.ioWrite x a d = { s.setReg x v with boards := bs, busLog := o :: s.busLog } := by
  unfold State.ioWrite
  split
  all_goals
    rename_i hc
    rw [State.ioCycle_frame hc]
    exact ⟨_, _, _, rfl⟩

theorem exec_read (hp : s.mode = .kernel ∨ s.trapBit 31 = true) (hroom : s.Room 2) (x y : RegNo) :
    exec (.read x y) s = .next ((s.ioRead x (s.reg y)).after 2) := by
  refine privileged_room (f := fun s => s.ioRead x (s.reg y)) hp ?_ .read x y
  rw [(s.ioRead_frame x (s.reg y)).2]
  exact hroom

theorem exec_write (hp : s.mode = .kernel ∨ s.trapBit 31 = true) (hroom : s.Room 2) (x y : RegNo) :
    exec (.write x y) s = .next ((s.ioWrite x (s.reg y) (s.reg x)).after 2) := by
  refine privileged_room (f := fun s => s.ioWrite x (s.reg y) (s.reg x)) hp ?_ .write x y
  obtain ⟨v, bs, o, h⟩ := s.ioWrite_frame x (s.reg y) (s.reg x)
  rw [h]
  exact hroom

/-- READ and WRITE complete, whatever the boards are. -/
theorem exec_read_write_frame (hp : s.mode = .kernel ∨ s.trapBit 31 = true) (hroom : s.Room 2) (x y : RegNo) :
    (∃ t, exec (.read x y) s = .next t ∧ SameRegsBut [x, x + 1] s t ∧
      t = { s.after 2 with regs := t.regs, boards := t.boards, busLog := .ioRead (s.reg y) :: s.busLog }) ∧
    ∃ t o, exec (.write x y) s = .next t ∧ SameRegsBut [x] s t ∧
      t = { s.after 2 with regs := t.regs, boards := t.boards, busLog := o :: s.busLog } := by
  obtain ⟨hregs, hframe⟩ := s.ioRead_frame x (s.reg y)
  obtain ⟨v, bs, o, hw⟩ := s.ioWrite_frame x (s.reg y) (s.reg x)
  rw [exec_read hp hroom, exec_write hp hroom, hw]
  refine ⟨⟨_, rfl, hregs, ?_⟩, _, o, rfl, fun n hn => ?_, rfl⟩
  · rw [hframe]
    rfl
  · exact State.reg_setReg_other s v fun e => hn (List.mem_singleton.2 e)

/-- READ and WRITE when no board has the device number. -/
theorem exec_read_write_timeout (hp : s.mode = .kernel ∨ s.trapBit 31 = true) (hroom : s.Room 2) (x : RegNo)
    (h : ∀ b ∈ s.boards, b.device ≠ (s.reg y).extractLsb' 24 8) :
    (∃ t, exec (.read x y) s = .next t ∧ t.reg x = 2 ∧ t.boards = s.boards) ∧
    exec (.write x y) s = .next { (s.setReg x 2).after 2 with busLog := .ioWriteRefused (s.reg y) :: s.busLog } := by
  rw [exec_read hp hroom, exec_write hp hroom, State.ioRead_none h, State.ioWrite_none h]
  refine ⟨⟨_, rfl, ?_, rfl⟩, rfl⟩
  rw [State.reg_after, State.reg_setReg_other _ _ (regNo_succ_ne x).symm, State.reg_setReg_same]

/-- READ and WRITE when the first board of the device number has its next answer given. -/
theorem exec_read_write_answered (hp : s.mode = .kernel ∨ s.trapBit 31 = true) (hroom : s.Room 2) (x : RegNo)
    (hl : s.boards = l1 ++ b :: l2) (h1 : ∀ c ∈ l1, c.device ≠ (s.reg y).extractLsb' 24 8)
    (hb : b.device = (s.reg y).extractLsb' 24 8) (ha : b.answers = r :: rs) :
    let status : Word := if r.notReady then BitVec.ofNat 32 (2 ^ (31 - s.cfg.ioNBit.toNat)) else 0
    (∃ t, exec (.read x y) s = .next t ∧ t.reg x = status ∧ (r.notReady = false → t.reg (x + 1) = r.data) ∧
      t.boards = l1 ++ { b with answers := rs } :: l2) ∧
    exec (.write x y) s = .next { (s.setReg x status).after 2 with
      boards := l1 ++ { b with answers := rs } :: l2
      busLog := (if r.notReady then .ioWriteRefused (s.reg y) else .ioWrite (s.reg y) (s.reg x)) :: s.busLog } := by
  intro status
  rw [exec_read hp hroom, exec_write hp hroom, State.ioRead_board hl h1 hb, State.ioWrite_board hl h1 hb,
    Board.answered_cons ha, State.boardAnswer_notReady s ha, State.ioStatus_answered]
  refine ⟨⟨_, rfl, ?_, fun hr => ?_, rfl⟩, rfl⟩
  · rw [State.reg_after, State.reg_setReg_other _ _ (regNo_succ_ne x).symm, State.reg_setReg_same]
  · rw [State.reg_after, State.reg_setReg_same, State.boardAnswer_data s ha hr]

end Transactions

/-! ### DMA grants (rules R543, R544) -/

section Grants

variable {s : State} {b : Board} {l1 l2 : List Board} {d : Dma} {ds : List Dma}

/-- The board that receives ACKIOM is the first with a transfer on its chain, on chain 1 only if none on chain 2 has
one. -/
theorem State.dmaRequester_first (hl : s.boards = l1 ++ b :: l2) (hd : b.transfers = d :: ds)
    (h1 : ∀ c ∈ l1, c.chain2 = b.chain2 → c.transfers = [])
    (h2 : b.chain2 = false → ∀ c ∈ s.boards, c.chain2 = true → c.transfers = []) : s.dmaRequester = some b := by
  unfold State.dmaRequester
  cases hc : b.chain2 with
  | true =>
    have hidle : ∀ c ∈ l1, (c.chain2 && !c.transfers.isEmpty) = false := fun c hm => by
      cases hcc : c.chain2 with
      | false => rfl
      | true => rw [h1 c hm (hcc.trans hc.symm)]; rfl
    rw [find?_of_append hl (by simp [hc, hd]) hidle]
  | false =>
    have hidle : ∀ c ∈ l1, (!c.chain2 && !c.transfers.isEmpty) = false := fun c hm => by
      cases hcc : c.chain2 with
      | true => rfl
      | false => rw [h1 c hm (hcc.trans hc.symm)]; rfl
    have hnone : (s.boards.find? fun b => b.chain2 && !b.transfers.isEmpty) = none :=
      List.find?_eq_none.2 fun c hm => by simpa using h2 hc c hm
    rw [hnone]
    exact find?_of_append hl (by simp [hc, hd]) hidle

/-- The granted board keeps its further transfers. -/
theorem State.dmaGrant_first (hreq : s.dmaRequester = some b) (hl : s.boards = l1 ++ b :: l2) (hnot : b ∉ l1)
    (hd : b.transfers = d :: ds) :
    s.dmaGrant = { s with boards := l1 ++ { b with transfers := ds } :: l2, transfer := d.cycles } := by
  have hg : b.granted = { b with transfers := ds } := by
    rw [Board.granted, hd]
    rfl
  rw [State.dmaGrant, hreq]
  dsimp only
  rw [hd, hl, updateFirst_board _ _ hnot, hg]

theorem State.dma_grant_free (h : s.transfer = []) : s.dma .grant = .ok s.dmaGrant := by
  rw [State.dma, h]
  rfl

/-- A transfer keeps the bus that it has. -/
theorem State.dma_grant_busy (h : s.transfer ≠ []) : s.dma .grant = .ok s := by
  rw [State.dma, List.isEmpty_eq_false_iff.2 h]
  rfl

end Grants

/-! ### The words of a transfer (rules R89, R543; 93_implementation_defined.md U28) -/

section Words

variable {s : State} {c : DmaCycle} {cs : List DmaCycle}

theorem dmaAddress_eq (w : BitVec 30) : dmaAddress w = 4 * w.toNat := Nat.mul_comm _ _

/-- The next word of the transfer on the bus is moved. -/
theorem State.dma_word (hc : s.transfer = c :: cs) (hm : c.address + 4 ≤ s.cfg.memSize.toNat) :
    s.dma .word = .ok (({ s with transfer := cs } : State).dmaCycle c) := by
  rw [State.dma, hc]
  exact if_pos (decide_eq_true hm)

theorem State.dmaCycle_write (s : State) {v : Word} (h : c.op = .write v) : s.dmaCycle c = s.dmaWord c.address v := by
  rw [State.dmaCycle, h]

theorem State.dmaCycle_read (s : State) {error : Bool} (h : c.op = .read error) :
    s.dmaCycle c = s.dmaRead c.address error := by
  rw [State.dmaCycle, h]

/-- The bytes of a word put together again. -/
theorem wordOfBytes_byteOfWord (w : Word) :
    wordOfBytes (byteOfWord w 0) (byteOfWord w 1) (byteOfWord w 2) (byteOfWord w 3) = w :=
  wordOfBytes_bytesOfWord w

/-- A word that DMA writes is in main memory (rule R543). -/
theorem State.mainWord_dmaWord_same (s : State) (a : Nat) (w : Word) : (s.dmaWord a w).mainWord a = w := by
  unfold State.mainWord
  simp only [State.mainByte_dmaWord]
  rw [if_pos (by omega), if_pos (by omega), if_pos (by omega), if_pos (by omega), Nat.sub_self,
    Nat.add_sub_cancel_left, Nat.add_sub_cancel_left, Nat.add_sub_cancel_left, wordOfBytes_byteOfWord]

theorem State.mainByte_dmaWord_other (s : State) (w : Word) {a b : Nat} (h : b < a ∨ a + 4 ≤ b) :
    (s.dmaWord a w).mainByte b = s.mainByte b := by
  rw [State.mainByte_dmaWord, if_neg (by omega)]

end Words

/-- Settles O50: the transactions by whether a board of the device number has an answer, the grant by the first board
with a transfer, and each word of a transfer by what it does. -/
theorem readsAndWrites : Obligations.ReadsAndWrites := by
  refine ⟨fun s x y hp hroom => ?_, fun s l1 l2 b d ds hl hd h1 h2 => ⟨fun hfree => ?_, State.dma_grant_busy⟩,
    fun w v0 v1 v2 v3 e => ?_, fun s c cs hc hm => ⟨fun v hop => ?_, fun error hop => ?_⟩⟩
  · obtain ⟨hread, hwrite⟩ := exec_read_write_frame hp hroom x y
    exact ⟨hread, hwrite, exec_read_write_timeout hp hroom x,
      fun l1 b l2 r rs hl h1 hb ha => exec_read_write_answered hp hroom x hl h1 hb ha⟩
  · have hnot : b ∉ l1 := fun hb => by
      have := h1 b hb rfl
      rw [hd] at this
      cases this
    rw [State.dma_grant_free hfree, State.dmaGrant_first (State.dmaRequester_first hl hd h1 h2) hl hnot hd]
  · rw [← dmaAddress_eq]
    exact ⟨rfl, rfl, rfl, rfl⟩
  · rw [State.dma_word hc hm, State.dmaCycle_write _ hop]
    exact ⟨_, rfl, State.mainWord_dmaWord_same _ _ v, fun a ha => State.mainByte_dmaWord_other _ v ha, rfl⟩
  · rw [State.dma_word hc hm, State.dmaCycle_read _ hop]
    refine ⟨_, fun herror => ?_, rfl⟩
    rw [herror]
    rfl

end Sys2Proof.Machine
end

