-- ==== Sys2Proof/Proofs/InstructionFrame.lean ====
section
/-! SUPPORT. What an instruction leaves as it was: the general registers outside its destinations, the special registers
and the traps word but for the few that an instruction writes itself, the parameters and the schedule. -/

namespace Sys2Proof.Machine

/-! ### Before the end of an instruction -/

/-- The pc, the special registers, the traps word, the parameters and the schedule of `u` are those of `s`. -/
structure SameProgram (s u : State) : Prop where
  pc : u.pc = s.pc
  sr : u.sr = s.sr
  trapsEff : u.trapsEff = s.trapsEff
  trapsOpen : u.trapsOpen = s.trapsOpen
  cfg : u.cfg = s.cfg
  inputs : u.inputs = s.inputs
  draws : u.draws = s.draws

/-- The work of an instruction, from `s` to `u`, has written no general register outside `l`. -/
structure WorkFrame (l : List RegNo) (s u : State) : Prop where
  regs : SameRegsBut l s u
  program : SameProgram s u

namespace SameProgram

variable {s t u : State}

theorem refl (s : State) : SameProgram s s := ⟨rfl, rfl, rfl, rfl, rfl, rfl, rfl⟩

theorem trans (h : SameProgram s t) (h2 : SameProgram t u) : SameProgram s u :=
  ⟨h2.pc.trans h.pc, h2.sr.trans h.sr, h2.trapsEff.trans h.trapsEff, h2.trapsOpen.trans h.trapsOpen,
    h2.cfg.trans h.cfg, h2.inputs.trans h.inputs, h2.draws.trans h.draws⟩

theorem sreg (h : SameProgram s u) (n : RegNo) : u.sreg n = s.sreg n := by
  unfold State.sreg
  rw [h.sr]

theorem storeBytes (s : State) (a : Nat) (bs : List Byte) : SameProgram s (s.storeBytes a bs) :=
  ⟨State.storeBytes_pc .., State.storeBytes_sr .., State.storeBytes_trapsEff .., State.storeBytes_trapsOpen ..,
    State.storeBytes_cfg .., State.storeBytes_inputs .., State.storeBytes_draws ..⟩

theorem dmaAll {ds : List DmaEvent} (h : s.dmaAll ds = .ok t) : SameProgram s t := by
  rw [State.dmaAll_frame h]
  exact ⟨rfl, rfl, rfl, rfl, rfl, rfl, rfl⟩

theorem kept (s : State) : Kept (SameProgram s) where
  regs := fun _ _ h => h.trans ⟨rfl, rfl, rfl, rfl, rfl, rfl, rfl⟩
  line := fun _ _ _ h => h.trans ⟨rfl, rfl, rfl, rfl, rfl, rfl, rfl⟩
  search := fun _ _ _ h => h.trans ⟨rfl, rfl, rfl, rfl, rfl, rfl, rfl⟩
  store := fun u a bs _ h => h.trans (storeBytes u a bs)
  tmtEntry := fun _ _ _ _ h => h.trans ⟨rfl, rfl, rfl, rfl, rfl, rfl, rfl⟩
  dma := fun _ _ _ hd h => h.trans (dmaAll hd)
  flushCache := fun _ h => h.trans ⟨rfl, rfl, rfl, rfl, rfl, rfl, rfl⟩
  flushTmt := fun _ h => h.trans ⟨rfl, rfl, rfl, rfl, rfl, rfl, rfl⟩
  boards := fun _ _ _ _ h => h.trans ⟨rfl, rfl, rfl, rfl, rfl, rfl, rfl⟩
  devices := fun _ _ _ _ _ h => h.trans ⟨rfl, rfl, rfl, rfl, rfl, rfl, rfl⟩
  log := fun _ _ _ _ h => h.trans ⟨rfl, rfl, rfl, rfl, rfl, rfl, rfl⟩

end SameProgram

namespace WorkFrame

variable {l : List RegNo} {s t u : State} {x : RegNo}

theorem refl (s : State) : WorkFrame l s s := ⟨fun _ _ => rfl, .refl s⟩

theorem trans (h : WorkFrame l s t) (h2 : WorkFrame l t u) : WorkFrame l s u :=
  ⟨fun n hn => (h2.regs n hn).trans (h.regs n hn), h.program.trans h2.program⟩

/-- Work that keeps the general registers. -/
theorem of_regs (hr : u.regs = s.regs) (h : SameProgram s u) : WorkFrame l s u := by
  refine ⟨fun n _ => ?_, h⟩
  unfold State.reg
  rw [hr]

theorem setReg (h : WorkFrame l s u) (hx : x ∈ l) (v : Word) : WorkFrame l s (u.setReg x v) :=
  h.trans ⟨fun _ hn => State.reg_setReg_other u v (ne_of_mem_of_not_mem hx hn).symm,
    (SameProgram.kept u).setReg (.refl u) x v⟩

theorem setPair (h : WorkFrame [x, x + 1] s u) (v : DWord) : WorkFrame [x, x + 1] s (u.setPair x v) :=
  (h.setReg (by simp) _).setReg (by simp) _

theorem of_sameButMemory (h : SameButMemory s u) : WorkFrame l s u := by
  rw [h]
  exact of_regs rfl ⟨rfl, rfl, rfl, rfl, rfl, rfl, rfl⟩

theorem loadLine (h : WorkFrame l s u) (v : View) (a : Nat) : WorkFrame l s (u.loadLine v a) :=
  h.trans (of_regs rfl ⟨rfl, rfl, rfl, rfl, rfl, rfl, rfl⟩)

theorem storeBytes (h : WorkFrame l s u) (a : Nat) (bs : List Byte) : WorkFrame l s (u.storeBytes a bs) :=
  h.trans (of_sameButMemory (.storeBytes u a bs))

theorem dmaAll {ds : List DmaEvent} (h : WorkFrame l s u) (hd : u.dmaAll ds = .ok t) : WorkFrame l s t :=
  h.trans (of_regs (by rw [State.dmaAll_frame hd]) (.dmaAll hd))

theorem loadRegs {is : List RegNo} (h : s.loadRegs is = .ok t) : WorkFrame is s t := by
  obtain ⟨hf, hr⟩ := State.loadRegs_frame h
  refine ⟨hr, ?_⟩
  rw [hf]
  exact ⟨rfl, rfl, rfl, rfl, rfl, rfl, rfl⟩

/-- ITEST writes Rx and, with a deliverable request, Rx+1 (45_kernel.md rule R454). -/
theorem testInterrupt (s : State) (x : RegNo) : WorkFrame [x, x + 1] s (s.testInterrupt x) := by
  unfold State.testInterrupt
  split
  · rename_i b _
    have hb : WorkFrame [x, x + 1] s (s.ackIoi b) := of_regs rfl ((SameProgram.kept s).ackIoi (.refl s) b)
    exact (hb.setReg (by simp) _).setReg (by simp) _
  · exact setReg (refl s) (by simp) _

theorem ioWrite (s : State) (x : RegNo) (a d : Word) : WorkFrame [x] s (s.ioWrite x a d) := by
  obtain ⟨v, bs, o, h⟩ := s.ioWrite_frame x a d
  rw [h]
  exact (setReg (refl s) (by simp) v).trans (of_regs rfl ⟨rfl, rfl, rfl, rfl, rfl, rfl, rfl⟩)

end WorkFrame

/-! ### The end of an instruction -/

/-- `t` begins the kernel function of an event that an instruction has taken from a state with the pc and the special
registers of `s` (60_exceptions.md rule R507). -/
def TrapTaken (s t : State) : Prop :=
  ∃ (e : Event) (u : State) (v : Word), u.HasVector e v ∧ t = u.enterAt e u.pc v ∧ u.pc = s.pc ∧
    ∀ n, u.sreg n = s.sreg n

/-- An instruction from `s` to `t` has written no general register outside `l`, and no special register outside `k`
but by taking an event. -/
structure RegisterFrame (l k : List RegNo) (s t : State) : Prop where
  regs : SameRegsBut l s t
  sregs : SameSregsBut k s t ∨ TrapTaken s t
  cfg : t.cfg = s.cfg
  inputs : t.inputs = s.inputs
  draws : t.draws = s.draws

/-- Nor has it changed the traps word in effect. -/
structure EndFrame (l k : List RegNo) (s t : State) : Prop extends RegisterFrame l k s t where
  trapsEff : t.trapsEff = s.trapsEff
  trapsOpen : t.trapsOpen = s.trapsOpen

/-- The work of an instruction is its end when it takes no event, but for the pc. -/
theorem WorkFrame.toEnd {l k : List RegNo} {s u : State} (h : WorkFrame l s u) (pc : Word) (b : Buffers) (m : Mode)
    (p : Bool) (c : Option Stuck) :
    EndFrame l k s { u with pc := pc, prefetch := b, mode := m, paused := p, stuck := c } :=
  ⟨⟨h.regs, .inl fun n _ => h.program.sreg n, h.program.cfg, h.program.inputs, h.program.draws⟩, h.program.trapsEff,
    h.program.trapsOpen⟩

/-- An event is taken after work with the pc of the instruction: it writes no general register. -/
theorem WorkFrame.raise {l k : List RegNo} {s u t : State} {e : Event} (h : WorkFrame l s u)
    (ht : Machine.raise e u = .next t) : EndFrame l k s t := by
  rcases raise_next.1 ht with ⟨v, hv, rfl⟩ | ⟨_, rfl⟩
  · exact {
      regs := fun n hn => (State.reg_enterAt ..).trans (h.regs n hn)
      sregs := .inr ⟨e, u, v, hv, rfl, h.program.pc, h.program.sreg⟩
      trapsEff := (State.enterAt_trapsEff ..).trans h.program.trapsEff
      trapsOpen := (State.enterAt_trapsOpen ..).trans h.program.trapsOpen
      cfg := (State.enterAt_cfg ..).trans h.program.cfg
      inputs := (State.enterAt_inputs ..).trans h.program.inputs
      draws := (State.enterAt_draws ..).trans h.program.draws }
  · exact h.toEnd _ _ _ _ _

/-! ### Outcomes -/

/-- A next state, if there is one, is framed by the registers `l` and the special registers `k`. -/
def KeepsFrame (l k : List RegNo) (s : State) (o : Outcome) : Prop := ∀ t, o = .next t → EndFrame l k s t

namespace KeepsFrame

variable {l k : List RegNo} {s u : State}

theorem raise (h : WorkFrame l s u) (e : Event) : KeepsFrame l k s (Machine.raise e u) := fun _ => h.raise

theorem advance (h : WorkFrame l s u) (il : Nat) : KeepsFrame l k s (Machine.advance il u) := by
  intro t ht
  obtain ⟨_, rfl⟩ := advance_next.1 ht
  exact h.toEnd _ _ _ _ _

theorem jump (h : WorkFrame l s u) (a : Word) : KeepsFrame l k s (Machine.jump a u) := by
  intro t ht
  obtain ⟨_, rfl⟩ := jump_next.1 ht
  exact h.toEnd _ _ _ _ _

theorem setAndGo (s : State) (x : RegNo) (v : Word) : KeepsFrame [x] k s (Machine.setAndGo x v s) :=
  advance (.setReg (.refl s) (by simp) v) 2

theorem setPairAndGo (s : State) (x : RegNo) (v : DWord) :
    KeepsFrame [x, x + 1] k s (Machine.setPairAndGo x v s) := advance (.setPair (.refl s) v) 2

theorem deliver {α : Type} {put : State → α → State} (hput : ∀ v, WorkFrame l s (put s v)) (o : Opcode) (x y : RegNo)
    (d : Delivery α) : KeepsFrame l k s (Machine.deliver o x y put d s) := by
  intro t ht
  rcases deliver_next.1 ht with ⟨c, _, h⟩ | ⟨_, h⟩ | ⟨v, _, h⟩ | ⟨v, c, _, h⟩
  · exact raise (.refl s) _ t h
  · exact advance (.refl s) 2 t h
  · exact advance (hput v) 2 t h
  · exact raise (hput v) _ t h

theorem deliverReg (s : State) (o : Opcode) (x y : RegNo) (d : Delivery Word) :
    KeepsFrame [x] k s (Machine.deliver o x y (State.put x) d s) :=
  deliver (fun v => .setReg (.refl s) (by simp) v) o x y d

theorem deliverPair (s : State) (o : Opcode) (x y : RegNo) (d : Delivery DWord) :
    KeepsFrame [x, x + 1] k s (Machine.deliver o x y (State.putPair x) d s) :=
  deliver (fun v => .setPair (.refl s) v) o x y d

theorem deliverSingle (s : State) (o : Opcode) (x y : RegNo) (d : Delivery RealFields) :
    KeepsFrame [x] k s (Machine.deliver o x y (State.putSingle x) d s) :=
  deliver (fun _ => .setReg (.refl s) (by simp) _) o x y d

theorem deliverDouble (s : State) (o : Opcode) (x y : RegNo) (d : Delivery RealFields) :
    KeepsFrame [x, x + 1] k s (Machine.deliver o x y (State.putDouble x) d s) :=
  deliver (fun _ => .setPair (.refl s) _) o x y d

/-- EADD and ESUB write their sum to Rx and their flags to R0. -/
theorem extendedSum (s : State) (x : RegNo) (a b : Word) : KeepsFrame [x, 0] k s (Machine.extendedSum x a b s) := by
  unfold Machine.extendedSum
  split
  · intro t ht
    cases ht
  · exact advance (.setReg (.setReg (.refl s) (by simp) _) (by simp) _) 2

theorem branchIf (h : WorkFrame l s u) (c : Bool) (a : Word) (il : Nat) :
    KeepsFrame l k s (Machine.branchIf c a il u) := by
  unfold Machine.branchIf
  split
  · exact jump h a
  · exact advance h il

theorem loopBy (s : State) (x y : RegNo) (d : Word) (il : Nat) : KeepsFrame [x] k s (Machine.loopBy x y d il s) :=
  branchIf (.setReg (.refl s) (by simp) _) _ _ il

theorem callTo (s : State) (x : RegNo) (a : Word) (il : Nat) : KeepsFrame [x] k s (Machine.callTo x a il s) :=
  jump (.setReg (.refl s) (by simp) _) a

theorem checkRange (s : State) (o : Opcode) (x y : RegNo) (bad : Bool) :
    KeepsFrame l k s (Machine.checkRange o x y bad s) := by
  unfold Machine.checkRange
  split
  · exact raise (.refl s) _
  · exact advance (.refl s) 2

/-- A TRAP that does not trap writes SR3 at most (44_program_control.md rule R402). -/
theorem trapInstruction (s : State) (x y : RegNo) : KeepsFrame l [3] s (Machine.trapInstruction x y s) := by
  unfold Machine.trapInstruction
  split
  · exact raise (.refl s) _
  · split
    · intro t ht
      obtain ⟨_, rfl⟩ := advance_next.1 ht
      exact ⟨⟨fun _ _ => rfl, .inl fun n hn => State.sreg_setSreg_other s _ (mt List.mem_singleton.2 hn), rfl, rfl,
        rfl⟩, rfl, rfl⟩
    · exact advance (.refl s) 2

theorem execKcall (s : State) (n : Byte) : KeepsFrame l k s (Machine.execKcall n s) := by
  unfold Machine.execKcall
  split
  all_goals exact raise (.refl s) _

theorem kernelOnly {o : Opcode} {x y : RegNo} {f : State → Outcome} (h : KeepsFrame l k s (f s)) :
    KeepsFrame l k s (Machine.kernelOnly o x y s f) := by
  intro t ht
  rcases kernelOnly_next.1 ht with ⟨_, ht⟩ | ⟨_, ht⟩
  · exact h t ht
  · exact raise (.refl s) _ t ht

theorem privileged {o : Opcode} {x y : RegNo} {f : State → State} (h : WorkFrame l s (f s)) :
    KeepsFrame l k s (Machine.privileged o x y s fun s => Machine.advance 2 (f s)) := by
  intro t ht
  rcases privileged_next.1 ht with ⟨_, ht⟩ | ⟨_, _, ht⟩
  · exact advance h 2 t ht
  · exact raise (.refl s) _ t ht

theorem resumeUser (s : State) : KeepsFrame l k s (Machine.resumeUser s) := by
  unfold Machine.resumeUser
  split
  · intro t ht
    cases ht
    exact WorkFrame.toEnd (.refl s) _ _ _ _ _
  · intro t ht
    obtain ⟨_, rfl⟩ := jump_next.1 ht
    exact WorkFrame.toEnd (.refl s) _ _ _ _ _

theorem resumeKernel (s : State) : KeepsFrame l k s (Machine.resumeKernel s) :=
  jump (s := s) (u := s.flushCache.flushTmt) (.of_regs rfl ⟨rfl, rfl, rfl, rfl, rfl, rfl, rfl⟩) _

/-! ### Loads and stores -/

theorem reference {w : Width} {sp : Space} {acc : Access} {ea : Word} {f : Word → State → Outcome}
    (hf : ∀ r u, WorkFrame l s u → KeepsFrame l k s (f r u)) :
    KeepsFrame l k s (Machine.reference w sp acc ea s f) := by
  intro t ht
  rcases reference_next.1 ht with ⟨_, h⟩ | ⟨_, e, u, hl, h⟩ | ⟨_, c, u, hl, rfl⟩ | ⟨_, r, u, hl, h⟩
  · exact raise (.refl s) _ t h
  · exact raise (.of_sameButMemory (State.locate_frame (by rw [hl]; rfl))) e t h
  · exact WorkFrame.toEnd (.of_sameButMemory (State.locate_frame (by rw [hl]; rfl))) _ _ _ _ _
  · exact hf r u (.of_sameButMemory (State.locate_frame (by rw [hl]; rfl))) t h

theorem loadInto (s : State) (w : Width) (sp : Space) (x : RegNo) (ea : Word) (il : Nat) :
    KeepsFrame [x] k s (Machine.loadInto w sp x ea il s) :=
  reference fun _ _ hu => advance (.setReg (.loadLine hu _ _) (by simp) _) il

theorem loadPair (s : State) (sp : Space) (x : RegNo) (ea : Word) (il : Nat) :
    KeepsFrame [x, x + 1] k s (Machine.loadPair sp x ea il s) := by
  refine reference fun r u hu t ht => ?_
  split at ht
  · cases ht
  · rename_i v u2 hr
    obtain ⟨m, hm, _, rfl⟩ := State.readTwo_ok.1 hr
    exact advance (.setPair (.loadLine ((hu.loadLine _ _).dmaAll hm) _ _) v) il t ht

theorem storeFrom (s : State) (w : Width) (x : RegNo) (ea : Word) (il : Nat) :
    KeepsFrame l k s (Machine.storeFrom w x ea il s) :=
  reference fun _ _ hu => advance (.storeBytes hu _ _) il

theorem storePair (s : State) (x : RegNo) (ea : Word) (il : Nat) :
    KeepsFrame l k s (Machine.storePair x ea il s) := by
  refine reference fun r u hu t ht => ?_
  split at ht
  · cases ht
  · rename_i u2 hr
    obtain ⟨m, hm, rfl⟩ := State.storeTwo_ok.1 hr
    exact advance (.storeBytes ((hu.storeBytes _ _).dmaAll hm) _ _) il t ht

/-! ### Kernel instructions -/

theorem finishFault {r : Except Fault State} (h : ∀ u, r = .ok u → WorkFrame l s u) :
    KeepsFrame l k s (Machine.finishFault r) := by
  intro t ht
  obtain ⟨u, hu, _, rfl⟩ := finishFault_next.1 ht
  exact (h u hu).toEnd _ _ _ _ _

/-- A kernel instruction that does nothing without a process. -/
theorem ifProcess {o : Outcome} (h : KeepsFrame l k s o) :
    KeepsFrame l k s (if s.sreg 14 = 1 then Machine.advance 2 s else o) := by
  split
  · exact advance (.refl s) 2
  · exact h

theorem execSus (s : State) (x y : RegNo) : KeepsFrame l k s (Machine.execSus x y s) :=
  kernelOnly (ifProcess (finishFault fun _ hu => .of_sameButMemory (State.saveUser_induct hu (.refl s)
    fun v _ _ _ hv => hv.trans (.storeBytes v _ _))))

theorem execLdregs (s : State) (x y : RegNo) : KeepsFrame (regRange x y) k s (Machine.execLdregs x y s) :=
  kernelOnly (ifProcess (finishFault fun _ hu => .loadRegs hu))

theorem translateInto (s : State) (x y : RegNo) (bits : Word) :
    KeepsFrame [x] k s (Machine.translateInto x y bits s) := by
  have hs : WorkFrame [x] s (s.searched ((s.reg y).extractLsb' 0 16) (s.reg (y + 1))) :=
    .of_sameButMemory (.searched s _ _)
  intro t ht
  rcases translateInto_next.1 ht with ⟨_, h⟩ | ⟨_, rfl⟩ | ⟨p, w, _, h⟩
  · exact advance (hs.setReg (by simp) _) 2 t h
  · exact hs.toEnd _ _ _ _ _
  · exact advance ((hs.storeBytes _ _).setReg (by simp) _) 2 t h

end KeepsFrame

/-! ### Every instruction -/

/-- Every instruction but LUS and the MOVE to a special register leaves the traps word and, outside its destinations,
the registers. -/
theorem exec_keepsFrame {i : Instr} (s : State) (hlus : ∀ x y, i ≠ .lus x y) (hmove : ∀ x y, i ≠ .movesr x y) :
    KeepsFrame (Instr.destinations i) (Instr.sregDestinations i) s (exec i s) := by
  have hP := SameProgram.kept s
  have h0 := SameProgram.refl s
  cases i with
  | moverr | not | and | or | xor | rneg | tbit | lcomp | dcomp | csl | lsl | lsr | asr | seb | seh | testGt | testEq
  | testLt | testLe | testGe | testNe | moveri | noti | andi | csli | lsli | lsri | asri | testiGt | testiEq | testiLt
  | testiLe | testiGe | testiNe => exact .setAndGo s _ _
  | empy | drneg | cbit | sbit | dlsl | dlsr | dlsli | dlsri => exact .setPairAndGo s _ _
  | neg | add | sub | mpy | div | rem | addi | subi | mpyi | fixt | fixr | dfixt | dfixr | rcomp | drcomp | asl
  | asli => exact .deliverReg s _ _ _ _
  | ediv => exact .deliverPair s _ _ _ _
  | float | makedr | radd | rsub | rmpy | rdiv => exact .deliverSingle s _ _ _ _
  | makerd | dfloat | dradd | drsub | drmpy | drdiv => exact .deliverDouble s _ _ _ _
  | nop => exact .advance (.refl s) 2
  | eadd | esub => exact .extendedSum s _ _ _
  | br | brl => exact .jump (.refl s) _
  | brGt | brGtL | brEq | brEqL | brLe | brLeL | brNe | brNeL | briGt | briGtL | briLt | briLtL | briEq | briEqL | briLe
  | briLeL | briGe | briGeL | briNe | briNeL => exact .branchIf (.refl s) _ _ _
  | loop | loopl => exact .loopBy s _ _ _ _
  | callr | ret | call | calll => exact .callTo s _ _ _
  | chk | chki => exact .checkRange s _ _ _ _
  | trap => exact .trapInstruction s _ _
  | kcall => exact .execKcall s _
  | load | loadl | loadx | loadlx | loadp | loadpl | loadpx | loadplx | loadh | loadhl | loadhx | loadhlx | loadhp
  | loadhpl | loadhpx | loadhplx | loadb | loadbl | loadbx | loadblx | loadbp | loadbpl | loadbpx | loadbplx =>
    exact .loadInto s _ _ _ _ _
  | loadd | loaddl | loaddx | loaddlx | loaddp | loaddpl | loaddpx | loaddplx => exact .loadPair s _ _ _ _
  | store | storel | storex | storelx | storeh | storehl | storehx | storehlx | storeb | storebl | storebx | storeblx =>
    exact .storeFrom s _ _ _ _
  | stored | storedl | storedx | storedlx => exact .storePair s _ _ _
  | laddr | laddrx | laddrl | laddrlx | laddrp | laddrpx | laddrpl | laddrplx =>
    exact .advance (.setReg (.refl s) List.mem_cons_self _) _
  | sus => exact .execSus s _ _
  | lus x y => exact absurd rfl (hlus x y)
  | ldregs => exact .execLdregs s _ _
  | rum => exact .kernelOnly (.resumeUser s)
  | movesr x y => exact absurd rfl (hmove x y)
  | movers x y =>
    exact .kernelOnly (f := fun s => advance 2 (s.setReg x (s.sreg y)))
      (.advance (.setReg (.refl s) List.mem_cons_self _) 2)
  | maint => exact .raise (.refl s) _
  | trans | dirt => exact .kernelOnly (.translateInto s _ _ _)
  | trapexit => exact .kernelOnly (.resumeKernel s)
  | read x y => exact .privileged (f := fun s => s.ioRead x (s.reg y)) ⟨(s.ioRead_frame x _).1, hP.ioRead h0 _ _⟩
  | write x y => exact .privileged (f := fun s => s.ioWrite x (s.reg y) (s.reg x)) (.ioWrite s _ _ _)
  | elogr x => exact .privileged (f := fun s => s.setReg x s.statusWord) (.setReg (.refl s) List.mem_cons_self _)
  | machineid x =>
    exact .privileged (f := fun s => s.setReg x s.cfg.machineId) (.setReg (.refl s) List.mem_cons_self _)
  | version x =>
    exact .privileged (f := fun s => s.setReg x s.cfg.ucodeVersion) (.setReg (.refl s) List.mem_cons_self _)
  | rdlog x =>
    exact .privileged (f := fun s => s.setReg x (s.logWord (s.reg x))) (.setReg (.refl s) List.mem_cons_self _)
  | elogw x => exact .privileged (f := fun s => s.writeLog (s.reg x)) (.of_regs rfl (hP.writeLog h0 _))
  | twrited x =>
    exact .privileged (f := fun s => s.writeMasks (s.reg x)) (.of_regs (State.writeMasks_regs ..) (hP.writeMasks h0 _))
  | flush x => exact .privileged (f := State.flushCache) (.of_regs rfl (hP.flushCache _ h0))
  | itest x => exact .privileged (f := fun s => s.testInterrupt x) (.testInterrupt s x)
  | creg x =>
    exact .privileged (f := fun s => s.clockTransfer x)
      (.trans (.setReg (.refl s) List.mem_cons_self s.clockWord) (.of_regs rfl ⟨rfl, rfl, rfl, rfl, rfl, rfl, rfl⟩))

/-- LUS loads the registers of its range, SR8, SR9, SR10 and SR15 (45_kernel.md rule R432). -/
theorem execLus_frame {x y : RegNo} {s t : State} (h : execLus x y s = .next t) :
    RegisterFrame (regRange x y) [8, 9, 10, 15] s t := by
  rcases kernelOnly_next.1 h with ⟨_, h⟩ | ⟨_, h⟩
  · split at h
    · exact (KeepsFrame.advance (.refl s) 2 t h).toRegisterFrame
    · obtain ⟨u, hu, _, rfl⟩ := finishFault_next.1 h
      obtain ⟨p, w, m, v, hv, rfl⟩ := State.loadUser_ok hu
      have hw : WorkFrame (regRange x y) s v :=
        .trans (.loadLine (.loadLine (.loadLine (.refl s) _ _) _ _) _ _) (.loadRegs hv)
      refine ⟨fun n hn => Eq.trans ?_ (hw.regs n hn), .inl fun n hn => Eq.trans ?_ (hw.program.sreg n),
        Eq.trans ?_ hw.program.cfg, Eq.trans ?_ hw.program.inputs, Eq.trans ?_ hw.program.draws⟩
      · simp
      · simp only [List.mem_cons, List.not_mem_nil, or_false, not_or] at hn
        obtain ⟨h8, h9, h10, h15⟩ := hn
        rw [State.sreg_loadedUser, if_neg h10, if_neg h9, if_neg h8, if_neg h15]
      · simp
      · simp
      · simp
  · exact (KeepsFrame.raise (.refl s) _ t h).toRegisterFrame

/-- A MOVE writes its special register, and only one to SR10 opens bits of the traps word (45_kernel.md rule R435). -/
theorem execMovesr_frame {x y : RegNo} {s t : State} (h : execMovesr x y s = .next t) :
    RegisterFrame [] [x] s t ∧ t.trapsEff = s.trapsEff ∧ (x ≠ 10 → t.trapsOpen = s.trapsOpen) := by
  rcases kernelOnly_next.1 h with ⟨_, h⟩ | ⟨_, h⟩
  · obtain ⟨_, rfl⟩ := advance_next.1 h
    refine ⟨⟨fun n _ => by simp, .inl fun n hn => ?_, by simp, by simp, by simp⟩, by simp, fun hx => ?_⟩
    · have hs : (s.moveToSreg x (s.reg y)).sr = (s.setSreg x (s.reg y)).sr := by
        unfold State.moveToSreg
        split <;> rfl
      exact (congrArg (·[n.toNat]) hs).trans (State.sreg_setSreg_other s _ (mt List.mem_singleton.2 hn))
    · rw [State.moveToSreg_other hx]
      rfl
  · have hf : EndFrame [] [x] s t := KeepsFrame.raise (.refl s) _ t h
    exact ⟨hf.toRegisterFrame, hf.trapsEff, fun _ => hf.trapsOpen⟩

/-- Settles O59: LUS and the MOVE to a special register write what is listed for them, and every other instruction
leaves the traps word besides. -/
theorem instructionFrame : Obligations.InstructionFrame := by
  intro i s t h
  by_cases hlus : ∃ x y, i = .lus x y
  · obtain ⟨x, y, rfl⟩ := hlus
    have hf := execLus_frame h
    exact ⟨hf.regs, hf.sregs, fun hn => absurd rfl hn, fun hn => absurd rfl hn, hf.cfg, hf.inputs, hf.draws⟩
  by_cases hmove : ∃ x y, i = .movesr x y
  · obtain ⟨x, y, rfl⟩ := hmove
    obtain ⟨hf, heff, hopen⟩ := execMovesr_frame h
    exact ⟨hf.regs, hf.sregs, fun _ => heff, fun _ hn => hopen fun hx => hn y (by rw [hx]), hf.cfg, hf.inputs,
      hf.draws⟩
  have hf := exec_keepsFrame s (fun x y hi => hlus ⟨x, y, hi⟩) (fun x y hi => hmove ⟨x, y, hi⟩) t h
  exact ⟨hf.regs, hf.sregs, fun _ => hf.trapsEff, fun _ _ => hf.trapsOpen, hf.cfg, hf.inputs, hf.draws⟩

end Sys2Proof.Machine
end

