-- ==== Sys2Proof/Proofs/EventEntry.lean ====
section
/-! SUPPORT. The entry of an event: the special registers that the kernel function finds, the illegal instruction event
of an undefined opcode, and the board whose request an external interrupt takes (60_exceptions.md rules R504 to
R525). -/

namespace Sys2Proof.Machine

/-! ### The step and the bytes it has fetched (rules R512, R521, R532) -/

/-- Settles O5: the step decodes the bytes it has fetched. -/
theorem stepRunsTheDecodedInstruction : Obligations.StepRunsTheDecodedInstruction :=
  fun _ _ _ _ _ _ hb hf _ hd => step_run hb hf hd

section Undefined

variable {s s1 s2 : State} {b f : Byte} {disp : List Byte}

/-- A first byte that names no opcode makes the bytes no instruction (30_encoding.md rule R152). -/
theorem decode_undefined {m : Config.OpcodeMap} (h : m.lookup b = none) (f : Byte) (disp : List Byte) :
    decode m (b :: f :: disp) = .error (.undefinedOpcode b) := by
  rw [decode, h]

theorem step_undefined (hb : s.boundary = .run s1) (hf : fetchBytes s1 = .ok (b :: f :: disp) s2)
    (h : s2.cfg.opc.lookup b = none) : step s = raise (s2.illegalOpcode b f disp) s2 := by
  rw [step, hb]
  dsimp only
  rw [fetchRun, hf, Res.finish_ok, decode_undefined h]
  rfl

theorem State.illegalOpcode_register (s : State) (hb : mbit b 0 = false) (f : Byte) (disp : List Byte) :
    s.illegalOpcode b f disp = .illegalRegister b (f.extractLsb' 4 4) (f.extractLsb' 0 4) := by
  rw [State.illegalOpcode, hb]
  rfl

/-- The structure bits of an undefined byte give its space and its effective address (92_eei_decisions.md D46). -/
theorem State.illegalOpcode_memory (s : State) (hb : mbit b 0 = true) (f : Byte) (disp : List Byte) :
    let sp : Space := if mbit b 1 = mbit b 2 then .code else .data
    s.illegalOpcode b f disp = .illegalMemory b (s.segment sp)
      ((if sp = .code then s.pc else 0) + (if mbit b 7 then s.reg (f.extractLsb' 0 4) else 0) + dispOfBytes disp) := by
  intro sp
  have hsp : (if mbit b 1 == mbit b 2 then Space.code else .data) = sp := by simp only [sp, beq_iff_eq]
  have hbase : s.spaceBase sp = if sp = .code then s.pc else 0 := by cases sp <;> rfl
  rw [State.illegalOpcode, hb, ← hbase]
  simp only [if_true, hsp, State.eaIndexed, State.eaDirect]
  cases mbit b 7
  · simp
  · rfl

end Undefined

/-- Settles O4: the decoder refuses the byte, and the event is made of its structure bits. -/
theorem undefinedInstructionsTrap : Obligations.UndefinedInstructionsTrap := by
  refine ⟨fun s s1 s2 b f disp v hb hf hl => ?_, fun s x k v _ hv => raise_vector hv⟩
  rw [step_undefined hb hf hl]
  refine ⟨fun h0 hv => ?_, fun h0 hv => ?_⟩
  · rw [State.illegalOpcode_register s2 h0]
    exact raise_vector hv
  · rw [State.illegalOpcode_memory s2 h0]
    exact raise_vector hv

/-! ### The registers of an entered kernel function (rules R505, R508, R510 to R531) -/

section Entry

variable (s : State) (e : Event) (ret v : Word)

theorem State.sreg15_enterAt : (s.enterAt e ret v).sreg 15 = match e with
    | .kernelCall _ => s.pc + 2
    | _ => if s.mode = .user ∧ s.paused = false then ret else s.sreg 15 := by
  rw [State.sreg_enterAt_savePc s e ret v (by decide) (by decide) (by decide)]
  by_cases hm : s.mode = .user ∧ s.paused = false
  all_goals cases e <;> simp [State.savePc, State.sreg_setSreg, hm]

theorem State.sreg0_enterAt : (s.enterAt e ret v).sreg 0 = match e with
    | .kernelCall _ => s.sreg 0
    | .external ioir => ioir
    | _ => if s.mode = .user ∧ s.paused = false then 1 else ret := by
  rw [State.sreg_enterAt_savePc s e ret v (by decide) (by decide) (by decide)]
  by_cases hm : s.mode = .user ∧ s.paused = false
  all_goals cases e <;> simp [State.savePc, State.sreg_setSreg, hm]

/-- The saved address goes to SR0 or SR15. -/
theorem State.sreg_savePc {k : RegNo} (h0 : k ≠ 0) (h15 : k ≠ 15) : (s.savePc e ret).sreg k = s.sreg k := by
  by_cases hm : s.mode = .user ∧ s.paused = false
  · cases e <;> simp only [State.savePc, if_pos hm, State.sreg_setSreg, h0, h15, if_false]
  · cases e <;> simp only [State.savePc, if_neg hm, State.sreg_setSreg, h0, h15, if_false]

/-- SR1, SR2 and SR3 hold what Table 6-1 says of the event. -/
theorem State.sreg_recordEvent_table :
    (s.recordEvent e).sreg 1 = (Event.registers e).1.getD (s.sreg 1) ∧
    (s.recordEvent e).sreg 2 = (Event.registers e).2.1.getD (s.sreg 2) ∧
    (s.recordEvent e).sreg 3 = (Event.registers e).2.2.getD (s.sreg 3) := by
  cases e with
  | pageFault k _ _ => cases k <;> simp [State.recordEvent, Event.registers, State.sreg_setSreg]
  | _ => simp [State.recordEvent, Event.registers, State.sreg_setSreg]

theorem State.sreg_enterAt_table :
    (s.enterAt e ret v).sreg 1 = (Event.registers e).1.getD (s.sreg 1) ∧
    (s.enterAt e ret v).sreg 2 = (Event.registers e).2.1.getD (s.sreg 2) ∧
    (s.enterAt e ret v).sreg 3 = (Event.registers e).2.2.getD (s.sreg 3) := by
  have hsr : ∀ k, (s.enterAt e ret v).sreg k = ((s.savePc e ret).recordEvent e).sreg k := fun k => by
    rw [State.sreg, State.sreg, State.enterAt_sr]
  have hrec := (s.savePc e ret).sreg_recordEvent_table e
  rwa [← hsr, ← hsr, ← hsr, State.sreg_savePc s e ret (by decide) (by decide),
    State.sreg_savePc s e ret (by decide) (by decide), State.sreg_savePc s e ret (by decide) (by decide)] at hrec

/-- The quadword of the vector is in the data lines (log 48). -/
theorem State.enterAt_vector_line :
    ∃ l, findLine (s.enterAt e ret v).dataLines (s.sreg 11 + e.offset).toNat = some l := by
  rw [State.enterAt_dataLines]
  exact ⟨_, findLine_loadQuad_same _ _⟩

end Entry

/-- Settles O41: an even vector of a present CCB is entered, and each event has its offset in the CCB. -/
theorem eventEntry : Obligations.EventEntry := by
  refine ⟨fun s e ret v hv => ⟨s.enterAt e ret v, enter_vector hv ret, ?_, State.enterAt_dataLines .., ?_, ?_, ?_, ?_⟩,
    fun n op seg a w x y c k => ?_⟩
  · refine (State.enterAt_frame s e ret v).trans ?_
    rw [State.enterAt_dataLines]
    rfl
  · exact s.enterAt_vector_line e ret v
  · exact s.sreg15_enterAt e ret v
  · exact s.sreg0_enterAt e ret v
  · obtain ⟨h1, h2, h3⟩ := s.sreg_enterAt_table e ret v
    refine ⟨h1, h2, h3, fun n hn => ?_⟩
    simp only [List.mem_cons, List.not_mem_nil, or_false, not_or] at hn
    obtain ⟨n0, n1, n2, n3, n15⟩ := hn
    exact State.sreg_enterAt n0 n1 n2 n3 n15
  · refine ⟨?_, rfl, rfl, rfl, rfl, rfl, rfl, rfl, rfl, rfl, rfl, rfl, rfl, rfl, rfl⟩
    have := n.isLt
    show (n.setWidth 32 * 4 : Word).toNat = 4 * n.toNat
    bv_omega

/-! ### Deliverable requests (rule R525) -/

section Requests

variable {s : State} {b : Board} {chain2 : Bool}

/-- A board requests an interrupt on a daisy chain. -/
abbrev Board.Requests (c : Board) (chain2 : Bool) : Prop := c.requesting = true ∧ c.chain2 = chain2

/-- The nearest requesting board of a chain. -/
theorem State.chainRequest_eq_some : s.chainRequest chain2 = some b ↔
    ∃ l1 l2, s.boards = l1 ++ b :: l2 ∧ b.requesting = true ∧ b.chain2 = chain2 ∧ ∀ c ∈ l1, ¬c.Requests chain2 := by
  unfold State.chainRequest
  rw [List.find?_eq_some_iff_append]
  simp only [Bool.and_eq_true, beq_iff_eq, Bool.not_eq_true', Bool.and_eq_false_imp, beq_eq_false_iff_ne]
  constructor
  · rintro ⟨⟨hr, hc⟩, l1, l2, hl, h1⟩
    exact ⟨l1, l2, hl, hr, hc, fun c hm h => h1 c hm h.1 h.2⟩
  · rintro ⟨l1, l2, hl, hr, hc, h1⟩
    exact ⟨⟨hr, hc⟩, l1, l2, hl, fun c hm h1' h2 => h1 c hm ⟨h1', h2⟩⟩

theorem State.chainRequest_eq_none : s.chainRequest chain2 = none ↔ ∀ c ∈ s.boards, ¬c.Requests chain2 := by
  unfold State.chainRequest
  simp only [List.find?_eq_none, Bool.and_eq_true, beq_iff_eq]

/-- Mask 2 holds both chains and Mask 1 the first; chain 2 goes before chain 1. -/
theorem State.deliverable_eq_some : s.deliverable = some b ↔ s.mask2 = false ∧
    (s.chainRequest true = some b ∨
      (s.mask1 = false ∧ s.chainRequest true = none ∧ s.chainRequest false = some b)) := by
  unfold State.deliverable
  cases s.mask2
  · cases s.chainRequest true
    · cases s.mask1 <;> simp
    · simp
  · simp

end Requests

/-- Settles O51: the nearest board of each chain is the first that requests. -/
theorem deliverableRequests : Obligations.DeliverableRequests := by
  intro s b
  dsimp only
  rw [State.deliverable_eq_some, State.chainRequest_eq_some, State.chainRequest_eq_some, State.chainRequest_eq_none]

end Sys2Proof.Machine
end

