-- ==== Sys2Proof/Proofs/Interrupts.lean ====
section
/-! SUPPORT. The choice of an interrupt at a boundary: which one is pending, what reading the timers does, and how the
boundary goes on with the choice (60_exceptions.md rules R520 to R528, R534). -/

namespace Sys2Proof.Machine

/-! ### Words of a control structure -/

/-- A read of a control structure that delivers a word also loads its quadword. -/
theorem State.structLoad_of_read {s : State} {base offset w : Word} (h : s.structRead base offset = .ok w) :
    s.structLoad base offset = .ok (w, s.loadLine .data (base + offset).toNat) := by
  obtain ⟨h4, hm, hr⟩ := State.structRead_ok h
  rw [State.structLoad, State.structAddr_of h4 hm]
  dsimp only
  rw [State.ucodeLoad, hr]

/-! ### The pending interrupt (rule R534) -/

section Pending

variable {u : State}

/-- Bit 0 of a word is its sign. -/
theorem mbit_zero_eq_neg (w : Word) : mbit w 0 = decide (w.toInt < 0) := by
  rw [mbit, ← BitVec.msb_eq_getMsbD_zero, BitVec.msb_eq_toInt]

theorem State.timer_due {offset w : Word} (h : u.structRead (u.sreg 11) offset = .ok w) (hw : w.toInt < 0) (e : Event)
    (later : State → Pending) :
    u.timer offset e later = .take e (u.loadLine .data (u.sreg 11 + offset).toNat) := by
  rw [State.timer, State.structLoad_of_read h]
  dsimp only
  rw [mbit_zero_eq_neg, if_pos (decide_eq_true hw)]

theorem State.timer_notDue {offset w : Word} (h : u.structRead (u.sreg 11) offset = .ok w) (hw : 0 ≤ w.toInt)
    (e : Event) (later : State → Pending) :
    u.timer offset e later = later (u.loadLine .data (u.sreg 11 + offset).toNat) := by
  rw [State.timer, State.structLoad_of_read h]
  dsimp only
  rw [mbit_zero_eq_neg, if_neg (by simpa using hw)]

theorem State.pending_parity {p : ParityError} {ps : List ParityError} (h : u.parityDue = p :: ps) :
    u.pending = .take p.event { u with parityDue := ps } := by
  rw [State.pending, h]

theorem State.pending_powerFail {n : Nat} (hpar : u.parityDue = []) (h : u.powerFailDue = n + 1) :
    u.pending = .take .powerFail { u with powerFailDue := n } := by
  rw [State.pending, hpar]
  dsimp only
  rw [if_pos (by omega), h, Nat.add_sub_cancel]

theorem State.pending_switch0 {n : Nat} (hpar : u.parityDue = []) (hpow : u.powerFailDue = 0)
    (h : u.switch0Due = n + 1) : u.pending = .take .switch0 { u with switch0Due := n } := by
  rw [State.pending, hpar]
  dsimp only
  rw [if_neg (not_not.2 hpow), if_pos (by omega), h, Nat.add_sub_cancel]

/-- None of the interrupts is due that both modes take. -/
def State.NoneDue (u : State) : Prop := u.parityDue = [] ∧ u.powerFailDue = 0 ∧ u.switch0Due = 0

theorem State.NoneDue.pending (h : u.NoneDue) :
    u.pending = if u.mode = .user ∨ u.paused = true then u.pendingLow else .none u := by
  obtain ⟨hpar, hpow, hsw⟩ := h
  rw [State.pending, hpar]
  dsimp only
  rw [if_neg (not_not.2 hpow), if_neg (not_not.2 hsw)]

theorem State.pendingLow_external {b : Board} (h : u.deliverable = some b) :
    u.pendingLow = .take (.external b.ioir) (u.ackIoi b) := by
  rw [State.pendingLow, h]

theorem State.pendingLow_noCcb (h : u.deliverable = none) (h11 : mbit (u.sreg 11) 31 = true) :
    u.pendingLow = .none u := by
  rw [State.pendingLow, h]
  exact if_pos h11

theorem State.pendingLow_timers (h : u.deliverable = none) (h11 : mbit (u.sreg 11) 31 = false) :
    u.pendingLow = u.timer 0x440 .timer1 fun s1 => s1.timer 0x444 .timer2 .none := by
  rw [State.pendingLow, h]
  exact if_neg (by rw [State.noCcb, h11]; exact Bool.false_ne_true)

end Pending

/-! ### The boundary with no event of the environment (rule R521) -/

section Boundary

variable {s u1 : State}

theorem State.boundary_noEvents (h : s.events = []) : s.boundary = s.nextBoundary.settle none := by
  rw [State.boundary, h]
  rfl

/-- The interrupt that is pending is taken with the address of the next instruction. -/
theorem step_take {e : Event} (he : s.events = []) (hs : s.nextBoundary.stuck = none)
    (hp : s.nextBoundary.pending = .take e u1) : step s = enter e s.nextBoundary.npc u1 := by
  rw [step, State.boundary_noEvents he, State.settle, hs, hp]
  rfl

/-- With no interrupt pending the pause goes on or an instruction runs. -/
theorem State.boundary_pending_none (he : s.events = []) (hs : s.nextBoundary.stuck = none)
    (hp : s.nextBoundary.pending = .none u1) :
    s.boundary = if u1.paused then .ends (.next u1) else .run u1 := by
  rw [State.boundary_noEvents he, State.settle, hs, hp, State.pending_none_paused hp]
  rfl

theorem step_paused (he : s.events = []) (hs : s.nextBoundary.stuck = none)
    (hp : s.nextBoundary.pending = .none u1) (hpaused : u1.paused = true) : step s = .next u1 := by
  rw [step, State.boundary_pending_none he hs hp, if_pos hpaused]

theorem State.boundary_runs (he : s.events = []) (hs : s.nextBoundary.stuck = none)
    (hp : s.nextBoundary.pending = .none u1) (hpaused : u1.paused = false) : s.boundary = .run u1 := by
  rw [State.boundary_pending_none he hs hp, if_neg (by rw [hpaused]; exact Bool.false_ne_true)]

end Boundary

/-- Settles O52: each clause says which interrupt is pending, and the boundary goes on with it. -/
theorem interruptChoice : Obligations.InterruptChoice := by
  intro s v he u hs npc low accepting
  have take : ∀ {e : Event} {t : State}, u.pending = .take e t → t.HasVector e v →
      step s = .next (t.enterAt e npc v) := fun hp hv => (step_take he hs hp).trans (enter_vector hv _)
  have lowPending : low → accepting → u.pending = u.pendingLow := fun hl ho =>
    (State.NoneDue.pending hl).trans (if_pos ho)
  refine ⟨fun a ps h => take (State.pending_parity h), fun a ps h => take (State.pending_parity h),
    fun n hpar h => take (State.pending_powerFail hpar h),
    fun n hpar hpow h => take (State.pending_switch0 hpar hpow h),
    fun b hl ho hd => take ((lowPending hl ho).trans (State.pendingLow_external hd)),
    fun w1 hl ho hd h1 => ⟨fun hneg hv => ?_, fun hpos h11 w2 h2 => ?_⟩, fun hl hk hp => ?_, fun hl hp hd h11 => ?_⟩
  · exact take (((lowPending hl ho).trans (State.pendingLow_timers hd hv.1)).trans (State.timer_due h1 hneg _ _)) hv
  · have hsecond := ((lowPending hl ho).trans (State.pendingLow_timers hd h11)).trans (State.timer_notDue h1 hpos _ _)
    refine ⟨fun hneg hv => ?_, fun hpos2 => ?_⟩
    · exact take (hsecond.trans (State.timer_due h2 hneg _ _)) hv
    · have hnone := hsecond.trans (State.timer_notDue h2 hpos2 _ _)
      exact ⟨step_paused he hs hnone, State.boundary_runs he hs hnone⟩
  · refine State.boundary_runs he hs ((State.NoneDue.pending hl).trans (if_neg ?_)) hp
    rintro (hu | hpaused)
    · exact absurd (hk.symm.trans hu) (by decide)
    · exact absurd (hp.symm.trans hpaused) (by decide)
  · exact step_paused he hs ((lowPending hl (.inr hp)).trans (State.pendingLow_noCcb hd h11)) hp

end Sys2Proof.Machine
end

