-- ==== Sys2Proof/Proofs/Tick.lean ====
section
/-! SUPPORT. The millisecond tick: a word of a control structure with a value added, and the words of the CCB and the
PCB that the tick counts, one after another (60_exceptions.md rule R530). -/

namespace Sys2Proof.Machine

/-! ### Microcode reads and writes of words that no DMA write has hidden -/

/-- The data lines are in their form and hold what main memory holds. -/
structure State.Clean (s : State) : Prop where
  coherent : s.Coherent
  linesOk : Lines.Ok s.dataLines

theorem State.Clean.loadLine {s : State} (h : s.Clean) (a : Nat) : (s.loadLine .data a).Clean :=
  ⟨h.coherent.fillData h.linesOk a, h.linesOk.fillData s a⟩

theorem State.Clean.storeBytes {s : State} (h : s.Clean) (a : Nat) (bs : List Byte) : (s.storeBytes a bs).Clean :=
  ⟨h.coherent.storeBytes a bs, State.storeBytes_dataOk h.linesOk a bs⟩

theorem State.Clean.readWord {s : State} (h : s.Clean) (a : Nat) : s.readWord .data a = s.mainWord a := by
  unfold State.readWord State.mainWord
  simp only [h.coherent _]

/-- The word at an offset of the control structure at `base` is an aligned word of installed memory, at `a`. -/
structure State.WordAt (s : State) (base offset : Word) (a : Nat) : Prop where
  aligned : base.toNat % 4 = 0
  place : base.toNat + offset.toNat = a
  offsetAligned : offset.toNat % 4 = 0
  installed : a + 4 ≤ s.cfg.memSize.toNat

namespace State.WordAt

variable {s t : State} {base offset : Word} {a : Nat}

theorem congr (h : s.WordAt base offset a) (hc : t.cfg = s.cfg) : t.WordAt base offset a :=
  ⟨h.aligned, h.place, h.offsetAligned, hc ▸ h.installed⟩

theorem structAddr (h : s.WordAt base offset a) :
    s.structAddr base offset = .ok (base + offset) ∧ (base + offset).toNat = a := by
  have haddr := State.structAddr_of (offset := offset) h.aligned (by rw [h.place]; exact h.installed)
  obtain ⟨_, _, _, hsum⟩ := State.structAddr_ok haddr
  exact ⟨haddr, hsum.trans h.place⟩

theorem word_aligned (h : s.WordAt base offset a) : (base + offset).toNat % 4 = 0 := by
  have := h.aligned
  have := h.offsetAligned
  rw [h.structAddr.2, ← h.place]
  omega

theorem inMem (h : s.WordAt base offset a) : s.inMem (base + offset) 4 = true := by
  rw [State.inMem_iff, h.structAddr.2]
  exact h.installed

end State.WordAt

/-! ### States reached by writes of words -/

/-- `t` is reached from `s` by reads and writes of words at addresses from `a` to `b`. -/
structure WritesIn (a b : Nat) (s t : State) : Prop where
  bytes : ∀ x, x < a ∨ b ≤ x → t.mainByte x = s.mainByte x
  frame : t = { s with mem := t.mem, dataLines := t.dataLines }
  clean : t.Clean

namespace WritesIn

variable {a b a' b' : Nat} {s t u : State}

theorem trans (h : WritesIn a b s t) (h2 : WritesIn a b t u) : WritesIn a b s u where
  bytes := fun x hx => (h2.bytes x hx).trans (h.bytes x hx)
  frame := by rw [h2.frame, h.frame]
  clean := h2.clean

theorem mono (h : WritesIn a b s t) (ha : a' ≤ a) (hb : b ≤ b') : WritesIn a' b' s t :=
  ⟨fun x hx => h.bytes x (by omega), h.frame, h.clean⟩

theorem mainWord (h : WritesIn a b s t) {x : Nat} (hx : x + 4 ≤ a ∨ b ≤ x) : t.mainWord x = s.mainWord x := by
  unfold State.mainWord
  rw [h.bytes x (by omega), h.bytes (x + 1) (by omega), h.bytes (x + 2) (by omega), h.bytes (x + 3) (by omega)]

theorem cfg (h : WritesIn a b s t) : t.cfg = s.cfg := by rw [h.frame]

theorem sreg (h : WritesIn a b s t) (n : RegNo) : t.sreg n = s.sreg n := by
  rw [h.frame]
  rfl

end WritesIn

/-! ### The parts of the tick (rule R530) -/

section Parts

variable {s : State} {base offset : Word} {a : Nat}

/-- A read of a word delivers it and writes nothing. -/
theorem State.WordAt.structLoad (h : s.WordAt base offset a) (hs : s.Clean) :
    ∃ t, s.structLoad base offset = .ok (s.mainWord a, t) ∧ WritesIn a a s t := by
  refine ⟨s.loadLine .data a, ?_, fun _ _ => rfl, rfl, hs.loadLine a⟩
  rw [State.structLoad, h.structAddr.1]
  dsimp only
  rw [State.ucodeLoad, State.ucodeRead_of h.word_aligned h.inMem, h.structAddr.2, hs.readWord]

theorem State.WordAt.structWrite (h : s.WordAt base offset a) (hs : s.Clean) (v : Word) :
    ∃ t, s.structWrite base offset v = .ok t ∧ t.mainWord a = v ∧ WritesIn a (a + 4) s t := by
  refine ⟨s.storeBytes a (bytesOfWord v), ?_, State.mainWord_storeBytes_same _ _ _, fun _ hx => ?_, ?_,
    hs.storeBytes a _⟩
  · rw [State.structWrite, h.structAddr.1]
    dsimp only
    rw [State.ucodeWrite_of h.word_aligned h.inMem, h.structAddr.2]
  · exact State.mainByte_storeBytes_other _ _ _ (by rwa [bytesOfWord_length])
  · have hf := SameButMemory.storeBytes s a (bytesOfWord v)
    rwa [SameButMemory, State.storeBytes_tmt] at hf

/-- A word of a control structure with a value added. -/
theorem State.WordAt.structAdd (h : s.WordAt base offset a) (hs : s.Clean) (v : Word) :
    ∃ t, s.structAdd base offset v = .ok t ∧ t.mainWord a = s.mainWord a + v ∧ WritesIn a (a + 4) s t := by
  obtain ⟨s1, hload, hw1⟩ := h.structLoad hs
  obtain ⟨t, hwrite, hword, hw2⟩ := (h.congr hw1.cfg).structWrite hw1.clean (s.mainWord a + v)
  refine ⟨t, ?_, hword, (hw1.mono (Nat.le_refl a) (by omega)).trans hw2⟩
  rw [State.structAdd, hload]
  exact hwrite

/-- A double word of two words of memory. -/
def State.mainDouble (s : State) (a : Nat) : Nat := (s.mainWord a).toNat * 2 ^ 32 + (s.mainWord (a + 4)).toNat

/-- A double word is the number of its two words. -/
theorem halves_toNat (d : DWord) : (d.extractLsb' 32 32).toNat * 2 ^ 32 + (d.extractLsb' 0 32).toNat = d.toNat := by
  have h := toNat_append_word (d.extractLsb' 32 32) (d.extractLsb' 0 32)
  rw [append_halves] at h
  omega

/-- The time of day is a double word with a million added, with wrap. -/
theorem append_add_million_toNat (h l : Word) :
    ((h ++ l : DWord) + 1000000).toNat = (h.toNat * 2 ^ 32 + l.toNat + 1000000) % 2 ^ 64 := by
  rw [BitVec.toNat_add, toNat_append_word, Nat.mul_comm]
  rfl

/-- A CCB with its data area in installed memory (60_exceptions.md rule R504). -/
structure State.HasCcb (s : State) : Prop where
  present : mbit (s.sreg 11) 31 = false
  aligned : (s.sreg 11).toNat % 4 = 0
  installed : (s.sreg 11).toNat + 0x450 ≤ s.cfg.memSize.toNat

theorem State.HasCcb.wordAt (h : s.HasCcb) {o : Word} (h4 : o.toNat % 4 = 0) (ho : o.toNat + 4 ≤ 0x450) :
    s.WordAt (s.sreg 11) o ((s.sreg 11).toNat + o.toNat) :=
  ⟨h.aligned, rfl, h4, by have := h.installed; omega⟩

theorem WritesIn.hasCcb {b : Nat} {t : State} (h : WritesIn a b s t) (hc : s.HasCcb) : t.HasCcb := by
  obtain ⟨h1, h2, h3⟩ := hc
  exact ⟨by rwa [h.sreg], by rwa [h.sreg], by rwa [h.sreg, h.cfg]⟩

/-- The time of day is read and written as a double word. -/
theorem State.HasCcb.tickTimeOfDay (h : s.HasCcb) (hs : s.Clean) :
    ∃ t, s.tickTimeOfDay = .ok t ∧
      t.mainDouble ((s.sreg 11).toNat + 0x448) = (s.mainDouble ((s.sreg 11).toNat + 0x448) + 1000000) % 2 ^ 64 ∧
      WritesIn ((s.sreg 11).toNat + 0x448) ((s.sreg 11).toNat + 0x450) s t := by
  have hhigh : s.WordAt (s.sreg 11) 0x448 ((s.sreg 11).toNat + 0x448) := h.wordAt (by decide) (by decide)
  have hlow : s.WordAt (s.sreg 11) 0x44C ((s.sreg 11).toNat + 0x44C) := h.wordAt (by decide) (by decide)
  generalize (s.sreg 11).toNat = c at hhigh hlow ⊢
  obtain ⟨s1, hload1, hw1⟩ := hhigh.structLoad hs
  obtain ⟨s2, hload2, hw2⟩ := (hlow.congr hw1.cfg).structLoad hw1.clean
  rw [hw1.mainWord (.inr (by omega))] at hload2
  have hw12 : WritesIn (c + 0x448) (c + 0x450) s s2 :=
    (hw1.mono (by omega) (by omega)).trans (hw2.mono (by omega) (by omega))
  generalize hsum : (s.mainWord (c + 0x448) ++ s.mainWord (c + 0x44C) : DWord) + 1000000 = sum
  obtain ⟨s3, hwrite3, hword3, hw3⟩ := (hhigh.congr hw12.cfg).structWrite hw12.clean (sum.extractLsb' 32 32)
  have hw13 := hw12.trans (hw3.mono (Nat.le_refl _) (by omega))
  obtain ⟨s4, hwrite4, hword4, hw4⟩ := (hlow.congr hw13.cfg).structWrite hw13.clean (sum.extractLsb' 0 32)
  refine ⟨s4, ?_, ?_, hw13.trans (hw4.mono (by omega) (by omega))⟩
  · rw [State.tickTimeOfDay, hload1]
    dsimp only
    rw [hload2]
    dsimp only
    rw [hsum, hwrite3]
    exact hwrite4
  · rw [State.mainDouble, State.mainDouble, Nat.add_assoc, hw4.mainWord (.inl (by omega)), hword3, hword4,
      halves_toNat, ← hsum]
    exact append_add_million_toNat _ _

/-- What the tick adds to a timer takes one from it. -/
theorem add_allOnes (w : Word) : w + 0xFFFFFFFF = w - 1 := by bv_omega

/-- Both timers count down and the time of day goes on. -/
theorem State.HasCcb.tickTimers (h : s.HasCcb) (hs : s.Clean) :
    ∃ t, s.tickTimers = .ok t ∧
      t.mainWord ((s.sreg 11).toNat + 0x440) = s.mainWord ((s.sreg 11).toNat + 0x440) - 1 ∧
      t.mainWord ((s.sreg 11).toNat + 0x444) = s.mainWord ((s.sreg 11).toNat + 0x444) - 1 ∧
      t.mainDouble ((s.sreg 11).toNat + 0x448) = (s.mainDouble ((s.sreg 11).toNat + 0x448) + 1000000) % 2 ^ 64 ∧
      WritesIn ((s.sreg 11).toNat + 0x440) ((s.sreg 11).toNat + 0x450) s t := by
  have hfirst : s.WordAt (s.sreg 11) 0x440 ((s.sreg 11).toNat + 0x440) := h.wordAt (by decide) (by decide)
  have hsecond : s.WordAt (s.sreg 11) 0x444 ((s.sreg 11).toNat + 0x444) := h.wordAt (by decide) (by decide)
  obtain ⟨s1, hadd1, hword1, hw1⟩ := hfirst.structAdd hs 0xFFFFFFFF
  obtain ⟨s2, hadd2, hword2, hw2⟩ := (hsecond.congr hw1.cfg).structAdd hw1.clean 0xFFFFFFFF
  obtain ⟨t, htod, hword, hw3⟩ := (hw2.hasCcb (hw1.hasCcb h)).tickTimeOfDay hw2.clean
  rw [hw2.sreg, hw1.sreg] at hword hw3
  generalize (s.sreg 11).toNat = c at *
  refine ⟨t, ?_, ?_, ?_, ?_, ?_⟩
  · rw [State.tickTimers, if_neg (by rw [State.noCcb, h.present]; exact Bool.false_ne_true), hadd1]
    dsimp only
    rw [hadd2]
    exact htod
  · rw [hw3.mainWord (.inl (by omega)), hw2.mainWord (.inl (by omega)), hword1, add_allOnes]
  · rw [hw3.mainWord (.inl (by omega)), hword2, hw1.mainWord (.inr (by omega)), add_allOnes]
  · rw [hword, State.mainDouble, State.mainDouble, hw2.mainWord (.inr (by omega)), hw1.mainWord (.inr (by omega)),
      hw2.mainWord (.inr (by omega)), hw1.mainWord (.inr (by omega))]
  · exact ((hw1.mono (Nat.le_refl _) (by omega)).trans (hw2.mono (by omega) (by omega))).trans
      (hw3.mono (by omega) (Nat.le_refl _))

end Parts

/-! ### The tick -/

section Tick

variable {s : State}

theorem State.tick_of_process {s1 : State} (h : s.tickProcess = .ok s1) : s.tick = s1.tickTimers := by
  rw [State.tick, h]

theorem State.tickTimers_noCcb (h11 : mbit (s.sreg 11) 31 = true) : s.tickTimers = .ok s := if_pos h11

/-- With a process its clock counts (90_conflicts.md C5). -/
theorem State.tickProcess_clock (hs : s.Clean) (h14 : s.sreg 14 ≠ 1) (h4 : (s.sreg 14).toNat % 4 = 0)
    (hm : (s.sreg 14).toNat + 0x54 ≤ s.cfg.memSize.toNat) :
    ∃ t, s.tickProcess = .ok t ∧
      t.mainWord ((s.sreg 14).toNat + 0x50) = s.mainWord ((s.sreg 14).toNat + 0x50) + 1 ∧
      WritesIn ((s.sreg 14).toNat + 0x50) ((s.sreg 14).toNat + 0x54) s t := by
  have hclock : s.WordAt (s.sreg 14) 0x50 ((s.sreg 14).toNat + 0x50) := ⟨h4, rfl, by decide, hm⟩
  obtain ⟨t, hadd, hword, hw⟩ := hclock.structAdd hs 1
  exact ⟨t, (if_pos h14).trans hadd, hword, hw⟩

/-- With no process the idle count of the CCB counts. -/
theorem State.HasCcb.tickProcess_idle (h : s.HasCcb) (hs : s.Clean) (h14 : s.sreg 14 = 1) :
    ∃ t, s.tickProcess = .ok t ∧
      t.mainWord ((s.sreg 11).toNat + 0x43C) = s.mainWord ((s.sreg 11).toNat + 0x43C) + 1 ∧
      WritesIn ((s.sreg 11).toNat + 0x43C) ((s.sreg 11).toNat + 0x440) s t := by
  have hidle : s.WordAt (s.sreg 11) 0x43C ((s.sreg 11).toNat + 0x43C) := h.wordAt (by decide) (by decide)
  obtain ⟨t, hadd, hword, hw⟩ := hidle.structAdd hs 1
  refine ⟨t, ?_, hword, hw⟩
  rw [State.tickProcess, if_neg (not_not.2 h14), if_neg (by rw [State.noCcb, h.present]; exact Bool.false_ne_true)]
  exact hadd

/-- The timers and the time of day after a count outside their words. -/
theorem State.HasCcb.tick_after {s1 : State} {a b : Nat} (h : s.HasCcb) (hp : s.tickProcess = .ok s1)
    (hw : WritesIn a b s s1) (hout : b ≤ (s.sreg 11).toNat + 0x440 ∨ (s.sreg 11).toNat + 0x450 ≤ a) :
    ∃ t, s.tick = .ok t ∧ WritesIn ((s.sreg 11).toNat + 0x440) ((s.sreg 11).toNat + 0x450) s1 t ∧
      t.mainWord ((s.sreg 11).toNat + 0x440) = s.mainWord ((s.sreg 11).toNat + 0x440) - 1 ∧
      t.mainWord ((s.sreg 11).toNat + 0x444) = s.mainWord ((s.sreg 11).toNat + 0x444) - 1 ∧
      t.mainDouble ((s.sreg 11).toNat + 0x448) = (s.mainDouble ((s.sreg 11).toNat + 0x448) + 1000000) % 2 ^ 64 := by
  obtain ⟨t, ht, h1, h2, h3, hw2⟩ := (hw.hasCcb h).tickTimers hw.clean
  rw [hw.sreg] at h1 h2 h3 hw2
  simp only [State.mainDouble] at h3 ⊢
  rw [hw.mainWord (by omega)] at h1 h2
  rw [hw.mainWord (by omega), hw.mainWord (by omega)] at h3
  exact ⟨t, (State.tick_of_process hp).trans ht, hw2, h1, h2, h3⟩

end Tick

/-- Settles O53: the counted word of the process, or of the CCB, and then the words of the timers and the time of day,
are counted one after another. -/
theorem millisecondTick : Obligations.MillisecondTick := by
  intro s hcoh hlines b c tod timers
  have hs : s.Clean := ⟨hcoh, hlines⟩
  refine ⟨fun h14 h4 hm => ?_, fun h14 h11 hc4 hcm => ?_, fun h14 h11 => ?_⟩
  · obtain ⟨s1, hp, hclock, hw1⟩ := State.tickProcess_clock hs h14 h4 hm
    refine ⟨fun h11 hc4 hcm hout => ?_, fun h11 => ?_⟩
    · obtain ⟨t, ht, hw2, h1, h2, h3⟩ := State.HasCcb.tick_after ⟨h11, hc4, hcm⟩ hp hw1 hout
      refine ⟨t, ht, ?_, ⟨h1, h2, h3⟩, fun a ha ha2 => (hw2.bytes a ha2).trans (hw1.bytes a ha), ?_⟩
      · rw [hw2.mainWord (by omega), hclock]
      · rw [hw2.frame, hw1.frame]
    · refine ⟨s1, ?_, hclock, hw1.bytes, hw1.frame⟩
      exact (State.tick_of_process hp).trans (State.tickTimers_noCcb (by rwa [hw1.sreg]))
  · have hccb : s.HasCcb := ⟨h11, hc4, hcm⟩
    obtain ⟨s1, hp, hidle, hw1⟩ := hccb.tickProcess_idle hs h14
    obtain ⟨t, ht, hw2, h1, h2, h3⟩ := hccb.tick_after hp hw1 (.inl (Nat.le_refl _))
    refine ⟨t, ht, ?_, ⟨h1, h2, h3⟩, fun a ha => (hw2.bytes a (by omega)).trans (hw1.bytes a (by omega)), ?_⟩
    · rw [hw2.mainWord (by omega), hidle]
    · rw [hw2.frame, hw1.frame]
  · have hp : s.tickProcess = .ok s := (if_neg (not_not.2 h14)).trans (if_pos h11)
    exact (State.tick_of_process hp).trans (State.tickTimers_noCcb h11)

end Sys2Proof.Machine
end

