-- ==== Sys2Proof/Proofs/ResetButton.lean ====
section
/-! SUPPORT. The reset button: the boot page in memory, and that no free line of the cache hides it (60_exceptions.md
rule R529; 70_reset_and_hazards.md rule R580). -/

namespace Sys2Proof.Machine

/-! ### The boot page in main memory -/

/-- A byte of a list stands at its place in memory. -/
theorem sparseGet_bytesFrom (a : Nat) (bs : List Byte) (k : Nat) : sparseGet (bytesFrom a bs) (a + k) = bs[k]? := by
  induction bs generalizing a k with
  | nil => rfl
  | cons b bs ih =>
    cases k with
    | zero => simp [bytesFrom, sparseGet]
    | succ k =>
      rw [bytesFrom, sparseGet, if_neg (by omega), if_neg (by omega), List.getElem?_cons_succ, ← ih (a + 1) k]
      congr 1
      omega

section Page

variable {s : State} {page : List Byte} {k : Nat}

theorem State.mainByte_pressReset_eq (s : State) (page : List Byte) (a : Nat) : (s.pressReset page).mainByte a =
    (sparseGet (s.bootMemory page) a).getD (Config.unwrittenByte (s.memEpoch + 1) a) := by
  simp only [State.mainByte, State.pressReset]

/-- With the whole page installed, every byte of it is in memory. -/
theorem State.mainByte_pressReset (hp : page.length = 4096) (hm : 0x3F000 ≤ s.cfg.memSize.toNat) (hk : k < 4096) :
    (s.pressReset page).mainByte (0x3E000 + k) = page.getD k 0 := by
  have hlen : min 4096 (s.cfg.memSize.toNat - 0x3E000) = page.length := by omega
  have hboot : s.bootMemory page = bytesFrom 0x3E000 page := by
    rw [State.bootMemory, hlen, List.take_length]
  rw [s.mainByte_pressReset_eq page, hboot, sparseGet_bytesFrom, List.getElem?_eq_getElem (by omega),
    Option.getD_some, List.getD_eq_getElem _ _ (by omega)]

/-! ### The free lines of the cache (log 38) -/

/-- A line of a quadword with another tag hides no address of a tag that no line has. -/
theorem findLine_loadQuad_tag {c : Lines} {a x : Nat} (h : findLine c x = none) (ht : lineTag x ≠ lineTag a)
    (q : Vector Byte 16) (n : Nat) : findLine (loadQuad c a q n) x = none := by
  have hq : ¬x / 16 = a / 16 := fun e => ht (quad_eq_iff.2 e).2
  rw [findLine_loadQuad, if_neg hq]
  split
  · exact h
  · split
    · rename_i hi
      have hnone : ∀ l ∈ linesAt c (lineIndex a), ¬(l.tag == lineTag x) = true := by
        rw [← hi]
        exact List.find?_eq_none.1 h
      refine List.find?_eq_none.2 fun l hl => hnone l ?_
      rcases keepLine_cases (linesAt c (lineIndex a)) n with e | ⟨m, hm, e⟩ <;> rw [e] at hl
      · cases hl
      · rwa [List.mem_singleton.1 hl]
    · exact h

/-- No free line holds a word of the boot page. -/
theorem findLine_freeLines (n : Nat) (code : Bool) {x : Nat} (hx : lineTag x = lineTag 0x3E000) :
    findLine (freeLines n code) x = none := by
  unfold freeLines
  generalize hl : (Config.resetLines n code).filter (fun p => lineTag p.1 != lineTag 0x3E000) = l
  have htag : ∀ p ∈ l, lineTag x ≠ lineTag p.1 := fun p hp => by
    rw [← hl] at hp
    have hne : lineTag p.1 ≠ lineTag 0x3E000 := bne_iff_ne.1 (List.mem_filter.1 hp).2
    rw [hx]
    exact hne.symm
  clear hl
  suffices h : ∀ c, findLine c x = none → findLine (l.foldl (fun c p => loadQuad c p.1
      (quadOfWords p.2.1 p.2.2.1 p.2.2.2.1 p.2.2.2.2) 0) c) x = none from h [] (findLine_nil x)
  induction l with
  | nil => exact fun _ hc => hc
  | cons p l ih =>
    rw [List.forall_mem_cons] at htag
    exact fun c hc => ih htag.2 _ (findLine_loadQuad_tag hc htag.1 _ _)

/-- Where the tag of the boot page is read, both halves of the cache miss and the prefetch buffers are empty. -/
theorem State.readByte_pressReset (s : State) (page : List Byte) {x : Nat} (hx : lineTag x = lineTag 0x3E000) :
    (s.pressReset page).readByte .data x = (s.pressReset page).mainByte x ∧
    (s.pressReset page).readByte .fetch x = (s.pressReset page).mainByte x := by
  have hmiss : ∀ code, (s.pressReset page).throughLines (freeLines s.draws code) x = (s.pressReset page).mainByte x :=
    fun code => by rw [State.throughLines, findLine_freeLines s.draws code hx]
  exact ⟨hmiss false, hmiss true⟩

end Page

/-! ### The step -/

/-- The special registers whose value after reset is stated (10_state.md rule R70). -/
theorem State.sreg_pressReset (s : State) (page : List Byte) : (s.pressReset page).sreg 2 = s.cfg.memSize ∧
    (s.pressReset page).sreg 11 = 1 ∧ (s.pressReset page).sreg 14 = 1 := by
  have hsr : ∀ n, (s.pressReset page).sreg n = s.resetSregs[n.toNat] := fun _ => rfl
  simp [hsr, State.resetSregs]

/-- A boundary whose one event is the reset button ends with its state, stuck or not. -/
theorem step_resetButton {s : State} {page : List Byte} (h : s.events = [.resetButton page]) :
    step s = .next (s.nextBoundary.pressReset page) := by
  rw [step, State.boundary, h]
  rfl

/-- Settles O54: the button leaves the registers that are stated, and the boot page where nothing hides it. -/
theorem resetButton : Obligations.ResetButton := by
  intro s page he hp hm
  obtain ⟨h2, h11, h14⟩ := s.nextBoundary.sreg_pressReset page
  refine ⟨s.nextBoundary.pressReset page, step_resetButton he, rfl, rfl, rfl, rfl, h2, h11, h14, rfl, fun k hk => ?_⟩
  have hbyte : (s.nextBoundary.pressReset page).mainByte (0x3E000 + k) = page.getD k 0 :=
    State.mainByte_pressReset hp hm hk
  have htag : lineTag (0x3E000 + k) = lineTag 0x3E000 := by
    unfold lineTag
    omega
  obtain ⟨hdata, hfetch⟩ := s.nextBoundary.readByte_pressReset page htag
  exact ⟨hbyte, hdata.trans hbyte, hfetch.trans hbyte⟩

end Sys2Proof.Machine
end
